-- ==== Sys2Proof/Word.lean ====
section
/-! DEFINITION. The word types of the ZL-1640 model: 32-bit register words, bytes, 64-bit values (spec/00, R5). -/
namespace Sys2Proof

/-- A register, a status word, an instruction word: 32 bits. -/
abbrev Word := BitVec 32

/-- One byte of memory. -/
abbrev Byte := BitVec 8

/-- A 64-bit value, held in a register pair or in a counter. -/
abbrev DWord := BitVec 64

/-- A 128-bit value, held in a register quad: a capability or a digest. -/
abbrev QWord := BitVec 128

end Sys2Proof
end

