-- ==== Sys2Proof/Syntax.lean ====
section
/-! DEFINITION. The syntax of the ZL-1640: operand kinds, one structure per instruction format, the inputs that come
from outside the module, and `Instr` with one constructor per row of the table of operations and events. -/
namespace Sys2Proof

/-- A register field (spec/02, R29 to R31): a vector register, a scalar register, `zero` (96) or `lane` (97).
A pair is named by its even register, or by `zero` (spec/03, R53). -/
inductive Reg where
  | v (n : Fin 64)
  | s (n : Fin 32)
  | zero
  | lane
  deriving DecidableEq, Repr

/-- A quad field by its first register divided by 4 (spec/03, R54). -/
inductive Quad where
  | v (n : Fin 16)
  | s (n : Fin 8)
  deriving DecidableEq, Repr

/-- Rounding modes of STATUS.RND (spec/02, Table 2.1). -/
inductive Rnd where
  | rne | rtz | rdn | rup | rna
  deriving DecidableEq, Repr

/-- Floating formats FMT and FF (spec/03, Table 3.9). -/
inductive Fmt where
  | f32 | f64 | f16 | bf16
  deriving DecidableEq, Repr

/-- Integer formats II (spec/03, R63). -/
inductive IntFmt where
  | s32 | n32 | s64 | n64
  deriving DecidableEq, Repr

/-- Narrow formats NNN (spec/03, R63). -/
inductive Narrow where
  | e4m3 | e5m2 | e3m2 | e2m3 | e2m1 | s8
  deriving DecidableEq, Repr

/-- Access sizes SZ: 1, 2, 4 and 8 bytes (spec/03, R64). -/
inductive Size where
  | b1 | b2 | b4 | b8
  deriving DecidableEq, Repr

/-- Ordering scopes (spec/03, Table 3.12; spec/12, R258). -/
inductive Scope where
  | core | sheaf | die | module | system
  deriving DecidableEq, Repr

/-- ORD of an ATOM: plain, .ACQ or .REL (spec/03, R66). -/
inductive AtomOrd where
  | plain | acq | rel
  deriving DecidableEq, Repr

/-- A named barrier: b0 to b15 of the block, or sb0 to sb7 of the sheaf (spec/03, Table 3.12). -/
inductive Bar where
  | blk (n : Fin 16)
  | shf (n : Fin 8)
  deriving DecidableEq, Repr

/-- R format with two register sources and a destination (spec/03, Table 3.1). -/
structure Rrr where
  x : Bool
  fb : Bool
  fa : Bool
  b : Reg
  a : Reg
  d : Reg
  deriving DecidableEq, Repr

/-- R format with one register source; B holds a function. -/
structure Rr where
  x : Bool
  fa : Bool
  a : Reg
  d : Reg
  deriving DecidableEq, Repr

/-- I format of the immediate shifts (spec/03, Table 3.5, 0x10). -/
structure ShiftImm where
  wide : Bool
  n : Fin 64
  fa : Bool
  a : Reg
  d : Reg
  deriving DecidableEq, Repr

/-- R format of the register compares: D is COND and PD. -/
structure CmpReg where
  x : Bool
  fb : Bool
  fa : Bool
  b : Reg
  a : Reg
  cond : Fin 16
  p : Fin 8
  deriving DecidableEq, Repr

/-- I format of CMPI. -/
structure CmpImm where
  i : BitVec 9
  fa : Bool
  a : Reg
  cond : Fin 16
  p : Fin 8
  deriving DecidableEq, Repr

/-- SEL: bits 31:29 are the predicate. -/
structure Select where
  p : Fin 8
  b : Reg
  a : Reg
  d : Reg
  deriving DecidableEq, Repr

/-- PLOP: truth table and three predicates. -/
structure PredOp where
  tt : Fin 16
  pb : Fin 8
  pa : Fin 8
  pd : Fin 8
  deriving DecidableEq, Repr

/-- I format with a 9-bit immediate, one source and a destination. -/
structure RegImm where
  i : BitVec 9
  fa : Bool
  a : Reg
  d : Reg
  deriving DecidableEq, Repr

/-- J format: offset in half-words and the predicate taken. -/
structure Jump where
  off : BitVec 20
  neg : Bool
  p : Fin 8
  deriving DecidableEq, Repr

/-- The 16-bit compact format: B, and D that is also the first source (spec/03, R56). -/
structure Compact where
  b : Fin 32
  d : Fin 32
  deriving DecidableEq, Repr

/-- Major 0x31: one format and one source (spec/03, Table 3.9). -/
structure FUnary where
  fmt : Fmt
  fa : Bool
  a : Reg
  d : Reg
  deriving DecidableEq, Repr

/-- CVTI and CVTF (spec/03, Table 3.10). -/
structure CvtInt where
  ff : Fmt
  ii : IntFmt
  t : Bool
  fa : Bool
  a : Reg
  d : Reg
  deriving DecidableEq, Repr

/-- CVTW (spec/03, Table 3.10). -/
structure CvtWide where
  src : Fmt
  dst : Fmt
  fa : Bool
  a : Reg
  d : Reg
  deriving DecidableEq, Repr

/-- CVTN and CVTX; `sat` is X of CVTN and is 0 in CVTX (spec/03, Table 3.10). -/
structure CvtNarrow where
  sat : Bool
  ff : Fmt
  nn : Narrow
  fa : Bool
  a : Reg
  d : Reg
  deriving DecidableEq, Repr

/-- PKP and UPKP: `w` is the width less 2 (spec/03, Table 3.8). -/
structure Plane where
  w : Fin 7
  fa : Bool
  a : Reg
  d : Reg
  deriving DecidableEq, Repr

/-- M format: offset, capability quad, size, data register (spec/03, R64). -/
structure MemImm where
  i : BitVec 9
  fa : Bool
  a : Quad
  sz : Size
  d : Reg
  deriving DecidableEq, Repr

/-- MX format: scale, index register, capability quad, size, data register. -/
structure MemIdx where
  x : Bool
  fb : Bool
  fa : Bool
  b : Reg
  a : Quad
  sz : Size
  d : Reg
  deriving DecidableEq, Repr

/-- LDC and STC. -/
structure MemCap where
  i : BitVec 9
  fa : Bool
  a : Quad
  d : Quad
  deriving DecidableEq, Repr

/-- PREF and L1INV. -/
structure MemLine where
  i : BitVec 9
  fa : Bool
  a : Quad
  deriving DecidableEq, Repr

/-- CDER. -/
structure CapQuad where
  fb : Bool
  fa : Bool
  b : Quad
  a : Quad
  d : Quad
  deriving DecidableEq, Repr

/-- CPERM. -/
structure CapReg where
  fb : Bool
  fa : Bool
  b : Reg
  a : Quad
  d : Quad
  deriving DecidableEq, Repr

/-- SCAN and REDG: operation and type codes (spec/09, Table 9.3). -/
structure Scan where
  fa : Bool
  op : Fin 16
  ty : Fin 8
  a : Reg
  d : Reg
  deriving DecidableEq, Repr

/-- SPAWN (spec/09, R201). -/
structure Spawn where
  fb : Bool
  fa : Bool
  b : Quad
  a : Reg
  d : Reg
  deriving DecidableEq, Repr

/-- FORK: `d` is the counter quad, `a` the pair of ENTRY and LANES (spec/09, R203). -/
structure Fork where
  fb : Bool
  fa : Bool
  b : Quad
  a : Reg
  d : Quad
  deriving DecidableEq, Repr

/-- ATOM and RED (spec/03, R66). -/
structure Atomic where
  x : Bool
  fb : Bool
  fa : Bool
  b : Reg
  a : Quad
  d : Reg
  deriving DecidableEq, Repr

/-- MMA and MMAX (spec/11, Table 11.3). -/
structure MatStep where
  q : Fin 4
  ta : Fin 16
  tb : Fin 16
  z : Bool
  t : Bool
  deriving DecidableEq, Repr

/-- COPY and COPYG: counter quad `b`, descriptor base 16 times `a`, coordinate quad `d` (spec/13, R275). -/
structure CopyOp where
  fb : Bool
  fa : Bool
  b : Quad
  a : Fin 6
  d : Quad
  deriving DecidableEq, Repr

/-- CADD and CWAIT: counter quad `a`, pair `b` (spec/13, Table 13.4). `x` is .REL or .ACQ. -/
structure CtrPair where
  x : Bool
  fb : Bool
  fa : Bool
  b : Reg
  a : Quad
  deriving DecidableEq, Repr

/-- CTEST and TRI: a quad `a`, a register field `b`, a destination predicate. -/
structure CtrTest where
  fb : Bool
  fa : Bool
  b : Reg
  a : Quad
  p : Fin 8
  deriving DecidableEq, Repr

/-- CBIND: queue quad `d`, counter quad `a`, target pair `b`. -/
structure CtrBind where
  fb : Bool
  fa : Bool
  b : Reg
  a : Quad
  d : Quad
  deriving DecidableEq, Repr

/-- QPUSH: queue quad `a`, record block at register 16 times `b`. -/
structure QueuePush where
  fb : Bool
  fa : Bool
  b : Fin 6
  a : Quad
  deriving DecidableEq, Repr

/-- R format with a quad `a`, a register `b` and a register `d`: QRES, KVREL and LOFT. -/
structure QuadReg where
  fb : Bool
  fa : Bool
  b : Reg
  a : Quad
  d : Reg
  deriving DecidableEq, Repr

/-- HLD and HLD.F (spec/15, Table 15.6): predicate, coordinate quad `c`, surface quad `a`. -/
structure HistLoad where
  p : Fin 8
  fb : Bool
  fa : Bool
  c : Quad
  a : Quad
  d : Reg
  deriving DecidableEq, Repr

/-- HLDP. -/
structure HistPos where
  p : Fin 8
  fb : Bool
  c : Quad
  d : Reg
  deriving DecidableEq, Repr

/-- TEX. -/
structure Texture where
  p : Fin 8
  fb : Bool
  fa : Bool
  c : Quad
  a : Quad
  d : Quad
  deriving DecidableEq, Repr

/-- R format with quads in B, A and D: CUTSEL, HALO and LMERGE. -/
structure ThreeQuads where
  fb : Bool
  fa : Bool
  b : Quad
  a : Quad
  d : Quad
  deriving DecidableEq, Repr

/-- R format with quads in B and A and a register in D: TRACE, KVLOOK, KVAPP and KVREL.KILL. -/
structure TwoQuads where
  fb : Bool
  fa : Bool
  b : Quad
  a : Quad
  d : Reg
  deriving DecidableEq, Repr

/-- KVHASH. -/
structure KvHash where
  fb : Bool
  fa : Bool
  b : Reg
  a : Quad
  d : Quad
  deriving DecidableEq, Repr

/-- One operation or event of the part, one constructor per row of the table of operations and events. Operations that
stand in memory carry the fields of their word; events carry the unit they concern; an event that
arrives from outside is the first input of the module's inbox. Constructors without fields stand last. -/
inductive Instr where
  /-- ADD (spec rule R81): Adds A and B modulo 2^w per active fibre, 32-bit or 64-bit by X. -/
  | add (o : Rrr)
  /-- SUB (spec rule R81): Subtracts B from A modulo 2^w per active fibre. -/
  | sub (o : Rrr)
  /-- MUL (spec rule R81): Multiplies A by B modulo 2^w. -/
  | mul (o : Rrr)
  /-- MULHI (spec rule R81): Writes the high 32 bits of the signed or natural product of A and B. -/
  | mulhi (o : Rrr)
  /-- MAD (spec rule R81): Writes A times B plus the old D modulo 2^w. -/
  | mad (o : Rrr)
  /-- DIV (spec rule R82): Long-latency 32-bit division, with an all-ones quotient and DZ on a zero divisor. -/
  | div (o : Rrr)
  /-- REM (spec rule R82): Long-latency 32-bit remainder that takes the sign of the dividend. -/
  | rem (o : Rrr)
  /-- MIN (spec rule R81): Writes the smaller of A and B, compared as signed or natural. -/
  | min (o : Rrr)
  /-- MAX (spec rule R81): Writes the larger of A and B, compared as signed or natural. -/
  | max (o : Rrr)
  /-- AND (spec rule R81): Bitwise AND of A and B. -/
  | and (o : Rrr)
  /-- OR (spec rule R81): Bitwise OR of A and B. -/
  | or (o : Rrr)
  /-- XOR (spec rule R81): Bitwise XOR of A and B. -/
  | xor (o : Rrr)
  /-- ANDN (spec rule R81): Writes A AND NOT B. -/
  | andn (o : Rrr)
  /-- SHL (spec rule R81): Shifts A left by the unreduced count in B. -/
  | shl (o : Rrr)
  /-- SHR (spec rule R81): Shifts A right logically by the count in B. -/
  | shr (o : Rrr)
  /-- SAR (spec rule R81): Shifts A right arithmetically by the count in B. -/
  | sar (o : Rrr)
  /-- SHLI (spec rule R84): Shifts A left by an immediate count. -/
  | shli (o : ShiftImm)
  /-- SHRI (spec rule R84): Shifts A right logically by an immediate count. -/
  | shri (o : ShiftImm)
  /-- SARI (spec rule R84): Shifts A right arithmetically by an immediate count. -/
  | sari (o : ShiftImm)
  /-- MOV (spec rule R85): Copies A to D. -/
  | mov (o : Rr)
  /-- ABS (spec rule R85): Writes the absolute value of A. -/
  | abs (o : Rr)
  /-- CLZ (spec rule R85): Counts the leading zero bits of A. -/
  | clz (o : Rr)
  /-- POPC (spec rule R85): Counts the 1 bits of A. -/
  | popc (o : Rr)
  /-- BREV (spec rule R85): Reverses the bits of A. -/
  | brev (o : Rr)
  /-- BFX (spec rule R86): Extracts a bit field of A, zero- or sign-extended. -/
  | bfx (o : Rrr)
  /-- BFI (spec rule R87): Inserts the low bits of A into a field of D. -/
  | bfi (o : Rrr)
  /-- LEA (spec rule R88): Forms a 64-bit sum of the pair A and the extended B. -/
  | lea (o : Rrr)
  /-- CMP (spec rule R89): Writes predicate PD from a comparison of A and B under COND. -/
  | cmp (o : CmpReg)
  /-- CMPI (spec rule R89): Writes predicate PD from a comparison of A with a sign-extended immediate. -/
  | cmpi (o : CmpImm)
  /-- SEL (spec rule R90): Writes A or B according to predicate P. -/
  | sel (o : Select)
  /-- PLOP (spec rule R91): Sets predicate PD from a truth table over PA and PB. -/
  | plop (o : PredOp)
  /-- MOVI (spec rule R92): Writes a sign-extended 17-bit immediate to D. -/
  | movi (i : BitVec 17) (d : Reg)
  /-- MOVHI (spec rule R93): Sets D bits 31:16 from the immediate and keeps D bits 15:0. -/
  | movhi (i : BitVec 16) (d : Reg)
  /-- RDSR (spec rule R95): Copies a special register into D after the waits of R39. -/
  | rdsr (n : Fin 128) (d : Reg)
  /-- WRSR (spec rule R96): Copies A into a special register, with per-register effects. -/
  | wrsr (n : Fin 128) (fa : Bool) (a : Reg)
  /-- MODE (spec rule R97): Sets STATUS.RND and STATUS.RAT in one step without waiting. -/
  | modeSet (rat : Bool) (rnd : Rnd)
  /-- ADDI (spec rule R83): Adds a sign-extended immediate to A. -/
  | addi (o : RegImm)
  /-- ANDI (spec rule R83): ANDs A with a sign-extended immediate. -/
  | andi (o : RegImm)
  /-- ORI (spec rule R83): ORs A with a sign-extended immediate. -/
  | ori (o : RegImm)
  /-- XORI (spec rule R83): XORs A with a sign-extended immediate. -/
  | xori (o : RegImm)
  /-- BR (spec rule R99): Branches to base plus 2 times OFF20 in fibres where the predicate holds. -/
  | br (o : Jump)
  /-- CALL (spec rule R100): Branches as BR and sets LINK to the address of the next unit. -/
  | call (o : Jump)
  /-- JR (spec rule R102): Jumps to A plus 2 times the immediate, writing the return address to D. -/
  | jr (o : RegImm)
  /-- TRAP (spec rule R105): Traps BREAKPOINT with TRAPVAL 0x8000_0000 plus n. -/
  | trap (i : BitVec 17)
  /-- BRK (spec rule R106): Stops the block when breakpoints are armed, and otherwise traps BREAKPOINT with n. -/
  | brk (i : BitVec 17)
  /-- GUARD (spec rule R44): Prefix that makes the next instruction act only in fibres where the predicate, or its negation, holds. -/
  | guard (neg : Bool) (p : Fin 8)
  /-- DREF (spec rule R43): Executes a dictionary entry as if it stood at the reference's address. -/
  | dref (e : Fin 1024)
  /-- ADD_S32_COMPACT (spec rule R56): Compact 16-bit ADD.S32 with D as first source. -/
  | addS32Compact (o : Compact)
  /-- SUB_S32_COMPACT (spec rule R56): Compact 16-bit SUB.S32. -/
  | subS32Compact (o : Compact)
  /-- MUL_S32_COMPACT (spec rule R56): Compact 16-bit MUL.S32. -/
  | mulS32Compact (o : Compact)
  /-- AND_COMPACT (spec rule R56): Compact 16-bit AND. -/
  | andCompact (o : Compact)
  /-- OR_COMPACT (spec rule R56): Compact 16-bit OR. -/
  | orCompact (o : Compact)
  /-- XOR_COMPACT (spec rule R56): Compact 16-bit XOR. -/
  | xorCompact (o : Compact)
  /-- SHL_S32_COMPACT (spec rule R56): Compact 16-bit SHL.S32. -/
  | shlS32Compact (o : Compact)
  /-- SHR_N32_COMPACT (spec rule R56): Compact 16-bit SHR.N32. -/
  | shrN32Compact (o : Compact)
  /-- SAR_S32_COMPACT (spec rule R56): Compact 16-bit SAR.S32. -/
  | sarS32Compact (o : Compact)
  /-- MIN_S32_COMPACT (spec rule R56): Compact 16-bit MIN.S32. -/
  | minS32Compact (o : Compact)
  /-- MAX_S32_COMPACT (spec rule R56): Compact 16-bit MAX.S32. -/
  | maxS32Compact (o : Compact)
  /-- MOV_COMPACT (spec rule R56): Compact 16-bit MOV of B into D. -/
  | movCompact (o : Compact)
  /-- FADD_F32_COMPACT (spec rule R56): Compact 16-bit FADD.F32, rational when RAT is 1. -/
  | faddF32Compact (o : Compact)
  /-- FSUB_F32_COMPACT (spec rule R56): Compact 16-bit FSUB.F32. -/
  | fsubF32Compact (o : Compact)
  /-- FMUL_F32_COMPACT (spec rule R56): Compact 16-bit FMUL.F32. -/
  | fmulF32Compact (o : Compact)
  /-- FMAX_F32_COMPACT (spec rule R56): Compact 16-bit FMAX.F32. -/
  | fmaxF32Compact (o : Compact)
  /-- FADD (spec rule R131): IEEE or rational addition at F32 or F64. -/
  | fadd (o : Rrr)
  /-- FSUB (spec rule R131): IEEE or rational subtraction at F32 or F64. -/
  | fsub (o : Rrr)
  /-- FMUL (spec rule R131): IEEE or rational multiplication at F32 or F64. -/
  | fmul (o : Rrr)
  /-- FMA (spec rule R131): Fused multiply-add with D as the addend; traps in rational mode. -/
  | fma (o : Rrr)
  /-- FDIV (spec rule R131): IEEE or rational division at F32 or F64. -/
  | fdiv (o : Rrr)
  /-- FMIN (spec rule R132): IEEE minimumNumber, or rational minimum. -/
  | fmin (o : Rrr)
  /-- FMAX (spec rule R132): IEEE maximumNumber, or rational maximum. -/
  | fmax (o : Rrr)
  /-- FCPYS (spec rule R133): Writes the magnitude of A with the sign of B. -/
  | fcpys (o : Rrr)
  /-- FCMP (spec rule R134): Writes predicate PD from a floating or rational comparison. -/
  | fcmp (o : CmpReg)
  /-- FSQRT (spec rule R135): Writes the rounded square root of A. -/
  | fsqrt (o : FUnary)
  /-- FABS (spec rule R133): Clears the sign of A. -/
  | fabs (o : FUnary)
  /-- FNEG (spec rule R133): Inverts the sign of A. -/
  | fneg (o : FUnary)
  /-- FCLASS (spec rule R136): Writes a one-hot class mask of A. -/
  | fclass (o : FUnary)
  /-- FRND (spec rule R135): Rounds A to an integral value under RND. -/
  | frnd (o : FUnary)
  /-- SFU_EX2 (spec rule R137): Special function 2^a. -/
  | sfuEx2 (o : FUnary)
  /-- SFU_LG2 (spec rule R137): Special function log2 a. -/
  | sfuLg2 (o : FUnary)
  /-- SFU_SIN (spec rule R137): Special function sine in radians. -/
  | sfuSin (o : FUnary)
  /-- SFU_COS (spec rule R137): Special function cosine in radians. -/
  | sfuCos (o : FUnary)
  /-- SFU_RCP (spec rule R137): Special function reciprocal. -/
  | sfuRcp (o : FUnary)
  /-- SFU_RSQ (spec rule R137): Special function reciprocal square root. -/
  | sfuRsq (o : FUnary)
  /-- SFU_TANH (spec rule R137): Special function hyperbolic tangent. -/
  | sfuTanh (o : FUnary)
  /-- QNUM (spec rule R140): Writes the reduced signed numerator of a rational. -/
  | qnum (o : FUnary)
  /-- QDEN (spec rule R140): Writes the reduced denominator of a rational. -/
  | qden (o : FUnary)
  /-- CVTI (spec rule R144): Converts a floating value to an integer, with clamping and NV. -/
  | cvti (o : CvtInt)
  /-- CVTF (spec rule R144): Converts an integer to a floating format. -/
  | cvtf (o : CvtInt)
  /-- CVTW (spec rule R145): Converts between two floating formats, rational on the F32 or F64 side in rational mode. -/
  | cvtw (o : CvtWide)
  /-- CVTN (spec rule R146): Rounds a floating value to a narrow code, saturating when X is set. -/
  | cvtn (o : CvtNarrow)
  /-- CVTX (spec rule R147): Widens a narrow code to a floating format exactly. -/
  | cvtx (o : CvtNarrow)
  /-- PKP (spec rule R148): Packs 32 lane elements of width m into the planar block layout. -/
  | pkp (o : Plane)
  /-- UPKP (spec rule R148): Unpacks a planar block into one element per lane. -/
  | upkp (o : Plane)
  /-- QMAKE (spec rule R141): Builds the rational A divided by B with round_q. -/
  | qmake (o : Rrr)
  /-- QLIM (spec rule R142): Rounds a rational to one whose denominator is at most B. -/
  | qlim (o : Rrr)
  /-- FADD16 (spec rule R131): Half-precision addition at F16 or BF16. -/
  | fadd16 (o : Rrr)
  /-- FSUB16 (spec rule R131): Half-precision subtraction. -/
  | fsub16 (o : Rrr)
  /-- FMUL16 (spec rule R131): Half-precision multiplication. -/
  | fmul16 (o : Rrr)
  /-- FMA16 (spec rule R131): Half-precision fused multiply-add. -/
  | fma16 (o : Rrr)
  /-- FMIN16 (spec rule R132): Half-precision minimumNumber. -/
  | fmin16 (o : Rrr)
  /-- FMAX16 (spec rule R132): Half-precision maximumNumber. -/
  | fmax16 (o : Rrr)
  /-- FCMP16 (spec rule R134): Half-precision comparison into a predicate. -/
  | fcmp16 (o : CmpReg)
  /-- LD (spec rule R162): Zero-extending load of s bytes through a capability; long-latency producer. -/
  | ld (o : MemImm)
  /-- LD_S (spec rule R162): Sign-extending load of 1 or 2 bytes. -/
  | ldS (o : MemImm)
  /-- LDX (spec rule R162): Indexed zero-extending load. -/
  | ldx (o : MemIdx)
  /-- LDX_S (spec rule R162): Indexed sign-extending load of 1 or 2 bytes. -/
  | ldxS (o : MemIdx)
  /-- ST (spec rule R163): Stores the low bytes of D and clears the touched granule tags. -/
  | st (o : MemImm)
  /-- STX (spec rule R163): Indexed store. -/
  | stx (o : MemIdx)
  /-- LD_ACQ (spec rule R164): Load that is an acquire at its address scope. -/
  | ldAcq (o : MemImm)
  /-- ST_REL (spec rule R164): Store that is a release at its address scope. -/
  | stRel (o : MemImm)
  /-- LDC (spec rule R165): Loads a 16-byte capability, keeping its tag when LDCAP allows. -/
  | ldc (o : MemCap)
  /-- STC (spec rule R166): Stores a capability quad and sets the granule tag to the quad's tag. -/
  | stc (o : MemCap)
  /-- CDER (spec rule R169): Derives a bounded capability from a parent. -/
  | cder (o : CapQuad)
  /-- CPERM (spec rule R169): Derives a capability with permissions masked. -/
  | cperm (o : CapReg)
  /-- CGET (spec rule R170): Writes one field of a capability. -/
  | cget (f : Fin 7) (fa : Bool) (a : Quad) (d : Reg)
  /-- CTAG (spec rule R171): Writes the tag and stale bits of a capability. -/
  | ctag (fa : Bool) (a : Quad) (d : Reg)
  /-- CSEAL (spec rule R169): Derives a sealed capability. -/
  | cseal (fa : Bool) (a : Quad) (d : Quad)
  /-- PREF_L1 (spec rule R172): Prefetches a 128-byte line toward the L1 and never traps on checks. -/
  | prefL1 (o : MemLine)
  /-- PREF_L2 (spec rule R172): Prefetches a line toward the L2. -/
  | prefL2 (o : MemLine)
  /-- L1INV (spec rule R172): Drops a line from the core's L1 after the load checks. -/
  | l1inv (o : MemLine)
  /-- SHFL (spec rule R197): Reads A from the source lane that B names. -/
  | shfl (o : Rrr)
  /-- VOTE_BALLOT (spec rule R198): Writes the mask of batch lanes in which the predicate holds. -/
  | voteBallot (p : Fin 8) (d : Reg)
  /-- VOTE_ANY (spec rule R198): Writes 1 when the predicate holds in any fibre of the batch. -/
  | voteAny (p : Fin 8) (d : Reg)
  /-- VOTE_ALL (spec rule R198): Writes 1 when the predicate holds in every fibre of the batch. -/
  | voteAll (p : Fin 8) (d : Reg)
  /-- MATCH (spec rule R198): Writes the mask of batch lanes whose A equals this lane's A. -/
  | matchLanes (o : Rr)
  /-- SCAN (spec rule R200): Prefix combination over batch lanes in the fixed tree. -/
  | scan (o : Scan)
  /-- REDG (spec rule R200): Combines A over the batch in the fixed tree. -/
  | redg (o : Scan)
  /-- SPAWN (spec rule R201): Creates a fibre in a free lane for each spawning fibre. -/
  | spawn (o : Spawn)
  /-- FORK (spec rule R203): Writes one task record per fibre to the deque or the overflow queue; a release at DIE scope. -/
  | fork (o : Fork)
  /-- FENCE (spec rule R211): Orders the group's earlier accesses before its later ones at a scope. -/
  | fence (sc : Scope)
  /-- WIN (spec rule R212): Sets STATUS.WB, or traps REGISTER_RANGE. -/
  | win (n : Fin 16)
  /-- BARA (spec rule R208): Marks arrival at a named barrier, optionally as a release. -/
  | bara (ord : Bool) (b : Bar)
  /-- BARW (spec rule R208): Waits until the barrier's generation passes the fibre's mark, optionally as an acquire. -/
  | barw (ord : Bool) (b : Bar)
  /-- BARM (spec rule R208): Sets the barrier's MEMBER from A. -/
  | barm (b : Bar) (fa : Bool) (a : Reg)
  /-- ATOM_ADD (spec rule R210): Indivisible fetch-and-add per address, with lanes in ascending order. -/
  | atomAdd (ord : AtomOrd) (o : Atomic)
  /-- ATOM_MIN_S (spec rule R210): Atomic signed minimum. -/
  | atomMinS (ord : AtomOrd) (o : Atomic)
  /-- ATOM_MIN_N (spec rule R210): Atomic natural minimum. -/
  | atomMinN (ord : AtomOrd) (o : Atomic)
  /-- ATOM_MAX_S (spec rule R210): Atomic signed maximum; VISMAX is its 64-bit form. -/
  | atomMaxS (ord : AtomOrd) (o : Atomic)
  /-- ATOM_MAX_N (spec rule R210): Atomic natural maximum. -/
  | atomMaxN (ord : AtomOrd) (o : Atomic)
  /-- ATOM_AND (spec rule R210): Atomic AND. -/
  | atomAnd (ord : AtomOrd) (o : Atomic)
  /-- ATOM_OR (spec rule R210): Atomic OR. -/
  | atomOr (ord : AtomOrd) (o : Atomic)
  /-- ATOM_XOR (spec rule R210): Atomic XOR. -/
  | atomXor (ord : AtomOrd) (o : Atomic)
  /-- ATOM_XCHG (spec rule R210): Atomic exchange. -/
  | atomXchg (ord : AtomOrd) (o : Atomic)
  /-- ATOM_CAS (spec rule R210): Atomic compare-and-swap. -/
  | atomCas (ord : AtomOrd) (o : Atomic)
  /-- RED_ADD (spec rule R210): Reduction add to memory that writes no register. -/
  | redAdd (o : Atomic)
  /-- RED_MIN_S (spec rule R210): Reduction signed minimum. -/
  | redMinS (o : Atomic)
  /-- RED_MIN_N (spec rule R210): Reduction natural minimum. -/
  | redMinN (o : Atomic)
  /-- RED_MAX_S (spec rule R210): Reduction signed maximum. -/
  | redMaxS (o : Atomic)
  /-- RED_MAX_N (spec rule R210): Reduction natural maximum. -/
  | redMaxN (o : Atomic)
  /-- RED_AND (spec rule R210): Reduction AND. -/
  | redAnd (o : Atomic)
  /-- RED_OR (spec rule R210): Reduction OR. -/
  | redOr (o : Atomic)
  /-- RED_XOR (spec rule R210): Reduction XOR. -/
  | redXor (o : Atomic)
  /-- TCFG (spec rule R240): Writes a tile control register from a scalar. -/
  | tcfg (s : Reg) (t : Fin 16)
  /-- TCRD (spec rule R240): Copies a tile control register into a scalar. -/
  | tcrd (s : Reg) (t : Fin 16)
  /-- TLD (spec rule R242): Loads a tile from memory, raw or planar. -/
  | tld (s : Fin 7) (t : Fin 16) (sx : Bool) (w : Fin 8)
  /-- TST (spec rule R242): Stores a tile to memory. -/
  | tst (s : Fin 7) (t : Fin 16) (w : Fin 8)
  /-- TZERO (spec rule R244): Zeros a tile and clears its poison. -/
  | tzero (t : Fin 16)
  /-- MACQ (spec rule R237): Waits for and takes a set of accumulator quadrant tokens at once. -/
  | macq (m : Fin 16)
  /-- MREL (spec rule R237): Releases quadrant tokens after the earlier matrix work on them. -/
  | mrel (m : Fin 16)
  /-- MACQ_GRANT (spec rule R237): A waiting MACQ is granted its tokens once they are free and no earlier waiter wants them. -/
  | macqGrant (core : Nat)
  /-- MMA (spec rule R245): One exact-sum floating matrix step into a quadrant. -/
  | mma (o : MatStep)
  /-- MMAX (spec rule R245): One integer matrix step into an INT quadrant. -/
  | mmax (o : MatStep)
  /-- MSCA (spec rule R247): Adds a scaled quadrant into another with block exponents. -/
  | msca (qd : Fin 4) (qs : Fin 4) (ta : Fin 16) (tb : Fin 16)
  /-- MLOOP (spec rule R249): Starts a sequence of matrix steps that stream their tiles from scratchpad. -/
  | mloop (s : Fin 6) (m : Fin 16) (ta : Fin 16) (tb : Fin 16)
  /-- MLOOP_STEP (spec rule R251): One indivisible MLOOP step into one quadrant. -/
  | mloopStep (group : Nat)
  /-- ACLD (spec rule R253): Loads a quadrant from memory in FP32 mode. -/
  | acld (s : Fin 7) (q : Fin 4)
  /-- ACST (spec rule R253): Stores a quadrant to memory as F32, F16 or BF16. -/
  | acst (s : Fin 7) (f : Fin 3) (q : Fin 4)
  /-- ACRD (spec rule R254): Reads accumulator elements of a row into lanes. -/
  | acrd (d : Reg) (row : Fin 128) (cb : Fin 4)
  /-- ACZ (spec rule R252): Sets quadrants to ZERO and clears their poison. -/
  | acz (m : Fin 16)
  /-- COPY (spec rule R276): Checks and accepts a streamer copy of a tensor box. -/
  | copy (o : CopyOp)
  /-- COPYG (spec rule R276): Gather copy whose last dimension comes from an index list. -/
  | copyg (o : CopyOp)
  /-- COPY_COMPLETE (spec rule R279): A copy that has written its last byte adds its byte count to its counter. -/
  | copyComplete (copyId : Nat)
  /-- CADD (spec rule R285): Adds an amount to a counter, as a release when X is set. -/
  | cadd (o : CtrPair)
  /-- CWAIT (spec rule R286): Waits until a counter reaches its target, acquiring its byte sets. -/
  | cwait (o : CtrPair)
  /-- CTEST (spec rule R287): Writes a predicate from counter at or above target. -/
  | ctest (o : CtrTest)
  /-- CREAD (spec rule R287): Reads a counter value into a pair. -/
  | cread (fa : Bool) (a : Quad) (d : Reg)
  /-- CBIND (spec rule R297): Gates a queue on a counter and target. -/
  | cbind (o : CtrBind)
  /-- QPUSH (spec rule R292): Appends one record per fibre to a queue, as a release. -/
  | qpush (o : QueuePush)
  /-- QRES (spec rule R293): Reserves queue slots for the block. -/
  | qres (o : QuadReg)
  /-- QDONE (spec rule R294): Retires the block's queue records early. -/
  | qdone (fa : Bool) (a : Quad)
  /-- MARK (spec rule R302): Raises the grid's Granary marker and traps SCHEDULE_MISS for late entries. -/
  | mark (i : BitVec 17)
  /-- TTBIND (spec rule R300): Binds a timetable and its counters to the grid's Granary. -/
  | ttbind (fb : Bool) (fa : Bool) (b : Quad) (a : Quad)
  /-- HLD (spec rule R317): Walks motion fields and samples the history surface. -/
  | hld (o : HistLoad)
  /-- HLD_F (spec rule R317): As HLD, but marks the destination faulted DISOCCLUSION when there is no ancestor. -/
  | hldF (o : HistLoad)
  /-- HLDP (spec rule R317): Walks motion fields and returns the landing position. -/
  | hldp (o : HistPos)
  /-- HFOLD (spec rule R322): Composes a field and its parent into a skip field. -/
  | hfold (fb : Bool) (fa : Bool) (b : Quad) (a : Quad)
  /-- HFOLD_COMPLETE (spec rule R322): When every cell is written, the skip field is latched and sealed, the fold link is set and the counter is added. -/
  | hfoldComplete (foldId : Nat)
  /-- HSEAL (spec rule R319): Latches and seals an OPEN field and wakes walks. -/
  | hseal (fa : Bool) (a : Reg)
  /-- HOPEN (spec rule R320): Reopens or retires a field, bumping its generation. -/
  | hopen (fa : Bool) (a : Reg)
  /-- TEX (spec rule R327): Samples a sparse texture at the first resident level. -/
  | tex (o : Texture)
  /-- TRI (spec rule R342): Sets up a triangle and either returns it to software or rasterises it into the visibility tile. -/
  | tri (o : CtrTest)
  /-- CUTSEL (spec rule R341): Checks and queues a Gleaner cut-selection request; a release. -/
  | cutsel (o : ThreeQuads)
  /-- GLEANER_REQUEST (spec rule R341): Gleaner runs the next accepted request: selects, pushes pages, writes the view results and adds 16. -/
  | gleanerRequest (die : Nat)
  /-- TRACE (spec rule R346): Traces a ray and pushes a hit record to a shader-table queue. -/
  | trace (o : TwoQuads)
  /-- HALO (spec rule R348): Sends tile edge strips to neighbour blocks of the sheaf. -/
  | halo (o : ThreeQuads)
  /-- HALO_STRIP_COMPLETE (spec rule R348): A strip has written its bytes and adds them to the receiver's counter. -/
  | haloStripComplete (copyId : Nat)
  /-- KVHASH (spec rule R351): Computes a block digest over 16 lane tokens. -/
  | kvhash (o : KvHash)
  /-- KVLOOK_LOOK (spec rule R359): Looks up a digest in version KVVER. -/
  | kvlookLook (o : TwoQuads)
  /-- KVLOOK_TAKE (spec rule R359): Looks up a digest and takes a reference. -/
  | kvlookTake (o : TwoQuads)
  /-- KVLOOK_PUB (spec rule R359): Publishes a full block under a digest in version CUR plus 1. -/
  | kvlookPub (o : TwoQuads)
  /-- KVAPP (spec rule R360): Appends a token to a block, copying a shared block first. -/
  | kvapp (o : TwoQuads)
  /-- KVREL_DROP (spec rule R361): Drops a block reference. -/
  | kvrelDrop (o : QuadReg)
  /-- KVREL_KILL (spec rule R361): Ends an entry's visibility at CUR plus 1. -/
  | kvrelKill (o : TwoQuads)
  /-- KVREL_STEP (spec rule R361): Advances the table version with k references. -/
  | kvrelStep (o : QuadReg)
  /-- KVREL_UNPIN (spec rule R361): Drops a version reference and advances OLDEST. -/
  | kvrelUnpin (o : QuadReg)
  /-- KV_AGENT_OPERATION (spec rule R356): The table agent applies one arriving request, one at a time in order of arrival. -/
  | kvAgentOperation (reqId : Nat)
  /-- LOFT (spec rule R369): Sends one 64-bit command per fibre to a loft, as a release. -/
  | loft (o : QuadReg)
  /-- LMERGE (spec rule R370): Merges two attention triples per lane. -/
  | lmerge (o : ThreeQuads)
  /-- MODE_AB (spec rule R365): Loft enters all-bank mode after the home slice writes back dirty lines. -/
  | modeAb (loft : Nat)
  /-- MODE_SB (spec rule R366): Loft leaves all-bank mode and closes its row; held accesses then proceed. -/
  | modeSb (loft : Nat)
  /-- BCAST (spec rule R366): Loads a register of each bank lane from a column of the open row. -/
  | bcast (loft : Nat)
  /-- ACT (spec rule R366): Opens a row in all 16 banks. -/
  | act (loft : Nat)
  /-- MAC (spec rule R366): Each bank lane accumulates a 16-element dot product. -/
  | mac (loft : Nat)
  /-- RDACC (spec rule R366): Writes the accumulators of each lane to a column of the open row. -/
  | rdacc (loft : Nat)
  /-- ATTN (spec rule R368): Runs an online-softmax attention sweep and writes the merged result row. -/
  | attn (loft : Nat)
  /-- CLR (spec rule R366): Zeros every loft register, accumulator and sweep store. -/
  | clr (loft : Nat)
  /-- PRODUCER_COMPLETE (spec rule R34): A long-latency producer completes and sets its destination full or faulted. -/
  | producerComplete (prodId : Nat)
  /-- PAGE_WALK (spec rule R225): A translation walk finishes with a leaf, a fatal fault or a replayable fault. -/
  | pageWalk (walkId : Nat)
  /-- REPLAY_MAPPED (spec rule R379): The driver maps a faulting page and the waiting accesses are replayed. -/
  | replayMapped (replayId : Nat)
  /-- REPLAY_DECLINED (spec rule R379): The driver declines a page and the waiting accesses become fatal. -/
  | replayDeclined (replayId : Nat)
  /-- OUTACK_ACKNOWLEDGE (spec rule R267): An acknowledgement from beyond the module returns and OUTACK decrements. -/
  | outackAcknowledge (group : Nat)
  /-- COUNTER_ADD (spec rule R283): The home slice applies one add to a counter, saturating, and opens gates. -/
  | counterAdd (addId : Nat)
  /-- CWAIT_WAKE (spec rule R289): The home slice wakes a listed waiter whose target an add has met. -/
  | cwaitWake (waitId : Nat)
  /-- CWAIT_RESEND (spec rule R289): A core resends a wait request every 512 clk while the waiter list is full. -/
  | cwaitResend (waitId : Nat)
  /-- COALESCE_TIMER_EXPIRY (spec rule R295): A queue's oldest unlaunched record has waited TIMER, making the queue eligible. -/
  | coalesceTimerExpiry (ctx : Nat) (queue : Nat)
  /-- QUEUE_FIRE (spec rule R296): The die's queue manager fires one eligible queue, launching a block or refusing. -/
  | queueFire (die : Nat)
  /-- SHEAF_PLACE (spec rule R186): The die places all blocks of the next pending sheaf once they fit. -/
  | sheafPlace (die : Nat)
  /-- TASK_TAKE (spec rule R190): A core with room takes a task record and starts a task group. -/
  | taskTake (core : Nat)
  /-- BLOCK_END (spec rule R192): A block whose groups and tasks have all ended frees its resources. -/
  | blockEnd (block : Nat)
  /-- SLOT_CYCLE (spec rule R187): Each clk an issue slot picks a group and batch and counts the cycle in one leaf. -/
  | slotCycle (core : Nat) (slot : Nat)
  /-- PENDING_PROMOTION (spec rule R187): A pending group that has waited more than 8,192 clk is promoted ahead of all others. -/
  | pendingPromotion (core : Nat) (slot : Nat)
  /-- BATCH_FAIRNESS (spec rule R175): After 4,096 consecutive issues of one batch, the longest-ready batch issues next. -/
  | batchFairness (core : Nat) (slot : Nat)
  /-- GRANARY_ENTRY_START (spec rule R301): A timetable entry starts when the marker reaches its deadline less its lead. -/
  | granaryEntryStart (grid : Nat) (entry : Nat)
  /-- GRANARY_ENTRY_COMPLETE (spec rule R301): An entry finishes its migration or staging and adds its bytes, or is marked failed. -/
  | granaryEntryComplete (grid : Nat) (entry : Nat)
  /-- QUANTUM_EXPIRY (spec rule R381): A context's quantum runs out while another context has work, and a cluster pre-emption is requested. -/
  | quantumExpiry (cluster : Nat)
  /-- PREEMPT_REQUEST (spec rule R383): Each block of the set is assigned drain, flush or save. -/
  | preemptRequest (cluster : Nat)
  /-- DRAIN_BUDGET_EXPIRY (spec rule R384): A draining block exceeds DRAINBUDGET and is saved. -/
  | drainBudgetExpiry (block : Nat)
  /-- FLUSH (spec rule R385): After its copies complete, a block is discarded and re-placed from launch. -/
  | flush (block : Nat)
  /-- SAVE (spec rule R386): After its waits, a block's image is written to the save area and its resources are freed. -/
  | save (block : Nat)
  /-- BLOCK_RESUME (spec rule R388): A saved block's sheaf is placed again and its state restored. -/
  | blockResume (block : Nat)
  /-- CONTEXT_SWITCH (spec rule R391): A cluster passes to another context, with its state loaded and cleared. -/
  | contextSwitch (cluster : Nat)
  /-- BALE_WRITE (spec rule R402): After the block's copies complete, the writer writes a bale's sections, table and header. -/
  | baleWrite (block : Nat)
  /-- SAMPLE_TICK (spec rule R401): A sampling interval expires; the LFSR steps and a SAMPLE record is written. -/
  | sampleTick (core : Nat)
  /-- STORE_PERFORMED (spec rule R259): A store, STC, atomic or RED that left the group earlier is performed at its scope when its bank queue entry or home slice acknowledges it. -/
  | storePerformed (storeId : Nat)
  /-- RET (spec rule R101): Sets PC to LINK. -/
  | ret
  /-- NOP (spec rule R103): Only advances PC. -/
  | nop
  /-- RTT (spec rule R49): Restores STATUS from ESTATUS, clears IH and resumes at EPC. -/
  | rtt
  /-- FEXIT (spec rule R202): Ends each fibre of the batch. -/
  | fexit
  /-- RECONV (spec rule R176): Arrives and waits at the reconvergence barrier. -/
  | reconv
  /-- YIELD (spec rule R206): Gives up the group's greedy issue stay. -/
  | yield
  /-- LSER (spec rule R207): Starts a lane-serial section. -/
  | lser
  /-- LSEND (spec rule R207): Ends a fibre's serial turn. -/
  | lsend
  /-- CFENCE (spec rule R281): Orders the group's later copies after its earlier ones. -/
  | cfence
  /-- ILL (spec rule R71): Word 0x0000_00FF, which traps ILLEGAL at decode. -/
  | ill
  /-- CLAIM (spec rule R422): A master claims ownership, opening or joining an election window. -/
  | claim
  /-- ELECTION_WINDOW_CLOSE (spec rule R422): The 10 ms election window closes and the best claim wins. -/
  | electionWindowClose
  /-- OWNERSHIP_LAPSE (spec rule R422): Ownership lapses 100 ms after the owner's last accepted command. -/
  | ownershipLapse
  /-- HEARTBEAT (spec rule R422): The owner keeps ownership. -/
  | heartbeat
  /-- HANDOVER (spec rule R422): Ownership passes at once to the named master. -/
  | handover
  /-- RELEASE (spec rule R422): The owner leaves ownership vacant. -/
  | release
  /-- LAUNCH (spec rule R422): A launch record enters the context's root queue. -/
  | launch
  /-- CTXSET (spec rule R422): Writes context records, table root, generations or History Field Table registers. -/
  | ctxset
  /-- INVAL (spec rule R422): Invalidates the context's translations on its dies. -/
  | inval
  /-- REVOKE (spec rule R423): Clears matching tags and advances one space's generation. -/
  | revoke
  /-- PREEMPT (spec rule R381): The owner pre-empts a context's clusters. -/
  | preempt
  /-- STOP (spec rule R394): Stops a block at instruction boundaries and writes STOP and BARS records. -/
  | stop
  /-- STEP (spec rule R395): Resumes a stopped block until a barrier's next generation completes. -/
  | step
  /-- RESUME (spec rule R394): Lets a stopped block issue again. -/
  | resume
  /-- DUMP (spec rule R402): Requests a bale of a stopped block. -/
  | dump
  /-- READ (spec rule R422): Returns 32 bytes of the journal, error log, fault log or issue counters. -/
  | read
  /-- ATTEST (spec rule R426): Returns a signed measurement report, or is refused when the keys are exhausted. -/
  | attest
  /-- FWLOAD (spec rule R425): Stages a signed firmware image that runs after the next reset. -/
  | fwload
  /-- MODULE_RESET (spec rule R425): Reset verifies firmware, clears ownership and the journal count, and puts lofts in SB mode. -/
  | moduleReset
  /-- HOST_READ (spec rule R420): A host read of device memory by virtual or physical address. -/
  | hostRead
  /-- HOST_WRITE (spec rule R420): A host write of device memory, acknowledged once performed at its home slice. -/
  | hostWrite
  /-- SUBRY_INBOUND (spec rule R418): An inbound peer access is performed in a window or dropped with an error acknowledgement. -/
  | subryInbound
  /-- FLIT_REPLAY (spec rule R427): A link flit failing its CRC is replayed and counted. -/
  | flitReplay
  /-- LINK_DOWN (spec rule R427): A link that cannot deliver a flit after 16 replays is taken down. -/
  | linkDown
  /-- THERMAL (spec rule R428): Inlet above 45 °C or a die above 110 °C pre-empts every context and reports THERMAL. -/
  | thermal
  /-- THERMAL_POWER_DOWN (spec rule R428): A die at 120 °C makes hardware power the module down. -/
  | thermalPowerDown
  /-- ECC_ERROR (spec rule R228): A correctable error is corrected and counted, or an uncorrectable error marks the data, tile or quadrant poisoned. -/
  | eccError
  deriving DecidableEq, Repr

end Sys2Proof
end

