-- ==== Sys2Proof/Config.lean ====
section
/-! DEFINITION. What an implementation fixes and what the manual leaves open. Every open value is an opaque constant
without a body: nothing can evaluate it, and a statement about it holds for every value (notes/assumptions/2). -/
namespace Sys2Proof.Config

/-- Which of `n` enabled steps comes next, by the step counter; the manual fixes no order (spec/00, R2). -/
opaque choose : Nat → Nat

/-- A free natural number for each use of the counter: the L1 victim, a kept translation, an L2 hit, a core choice. -/
opaque freeNat : Nat → Nat

/-- A free bit for each use of the counter. -/
opaque freeBit : Nat → Bool

/-- A free byte, for bytes whose value the manual leaves to the device. -/
opaque freeByte : Nat → BitVec 8

/-- sfu_f32 by function and source bits: within 2 units in the last place of the exact value, the rest left open
(spec/06, R137). The function numbers are those of Table 3.9, 5 to 11. -/
opaque sfu : Nat → BitVec 32 → BitVec 32

/-- The fixed function of the ray unit for one triangle and one ray (spec/17, R346): t, u and v of a hit, and whether a ray that goes
through the edge or a vertex of the triangle hits it. The arguments are the nine vertex coordinates and six ray components as exact
fractions. -/
opaque rayHit : List (Int × Nat) → List (Int × Nat) → BitVec 32 × BitVec 32 × BitVec 32
opaque rayEdge : List (Int × Nat) → List (Int × Nat) → Bool

/-- Whether a thief of a core takes a task record in a clk (spec/08, R190). -/
opaque wants : Nat → Nat → Bool

/-- The die at which a Subry port stands: firmware fixes which router serves it (spec/24, R412, R417). -/
opaque portDie : Nat → Nat

/-- Whether a peer drops an access to a granule of its memory, by the granule's key and a step: its window table is the peer's own
(spec/24, R418). -/
opaque peerDrops : Nat → Nat → Bool

/-- The SHA-256 measurement of running firmware (spec/24, R426): the image is not part of the state. -/
opaque measure : Nat → BitVec 256

/-- The signature of an attestation report over its bytes by a one-time key (spec/24, R426). -/
opaque attestSign : Nat → List (BitVec 8) → List (BitVec 8)

/-- Whether a staged firmware image verifies (spec/24, R425). -/
opaque firmwareOk : Nat → Bool

end Sys2Proof.Config
end

