-- ==== Sys2Proof/WellFormed.lean ====
section
/-! DEFINITION. Which instructions are encodings of an instruction: the checks made at decode on fields that the syntax
alone does not exclude (spec/03, R51 to R73). -/
namespace Sys2Proof

/-- A destination is any register but `lane` (spec/02, R31). -/
def Reg.isDst : Reg → Bool
  | .lane => false
  | _ => true

/-- A pair names an even register or `zero` (spec/03, R53). -/
def Reg.isPair : Reg → Bool
  | .v n => n.val % 2 == 0
  | .s n => n.val % 2 == 0
  | .zero => true
  | .lane => false

/-- A quad base named through a register field (CAS at 64 bits, spec/03, R54, R66). -/
def Reg.isQuad : Reg → Bool
  | .v n => n.val % 4 == 0
  | .s n => n.val % 4 == 0
  | _ => false

/-- A scalar register or `zero`, the range of S in TCFG and TCRD (spec/11, Table 11.3). -/
def Reg.isScalarField : Reg → Bool
  | .s _ => true
  | .zero => true
  | _ => false

/-- A destination of one register or a pair, by width. -/
def Reg.okDst (wide : Bool) (r : Reg) : Bool := if wide then r.isPair else r.isDst

/-- A source of one register or a pair, by width. -/
def Reg.okSrc (wide : Bool) (r : Reg) : Bool := !wide || r.isPair

/-- Sizes of 8 bytes use D as a pair (spec/03, R64). -/
def Size.wide : Size → Bool
  | .b8 => true
  | _ => false

/-- The sizes of the sign-extending loads (spec/03, Table 3.11). -/
def Size.isNarrow : Size → Bool
  | .b1 => true
  | .b2 => true
  | _ => false

def Fmt.wide : Fmt → Bool
  | .f64 => true
  | _ => false

def IntFmt.wide : IntFmt → Bool
  | .s64 => true
  | .n64 => true
  | _ => false

/-- Special registers that some chapter assigns (spec/02, R40; spec/04, R95). -/
def srAssigned (n : Fin 128) : Bool :=
  n.val ≤ 0x0E || (0x10 ≤ n.val && n.val ≤ 0x22)

/-- Special registers that WRSR may name: the others are read only (spec/02, Table 2.3; spec/04, R96). -/
def srWritable (n : Fin 128) : Bool :=
  n.val ≤ 0x02 || (0x04 ≤ n.val && n.val ≤ 0x09) || n.val == 0x0E || (0x1B ≤ n.val && n.val ≤ 0x21)

/-- X makes D, A and B pairs. -/
def Rrr.okWide (o : Rrr) : Bool := o.d.okDst o.x && o.a.okSrc o.x && o.b.okSrc o.x

/-- X makes D and A pairs, B is one register. -/
def Rrr.okWideA (o : Rrr) : Bool := o.d.okDst o.x && o.a.okSrc o.x

/-- X chooses something else than a width. -/
def Rrr.okFlat (o : Rrr) : Bool := o.d.isDst

/-- COND of an integer compare (spec/03, Table 3.6). -/
def CmpReg.okInt (o : CmpReg) : Bool := o.cond.val < 10 && o.a.okSrc o.x && o.b.okSrc o.x

/-- COND of a floating compare; X makes pairs at F64 only. -/
def CmpReg.okFloat (wide : Bool) (o : CmpReg) : Bool :=
  o.cond.val < 8 && o.a.okSrc wide && o.b.okSrc wide

def Jump.ok (o : Jump) : Bool := !(o.p.val == 0 && o.neg)

/-- Major 0x31 operations whose result has the format of the source (spec/03, Table 3.9). -/
def FUnary.okSame (o : FUnary) : Bool := o.d.okDst o.fmt.wide && o.a.okSrc o.fmt.wide

/-- FCLASS writes one register (spec/06, R136). -/
def FUnary.okClass (o : FUnary) : Bool := o.d.isDst && o.a.okSrc o.fmt.wide

/-- SFU takes F32 and F16 only. -/
def FUnary.okSfu (o : FUnary) : Bool :=
  (o.fmt == .f32 || o.fmt == .f16) && o.d.isDst

/-- QNUM and QDEN take a 32-bit or a 64-bit rational. -/
def FUnary.okRat (o : FUnary) : Bool :=
  (o.fmt == .f32 || o.fmt == .f64) && o.d.okDst o.fmt.wide && o.a.okSrc o.fmt.wide

def MemImm.okLoad (o : MemImm) : Bool := o.d.okDst o.sz.wide
def MemImm.okStore (o : MemImm) : Bool := o.d.okSrc o.sz.wide
def MemIdx.okLoad (o : MemIdx) : Bool := o.d.okDst o.sz.wide
def MemIdx.okStore (o : MemIdx) : Bool := o.d.okSrc o.sz.wide

/-- Operation and type codes that Table 9.3 of spec/09 allows, and pairs at 64-bit types. -/
def Scan.ok (o : Scan) : Bool :=
  let wide := o.ty.val == 2 || o.ty.val == 3 || o.ty.val == 5
  ((o.op.val ≤ 5 && o.ty.val ≤ 3) || (6 ≤ o.op.val && o.op.val ≤ 8 && (o.ty.val == 4 || o.ty.val == 5))) &&
    o.d.okDst wide && o.a.okSrc wide

/-- ATOM but CAS: D is written (spec/03, R66). -/
def Atomic.okAtom (o : Atomic) : Bool := o.d.okDst o.x

/-- RED: D is only read. -/
def Atomic.okRed (o : Atomic) : Bool := o.d.okSrc o.x

/-- CAS: D is a pair at 32 bits and a quad at 64 bits (spec/03, R66). -/
def Atomic.okCas (o : Atomic) : Bool := if o.x then o.d.isQuad else o.d.isPair

/-- The checks made at decode. Events are not words and have none. -/
def Instr.wellFormed : Instr → Bool
  | .add o => o.okWide
  | .sub o => o.okWide
  | .mul o => o.okWide
  | .mulhi o => o.okFlat
  | .mad o => o.okWide
  | .div o => o.okFlat
  | .rem o => o.okFlat
  | .min o => o.okFlat
  | .max o => o.okFlat
  | .and o => o.okWide
  | .or o => o.okWide
  | .xor o => o.okWide
  | .andn o => o.okWide
  | .shl o => o.okWideA
  | .shr o => o.okWideA
  | .sar o => o.okWideA
  | .shli o => (o.wide || o.n.val < 32) && o.d.okDst o.wide && o.a.okSrc o.wide
  | .shri o => (o.wide || o.n.val < 32) && o.d.okDst o.wide && o.a.okSrc o.wide
  | .sari o => (o.wide || o.n.val < 32) && o.d.okDst o.wide && o.a.okSrc o.wide
  | .mov o => o.d.okDst o.x && o.a.okSrc o.x
  | .abs o => o.d.okDst o.x && o.a.okSrc o.x
  | .clz o => o.d.okDst o.x && o.a.okSrc o.x
  | .popc o => o.d.okDst o.x && o.a.okSrc o.x
  | .brev o => o.d.okDst o.x && o.a.okSrc o.x
  | .bfx o => o.okFlat
  | .bfi o => o.okWideA
  | .lea o => o.d.isPair && o.a.isPair
  | .cmp o => o.okInt
  | .cmpi o => o.cond.val < 10
  | .sel o => o.d.isDst
  | .plop _ => true
  | .movi _ d => d.isDst
  | .movhi _ d => d.isDst
  | .rdsr n d => srAssigned n && d.isDst
  | .wrsr n _ _ => srWritable n
  | .modeSet _ _ => true
  | .addi o => o.d.isDst
  | .andi o => o.d.isDst
  | .ori o => o.d.isDst
  | .xori o => o.d.isDst
  | .br o => o.ok
  | .call o => o.ok
  | .ret => true
  | .jr o => o.d.isDst
  | .nop => true
  | .trap _ => true
  | .rtt => true
  | .brk _ => true
  | .guard _ _ => true
  | .dref _ => true
  | .addS32Compact _ => true
  | .subS32Compact _ => true
  | .mulS32Compact _ => true
  | .andCompact _ => true
  | .orCompact _ => true
  | .xorCompact _ => true
  | .shlS32Compact _ => true
  | .shrN32Compact _ => true
  | .sarS32Compact _ => true
  | .minS32Compact _ => true
  | .maxS32Compact _ => true
  | .movCompact _ => true
  | .faddF32Compact _ => true
  | .fsubF32Compact _ => true
  | .fmulF32Compact _ => true
  | .fmaxF32Compact _ => true
  | .fadd o => o.okWide
  | .fsub o => o.okWide
  | .fmul o => o.okWide
  | .fma o => o.okWide
  | .fdiv o => o.okWide
  | .fmin o => o.okWide
  | .fmax o => o.okWide
  | .fcpys o => o.okWide
  | .fcmp o => o.okFloat o.x
  | .fsqrt o => o.okSame
  | .fabs o => o.okSame
  | .fneg o => o.okSame
  | .fclass o => o.okClass
  | .frnd o => o.okSame
  | .sfuEx2 o => o.okSfu
  | .sfuLg2 o => o.okSfu
  | .sfuSin o => o.okSfu
  | .sfuCos o => o.okSfu
  | .sfuRcp o => o.okSfu
  | .sfuRsq o => o.okSfu
  | .sfuTanh o => o.okSfu
  | .qnum o => o.okRat
  | .qden o => o.okRat
  | .cvti o => o.d.okDst o.ii.wide && o.a.okSrc o.ff.wide
  | .cvtf o => !o.t && o.d.okDst o.ff.wide && o.a.okSrc o.ii.wide
  | .cvtw o => o.src != o.dst && o.d.okDst o.dst.wide && o.a.okSrc o.src.wide
  | .cvtn o => o.d.isDst && o.a.okSrc o.ff.wide
  | .cvtx o => !o.sat && o.d.okDst o.ff.wide
  | .pkp o => o.d.isDst
  | .upkp o => o.d.isDst
  | .qmake o => o.okWide
  | .qlim o => o.okWide
  | .fadd16 o => o.okFlat
  | .fsub16 o => o.okFlat
  | .fmul16 o => o.okFlat
  | .fma16 o => o.okFlat
  | .fmin16 o => o.okFlat
  | .fmax16 o => o.okFlat
  | .fcmp16 o => o.okFloat false
  | .ld o => o.okLoad
  | .ldS o => o.sz.isNarrow && o.okLoad
  | .ldx o => o.okLoad
  | .ldxS o => o.sz.isNarrow && o.okLoad
  | .st o => o.okStore
  | .stx o => o.okStore
  | .ldAcq o => o.okLoad
  | .stRel o => o.okStore
  | .ldc _ => true
  | .stc _ => true
  | .cder _ => true
  | .cperm _ => true
  | .cget _ _ _ d => d.isDst
  | .ctag _ _ d => d.isDst
  | .cseal _ _ _ => true
  | .prefL1 _ => true
  | .prefL2 _ => true
  | .l1inv _ => true
  | .shfl o => o.okWideA
  | .voteBallot _ d => d.isDst
  | .voteAny _ d => d.isDst
  | .voteAll _ d => d.isDst
  | .matchLanes o => o.d.isDst && o.a.okSrc o.x
  | .scan o => o.ok
  | .redg o => o.ok
  | .spawn o => o.d.isDst
  | .fork o => o.a.isPair
  | .fexit => true
  | .reconv => true
  | .yield => true
  | .lser => true
  | .lsend => true
  | .fence _ => true
  | .win _ => true
  | .bara _ _ => true
  | .barw _ _ => true
  | .barm _ _ _ => true
  | .atomAdd _ o => o.okAtom
  | .atomMinS _ o => o.okAtom
  | .atomMinN _ o => o.okAtom
  | .atomMaxS _ o => o.okAtom
  | .atomMaxN _ o => o.okAtom
  | .atomAnd _ o => o.okAtom
  | .atomOr _ o => o.okAtom
  | .atomXor _ o => o.okAtom
  | .atomXchg _ o => o.okAtom
  | .atomCas _ o => o.okCas
  | .redAdd o => o.okRed
  | .redMinS o => o.okRed
  | .redMinN o => o.okRed
  | .redMaxS o => o.okRed
  | .redMaxN o => o.okRed
  | .redAnd o => o.okRed
  | .redOr o => o.okRed
  | .redXor o => o.okRed
  | .tcfg s _ => s.isScalarField
  | .tcrd s _ => s.isScalarField
  | .tld _ _ sx w => !(sx && w.val == 0)
  | .tst _ _ _ => true
  | .tzero _ => true
  | .macq m => m.val != 0
  | .mrel m => m.val != 0
  | .macqGrant _ => true
  | .mma _ => true
  | .mmax _ => true
  | .msca _ _ _ _ => true
  | .mloop _ m _ _ => m.val != 0
  | .mloopStep _ => true
  | .acld _ _ => true
  | .acst _ _ _ => true
  | .acrd d _ _ => d.isDst
  | .acz m => m.val != 0
  | .copy _ => true
  | .copyg _ => true
  | .copyComplete _ => true
  | .cfence => true
  | .cadd o => o.b.isPair
  | .cwait o => o.b.isPair
  | .ctest o => o.b.isPair
  | .cread _ _ d => d.isPair
  | .cbind o => o.b.isPair
  | .qpush _ => true
  | .qres o => o.d.isDst
  | .qdone _ _ => true
  | .mark _ => true
  | .ttbind _ _ _ _ => true
  | .hld o => o.d.isDst
  | .hldF o => o.d.isDst
  | .hldp o => o.d.isPair
  | .hfold _ _ _ _ => true
  | .hfoldComplete _ => true
  | .hseal _ _ => true
  | .hopen _ _ => true
  | .tex _ => true
  | .tri _ => true
  | .cutsel _ => true
  | .gleanerRequest _ => true
  | .trace o => o.d.isDst
  | .halo _ => true
  | .haloStripComplete _ => true
  | .kvhash _ => true
  | .kvlookLook o => o.d.isPair
  | .kvlookTake o => o.d.isPair
  | .kvlookPub o => o.d.isPair
  | .kvapp o => o.d.isPair
  | .kvrelDrop o => o.d.isDst
  | .kvrelKill o => o.d.isDst
  | .kvrelStep o => o.d.isDst
  | .kvrelUnpin o => o.d.isDst
  | .kvAgentOperation _ => true
  | .loft o => o.b.isPair
  | .lmerge _ => true
  | .ill => true
  | .modeAb _ => true
  | .modeSb _ => true
  | .bcast _ => true
  | .act _ => true
  | .mac _ => true
  | .rdacc _ => true
  | .attn _ => true
  | .clr _ => true
  | .producerComplete _ => true
  | .pageWalk _ => true
  | .replayMapped _ => true
  | .replayDeclined _ => true
  | .outackAcknowledge _ => true
  | .counterAdd _ => true
  | .cwaitWake _ => true
  | .cwaitResend _ => true
  | .coalesceTimerExpiry _ _ => true
  | .queueFire _ => true
  | .sheafPlace _ => true
  | .taskTake _ => true
  | .blockEnd _ => true
  | .slotCycle _ _ => true
  | .pendingPromotion _ _ => true
  | .batchFairness _ _ => true
  | .granaryEntryStart _ _ => true
  | .granaryEntryComplete _ _ => true
  | .quantumExpiry _ => true
  | .preemptRequest _ => true
  | .drainBudgetExpiry _ => true
  | .flush _ => true
  | .save _ => true
  | .blockResume _ => true
  | .contextSwitch _ => true
  | .baleWrite _ => true
  | .sampleTick _ => true
  | .claim => true
  | .electionWindowClose => true
  | .ownershipLapse => true
  | .heartbeat => true
  | .handover => true
  | .release => true
  | .launch => true
  | .ctxset => true
  | .inval => true
  | .revoke => true
  | .preempt => true
  | .stop => true
  | .step => true
  | .resume => true
  | .dump => true
  | .read => true
  | .attest => true
  | .fwload => true
  | .moduleReset => true
  | .hostRead => true
  | .hostWrite => true
  | .subryInbound => true
  | .flitReplay => true
  | .linkDown => true
  | .thermal => true
  | .thermalPowerDown => true
  | .storePerformed _ => true
  | .eccError => true

end Sys2Proof
end

