-- ==== Sys2Proof/Decode.lean ====
section
/-! DEFINITION. The decoder, total on any bytes, and after it the encoder, both over the formats of spec/03. Numbers are
natural numbers: bit `lo` of a word `w` is `w / 2^lo % 2`. -/
namespace Sys2Proof

/-- The `n` bits of `w` from bit `lo` upward. -/
def fld (w lo n : Nat) : Nat := w / 2 ^ lo % 2 ^ n

/-- Bit `lo` of `w`. -/
def bitAt (w lo : Nat) : Bool := w / 2 ^ lo % 2 == 1

/-- The register named by a 7-bit field; 98 to 127 name none (spec/02, R29 to R31). -/
def Reg.ofNat (n : Nat) : Option Reg :=
  if h : n < 64 then some (.v ⟨n, h⟩)
  else if h : n - 64 < 32 then some (.s ⟨n - 64, h⟩)
  else if n = 96 then some .zero
  else if n = 97 then some .lane
  else none

/-- The field value of a register. -/
def Reg.toNat : Reg → Nat
  | .v n => n.val
  | .s n => 64 + n.val
  | .zero => 96
  | .lane => 97

/-- The quad whose first register divided by 4 is `n`; 24 and above name none (spec/03, R54). -/
def Quad.ofNat (n : Nat) : Option Quad :=
  if h : n < 16 then some (.v ⟨n, h⟩)
  else if h : n - 16 < 8 then some (.s ⟨n - 16, h⟩)
  else none

/-- The first register of a quad divided by 4. -/
def Quad.toNat : Quad → Nat
  | .v n => n.val
  | .s n => 16 + n.val

def Rnd.ofCode : Nat → Option Rnd
  | 0 => some .rne
  | 1 => some .rtz
  | 2 => some .rdn
  | 3 => some .rup
  | 4 => some .rna
  | _ => none

def Rnd.toNat : Rnd → Nat
  | .rne => 0
  | .rtz => 1
  | .rdn => 2
  | .rup => 3
  | .rna => 4

def Fmt.ofCode : Nat → Option Fmt
  | 0 => some .f32
  | 1 => some .f64
  | 2 => some .f16
  | 3 => some .bf16
  | _ => none

def Fmt.toNat : Fmt → Nat
  | .f32 => 0
  | .f64 => 1
  | .f16 => 2
  | .bf16 => 3

def IntFmt.ofCode : Nat → Option IntFmt
  | 0 => some .s32
  | 1 => some .n32
  | 2 => some .s64
  | 3 => some .n64
  | _ => none

def IntFmt.toNat : IntFmt → Nat
  | .s32 => 0
  | .n32 => 1
  | .s64 => 2
  | .n64 => 3

def Narrow.ofCode : Nat → Option Narrow
  | 0 => some .e4m3
  | 1 => some .e5m2
  | 2 => some .e3m2
  | 3 => some .e2m3
  | 4 => some .e2m1
  | 5 => some .s8
  | _ => none

def Narrow.toNat : Narrow → Nat
  | .e4m3 => 0
  | .e5m2 => 1
  | .e3m2 => 2
  | .e2m3 => 3
  | .e2m1 => 4
  | .s8 => 5

def Size.ofCode : Nat → Option Size
  | 0 => some .b1
  | 1 => some .b2
  | 2 => some .b4
  | 3 => some .b8
  | _ => none

def Size.toNat : Size → Nat
  | .b1 => 0
  | .b2 => 1
  | .b4 => 2
  | .b8 => 3

def Scope.ofCode : Nat → Option Scope
  | 0 => some .core
  | 1 => some .sheaf
  | 2 => some .die
  | 3 => some .module
  | 4 => some .system
  | _ => none

def Scope.toNat : Scope → Nat
  | .core => 0
  | .sheaf => 1
  | .die => 2
  | .module => 3
  | .system => 4

/-- ORD 11 is RED, not an ATOM. -/
def AtomOrd.ofCode : Nat → Option AtomOrd
  | 0 => some .plain
  | 1 => some .acq
  | 2 => some .rel
  | _ => none

def AtomOrd.toNat : AtomOrd → Nat
  | .plain => 0
  | .acq => 1
  | .rel => 2

/-- `some x` when the bits that must be 0 are 0 (spec/03, R52). -/
def need (c : Bool) (x : Option α) : Option α := if c then x else none

def Rrr.parse (w : Nat) : Option Rrr := do
  some ⟨bitAt w 31, bitAt w 30, bitAt w 29, ← Reg.ofNat (fld w 22 7), ← Reg.ofNat (fld w 15 7), ← Reg.ofNat (fld w 8 7)⟩

/-- R format whose B holds a function; bit 30 is FB and must be 0. -/
def Rr.parse (w : Nat) : Option Rr := do
  need (!bitAt w 30) (some ⟨bitAt w 31, bitAt w 29, ← Reg.ofNat (fld w 15 7), ← Reg.ofNat (fld w 8 7)⟩)

def ShiftImm.parse (w : Nat) : Option ShiftImm := do
  some ⟨bitAt w 29, Fin.ofNat 64 (fld w 23 6), bitAt w 22, ← Reg.ofNat (fld w 15 7), ← Reg.ofNat (fld w 8 7)⟩

def CmpReg.parse (w : Nat) : Option CmpReg := do
  some ⟨bitAt w 31, bitAt w 30, bitAt w 29, ← Reg.ofNat (fld w 22 7), ← Reg.ofNat (fld w 15 7),
    Fin.ofNat 16 (fld w 11 4), Fin.ofNat 8 (fld w 8 3)⟩

def CmpImm.parse (w : Nat) : Option CmpImm := do
  some ⟨BitVec.ofNat 9 (fld w 23 9), bitAt w 22, ← Reg.ofNat (fld w 15 7),
    Fin.ofNat 16 (fld w 11 4), Fin.ofNat 8 (fld w 8 3)⟩

def Select.parse (w : Nat) : Option Select := do
  some ⟨Fin.ofNat 8 (fld w 29 3), ← Reg.ofNat (fld w 22 7), ← Reg.ofNat (fld w 15 7), ← Reg.ofNat (fld w 8 7)⟩

def PredOp.parse (w : Nat) : Option PredOp :=
  need (fld w 25 3 == 0 && fld w 18 4 == 0 && fld w 11 4 == 0)
    (some ⟨Fin.ofNat 16 (fld w 28 4), Fin.ofNat 8 (fld w 22 3), Fin.ofNat 8 (fld w 15 3), Fin.ofNat 8 (fld w 8 3)⟩)

def RegImm.parse (w : Nat) : Option RegImm := do
  some ⟨BitVec.ofNat 9 (fld w 23 9), bitAt w 22, ← Reg.ofNat (fld w 15 7), ← Reg.ofNat (fld w 8 7)⟩

def Jump.parse (w : Nat) : Jump :=
  ⟨BitVec.ofNat 20 (fld w 12 20), bitAt w 11, Fin.ofNat 8 (fld w 8 3)⟩

def Compact.parse (h : Nat) : Compact := ⟨Fin.ofNat 32 (fld h 11 5), Fin.ofNat 32 (fld h 6 5)⟩

/-- Major 0x31: X, FB and bit 22 must be 0. -/
def FUnary.parse (w : Nat) : Option FUnary := do
  need (!bitAt w 31 && !bitAt w 30 && !bitAt w 22)
    (some ⟨← Fmt.ofCode (fld w 23 2), bitAt w 29, ← Reg.ofNat (fld w 15 7), ← Reg.ofNat (fld w 8 7)⟩)

def CvtInt.parse (w : Nat) : Option CvtInt := do
  need (!bitAt w 30 && fld w 22 2 == 0)
    (some ⟨← Fmt.ofCode (fld w 27 2), ← IntFmt.ofCode (fld w 25 2), bitAt w 24, bitAt w 29,
      ← Reg.ofNat (fld w 15 7), ← Reg.ofNat (fld w 8 7)⟩)

def CvtWide.parse (w : Nat) : Option CvtWide := do
  need (!bitAt w 31 && !bitAt w 30 && fld w 22 3 == 0)
    (some ⟨← Fmt.ofCode (fld w 27 2), ← Fmt.ofCode (fld w 25 2), bitAt w 29,
      ← Reg.ofNat (fld w 15 7), ← Reg.ofNat (fld w 8 7)⟩)

def CvtNarrow.parse (w : Nat) : Option CvtNarrow := do
  need (!bitAt w 30 && fld w 22 2 == 0)
    (some ⟨bitAt w 31, ← Fmt.ofCode (fld w 27 2), ← Narrow.ofCode (fld w 24 3), bitAt w 29,
      ← Reg.ofNat (fld w 15 7), ← Reg.ofNat (fld w 8 7)⟩)

def Plane.parse (w : Nat) : Option Plane := do
  need (!bitAt w 30 && fld w 22 4 == 0 && fld w 26 3 != 7)
    (some ⟨Fin.ofNat 7 (fld w 26 3), bitAt w 29, ← Reg.ofNat (fld w 15 7), ← Reg.ofNat (fld w 8 7)⟩)

def MemImm.parse (w : Nat) : Option MemImm := do
  some ⟨BitVec.ofNat 9 (fld w 23 9), bitAt w 22, ← Quad.ofNat (fld w 17 5), ← Size.ofCode (fld w 15 2),
    ← Reg.ofNat (fld w 8 7)⟩

def MemIdx.parse (w : Nat) : Option MemIdx := do
  some ⟨bitAt w 31, bitAt w 30, bitAt w 29, ← Reg.ofNat (fld w 22 7), ← Quad.ofNat (fld w 17 5),
    ← Size.ofCode (fld w 15 2), ← Reg.ofNat (fld w 8 7)⟩

/-- LDC and STC: SZ must be 00 and D is a quad. -/
def MemCap.parse (w : Nat) : Option MemCap := do
  need (fld w 15 2 == 0 && fld w 8 2 == 0)
    (some ⟨BitVec.ofNat 9 (fld w 23 9), bitAt w 22, ← Quad.ofNat (fld w 17 5), ← Quad.ofNat (fld w 10 5)⟩)

/-- PREF and L1INV: SZ chooses among them and D must be 0. -/
def MemLine.parse (w : Nat) : Option MemLine := do
  need (fld w 8 7 == 0) (some ⟨BitVec.ofNat 9 (fld w 23 9), bitAt w 22, ← Quad.ofNat (fld w 17 5)⟩)

def CapQuad.parse (w : Nat) : Option CapQuad := do
  need (fld w 22 2 == 0 && fld w 8 2 == 0)
    (some ⟨bitAt w 30, bitAt w 29, ← Quad.ofNat (fld w 24 5), ← Quad.ofNat (fld w 17 5), ← Quad.ofNat (fld w 10 5)⟩)

def CapReg.parse (w : Nat) : Option CapReg := do
  need (fld w 8 2 == 0)
    (some ⟨bitAt w 30, bitAt w 29, ← Reg.ofNat (fld w 22 7), ← Quad.ofNat (fld w 17 5), ← Quad.ofNat (fld w 10 5)⟩)

def Scan.parse (w : Nat) : Option Scan := do
  need (!bitAt w 30)
    (some ⟨bitAt w 29, Fin.ofNat 16 (fld w 25 4), Fin.ofNat 8 (fld w 22 3), ← Reg.ofNat (fld w 15 7),
      ← Reg.ofNat (fld w 8 7)⟩)

def Spawn.parse (w : Nat) : Option Spawn := do
  need (fld w 22 2 == 0)
    (some ⟨bitAt w 30, bitAt w 29, ← Quad.ofNat (fld w 24 5), ← Reg.ofNat (fld w 15 7), ← Reg.ofNat (fld w 8 7)⟩)

def Fork.parse (w : Nat) : Option Fork := do
  need (fld w 22 2 == 0 && fld w 8 2 == 0)
    (some ⟨bitAt w 30, bitAt w 29, ← Quad.ofNat (fld w 24 5), ← Reg.ofNat (fld w 15 7), ← Quad.ofNat (fld w 10 5)⟩)

def Atomic.parse (w : Nat) : Option Atomic := do
  some ⟨bitAt w 31, bitAt w 30, bitAt w 29, ← Reg.ofNat (fld w 22 7), ← Quad.ofNat (fld w 17 5), ← Reg.ofNat (fld w 8 7)⟩

/-- MMA and MMAX: X, S and TD must be 0. -/
def MatStep.parse (w : Nat) : Option MatStep :=
  need (fld w 24 8 == 0 && fld w 12 4 == 0)
    (some ⟨Fin.ofNat 4 (fld w 8 2), Fin.ofNat 16 (fld w 16 4), Fin.ofNat 16 (fld w 20 4), bitAt w 10, bitAt w 11⟩)

/-- A is 0, 16, 32, 48, 64 or 80 (spec/13, R275). -/
def base16 (n : Nat) : Option (Fin 6) :=
  if h : n / 16 < 6 then (if n % 16 = 0 then some ⟨n / 16, h⟩ else none) else none

def CopyOp.parse (w : Nat) : Option CopyOp := do
  need (fld w 22 2 == 0 && fld w 8 2 == 0)
    (some ⟨bitAt w 30, bitAt w 29, ← Quad.ofNat (fld w 24 5), ← base16 (fld w 15 7), ← Quad.ofNat (fld w 10 5)⟩)

def CtrPair.parse (w : Nat) : Option CtrPair := do
  need (fld w 15 2 == 0 && fld w 8 7 == 0)
    (some ⟨bitAt w 31, bitAt w 30, bitAt w 29, ← Reg.ofNat (fld w 22 7), ← Quad.ofNat (fld w 17 5)⟩)

def CtrTest.parse (w : Nat) : Option CtrTest := do
  need (fld w 15 2 == 0 && fld w 11 4 == 0)
    (some ⟨bitAt w 30, bitAt w 29, ← Reg.ofNat (fld w 22 7), ← Quad.ofNat (fld w 17 5), Fin.ofNat 8 (fld w 8 3)⟩)

def CtrBind.parse (w : Nat) : Option CtrBind := do
  need (fld w 15 2 == 0 && fld w 8 2 == 0)
    (some ⟨bitAt w 30, bitAt w 29, ← Reg.ofNat (fld w 22 7), ← Quad.ofNat (fld w 17 5), ← Quad.ofNat (fld w 10 5)⟩)

def QueuePush.parse (w : Nat) : Option QueuePush := do
  need (fld w 15 2 == 0 && fld w 8 7 == 0)
    (some ⟨bitAt w 30, bitAt w 29, ← base16 (fld w 22 7), ← Quad.ofNat (fld w 17 5)⟩)

/-- The sub-field of A chooses the operation and is read by the caller. -/
def QuadReg.parse (w : Nat) : Option QuadReg := do
  some ⟨bitAt w 30, bitAt w 29, ← Reg.ofNat (fld w 22 7), ← Quad.ofNat (fld w 17 5), ← Reg.ofNat (fld w 8 7)⟩

/-- The predicate X:B bits 23:22 of HLD and TEX (spec/03, R69). -/
def histPred (w : Nat) : Fin 8 := Fin.ofNat 8 (fld w 22 2 + 4 * fld w 31 1)

def HistLoad.parse (w : Nat) : Option HistLoad := do
  some ⟨histPred w, bitAt w 30, bitAt w 29, ← Quad.ofNat (fld w 24 5), ← Quad.ofNat (fld w 17 5), ← Reg.ofNat (fld w 8 7)⟩

/-- HLDP reads no A: A bits 21:17 and FA must be 0. -/
def HistPos.parse (w : Nat) : Option HistPos := do
  need (!bitAt w 29 && fld w 17 5 == 0)
    (some ⟨histPred w, bitAt w 30, ← Quad.ofNat (fld w 24 5), ← Reg.ofNat (fld w 8 7)⟩)

def Texture.parse (w : Nat) : Option Texture := do
  need (fld w 15 2 == 0 && fld w 8 2 == 0)
    (some ⟨histPred w, bitAt w 30, bitAt w 29, ← Quad.ofNat (fld w 24 5), ← Quad.ofNat (fld w 17 5),
      ← Quad.ofNat (fld w 10 5)⟩)

def ThreeQuads.parse (w : Nat) : Option ThreeQuads := do
  need (fld w 22 2 == 0 && fld w 15 2 == 0 && fld w 8 2 == 0)
    (some ⟨bitAt w 30, bitAt w 29, ← Quad.ofNat (fld w 24 5), ← Quad.ofNat (fld w 17 5), ← Quad.ofNat (fld w 10 5)⟩)

/-- The sub-field of A chooses the operation and is read by the caller. -/
def TwoQuads.parse (w : Nat) : Option TwoQuads := do
  need (fld w 22 2 == 0)
    (some ⟨bitAt w 30, bitAt w 29, ← Quad.ofNat (fld w 24 5), ← Quad.ofNat (fld w 17 5), ← Reg.ofNat (fld w 8 7)⟩)

def KvHash.parse (w : Nat) : Option KvHash := do
  need (fld w 15 2 == 0 && fld w 8 2 == 0)
    (some ⟨bitAt w 30, bitAt w 29, ← Reg.ofNat (fld w 22 7), ← Quad.ofNat (fld w 17 5), ← Quad.ofNat (fld w 10 5)⟩)

/-- Majors 0x10 to 0x1F (spec/03, Table 3.5). -/
def parseShiftImm (w : Nat) : Option Instr :=
  match fld w 30 2 with
  | 0 => (ShiftImm.parse w).map .shli
  | 1 => (ShiftImm.parse w).map .shri
  | 2 => (ShiftImm.parse w).map .sari
  | _ => none

def parseMov (w : Nat) : Option Instr :=
  match fld w 22 7 with
  | 0 => (Rr.parse w).map .mov
  | 1 => (Rr.parse w).map .abs
  | 2 => (Rr.parse w).map .clz
  | 3 => (Rr.parse w).map .popc
  | 4 => (Rr.parse w).map .brev
  | _ => none

def parseSpecial (w : Nat) : Option Instr :=
  match fld w 30 2 with
  | 0 => need (fld w 15 8 == 0) (do some (.rdsr (Fin.ofNat 128 (fld w 23 7)) (← Reg.ofNat (fld w 8 7))))
  | 1 => need (fld w 8 7 == 0) (do some (.wrsr (Fin.ofNat 128 (fld w 23 7)) (bitAt w 22) (← Reg.ofNat (fld w 15 7))))
  | 2 => need (fld w 8 15 == 0 && fld w 27 3 == 0) (do some (.modeSet (bitAt w 26) (← Rnd.ofCode (fld w 23 3))))
  | _ => none

/-- Major 0x31 (spec/03, Table 3.9). -/
def parseFUnary (w : Nat) : Option Instr :=
  match fld w 25 4 with
  | 0 => (FUnary.parse w).map .fsqrt
  | 1 => (FUnary.parse w).map .fabs
  | 2 => (FUnary.parse w).map .fneg
  | 3 => (FUnary.parse w).map .fclass
  | 4 => (FUnary.parse w).map .frnd
  | 5 => (FUnary.parse w).map .sfuEx2
  | 6 => (FUnary.parse w).map .sfuLg2
  | 7 => (FUnary.parse w).map .sfuSin
  | 8 => (FUnary.parse w).map .sfuCos
  | 9 => (FUnary.parse w).map .sfuRcp
  | 10 => (FUnary.parse w).map .sfuRsq
  | 11 => (FUnary.parse w).map .sfuTanh
  | 12 => (FUnary.parse w).map .qnum
  | 13 => (FUnary.parse w).map .qden
  | _ => none

/-- Major 0x4A (spec/03, Table 3.11; spec/07, Table 7.7). -/
def parseCap (w : Nat) : Option Instr :=
  match fld w 31 1, fld w 15 2 with
  | 0, 0 => (CapQuad.parse w).map .cder
  | 0, 1 => (CapReg.parse w).map .cperm
  | 0, 2 =>
    if h : fld w 22 7 < 7 then
      need (!bitAt w 30)
        (do some (.cget ⟨fld w 22 7, h⟩ (bitAt w 29) (← Quad.ofNat (fld w 17 5)) (← Reg.ofNat (fld w 8 7))))
    else none
  | 0, 3 =>
    need (!bitAt w 30 && fld w 22 7 == 0)
      (do some (.ctag (bitAt w 29) (← Quad.ofNat (fld w 17 5)) (← Reg.ofNat (fld w 8 7))))
  | 1, 0 =>
    need (!bitAt w 30 && fld w 22 7 == 0 && fld w 8 2 == 0)
      (do some (.cseal (bitAt w 29) (← Quad.ofNat (fld w 17 5)) (← Quad.ofNat (fld w 10 5))))
  | _, _ => none

def parseLine (w : Nat) : Option Instr :=
  match fld w 15 2 with
  | 0 => (MemLine.parse w).map .prefL1
  | 1 => (MemLine.parse w).map .prefL2
  | 2 => (MemLine.parse w).map .l1inv
  | _ => none

/-- Major 0x4D (spec/03, Table 3.12). -/
def parseVote (w : Nat) : Option Instr :=
  let p : Fin 8 := Fin.ofNat 8 (fld w 22 3)
  match fld w 25 4 with
  | 0 => need (fld w 29 3 == 0 && fld w 15 7 == 0) (do some (.voteBallot p (← Reg.ofNat (fld w 8 7))))
  | 1 => need (fld w 29 3 == 0 && fld w 15 7 == 0) (do some (.voteAny p (← Reg.ofNat (fld w 8 7))))
  | 2 => need (fld w 29 3 == 0 && fld w 15 7 == 0) (do some (.voteAll p (← Reg.ofNat (fld w 8 7))))
  | 3 => need (fld w 22 3 == 0) ((Rr.parse w).map .matchLanes)
  | _ => none

/-- Major 0x50 (spec/09, Table 9.4). -/
def parseFibre (w : Nat) : Option Instr :=
  need (fld w 8 7 == 0) <|
    match fld w 27 5 with
    | 0 => need (fld w 15 12 == 0) (some .fexit)
    | 1 => need (fld w 15 12 == 0) (some .reconv)
    | 2 => need (fld w 15 12 == 0) (some .yield)
    | 3 => need (fld w 15 12 == 0) (some .lser)
    | 4 => need (fld w 15 12 == 0) (some .lsend)
    | 5 => need (fld w 18 9 == 0) ((Scope.ofCode (fld w 15 3)).map .fence)
    | 6 => need (fld w 19 8 == 0) (some (.win (Fin.ofNat 16 (fld w 15 4))))
    | _ => none

/-- The barrier of a major-0x51 word: bit 5 of IMM9 names the bank, bit 3 must be 0 for sb (spec/03, Table 3.12). -/
def parseBar (w : Nat) : Option Bar :=
  if bitAt w 28 then need (!bitAt w 26) (some (.shf (Fin.ofNat 8 (fld w 23 3))))
  else some (.blk (Fin.ofNat 16 (fld w 23 4)))

def parseBarrier (w : Nat) : Option Instr :=
  need (fld w 8 7 == 0 && !bitAt w 27) <|
    match fld w 30 2 with
    | 0 => need (fld w 15 8 == 0) ((parseBar w).map (.bara (bitAt w 29)))
    | 1 => need (fld w 15 8 == 0) ((parseBar w).map (.barw (bitAt w 29)))
    | 2 => need (!bitAt w 29) (do some (.barm (← parseBar w) (bitAt w 22) (← Reg.ofNat (fld w 15 7))))
    | _ => none

/-- Majors 0x52 to 0x5B: ORD 11 is RED where the operation has one (spec/03, R66). -/
def parseAtomic (atom : AtomOrd → Atomic → Instr) (red : Option (Atomic → Instr)) (w : Nat) : Option Instr := do
  let o ← Atomic.parse w
  match AtomOrd.ofCode (fld w 15 2), red with
  | some ord, _ => some (atom ord o)
  | none, some f => some (f o)
  | none, none => none

/-- T format (spec/11, Table 11.3): S in bits 30:24, TB 23:20, TA 19:16, TD 15:12, MOD 11:8. -/
def parseTileCtl (w : Nat) : Option Instr :=
  need (fld w 16 8 == 0 && fld w 8 4 == 0) <| do
    let s ← Reg.ofNat (fld w 24 7)
    some (if bitAt w 31 then .tcrd s (Fin.ofNat 16 (fld w 12 4)) else .tcfg s (Fin.ofNat 16 (fld w 12 4)))

/-- A scalar quad base in S whose first register plus `k` more quads stays in range: 64, 68, ... -/
def scalarBase (n : Nat) (w : Nat) : Option (Fin n) :=
  let s := fld w 24 7
  if 64 ≤ s ∧ s % 4 = 0 then (if h : (s - 64) / 4 < n then some ⟨(s - 64) / 4, h⟩ else none) else none

def parseMatrix (m : Nat) (w : Nat) : Option Instr :=
  let x := bitAt w 31
  let td : Fin 16 := Fin.ofNat 16 (fld w 12 4)
  let ta : Fin 16 := Fin.ofNat 16 (fld w 16 4)
  let tb : Fin 16 := Fin.ofNat 16 (fld w 20 4)
  let md := fld w 8 4
  let q : Fin 4 := Fin.ofNat 4 (fld w 8 2)
  match m with
  | 0x5D => need (!x && fld w 16 8 == 0) (do some (.tld (← scalarBase 7 w) td (bitAt w 11) (Fin.ofNat 8 (fld w 8 3))))
  | 0x5E => need (!x && fld w 16 8 == 0 && !bitAt w 11) (do some (.tst (← scalarBase 7 w) td (Fin.ofNat 8 (fld w 8 3))))
  | 0x5F => need (fld w 16 16 == 0 && md == 0) (some (.tzero td))
  | 0x60 => need (fld w 12 19 == 0)
      (some (if x then .mrel (Fin.ofNat 16 md) else .macq (Fin.ofNat 16 md)))
  | 0x61 => (MatStep.parse w).map .mma
  | 0x62 => (MatStep.parse w).map .mmax
  | 0x63 => need (fld w 24 8 == 0 && td.val == 0) (some (.msca q (Fin.ofNat 4 (fld w 10 2)) ta tb))
  | 0x64 => need (!x && td.val == 0) (do some (.mloop (← scalarBase 6 w) (Fin.ofNat 16 md) ta tb))
  | 0x65 =>
    need (fld w 12 12 == 0) <| do
      let s ← scalarBase 7 w
      if x then (if h : fld w 10 2 < 3 then some (.acst s ⟨fld w 10 2, h⟩ q) else none)
      else need (fld w 10 2 == 0) (some (.acld s q))
  | 0x66 => need (!x && !bitAt w 23 && fld w 8 6 == 0)
      (do some (.acrd (← Reg.ofNat (fld w 24 7)) (Fin.ofNat 128 (fld w 16 7)) (Fin.ofNat 4 (fld w 14 2))))
  | 0x67 => need (fld w 12 20 == 0) (some (.acz (Fin.ofNat 16 md)))
  | _ => none

/-- Majors 0x68 to 0x7D (spec/03, R68 to R70; spec/13, Table 13.4; spec/15, Table 15.6; spec/17, Table 17.4;
spec/19, Table 19.5). Bit 31 of MARK is bit 16 of its number, where R284 has an X bit that must be 0 (notes/assumptions/127). -/
def parseEngine (m : Nat) (w : Nat) : Option Instr :=
  let x := bitAt w 31
  let sub := fld w 15 2
  match m with
  | 0x68 => (CopyOp.parse w).map (if x then .copyg else .copy)
  | 0x69 => need (fld w 8 24 == 0) (some .cfence)
  | 0x6A => (CtrPair.parse w).map .cadd
  | 0x6B => (CtrPair.parse w).map .cwait
  | 0x6C =>
    if x then need (!bitAt w 30 && fld w 22 7 == 0 && sub == 0)
      (do some (.cread (bitAt w 29) (← Quad.ofNat (fld w 17 5)) (← Reg.ofNat (fld w 8 7))))
    else (CtrTest.parse w).map .ctest
  | 0x6D => need (!x) ((CtrBind.parse w).map .cbind)
  | 0x6E => if x then need (sub == 0) ((QuadReg.parse w).map .qres) else (QueuePush.parse w).map .qpush
  | 0x6F => need (!x && !bitAt w 30 && fld w 22 7 == 0 && sub == 0 && fld w 8 7 == 0)
      (do some (.qdone (bitAt w 29) (← Quad.ofNat (fld w 17 5))))
  | 0x70 => need (fld w 8 7 == 0) (some (.mark (BitVec.ofNat 17 (fld w 15 17))))
  | 0x71 => need (!x && fld w 22 2 == 0 && sub == 0 && fld w 8 7 == 0)
      (do some (.ttbind (bitAt w 30) (bitAt w 29) (← Quad.ofNat (fld w 24 5)) (← Quad.ofNat (fld w 17 5))))
  | 0x72 =>
    match sub with
    | 0 => (HistLoad.parse w).map .hld
    | 1 => (HistLoad.parse w).map .hldF
    | 2 => (HistPos.parse w).map .hldp
    | _ => none
  | 0x73 => need (!x && fld w 22 2 == 0 && sub == 0 && fld w 8 7 == 0)
      (do some (.hfold (bitAt w 30) (bitAt w 29) (← Quad.ofNat (fld w 24 5)) (← Quad.ofNat (fld w 17 5))))
  | 0x74 => need (!bitAt w 30 && fld w 22 7 == 0 && fld w 8 7 == 0) <| do
      let a ← Reg.ofNat (fld w 15 7)
      some (if x then .hopen (bitAt w 29) a else .hseal (bitAt w 29) a)
  | 0x75 => (Texture.parse w).map .tex
  | 0x76 => need (!x) ((CtrTest.parse w).map .tri)
  | 0x77 => need (!x) ((ThreeQuads.parse w).map .cutsel)
  | 0x78 => need (!x && sub == 0) ((TwoQuads.parse w).map .trace)
  | 0x79 => need (!x) ((ThreeQuads.parse w).map .halo)
  | 0x7A => need (!x) ((KvHash.parse w).map .kvhash)
  | 0x7B =>
    need (!x) <|
      match sub with
      | 0 => (TwoQuads.parse w).map .kvlookLook
      | 1 => (TwoQuads.parse w).map .kvlookTake
      | 2 => (TwoQuads.parse w).map .kvlookPub
      | _ => none
  | 0x7C =>
    if x then
      match sub with
      | 0 => (QuadReg.parse w).map .kvrelDrop
      | 1 => (TwoQuads.parse w).map .kvrelKill
      | 2 => (QuadReg.parse w).map .kvrelStep
      | _ => (QuadReg.parse w).map .kvrelUnpin
    else need (sub == 0) ((TwoQuads.parse w).map .kvapp)
  | 0x7D => if x then (ThreeQuads.parse w).map .lmerge else need (sub == 0) ((QuadReg.parse w).map .loft)
  | 0x7F => need (fld w 8 24 == 0) (some .ill)
  | _ => none

/-- Majors 0x28 to 0x3F but 0x31 (spec/03, Table 3.8). -/
def parseFloat (m : Nat) (w : Nat) : Option Instr :=
  match m with
  | 0x28 => (Rrr.parse w).map .fadd
  | 0x29 => (Rrr.parse w).map .fsub
  | 0x2A => (Rrr.parse w).map .fmul
  | 0x2B => (Rrr.parse w).map .fma
  | 0x2C => (Rrr.parse w).map .fdiv
  | 0x2D => (Rrr.parse w).map .fmin
  | 0x2E => (Rrr.parse w).map .fmax
  | 0x2F => (Rrr.parse w).map .fcpys
  | 0x30 => (CmpReg.parse w).map .fcmp
  | 0x31 => parseFUnary w
  | 0x32 => (CvtInt.parse w).map (if bitAt w 31 then .cvtf else .cvti)
  | 0x33 => (CvtWide.parse w).map .cvtw
  | 0x34 => (CvtNarrow.parse w).map .cvtn
  | 0x35 => (CvtNarrow.parse w).map .cvtx
  | 0x36 => (Plane.parse w).map (if bitAt w 31 then .upkp else .pkp)
  | 0x37 => (Rrr.parse w).map .qmake
  | 0x38 => (Rrr.parse w).map .qlim
  | 0x39 => (Rrr.parse w).map .fadd16
  | 0x3A => (Rrr.parse w).map .fsub16
  | 0x3B => (Rrr.parse w).map .fmul16
  | 0x3C => (Rrr.parse w).map .fma16
  | 0x3D => (Rrr.parse w).map .fmin16
  | 0x3E => (Rrr.parse w).map .fmax16
  | 0x3F => (CmpReg.parse w).map .fcmp16
  | _ => none

/-- Majors 0x40 to 0x5B (spec/03, Tables 3.11 and 3.12). -/
def parseMemory (m : Nat) (w : Nat) : Option Instr :=
  match m with
  | 0x40 => (MemImm.parse w).map .ld
  | 0x41 => (MemImm.parse w).map .ldS
  | 0x42 => (MemIdx.parse w).map .ldx
  | 0x43 => (MemIdx.parse w).map .ldxS
  | 0x44 => (MemImm.parse w).map .st
  | 0x45 => (MemIdx.parse w).map .stx
  | 0x46 => (MemImm.parse w).map .ldAcq
  | 0x47 => (MemImm.parse w).map .stRel
  | 0x48 => (MemCap.parse w).map .ldc
  | 0x49 => (MemCap.parse w).map .stc
  | 0x4A => parseCap w
  | 0x4B => parseLine w
  | 0x4C => (Rrr.parse w).map .shfl
  | 0x4D => parseVote w
  | 0x4E => (Scan.parse w).map (if bitAt w 31 then .redg else .scan)
  | 0x4F => if bitAt w 31 then (Fork.parse w).map .fork else (Spawn.parse w).map .spawn
  | 0x50 => parseFibre w
  | 0x51 => parseBarrier w
  | 0x52 => parseAtomic .atomAdd (some .redAdd) w
  | 0x53 => parseAtomic .atomMinS (some .redMinS) w
  | 0x54 => parseAtomic .atomMinN (some .redMinN) w
  | 0x55 => parseAtomic .atomMaxS (some .redMaxS) w
  | 0x56 => parseAtomic .atomMaxN (some .redMaxN) w
  | 0x57 => parseAtomic .atomAnd (some .redAnd) w
  | 0x58 => parseAtomic .atomOr (some .redOr) w
  | 0x59 => parseAtomic .atomXor (some .redXor) w
  | 0x5A => parseAtomic .atomXchg none w
  | 0x5B => parseAtomic .atomCas none w
  | _ => none

/-- Majors 0x00 to 0x27 (spec/03, Tables 3.5 and 3.7). -/
def parseInteger (m : Nat) (w : Nat) : Option Instr :=
  match m with
  | 0x00 => (Rrr.parse w).map .add
  | 0x01 => (Rrr.parse w).map .sub
  | 0x02 => (Rrr.parse w).map .mul
  | 0x03 => (Rrr.parse w).map .mulhi
  | 0x04 => (Rrr.parse w).map .mad
  | 0x05 => (Rrr.parse w).map .div
  | 0x06 => (Rrr.parse w).map .rem
  | 0x07 => (Rrr.parse w).map .min
  | 0x08 => (Rrr.parse w).map .max
  | 0x09 => (Rrr.parse w).map .and
  | 0x0A => (Rrr.parse w).map .or
  | 0x0B => (Rrr.parse w).map .xor
  | 0x0C => (Rrr.parse w).map .andn
  | 0x0D => (Rrr.parse w).map .shl
  | 0x0E => (Rrr.parse w).map .shr
  | 0x0F => (Rrr.parse w).map .sar
  | 0x10 => parseShiftImm w
  | 0x11 => parseMov w
  | 0x12 => (Rrr.parse w).map .bfx
  | 0x13 => (Rrr.parse w).map .bfi
  | 0x14 => (Rrr.parse w).map .lea
  | 0x15 => (CmpReg.parse w).map .cmp
  | 0x16 => (CmpImm.parse w).map .cmpi
  | 0x17 => (Select.parse w).map .sel
  | 0x18 => (PredOp.parse w).map .plop
  | 0x19 => do some (.movi (BitVec.ofNat 17 (fld w 15 17)) (← Reg.ofNat (fld w 8 7)))
  | 0x1A => need (!bitAt w 31) (do some (.movhi (BitVec.ofNat 16 (fld w 15 16)) (← Reg.ofNat (fld w 8 7))))
  | 0x1B => parseSpecial w
  | 0x1C => (RegImm.parse w).map .addi
  | 0x1D => (RegImm.parse w).map .andi
  | 0x1E => (RegImm.parse w).map .ori
  | 0x1F => (RegImm.parse w).map .xori
  | 0x20 => some (.br (Jump.parse w))
  | 0x21 => some (.call (Jump.parse w))
  | 0x22 => need (fld w 8 24 == 0) (some .ret)
  | 0x23 => (RegImm.parse w).map .jr
  | 0x24 => need (fld w 8 24 == 0) (some .nop)
  | 0x25 => need (fld w 8 7 == 0) (some (.trap (BitVec.ofNat 17 (fld w 15 17))))
  | 0x26 => need (fld w 8 24 == 0) (some .rtt)
  | 0x27 => need (fld w 8 7 == 0) (some (.brk (BitVec.ofNat 17 (fld w 15 17))))
  | _ => none

/-- A 32-bit word by its major opcode, bits 7:1 (spec/03, R50, R58). -/
def parse32 (w : Nat) : Option Instr :=
  let m := fld w 1 7
  if m < 0x28 then parseInteger m w
  else if m < 0x40 then parseFloat m w
  else if m < 0x5C then parseMemory m w
  else if m = 0x5C then parseTileCtl w
  else if m < 0x68 then parseMatrix m w
  else parseEngine m w

/-- The compact operations (spec/03, Table 3.3). -/
def parseCompact (h : Nat) : Instr :=
  let o := Compact.parse h
  match fld h 2 4 with
  | 0 => .addS32Compact o
  | 1 => .subS32Compact o
  | 2 => .mulS32Compact o
  | 3 => .andCompact o
  | 4 => .orCompact o
  | 5 => .xorCompact o
  | 6 => .shlS32Compact o
  | 7 => .shrN32Compact o
  | 8 => .sarS32Compact o
  | 9 => .minS32Compact o
  | 10 => .maxS32Compact o
  | 11 => .movCompact o
  | 12 => .faddF32Compact o
  | 13 => .fsubF32Compact o
  | 14 => .fmulF32Compact o
  | _ => .fmaxF32Compact o

/-- A half-word with bit 0 = 0: compact, GUARD or DREF (spec/02, R43; spec/03, R56, R57). -/
def parse16 (h : Nat) : Option Instr :=
  if !bitAt h 1 then some (parseCompact h)
  else
    match fld h 12 4 with
    | 0 => some (.dref (Fin.ofNat 1024 (fld h 2 10)))
    | 1 => need (fld h 2 6 == 0) (some (.guard (bitAt h 11) (Fin.ofNat 8 (fld h 8 3))))
    | _ => none

/-- The instruction of a 32-bit word, if it is one (spec/03, R71, R72). -/
def decode32 (w : Nat) : Option Instr := (parse32 w).filter Instr.wellFormed

/-- The instruction of a half-word with bit 0 = 0, if it is one. -/
def decode16 (h : Nat) : Option Instr := (parse16 h).filter Instr.wellFormed

/-- Why bytes are no instruction. -/
inductive DecodeError where
  /-- Fewer bytes than the instruction has. -/
  | truncated
  /-- An encoding that is not an instruction: its bits and its length in bytes (spec/02, R45). -/
  | notInstruction (bits : Nat) (len : Nat)
  deriving DecidableEq, Repr

/-- Two bytes as a half-word, little-endian. -/
def half (lo hi : Byte) : Nat := lo.toNat + 256 * hi.toNat

/-- The instruction at the start of `bs`, and its length (spec/02, R42). -/
def decode : List Byte → Except DecodeError (Instr × Nat)
  | b0 :: b1 :: rest =>
    let h := half b0 b1
    if bitAt h 0 then
      match rest with
      | b2 :: b3 :: _ =>
        let w := h + 65536 * half b2 b3
        match decode32 w with
        | some i => .ok (i, 4)
        | none => .error (.notInstruction w 4)
      | _ => .error .truncated
    else
      match decode16 h with
      | some i => .ok (i, 2)
      | none => .error (.notInstruction h 2)
  | _ => .error .truncated

/-- Byte `k` of `w`. -/
def byteOf (w k : Nat) : Byte := BitVec.ofNat 8 (w / 256 ^ k)

/-- What the decoder reads from an instruction whose bits are `w`, numbered as the table of operations numbers them. -/
def decodeTableWord (nbits w : Nat) : Option Instr :=
  let v := w % 2 ^ nbits
  match decode [byteOf v 0, byteOf v 1, byteOf v 2, byteOf v 3] with
  | .ok (i, _) => some i
  | .error _ => none

/-- Fields from bit 0 upward, each a value and a width. -/
def pack : List (Nat × Nat) → Nat
  | [] => 0
  | (v, n) :: r => v % 2 ^ n + 2 ^ n * pack r

/-- A 32-bit word: bit 0 = 1, the major, and the fields from bit 8 upward. -/
def word32 (major : Nat) (fields : List (Nat × Nat)) : Nat := pack ((1, 1) :: (major, 7) :: fields)

def nb (b : Bool) : Nat := if b then 1 else 0

def rg (r : Reg) : Nat × Nat := (r.toNat, 7)
def qd (q : Quad) (sub : Nat) : List (Nat × Nat) := [(sub, 2), (q.toNat, 5)]

def Rrr.enc (m : Nat) (o : Rrr) : Nat :=
  word32 m [rg o.d, rg o.a, rg o.b, (nb o.fa, 1), (nb o.fb, 1), (nb o.x, 1)]

def Rr.enc (m f : Nat) (o : Rr) : Nat :=
  word32 m [rg o.d, rg o.a, (f, 7), (nb o.fa, 1), (0, 1), (nb o.x, 1)]

def ShiftImm.enc (f : Nat) (o : ShiftImm) : Nat :=
  word32 0x10 [rg o.d, rg o.a, (nb o.fa, 1), (o.n.val, 6), (nb o.wide, 1), (f, 2)]

def CmpReg.enc (m : Nat) (o : CmpReg) : Nat :=
  word32 m [(o.p.val, 3), (o.cond.val, 4), rg o.a, rg o.b, (nb o.fa, 1), (nb o.fb, 1), (nb o.x, 1)]

def CmpImm.enc (m : Nat) (o : CmpImm) : Nat :=
  word32 m [(o.p.val, 3), (o.cond.val, 4), rg o.a, (nb o.fa, 1), (o.i.toNat, 9)]

def RegImm.enc (m : Nat) (o : RegImm) : Nat :=
  word32 m [rg o.d, rg o.a, (nb o.fa, 1), (o.i.toNat, 9)]

def Jump.enc (m : Nat) (o : Jump) : Nat :=
  word32 m [(o.p.val, 3), (nb o.neg, 1), (o.off.toNat, 20)]

def Compact.enc (op : Nat) (o : Compact) : Nat := pack [(0, 2), (op, 4), (o.d.val, 5), (o.b.val, 5)]

def FUnary.enc (op : Nat) (o : FUnary) : Nat :=
  word32 0x31 [rg o.d, rg o.a, (0, 1), (o.fmt.toNat, 2), (op, 4), (nb o.fa, 1), (0, 2)]

def CvtInt.enc (x : Nat) (o : CvtInt) : Nat :=
  word32 0x32 [rg o.d, rg o.a, (0, 2), (nb o.t, 1), (o.ii.toNat, 2), (o.ff.toNat, 2), (nb o.fa, 1), (0, 1), (x, 1)]

def CvtNarrow.enc (m : Nat) (o : CvtNarrow) : Nat :=
  word32 m [rg o.d, rg o.a, (0, 2), (o.nn.toNat, 3), (o.ff.toNat, 2), (nb o.fa, 1), (0, 1), (nb o.sat, 1)]

def Plane.enc (x : Nat) (o : Plane) : Nat :=
  word32 0x36 [rg o.d, rg o.a, (0, 4), (o.w.val, 3), (nb o.fa, 1), (0, 1), (x, 1)]

def MemImm.enc (m : Nat) (o : MemImm) : Nat :=
  word32 m (rg o.d :: qd o.a o.sz.toNat ++ [(nb o.fa, 1), (o.i.toNat, 9)])

def MemIdx.enc (m : Nat) (o : MemIdx) : Nat :=
  word32 m (rg o.d :: qd o.a o.sz.toNat ++ [rg o.b, (nb o.fa, 1), (nb o.fb, 1), (nb o.x, 1)])

def MemCap.enc (m : Nat) (o : MemCap) : Nat :=
  word32 m (qd o.d 0 ++ qd o.a 0 ++ [(nb o.fa, 1), (o.i.toNat, 9)])

def MemLine.enc (sub : Nat) (o : MemLine) : Nat :=
  word32 0x4B ((0, 7) :: qd o.a sub ++ [(nb o.fa, 1), (o.i.toNat, 9)])

def Scan.enc (x : Nat) (o : Scan) : Nat :=
  word32 0x4E [rg o.d, rg o.a, (o.ty.val, 3), (o.op.val, 4), (nb o.fa, 1), (0, 1), (x, 1)]

/-- Words of major 0x50: the sub-operation and its argument. -/
def encFibre (sub arg : Nat) : Nat := word32 0x50 [(0, 7), (arg, 12), (sub, 5)]

def Bar.fields : Bar → List (Nat × Nat)
  | .blk n => [(n.val, 4), (0, 1), (0, 1)]
  | .shf n => [(n.val, 4), (0, 1), (1, 1)]

def Atomic.enc (m ord : Nat) (o : Atomic) : Nat :=
  word32 m (rg o.d :: qd o.a ord ++ [rg o.b, (nb o.fa, 1), (nb o.fb, 1), (nb o.x, 1)])

/-- T format from MOD upward. -/
def encT (m : Nat) (md td ta tb s x : Nat) : Nat :=
  word32 m [(md, 4), (td, 4), (ta, 4), (tb, 4), (s, 7), (x, 1)]

def MatStep.enc (m : Nat) (o : MatStep) : Nat :=
  encT m (o.q.val + 4 * nb o.z + 8 * nb o.t) 0 o.ta.val o.tb.val 0 0

def CopyOp.enc (x : Nat) (o : CopyOp) : Nat :=
  word32 0x68 (qd o.d 0 ++ [(16 * o.a.val, 7)] ++ qd o.b 0 ++ [(nb o.fa, 1), (nb o.fb, 1), (x, 1)])

def CtrPair.enc (m : Nat) (o : CtrPair) : Nat :=
  word32 m ((0, 7) :: qd o.a 0 ++ [rg o.b, (nb o.fa, 1), (nb o.fb, 1), (nb o.x, 1)])

def CtrTest.enc (m : Nat) (o : CtrTest) : Nat :=
  word32 m ([(o.p.val, 3), (0, 4)] ++ qd o.a 0 ++ [rg o.b, (nb o.fa, 1), (nb o.fb, 1), (0, 1)])

def QuadReg.enc (m sub x : Nat) (o : QuadReg) : Nat :=
  word32 m (rg o.d :: qd o.a sub ++ [rg o.b, (nb o.fa, 1), (nb o.fb, 1), (x, 1)])

/-- The coordinate quad, its predicate and the bits above it, of HLD, HLDP and TEX. -/
def histFields (p : Fin 8) (c : Quad) (fa fb : Bool) : List (Nat × Nat) :=
  [(p.val % 4, 2), (c.toNat, 5), (nb fa, 1), (nb fb, 1), (p.val / 4, 1)]

def HistLoad.enc (sub : Nat) (o : HistLoad) : Nat :=
  word32 0x72 (rg o.d :: qd o.a sub ++ histFields o.p o.c o.fa o.fb)

/-- Words with quads in B and A: the fields above D. -/
def twoQuads (b a : Quad) (sub : Nat) (fa fb : Bool) (x : Nat) : List (Nat × Nat) :=
  qd a sub ++ qd b 0 ++ [(nb fa, 1), (nb fb, 1), (x, 1)]

def ThreeQuads.enc (m x : Nat) (o : ThreeQuads) : Nat := word32 m (qd o.d 0 ++ twoQuads o.b o.a 0 o.fa o.fb x)

def TwoQuads.enc (m sub x : Nat) (o : TwoQuads) : Nat := word32 m (rg o.d :: twoQuads o.b o.a sub o.fa o.fb x)

/-- The bits of an instruction and its length in bytes; events are no words. -/
def encodeWord : Instr → Option (Nat × Nat)
  | .add o => some (o.enc 0, 4)
  | .sub o => some (o.enc 1, 4)
  | .mul o => some (o.enc 2, 4)
  | .mulhi o => some (o.enc 3, 4)
  | .mad o => some (o.enc 4, 4)
  | .div o => some (o.enc 5, 4)
  | .rem o => some (o.enc 6, 4)
  | .min o => some (o.enc 7, 4)
  | .max o => some (o.enc 8, 4)
  | .and o => some (o.enc 9, 4)
  | .or o => some (o.enc 10, 4)
  | .xor o => some (o.enc 11, 4)
  | .andn o => some (o.enc 12, 4)
  | .shl o => some (o.enc 13, 4)
  | .shr o => some (o.enc 14, 4)
  | .sar o => some (o.enc 15, 4)
  | .shli o => some (o.enc 0, 4)
  | .shri o => some (o.enc 1, 4)
  | .sari o => some (o.enc 2, 4)
  | .mov o => some (o.enc 0x11 0, 4)
  | .abs o => some (o.enc 0x11 1, 4)
  | .clz o => some (o.enc 0x11 2, 4)
  | .popc o => some (o.enc 0x11 3, 4)
  | .brev o => some (o.enc 0x11 4, 4)
  | .bfx o => some (o.enc 0x12, 4)
  | .bfi o => some (o.enc 0x13, 4)
  | .lea o => some (o.enc 0x14, 4)
  | .cmp o => some (o.enc 0x15, 4)
  | .cmpi o => some (o.enc 0x16, 4)
  | .sel o => some (word32 0x17 [rg o.d, rg o.a, rg o.b, (o.p.val, 3)], 4)
  | .plop o => some (word32 0x18 [(o.pd.val, 3), (0, 4), (o.pa.val, 3), (0, 4), (o.pb.val, 3), (0, 3), (o.tt.val, 4)], 4)
  | .movi i d => some (word32 0x19 [rg d, (i.toNat, 17)], 4)
  | .movhi i d => some (word32 0x1A [rg d, (i.toNat, 16), (0, 1)], 4)
  | .rdsr n d => some (word32 0x1B [rg d, (0, 8), (n.val, 7), (0, 2)], 4)
  | .wrsr n fa a => some (word32 0x1B [(0, 7), rg a, (nb fa, 1), (n.val, 7), (1, 2)], 4)
  | .modeSet rat rnd => some (word32 0x1B [(0, 15), (rnd.toNat, 3), (nb rat, 1), (0, 3), (2, 2)], 4)
  | .addi o => some (o.enc 0x1C, 4)
  | .andi o => some (o.enc 0x1D, 4)
  | .ori o => some (o.enc 0x1E, 4)
  | .xori o => some (o.enc 0x1F, 4)
  | .br o => some (o.enc 0x20, 4)
  | .call o => some (o.enc 0x21, 4)
  | .ret => some (word32 0x22 [(0, 24)], 4)
  | .jr o => some (o.enc 0x23, 4)
  | .nop => some (word32 0x24 [(0, 24)], 4)
  | .trap i => some (word32 0x25 [(0, 7), (i.toNat, 17)], 4)
  | .rtt => some (word32 0x26 [(0, 24)], 4)
  | .brk i => some (word32 0x27 [(0, 7), (i.toNat, 17)], 4)
  | .guard neg p => some (pack [(2, 8), (p.val, 3), (nb neg, 1), (1, 4)], 2)
  | .dref e => some (pack [(2, 2), (e.val, 10), (0, 4)], 2)
  | .addS32Compact o => some (o.enc 0, 2)
  | .subS32Compact o => some (o.enc 1, 2)
  | .mulS32Compact o => some (o.enc 2, 2)
  | .andCompact o => some (o.enc 3, 2)
  | .orCompact o => some (o.enc 4, 2)
  | .xorCompact o => some (o.enc 5, 2)
  | .shlS32Compact o => some (o.enc 6, 2)
  | .shrN32Compact o => some (o.enc 7, 2)
  | .sarS32Compact o => some (o.enc 8, 2)
  | .minS32Compact o => some (o.enc 9, 2)
  | .maxS32Compact o => some (o.enc 10, 2)
  | .movCompact o => some (o.enc 11, 2)
  | .faddF32Compact o => some (o.enc 12, 2)
  | .fsubF32Compact o => some (o.enc 13, 2)
  | .fmulF32Compact o => some (o.enc 14, 2)
  | .fmaxF32Compact o => some (o.enc 15, 2)
  | .fadd o => some (o.enc 0x28, 4)
  | .fsub o => some (o.enc 0x29, 4)
  | .fmul o => some (o.enc 0x2A, 4)
  | .fma o => some (o.enc 0x2B, 4)
  | .fdiv o => some (o.enc 0x2C, 4)
  | .fmin o => some (o.enc 0x2D, 4)
  | .fmax o => some (o.enc 0x2E, 4)
  | .fcpys o => some (o.enc 0x2F, 4)
  | .fcmp o => some (o.enc 0x30, 4)
  | .fsqrt o => some (o.enc 0, 4)
  | .fabs o => some (o.enc 1, 4)
  | .fneg o => some (o.enc 2, 4)
  | .fclass o => some (o.enc 3, 4)
  | .frnd o => some (o.enc 4, 4)
  | .sfuEx2 o => some (o.enc 5, 4)
  | .sfuLg2 o => some (o.enc 6, 4)
  | .sfuSin o => some (o.enc 7, 4)
  | .sfuCos o => some (o.enc 8, 4)
  | .sfuRcp o => some (o.enc 9, 4)
  | .sfuRsq o => some (o.enc 10, 4)
  | .sfuTanh o => some (o.enc 11, 4)
  | .qnum o => some (o.enc 12, 4)
  | .qden o => some (o.enc 13, 4)
  | .cvti o => some (o.enc 0, 4)
  | .cvtf o => some (o.enc 1, 4)
  | .cvtw o => some (word32 0x33 [rg o.d, rg o.a, (0, 3), (o.dst.toNat, 2), (o.src.toNat, 2), (nb o.fa, 1), (0, 2)], 4)
  | .cvtn o => some (o.enc 0x34, 4)
  | .cvtx o => some (o.enc 0x35, 4)
  | .pkp o => some (o.enc 0, 4)
  | .upkp o => some (o.enc 1, 4)
  | .qmake o => some (o.enc 0x37, 4)
  | .qlim o => some (o.enc 0x38, 4)
  | .fadd16 o => some (o.enc 0x39, 4)
  | .fsub16 o => some (o.enc 0x3A, 4)
  | .fmul16 o => some (o.enc 0x3B, 4)
  | .fma16 o => some (o.enc 0x3C, 4)
  | .fmin16 o => some (o.enc 0x3D, 4)
  | .fmax16 o => some (o.enc 0x3E, 4)
  | .fcmp16 o => some (o.enc 0x3F, 4)
  | .ld o => some (o.enc 0x40, 4)
  | .ldS o => some (o.enc 0x41, 4)
  | .ldx o => some (o.enc 0x42, 4)
  | .ldxS o => some (o.enc 0x43, 4)
  | .st o => some (o.enc 0x44, 4)
  | .stx o => some (o.enc 0x45, 4)
  | .ldAcq o => some (o.enc 0x46, 4)
  | .stRel o => some (o.enc 0x47, 4)
  | .ldc o => some (o.enc 0x48, 4)
  | .stc o => some (o.enc 0x49, 4)
  | .cder o => some (word32 0x4A (qd o.d 0 ++ twoQuads o.b o.a 0 o.fa o.fb 0), 4)
  | .cperm o => some (word32 0x4A (qd o.d 0 ++ qd o.a 1 ++ [rg o.b, (nb o.fa, 1), (nb o.fb, 1), (0, 1)]), 4)
  | .cget f fa a d => some (word32 0x4A (rg d :: qd a 2 ++ [(f.val, 7), (nb fa, 1), (0, 2)]), 4)
  | .ctag fa a d => some (word32 0x4A (rg d :: qd a 3 ++ [(0, 7), (nb fa, 1), (0, 2)]), 4)
  | .cseal fa a d => some (word32 0x4A (qd d 0 ++ qd a 0 ++ [(0, 7), (nb fa, 1), (0, 1), (1, 1)]), 4)
  | .prefL1 o => some (o.enc 0, 4)
  | .prefL2 o => some (o.enc 1, 4)
  | .l1inv o => some (o.enc 2, 4)
  | .shfl o => some (o.enc 0x4C, 4)
  | .voteBallot p d => some (word32 0x4D [rg d, (0, 7), (p.val, 3), (0, 4), (0, 3)], 4)
  | .voteAny p d => some (word32 0x4D [rg d, (0, 7), (p.val, 3), (1, 4), (0, 3)], 4)
  | .voteAll p d => some (word32 0x4D [rg d, (0, 7), (p.val, 3), (2, 4), (0, 3)], 4)
  | .matchLanes o => some (o.enc 0x4D 24, 4)
  | .scan o => some (o.enc 0, 4)
  | .redg o => some (o.enc 1, 4)
  | .spawn o => some (word32 0x4F ([rg o.d, rg o.a] ++ qd o.b 0 ++ [(nb o.fa, 1), (nb o.fb, 1), (0, 1)]), 4)
  | .fork o => some (word32 0x4F (qd o.d 0 ++ [rg o.a] ++ qd o.b 0 ++ [(nb o.fa, 1), (nb o.fb, 1), (1, 1)]), 4)
  | .fexit => some (encFibre 0 0, 4)
  | .reconv => some (encFibre 1 0, 4)
  | .yield => some (encFibre 2 0, 4)
  | .lser => some (encFibre 3 0, 4)
  | .lsend => some (encFibre 4 0, 4)
  | .fence sc => some (encFibre 5 sc.toNat, 4)
  | .win n => some (encFibre 6 n.val, 4)
  | .bara ord b => some (word32 0x51 ([(0, 7), (0, 8)] ++ b.fields ++ [(nb ord, 1), (0, 2)]), 4)
  | .barw ord b => some (word32 0x51 ([(0, 7), (0, 8)] ++ b.fields ++ [(nb ord, 1), (1, 2)]), 4)
  | .barm b fa a => some (word32 0x51 ([(0, 7), rg a, (nb fa, 1)] ++ b.fields ++ [(0, 1), (2, 2)]), 4)
  | .atomAdd ord o => some (o.enc 0x52 ord.toNat, 4)
  | .atomMinS ord o => some (o.enc 0x53 ord.toNat, 4)
  | .atomMinN ord o => some (o.enc 0x54 ord.toNat, 4)
  | .atomMaxS ord o => some (o.enc 0x55 ord.toNat, 4)
  | .atomMaxN ord o => some (o.enc 0x56 ord.toNat, 4)
  | .atomAnd ord o => some (o.enc 0x57 ord.toNat, 4)
  | .atomOr ord o => some (o.enc 0x58 ord.toNat, 4)
  | .atomXor ord o => some (o.enc 0x59 ord.toNat, 4)
  | .atomXchg ord o => some (o.enc 0x5A ord.toNat, 4)
  | .atomCas ord o => some (o.enc 0x5B ord.toNat, 4)
  | .redAdd o => some (o.enc 0x52 3, 4)
  | .redMinS o => some (o.enc 0x53 3, 4)
  | .redMinN o => some (o.enc 0x54 3, 4)
  | .redMaxS o => some (o.enc 0x55 3, 4)
  | .redMaxN o => some (o.enc 0x56 3, 4)
  | .redAnd o => some (o.enc 0x57 3, 4)
  | .redOr o => some (o.enc 0x58 3, 4)
  | .redXor o => some (o.enc 0x59 3, 4)
  | .tcfg s t => some (encT 0x5C 0 t.val 0 0 s.toNat 0, 4)
  | .tcrd s t => some (encT 0x5C 0 t.val 0 0 s.toNat 1, 4)
  | .tld s t sx w => some (encT 0x5D (w.val + 8 * nb sx) t.val 0 0 (64 + 4 * s.val) 0, 4)
  | .tst s t w => some (encT 0x5E w.val t.val 0 0 (64 + 4 * s.val) 0, 4)
  | .tzero t => some (encT 0x5F 0 t.val 0 0 0 0, 4)
  | .macq m => some (encT 0x60 m.val 0 0 0 0 0, 4)
  | .mrel m => some (encT 0x60 m.val 0 0 0 0 1, 4)
  | .macqGrant _ => none
  | .mma o => some (o.enc 0x61, 4)
  | .mmax o => some (o.enc 0x62, 4)
  | .msca qd qs ta tb => some (encT 0x63 (qd.val + 4 * qs.val) 0 ta.val tb.val 0 0, 4)
  | .mloop s m ta tb => some (encT 0x64 m.val 0 ta.val tb.val (64 + 4 * s.val) 0, 4)
  | .mloopStep _ => none
  | .acld s q => some (encT 0x65 q.val 0 0 0 (64 + 4 * s.val) 0, 4)
  | .acst s f q => some (encT 0x65 (q.val + 4 * f.val) 0 0 0 (64 + 4 * s.val) 1, 4)
  | .acrd d row cb => some (encT 0x66 0 (4 * cb.val) (row.val % 16) (row.val / 16) d.toNat 0, 4)
  | .acz m => some (encT 0x67 m.val 0 0 0 0 0, 4)
  | .copy o => some (o.enc 0, 4)
  | .copyg o => some (o.enc 1, 4)
  | .copyComplete _ => none
  | .cfence => some (word32 0x69 [(0, 24)], 4)
  | .cadd o => some (o.enc 0x6A, 4)
  | .cwait o => some (o.enc 0x6B, 4)
  | .ctest o => some (o.enc 0x6C, 4)
  | .cread fa a d => some (word32 0x6C (rg d :: qd a 0 ++ [(0, 7), (nb fa, 1), (0, 1), (1, 1)]), 4)
  | .cbind o => some (word32 0x6D (qd o.d 0 ++ qd o.a 0 ++ [rg o.b, (nb o.fa, 1), (nb o.fb, 1), (0, 1)]), 4)
  | .qpush o => some (word32 0x6E ((0, 7) :: qd o.a 0 ++ [(16 * o.b.val, 7), (nb o.fa, 1), (nb o.fb, 1), (0, 1)]), 4)
  | .qres o => some (o.enc 0x6E 0 1, 4)
  | .qdone fa a => some (word32 0x6F ((0, 7) :: qd a 0 ++ [(0, 7), (nb fa, 1), (0, 2)]), 4)
  | .mark i => some (word32 0x70 [(0, 7), (i.toNat, 17)], 4)
  | .ttbind fb fa b a => some (word32 0x71 ((0, 7) :: twoQuads b a 0 fa fb 0), 4)
  | .hld o => some (o.enc 0, 4)
  | .hldF o => some (o.enc 1, 4)
  | .hldp o => some (word32 0x72 ([rg o.d, (2, 2), (0, 5)] ++ histFields o.p o.c false o.fb), 4)
  | .hfold fb fa b a => some (word32 0x73 ((0, 7) :: twoQuads b a 0 fa fb 0), 4)
  | .hfoldComplete _ => none
  | .hseal fa a => some (word32 0x74 [(0, 7), rg a, (0, 7), (nb fa, 1), (0, 1), (0, 1)], 4)
  | .hopen fa a => some (word32 0x74 [(0, 7), rg a, (0, 7), (nb fa, 1), (0, 1), (1, 1)], 4)
  | .tex o => some (word32 0x75 (qd o.d 0 ++ qd o.a 0 ++ histFields o.p o.c o.fa o.fb), 4)
  | .tri o => some (o.enc 0x76, 4)
  | .cutsel o => some (o.enc 0x77 0, 4)
  | .gleanerRequest _ => none
  | .trace o => some (o.enc 0x78 0 0, 4)
  | .halo o => some (o.enc 0x79 0, 4)
  | .haloStripComplete _ => none
  | .kvhash o => some (word32 0x7A (qd o.d 0 ++ qd o.a 0 ++ [rg o.b, (nb o.fa, 1), (nb o.fb, 1), (0, 1)]), 4)
  | .kvlookLook o => some (o.enc 0x7B 0 0, 4)
  | .kvlookTake o => some (o.enc 0x7B 1 0, 4)
  | .kvlookPub o => some (o.enc 0x7B 2 0, 4)
  | .kvapp o => some (o.enc 0x7C 0 0, 4)
  | .kvrelDrop o => some (o.enc 0x7C 0 1, 4)
  | .kvrelKill o => some (o.enc 0x7C 1 1, 4)
  | .kvrelStep o => some (o.enc 0x7C 2 1, 4)
  | .kvrelUnpin o => some (o.enc 0x7C 3 1, 4)
  | .kvAgentOperation _ => none
  | .loft o => some (o.enc 0x7D 0 0, 4)
  | .lmerge o => some (o.enc 0x7D 1, 4)
  | .ill => some (word32 0x7F [(0, 24)], 4)
  | .modeAb _ => none
  | .modeSb _ => none
  | .bcast _ => none
  | .act _ => none
  | .mac _ => none
  | .rdacc _ => none
  | .attn _ => none
  | .clr _ => none
  | .producerComplete _ => none
  | .pageWalk _ => none
  | .replayMapped _ => none
  | .replayDeclined _ => none
  | .outackAcknowledge _ => none
  | .counterAdd _ => none
  | .cwaitWake _ => none
  | .cwaitResend _ => none
  | .coalesceTimerExpiry _ _ => none
  | .queueFire _ => none
  | .sheafPlace _ => none
  | .taskTake _ => none
  | .blockEnd _ => none
  | .slotCycle _ _ => none
  | .pendingPromotion _ _ => none
  | .batchFairness _ _ => none
  | .granaryEntryStart _ _ => none
  | .granaryEntryComplete _ _ => none
  | .quantumExpiry _ => none
  | .preemptRequest _ => none
  | .drainBudgetExpiry _ => none
  | .flush _ => none
  | .save _ => none
  | .blockResume _ => none
  | .contextSwitch _ => none
  | .baleWrite _ => none
  | .sampleTick _ => none
  | .claim => none
  | .electionWindowClose => none
  | .ownershipLapse => none
  | .heartbeat => none
  | .handover => none
  | .release => none
  | .launch => none
  | .ctxset => none
  | .inval => none
  | .revoke => none
  | .preempt => none
  | .stop => none
  | .step => none
  | .resume => none
  | .dump => none
  | .read => none
  | .attest => none
  | .fwload => none
  | .moduleReset => none
  | .hostRead => none
  | .hostWrite => none
  | .subryInbound => none
  | .flitReplay => none
  | .linkDown => none
  | .thermal => none
  | .thermalPowerDown => none
  | .storePerformed _ => none
  | .eccError => none

/-- The bytes of an instruction, least significant first. -/
def encode (i : Instr) : Option (List Byte) :=
  (encodeWord i).map fun (w, n) => (List.range n).map (byteOf w)

end Sys2Proof
end

