-- ==== Sys2Proof/Machine/State.lean ====
section
/-! DEFINITION. The state of a ZL-1640 module as plain data, the reasons a step can stop, and the module right after reset. -/
namespace Sys2Proof.Machine

/-- A command record of 64 bytes, byte 0 in bits 7:0 (spec/24, R421). -/
abbrev CmdRecord := BitVec 512

/-- The address of a host access: a context and a virtual address, or a physical one (spec/24, R420). -/
inductive HostAddr where
  | virt (ctx : Nat) (va : Nat)
  | phys (master : Fin 4) (pa : Nat)
  deriving DecidableEq, Repr

/-- A host read or write of device memory: where, and the bytes written or the number read (spec/24, R420). -/
structure HostAccess where
  /-- It comes through the UCIe module of stack 8, not of stack 0. -/
  far : Bool
  addr : HostAddr
  len : Nat
  data : List Byte
  deriving DecidableEq, Repr

/-- How an atomic or RED changes memory at one address (spec/09, R210). -/
inductive AtomOp where
  | add | minS | minN | maxS | maxN | and | or | xor | xchg | cas
  deriving DecidableEq, Repr

/-- What a peer asks of this module (spec/24, R417, R418). -/
inductive PeerOp where
  | read (len : Nat)
  | write (data : List Byte)
  | atom (op : AtomOp) (size : Nat) (data : DWord) (new : DWord)
  | counterAdd (amount : DWord)
  deriving DecidableEq, Repr

/-- An access that arrives on a Subry port (spec/24, R418). -/
structure PeerAccess where
  port : Fin 8
  addr : Nat
  op : PeerOp
  deriving DecidableEq, Repr

/-- Sensor readings in whole degrees Celsius (spec/24, R428). -/
structure Sensors where
  inlet : Int
  dies : List Int
  deriving DecidableEq, Repr

/-- A storage error and where it stands (spec/10, R228). -/
inductive StorageError where
  | corrected (unit : Nat)
  | memory (pa : Nat)
  | scratch (core : Nat) (off : Nat)
  | register (group : Nat) (lane : Fin 32) (r : Nat)
  | scalar (group : Nat) (r : Fin 32)
  | tile (group : Nat) (t : Fin 16)
  | quadrant (core : Nat) (q : Fin 4)
  /-- A line of a core's L1, by context and virtual address. -/
  | l1 (core : Nat) (ctx : Nat) (va : Nat)
  deriving DecidableEq, Repr

/-- Cause codes of a trap (spec/21, Table 21.1). -/
inductive Cause where
  | illegal | emptyRead | capBounds | capTag | capPerm | capStale | pageFault | xlatePerm | misaligned | matrixToken
  | streamerRights | disocclusion | scheduleMiss | counterOverflow | poison | breakpoint | watch | arith | tileConfig
  | barrierMembership | registerRange | nvIllegalInRational
  deriving DecidableEq, Repr

/-- What a trap reports: its cause and TRAPVALH:TRAPVAL. -/
structure Trap where
  cause : Cause
  val : DWord
  deriving DecidableEq, Repr

/-- A vector or scalar register: value, full/empty bit, faulted mark with the trap it holds, poison bit
(spec/02, R33, R35; spec/10, R228). -/
structure RegCell where
  val : Word
  full : Bool
  mark : Option Trap
  poison : Bool
  deriving DecidableEq, Repr

/-- The kinds of long-latency producer that the issue-slot counters tell apart (spec/22, Table 22.4). -/
inductive ProdKind where
  | memory | longArith | rational | history
  deriving DecidableEq, Repr

/-- What a fibre waits for (spec/08, R175; spec/23, Table 23.1). The wait ends when its condition holds. -/
inductive Wait where
  /-- Registers of lanes that are empty, and predicates that are still to be written: the instruction tries again when every one is full
  or faulted, and every predicate is written (spec/02, R32, R33). -/
  | register (cells : List (Fin 32 × Reg)) (preds : List (Fin 32 × Fin 8))
  /-- FLAGS that an unfinished producer will write, or an acquire that has not bound its value (spec/02, R39; spec/12, R261). -/
  | producer (kind : ProdKind)
  /-- RECONV at this address, and the address after it (spec/08, R176). -/
  | reconv (pc : Word) (next : Word)
  /-- BARW on a barrier (spec/09, R208). -/
  | barrier (b : Bar)
  /-- Turns of a serial section, or a section of another batch (spec/09, R207). -/
  | lser
  /-- MACQ in the queue of the core (spec/11, R237). -/
  | token
  /-- MREL, or a matrix instruction behind a running MLOOP (spec/11, R234, R237, R250). -/
  | matrix
  /-- CWAIT until an add meets its target (spec/13, R286). -/
  | counter
  /-- QPUSH until the queue has space (spec/13, R292). -/
  | queue
  /-- COPY or HALO while the streamer is full (spec/13, R278). -/
  | streamer
  /-- The range scoreboard (spec/10, R218). -/
  | scoreboard
  /-- A release, or an access that OUTACK holds (spec/12, R260, R267). -/
  | release
  /-- A pending replay of a translation that the instruction itself takes: the wait ends with the answer (spec/21, R380). -/
  | replay
  /-- A translation or an access that an all-bank pseudo-channel holds (spec/19, R365). -/
  | held
  /-- HOPEN; once its first check has passed, on a field (spec/15, R320). -/
  | hopen (field : Option Nat)
  /-- A fetch whose translation a replay holds, or whose bytes an all-bank pseudo-channel holds (spec/22, Table 22.4). -/
  | fetch (replay : Bool)
  /-- Stopped at an armed BRK: the address at which a debugger resumes (spec/04, R106). -/
  | brk (next : Word)
  deriving DecidableEq, Repr

/-- The arrival mark of one barrier (spec/09, R208). -/
structure Arrival where
  bar : Bar
  gen : BitVec 16
  deriving DecidableEq, Repr

/-- One fibre (spec/02, R29 to R46; spec/08). -/
structure Fibre where
  lane : Fin 32
  pc : Word
  vregs : List RegCell
  vtags : List Bool
  pred : BitVec 8
  predBusy : BitVec 8
  status : Word
  flags : BitVec 6
  epc : Word
  cause : Word
  trapval : Word
  trapvalh : Word
  estatus : Word
  ereg : Word
  link : Word
  clkLatch : Option Word
  marks : List Arrival
  /-- Generations that were current when SPAWN created the fibre; it is counted from the next one (spec/09, R201). -/
  born : List Arrival
  turn : Bool
  wait : Option Wait
  /-- What the fibre waits for may have ended: its unit is tried again. -/
  again : Bool
  aset : Nat
  parked : Option Nat
  rejoin : Option Word
  /-- Parked sub-groups that have split from this fibre's batch and have no rejoin barrier yet (spec/08, R177). -/
  splits : List Nat
  watchOnce : Bool
  /-- The unit at which this fibre last took WATCH (spec/22, R396). -/
  watchUnit : Option Word
  /-- The clk since which the fibre has been ready (spec/08, R175). -/
  readySince : Option Nat
  deriving DecidableEq, Repr

/-- A serial section: who waits, who has ended its turn by LSEND, and where they go on (spec/09, R207). -/
structure Section where
  waiting : List (Fin 32)
  done : List (Fin 32)
  next : Word
  deriving DecidableEq, Repr

/-- A running MLOOP: shapes and parameters as read at issue, and steps done (spec/11, R249, R251). `keyA` and `keyB` are the
scratchpad keys of the extents; `id` places its reads among the accesses of the group (spec/12, R272), and its next step has
waited since the free number `since` was next (spec/11, R234). -/
structure MLoop where
  id : Nat
  since : Nat
  tcA : Word
  tcB : Word
  keyA : Nat
  keyB : Nat
  ksteps : Nat
  mask : Fin 16
  done : Nat
  /-- The address of the MLOOP (spec/21, Table 21.7). -/
  pc : Word
  /-- Bytes of the next step's tiles that are already read, by key, with their poison (spec/12, R266). -/
  early : List (Nat × Byte × Bool)
  deriving DecidableEq, Repr

/-- One tile: 4 KiB and a poison bit (spec/10, R213; spec/11, R256). Bytes are kept without trailing zeros. -/
structure Tile where
  bytes : List Byte
  poison : Bool
  deriving DecidableEq, Repr

/-- A task group: the counter of its record (spec/08, R191). -/
structure TaskInfo where
  ctr : Nat
  deriving DecidableEq, Repr

/-- One group (spec/08, R174 to R191). -/
structure Group where
  id : Nat
  block : Nat
  index : Nat
  core : Nat
  slot : Nat
  task : Option TaskInfo
  stage : Nat
  regsN : Nat
  fibres : List Fibre
  sregs : List RegCell
  stags : List Bool
  tilesN : Nat
  tcs : List Word
  tiles : List Tile
  rasthresh : Word
  vistile : Word
  visorg : Word
  vpsize : Word
  kvmodel : Word
  kvmodelh : Word
  kvver : Word
  ovf : Option Nat
  outack : Nat
  lser : Option Section
  mloop : Option MLoop
  fence : Nat
  lastLanes : List (Fin 32)
  lastRun : Nat
  yielded : List (Fin 32)
  active : Bool
  since : Nat
  lastIssue : Nat
  nextAset : Nat
  ended : Bool
  deriving DecidableEq, Repr

/-- One named barrier (spec/08, R193). MEMBER and ARRIVED are bit sets. -/
structure Barrier where
  member : Word
  arrived : Word
  gen : BitVec 16
  pending : Option Word
  deriving DecidableEq, Repr

/-- A task record (spec/08, Table 8.4) and the block it acts for. -/
structure TaskRec where
  entry : Word
  lanes : Nat
  ctr : Nat
  args : List Word
  block : Nat
  deriving DecidableEq, Repr

/-- What a group fault reports (spec/21, R376, R377). -/
structure FaultInfo where
  kind : Nat
  cause : Option Cause
  group : Nat
  lanes : Word
  pc : Word
  coreId : Word
  val : DWord
  clk : Nat
  flags : Nat
  deriving DecidableEq, Repr

/-- Why a block stopped: AUX of a STOP record (spec/22, Table 22.3). -/
inductive StopWhy where
  | command | brk (n : Nat) | watch | stepEnd
  deriving DecidableEq, Repr

/-- What a block is doing (spec/21, R376; spec/22, R394, R395). -/
inductive Mode where
  | running
  | stopped
  | stepping (b : Fin 16) (gen : BitVec 16)
  | faulting (f : FaultInfo)
  deriving DecidableEq, Repr

/-- How a block leaves its core at a pre-emption (spec/21, R383 to R386). -/
inductive Leave where
  | stays
  | drains (since : Nat)
  | flushes
  | saves
  deriving DecidableEq, Repr

/-- A record of a copy accepted since the last stop (spec/22, Table 22.6, section 7). -/
structure CopyLog where
  copyId : Nat
  desc : List Word
  coords : List Word
  ctr : Nat
  group : Nat
  pc : Word
  done : Option Nat
  deriving DecidableEq, Repr

/-- A reservation of queue slots (spec/13, R293). -/
structure Reservation where
  queue : Nat
  count : Nat
  deriving DecidableEq, Repr

/-- The records a block was launched with (spec/13, R294). -/
structure Retire where
  queue : Nat
  first : Nat
  count : Nat
  deriving DecidableEq, Repr

/-- One block (spec/08, R180 to R193; spec/21, R382). -/
structure Block where
  id : Nat
  ctx : Nat
  sheaf : Nat
  rank : Nat
  core : Nat
  x : Nat
  y : Nat
  z : Nat
  kernel : Nat
  scratchBase : Nat
  scratchLen : Nat
  priority : Nat
  bars : List Barrier
  phase : Word
  issues : Nat
  sidefx : Bool
  resumes : Nat
  restarts : Nat
  mode : Mode
  baleWanted : Bool
  baleDone : Bool
  baleFlags : Nat
  records : Option Retire
  reserved : List Reservation
  copyLog : List CopyLog
  leave : Leave
  /-- The block has ended; it stays on its core to the end of its sheaf (spec/08, R180). -/
  ended : Bool
  /-- s16:q and s20:q as the launch set them, with their tags; its task groups start with them (spec/08, R191). -/
  caps : List (QWord × Bool)
  deriving DecidableEq, Repr

/-- A sheaf that is placed (spec/08, R180, R181). `count` is its number of blocks. -/
structure Sheaf where
  id : Nat
  grid : Nat
  die : Nat
  first : Nat
  count : Nat
  bars : List Barrier
  overflow : List TaskRec
  deriving DecidableEq, Repr

/-- The state of a timetable entry (spec/13, R301; spec/19, R363). -/
inductive EntryState where
  | waiting | running | complete | failed
  deriving DecidableEq, Repr

/-- One entry of a bound timetable, as read at the bind (spec/13, Table 13.6). -/
structure Entry where
  obj : QWord
  tag : Bool
  deadline : Nat
  lead : Nat
  action : Nat
  valid : Bool
  state : EntryState
  integrity : Bool
  deriving DecidableEq, Repr

/-- A timetable bound to a grid (spec/13, R300). -/
structure Timetable where
  die : Nat
  ctrBase : Nat
  entries : List Entry
  deriving DecidableEq, Repr

/-- A sheaf not yet placed, or placed and flushed, or saved: where it waits (spec/08, R186; spec/21, R385, R388). -/
structure Pending where
  grid : Nat
  first : Nat
  count : Nat
  die : Option Nat
  order : Nat
  ahead : Bool
  restarts : Nat
  /-- Times that each block of a flushed sheaf has been resumed, by rank (spec/21, R382). -/
  resumes : List Nat
  saved : Bool
  sheaf : Nat
  deriving DecidableEq, Repr

/-- One grid: a launch (spec/08, R180, R181; spec/24, Table 24.2). -/
structure Grid where
  id : Nat
  ctx : Nat
  seq : Nat
  kernel : Nat
  x : Nat
  y : Nat
  z : Nat
  argtab : Nat
  priority : Nat
  marker : Nat
  table : Option Timetable
  /-- For a queue firing: the queue, the first record, how many, and the ring address (spec/13, R296). -/
  queue : Option Retire
  ring : Nat
  gateAcq : Option Nat
  deriving DecidableEq, Repr

/-- An add on its way to the home slice of a counter (spec/13, R283, R288). `ctr` is the physical key of the counter and
`va` its virtual address; `owner` is the group that hears of an overflow; `lines` are the 128-byte lines of its byte set
(spec/12, R268). -/
structure Add where
  id : Nat
  ctr : Nat
  va : Nat
  ctx : Nat
  amount : Nat
  owner : Option Nat
  lines : List Nat
  /-- The block that accepted the copy or HALO whose add this is (spec/13, R282), and that copy's unit. -/
  copyOf : Option Nat
  unit : Nat
  /-- A CADD.REL. -/
  rel : Bool
  /-- The die that sends it. -/
  die : Nat
  deriving DecidableEq, Repr

/-- A waiting CWAIT (spec/13, R289): listed at the home slice, or resent by its core since a clk. `met`: its target has been met;
`woken`: its batch issues next. -/
structure Waiter where
  id : Nat
  group : Nat
  lanes : List (Fin 32)
  ctr : Nat
  target : Nat
  listed : Bool
  met : Bool
  woken : Bool
  since : Nat
  deriving DecidableEq, Repr

/-- One byte write of a store, in order of effect. `va` is its virtual address, by which a line of the L1 is found. -/
structure ByteWrite where
  key : Nat
  va : Nat
  val : Byte
  deriving DecidableEq, Repr

/-- One lane of an atomic: where, the data, and the new value of CAS. -/
structure AtomLane where
  lane : Fin 32
  key : Nat
  va : Nat
  data : Nat
  new : Nat
  deriving DecidableEq, Repr

/-- What a store does when it is performed. -/
inductive StoreWork where
  /-- Byte writes in lane order, the granules that get a tag, and whole granules that lose their poison. -/
  | bytes (ws : List ByteWrite) (tagged : List Nat) (healed : List Nat)
  /-- RED requests. -/
  | red (op : AtomOp) (size : Nat) (lanes : List AtomLane)
  deriving DecidableEq, Repr

/-- A store, STC or RED of a group that is not yet performed (spec/12, R259, R264). `left`: it has left the store queue
of its core and is seen by the groups of the core. `insn` is the same for all that one instruction has made. -/
structure PStore where
  id : Nat
  insn : Nat
  group : Nat
  core : Nat
  ctx : Nat
  left : Bool
  outside : Bool
  work : StoreWork
  deriving DecidableEq, Repr

/-- A byte of tier 2 or tier 3 at which a store of a group has been performed before an older one of the same group: the groups of its
core go on seeing the newer, while its home holds what it held after the group's last write to it (spec/07, R173; spec/12, Table 12.4). -/
structure Passed where
  core : Nat
  group : Nat
  key : Nat
  id : Nat
  val : Byte
  home : Byte
  deriving DecidableEq, Repr

/-- A line of 128 bytes of a SEALED field's entries as a cluster's field cache holds it: its virtual address and its words, none
for a poisoned one (spec/15, R321, R325). -/
structure FieldLine where
  cluster : Nat
  ctx : Nat
  field : Nat
  va : Nat
  words : List (Option Nat)
  deriving DecidableEq, Repr

/-- A BARM on a barrier of a block or of a sheaf: when, by which group index or block rank, its MEMBER, and the barrier and the marks of
the fibres (group, lane, marks of this barrier) it found (spec/09, R208). -/
structure BarmMark where
  sheaf : Bool
  owner : Nat
  bar : Nat
  clk : Nat
  who : Nat
  member : Word
  before : Barrier
  marks : List (Nat × Nat × List Arrival)
  deriving DecidableEq, Repr

/-- One line of a core's L1 (spec/10, R220). -/
structure L1Line where
  core : Nat
  ctx : Nat
  va : Nat
  key : Nat
  constant : Bool
  bytes : List Byte
  tags : List Bool
  poison : List Bool
  deriving DecidableEq, Repr

/-- A leaf of the translation tables, as found by a walk (spec/10, R224, R226). -/
structure Leaf where
  size : Nat
  entry : Nat
  deriving DecidableEq, Repr

/-- A kept translation: level 0 a core's cache, 1 a cluster's, 2 a die's, and which core, cluster or die (spec/10, R227). -/
structure Xlat where
  level : Nat
  unit : Nat
  ctx : Nat
  page : Nat
  leaf : Leaf
  deriving DecidableEq, Repr

/-- A page that Granary has moved: the leaf entry that the tables give for it, and the one by which the device finds it (spec/13, R301;
spec/10, R224). -/
structure Moved where
  ctx : Nat
  size : Nat
  page : Nat
  old : Nat
  new : Nat
  deriving DecidableEq, Repr

/-- A pending replayable fault (spec/21, R379), one to a 64 KiB page. -/
structure Replay where
  id : Nat
  die : Nat
  ctx : Nat
  page : Nat
  declined : Bool
  /-- Producers and fibres whose accesses wait on the entry. -/
  prods : List Nat
  fibres : List (Nat × Fin 32)
  deriving DecidableEq, Repr

/-- A walk asked of a die's walkers (spec/10, R227). -/
structure Walk where
  id : Nat
  die : Nat
  /-- The core that asked first. -/
  site : Nat
  ctx : Nat
  page : Nat
  deriving DecidableEq, Repr

/-- Where a producer delivers: the lane's first register, how many, physical for v registers. -/
inductive Dest where
  | vec (lane : Fin 32) (phys : Nat) (n : Nat)
  | sca (lane : Fin 32) (r : Nat) (n : Nat)
  | none (lane : Fin 32)
  deriving DecidableEq, Repr

/-- One lane of a load: where, how much, and whether it is a capability load that keeps tags. `key` is none for a virtual
address, which is translated when the load completes. -/
structure LoadLane where
  dest : Dest
  va : Nat
  key : Option Nat
  constant : Bool
  ldcap : Bool
  deriving DecidableEq, Repr

/-- The result a producer delivers for one lane. -/
structure LaneVal where
  dest : Dest
  words : List Word
  tag : Bool
  poison : Bool
  mark : Option Trap
  flags : BitVec 6
  pred : Option (Fin 8 × Bool)
  deriving DecidableEq, Repr

/-- A history surface as its header gave it at issue (spec/15, R310), with the A field value and the channel. -/
structure Surf where
  cap : QWord
  operand : Nat
  fmt : Nat
  chans : Nat
  width : Nat
  height : Nat
  rpitch : Nat
  ring : Nat
  fstride : Nat
  chan : Nat
  deriving DecidableEq, Repr

/-- A walk of the history fields that is under way (spec/15, R311); HLDP samples no surface. -/
structure HistLane where
  dest : Dest
  lane : Fin 32
  x : Int
  y : Int
  n : Nat
  field : Nat
  surf : Option Surf
  /-- The surface's header is still to be read: a fault on it is deferred (spec/21, R378). -/
  headless : Bool
  /-- P, F and r of the walk, and the frame of its first field once it has started. -/
  pos : Int × Int
  cur : Nat
  left : Nat
  frame : Option Nat
  /-- The walk has ended before its depth: without an ancestor, or by a fault of an entry. -/
  halt : Option (Option Trap)
  /-- Fields that the walk has read as SEALED and whose entries it is reading (spec/15, R320). -/
  reading : List Nat
  /-- The fibre that issued it has not exited, and its IH at the instruction. -/
  live : Bool
  ih : Bool
  deriving DecidableEq, Repr

/-- A texture as its header gave it at issue (spec/15, R326): each level is LOFF, LPITCH, LMAP. -/
structure Texel where
  cap : QWord
  operand : Nat
  fmt : Nat
  chans : Nat
  width : Nat
  height : Nat
  lstride : Nat
  levels : List (Nat × Nat × Nat)
  deriving DecidableEq, Repr

/-- One lane of a TEX. -/
structure TexLane where
  dest : Dest
  lane : Fin 32
  u : Int
  v : Int
  level : Nat
  layer : Nat
  tex : Texel
  headless : Bool
  deriving DecidableEq, Repr

/-- A request to a table agent (spec/19, R356). -/
inductive KvOp where
  | look (digest : QWord) (take : Bool)
  | pub (digest : QWord) (block : Nat)
  /-- KVAPP: the block, the capability of the token, and the address, scratchpad key and length of its bytes; none when TOKBYTES could
  not be read at the instruction (spec/21, R378). -/
  | app (block : Nat) (cap : QWord) (bytes : Option (Nat × Option Nat × Nat))
  | drop (block : Nat)
  | kill (digest : QWord)
  | step (k : Nat)
  | unpin (v : Nat)
  deriving DecidableEq, Repr

/-- A ray whose trace is under way, with what its scene record gave at issue and the B field value (spec/17, R346). -/
structure RayLane where
  dest : Dest
  lane : Fin 32
  ray : List Byte
  operand : Nat
  recs : QWord
  graph : QWord
  sbt : QWord
  hgbase : Nat
  stride : Nat
  deriving DecidableEq, Repr

/-- A byte that TLD or ACLD reads: its key, its virtual address, and its value and poison once they are bound. -/
structure ExtByte where
  key : Nat
  va : Option Nat
  val : Option (Byte × Bool)
  deriving DecidableEq, Repr

/-- What TLD or ACLD writes: a tile, with its tc, planar width and sign extension as read at issue, or a quadrant. -/
inductive ExtDest where
  | tile (t : Fin 16) (tc : Word) (m : Nat) (sx : Bool)
  | quad (q : Fin 4)
  deriving DecidableEq, Repr

/-- What a producer still has to do when it completes. -/
inductive Work where
  /-- Results that were bound when the instruction issued. -/
  | ready (vals : List LaneVal)
  /-- A load: the bytes are read when it completes. -/
  | load (size : Nat) (signed : Bool) (cap : Bool) (lanes : List LoadLane)
  /-- An atomic with its old values. -/
  | atomic (op : AtomOp) (size : Nat) (lanes : List (Dest × AtomLane))
  /-- HLD, HLD.F, HLDP: form 0, 1, 2; the predicate written; the address of the unit. -/
  | hist (form : Nat) (p : Fin 8) (pc : Word) (lanes : List HistLane)
  /-- TEX. -/
  | tex (p : Fin 8) (lanes : List TexLane)
  /-- TRACE. -/
  | trace (lanes : List RayLane)
  /-- TRI: the predicate and its value by lane, and the writes into the visibility tile. -/
  | tri (p : Fin 8) (res : List (Fin 32 × Bool)) (writes : List AtomLane)
  /-- A KV request, answered by its table agent. -/
  | kv (reqs : List Nat)
  /-- CREAD: the counter. -/
  | cread (ctr : Nat) (dest : List Dest)
  /-- CTEST: the counter, the target, the predicate and its lanes. -/
  | ctest (ctr : Nat) (target : Nat) (p : Fin 8) (lanes : List (Fin 32))
  /-- TLD and ACLD: the bytes of the extent, row after row (spec/11, R242, R252). -/
  | ext (dst : ExtDest) (bytes : List ExtByte)
  deriving DecidableEq, Repr

/-- A long-latency producer in flight (spec/02, R33 to R35). -/
structure Producer where
  id : Nat
  group : Nat
  kind : ProdKind
  /-- Lanes and predicates that the producer will write. -/
  preds : List (Fin 32 × Fin 8)
  /-- The producer can still raise flags in these lanes. -/
  flagLanes : List (Fin 32)
  /-- The producer is the acquire of the group at this scope (spec/12, R261). -/
  acq : Option Scope
  work : Work
  /-- Results of lanes that have left the work before the others (spec/09, R210; spec/10, R216). -/
  early : List LaneVal
  deriving DecidableEq, Repr

/-- The last issue of a slot, as the head of a SAMPLE record names it (spec/22, R401): its clk and PC, the group's number and
its block's coordinates, PHASE and grid. -/
structure Issued where
  clk : Nat
  pc : Word
  num : Nat
  x : Nat
  yz : Word
  phase : Word
  grid : Nat
  deriving DecidableEq, Repr

/-- One accepted copy or HALO strip (spec/13, R278; spec/17, R348). Sources and destinations are keys, one per byte; a
source of `none` is a zero fill. `dstVa` are the virtual addresses of a destination in GLOBAL, for watches. -/
structure Copy where
  id : Nat
  /-- The accepted COPY or HALO: one streamer slot. -/
  unit : Nat
  group : Nat
  /-- The number of the issuing group in records. -/
  num : Nat
  block : Nat
  core : Nat
  ctx : Nat
  pc : Word
  strip : Bool
  srcs : List (Option Nat)
  dsts : List Nat
  dstVa : List Nat
  fence : Nat
  ctr : Nat
  ctrVa : Nat
  amount : Nat
  /-- Source bytes that are already read, by their places in the copy, with their poison (spec/12, R266). -/
  read : List (Nat × Byte × Bool)
  /-- Destination bytes that are already written. -/
  wrote : List Nat
  /-- Watches that the copy has hit (spec/22, R397). -/
  watched : List Nat
  /-- The scoreboard entry: core, first and last byte (spec/10, R218). -/
  board : Option (Nat × Nat × Nat)
  /-- The block as records name it, once it is gone (spec/22, R397). -/
  gone : Option Issued
  deriving DecidableEq, Repr

/-- What Gleaner still has to do for a request: pages by queue, then the results (spec/17, R338, R341). -/
structure CutPlan where
  pages : List (Nat × List (List Byte))
  result : Option (Nat × Nat)
  deriving DecidableEq, Repr

/-- An accepted CUTSEL (spec/17, R341): the graph capability and its header, the address of the view, its bytes and whether
FETCHCTR is tagged and current, all as checked at acceptance, and the plan once the graph is read. -/
structure Cut where
  id : Nat
  die : Nat
  ctx : Nat
  graph : QWord
  header : List Byte
  view : Nat
  viewBytes : List Byte
  fetches : Bool
  ctr : Nat
  ctrVa : Nat
  plan : Option CutPlan
  deriving DecidableEq, Repr

/-- An accepted HFOLD (spec/15, R322). -/
structure Fold where
  id : Nat
  ctx : Nat
  s : Nat
  n : Nat
  o : Nat
  genN : Nat
  genO : Nat
  genS : Nat
  /-- S's ENTRIES as read at acceptance, and its tag. -/
  obj : QWord
  tag : Bool
  ctr : Nat
  ctrVa : Nat
  deriving DecidableEq, Repr

/-- A request at a table agent (spec/19, R356): its table by virtual address, and the answer once the agent has applied it. -/
structure KvReq where
  id : Nat
  table : Nat
  ctx : Nat
  group : Nat
  dest : Dest
  kvver : Nat
  op : KvOp
  /-- The clk of its arrival and its requester id (spec/19, R356). -/
  clk : Nat
  req : Nat
  answer : Option LaneVal
  deriving DecidableEq, Repr

/-- A command at a loft (spec/19, R369), in order of receipt. -/
structure LoftCmd where
  loft : Nat
  ctx : Nat
  cmd : DWord
  ctr : Nat
  ctrVa : Nat
  deriving DecidableEq, Repr

/-- A FETCH that Gleaner has handed to Granary (spec/17, R337). -/
structure Fetch where
  id : Nat
  die : Nat
  ctx : Nat
  obj : QWord
  ctrVa : Nat
  deriving DecidableEq, Repr

/-- The mode of an accumulator quadrant (spec/11, R235). -/
inductive QMode where
  | zero | fp32 | int (f : Nat)
  deriving DecidableEq, Repr

/-- One quadrant: its elements by 64 * row + column without trailing zeros, its token holder (spec/11, R235 to R237). -/
structure Quadrant where
  mode : QMode
  elems : List Word
  poison : Bool
  holder : Option Nat
  deriving DecidableEq, Repr

/-- A MACQ that waits, or that has been granted its tokens and issues next (spec/11, R237). -/
structure Macq where
  group : Nat
  lanes : List (Fin 32)
  mask : Fin 16
  since : Nat
  granted : Bool
  deriving DecidableEq, Repr

/-- One core that some context has used. A core not listed is as `Core.fresh`. -/
structure Core where
  id : Nat
  quads : List Quadrant
  macqs : List Macq
  deque : List TaskRec
  lfsr : Word
  nextTick : Nat
  tickNo : Nat
  deriving DecidableEq, Repr

/-- The issue-slot counters of one slot (spec/22, R399). -/
structure Slot where
  core : Nat
  slot : Nat
  leaves : List Nat
  lastGroup : Option Nat
  /-- YIELD gave up the greedy stay (spec/09, R206). -/
  yielded : Bool
  issued : Option Issued
  /-- The clk at which each bank will have served what this slot has sent it (spec/10, R216). -/
  banks : List Nat
  /-- Groups whose last instruction's requests are still entering full bank queues, and until which clk. -/
  entering : List (Nat × Nat)
  deriving DecidableEq, Repr

/-- A cluster held by a context (spec/21, R381, R390). -/
structure Hold where
  cluster : Nat
  ctx : Nat
  since : Nat
  preempt : Bool
  assigned : Bool
  deriving DecidableEq, Repr

/-- One bank lane of a loft (spec/19, R365). -/
structure LoftLane where
  regs : List (List (BitVec 16))
  accs : List Word
  sweep : List Word
  deriving DecidableEq, Repr

/-- One loft. A loft not listed is as `Loft.fresh`. -/
structure Loft where
  id : Nat
  allBank : Bool
  row : Option Nat
  lanes : List LoftLane
  /-- The number of the free value that says which lines its home slice holds in all-bank mode. -/
  lines : Nat
  deriving DecidableEq, Repr

/-- A field's state record (spec/15, Table 15.2): state 0 RETIRED, 1 OPEN, 2 SEALED. -/
structure Field where
  num : Nat
  state : Nat
  span : Nat
  gen : Nat
  fold : Option Nat
  fgn : Nat
  fgo : Nat
  fgs : Nat
  frame : Nat
  width : Nat
  height : Nat
  cellk : Nat
  parent : Option Nat
  sealCtr : Nat
  entries : Nat
  deriving DecidableEq, Repr

/-- The launch values of a kernel (spec/01, Tables 1.5 and 1.8), placed by the loader. `addr` is the virtual address of its
launch record. -/
structure Kernel where
  addr : Nat
  entry : Word
  regs : Nat
  stages : List Nat
  tiles : Nat
  scratch : Nat
  sheaf : Nat
  expect : Nat
  idempotent : Bool
  handler : Word
  dict : List Word
  layout : List Byte
  /-- The sections of its object, as the loader measured them (spec/24, R426). -/
  sections : List (List Byte)
  deriving DecidableEq, Repr

/-- A queue of a context and the physical address of its descriptor (spec/13, R290, R291). -/
structure QueueRef where
  handle : Nat
  desc : Nat
  /-- Clk at which the oldest unlaunched records were pushed, oldest first. -/
  pushed : List Nat
  expired : Bool
  /-- Records retired out of order, beyond HEAD (spec/13, R294). -/
  retired : List Nat
  deriving DecidableEq, Repr

/-- One watch of the debug record (spec/22, Table 22.1). -/
structure Watch where
  lo : Nat
  hi : Nat
  ld : Bool
  st : Bool
  copy : Bool
  action : Nat
  deriving DecidableEq, Repr

/-- The context control record (spec/21, Table 21.8). -/
structure Control where
  quantum : Nat
  predrain : Nat
  drainbudget : Nat
  savearea : Nat
  savelen : Nat
  flog : Nat
  flogn : Nat
  deriving DecidableEq, Repr

/-- The debug control record (spec/22, Table 22.1). -/
structure DebugRec where
  trace : Nat
  tracen : Nat
  samplebase : Nat
  jitter : Nat
  arm : Nat
  dump : Nat
  dumpslot : Nat
  dumpslots : Nat
  watches : List Watch
  deriving DecidableEq, Repr

/-- A record of a context's root queue (spec/13, R298; spec/24, Table 24.2, 0x10). -/
structure RootRec where
  kernel : Nat
  argtab : Nat
  x : Nat
  y : Nat
  z : Nat
  priority : Nat
  gate : Nat
  gval : Nat
  opened : Bool
  /-- The clk at which it was pushed. -/
  since : Nat
  deriving DecidableEq, Repr

/-- A saved block: its block record, its groups, its quadrants and its scratchpad (spec/21, R387). -/
structure Saved where
  block : Block
  groups : List Group
  /-- Quadrants by number, and how many cores on from the block's core they lie, times 4. -/
  quads : List (Nat × Quadrant)
  bytes : List (Nat × Byte)
  tags : List Nat
  poison : List Nat
  /-- Where its image stands in SAVEAREA. -/
  off : Nat
  size : Nat
  deriving DecidableEq, Repr

/-- One context (spec/07, R156; spec/15, R306; spec/21, R390; spec/22, R393; spec/24). -/
structure Ctx where
  num : Nat
  resident : Bool
  root : Nat
  gens : List Nat
  codeBase : Nat
  kernels : List Kernel
  histDesc : Nat
  histStates : Nat
  histCount : Nat
  fields : List Field
  control : Control
  /-- The debug control record. -/
  dbg : DebugRec
  flogSeq : Nat
  traceSeq : Nat
  baleSeq : Nat
  gridSeq : Nat
  lofts : List Nat
  queues : List QueueRef
  rootq : List RootRec
  saved : List Saved
  memory : List (Nat × Nat)
  deriving DecidableEq, Repr

/-- A claim in the election window (spec/24, R422). -/
structure Claim where
  master : Fin 4
  priority : Nat
  nonce : DWord
  /-- The clk of the master's last accepted command. -/
  last : Nat
  deriving DecidableEq, Repr

/-- Status codes of the command interface (spec/24, R422). -/
inductive Status where
  | ok | pending | notOwner | busy | badArg | illegal | exhausted
  deriving DecidableEq, Repr

/-- What the module sends out (spec/24). -/
inductive Reply where
  | command (master : Fin 4) (nonce : DWord) (status : Status) (data : List Byte)
  | election (master : Fin 4) (nonce : DWord) (winner : Fin 4)
  | hostRead (data : List Byte) (poisoned : Bool)
  | hostDone
  | hostError
  | peer (port : Fin 8) (data : List Byte) (poisoned : Bool) (error : Bool)
  | fault (ctx : Nat) (seq : Nat)
  | thermal
  deriving DecidableEq, Repr

/-- An entry of the error log (spec/10, R225, R228; spec/13, R288, R296; spec/24, R427). -/
inductive ErrRec where
  | malformed (ctx : Nat) (entry : Nat)
  | corrected (unit : Nat)
  | uncorrected (at_ : StorageError)
  | overflow (ctr : Nat)
  | firing (ctx : Nat) (queue : Nat) (kernel : Nat)
  | launch (ctx : Nat) (kernel : Nat)
  | entryFailed (grid : Nat) (entry : Nat)
  | staged (src : Nat) (dst : Nat) (seq : Nat)
  | fold (ctx : Nat) (field : Nat)
  | cut (ctx : Nat) (view : Nat)
  | loft (loft : Nat) (cmd : DWord)
  | host (addr : Nat)
  | peer (port : Fin 8) (addr : Nat)
  | poisonRead (addr : Nat)
  /-- A write was answered with an error: a link that it needs is down, or a peer has dropped it (spec/24, R418, R427). -/
  | lost (addr : Nat)
  | flitReplay (link : Nat)
  | linkDown (link : Nat)
  deriving DecidableEq, Repr

/-- An entry of an inbound window table (spec/24, R418). -/
structure Window where
  port : Fin 8
  index : Fin 16
  base : Nat
  len : Nat
  ctx : Nat
  ld : Bool
  st : Bool
  atom : Bool
  ctr : Bool
  deriving DecidableEq, Repr

/-- An accepted command that is not complete: its journal slot (spec/24, R424). -/
structure OpenCmd where
  seq : Nat
  master : Fin 4
  record : CmdRecord
  accepted : Nat
  deriving DecidableEq, Repr

/-- Something that has arrived from outside and is not yet acted on: a command record, a host access, a peer's access, a
link event, sensor readings, a storage error (spec/24, R418 to R428; spec/10, R228). -/
inductive Input where
  | command (master : Fin 4) (r : CmdRecord)
  | hostRead (x : HostAccess)
  | hostWrite (x : HostAccess)
  | peer (x : PeerAccess)
  | flitReplay (link : Nat)
  | linkDown (link : Nat)
  | thermal (x : Sensors)
  | storage (x : StorageError)
  /-- The module's reset line (spec/24, R425). -/
  | reset
  deriving DecidableEq, Repr

/-- What a slot's choice of a batch replaces, so that an attempt that only waits leaves no trace (spec/08, R175; spec/09, R206). -/
structure Undo where
  lanes : List (Fin 32)
  run : Nat
  yielded : List (Fin 32)
  slotYielded : Bool
  deriving DecidableEq, Repr

/-- The unit being issued (spec/02, R42 to R45; spec/08, R174). -/
structure Cur where
  group : Nat
  lanes : List (Fin 32)
  unit : Word
  addr : Word
  len : Nat
  word : Nat
  guard : Option (Bool × Fin 8)
  entry : Option Nat
  undo : Option Undo
  deriving DecidableEq, Repr

/-- The module. -/
structure State where
  cur : Option Cur
  inbox : List Input
  replies : List Reply
  rr : List (Nat × Nat)
  clk : Nat
  tick : Nat
  nextId : Nat
  powered : Bool
  mem : List Host.Cell
  tags : List Nat
  poison : List Nat
  dirty : List Host.Cell
  /-- Lines that a loft's writes have dropped from their home slice in its all-bank mode (spec/19, R365). -/
  dropped : List Nat
  /-- Bytes of engine writes that missed in such a slice, oldest first: they are performed after MODE.SB (spec/19, R365). -/
  late : List Host.Cell
  stores : List PStore
  passed : List Passed
  l1 : List L1Line
  fcache : List FieldLine
  barms : List BarmMark
  /-- Dies whose queue manager has fired in this clk (spec/13, R295). -/
  fired : List Nat
  xlats : List Xlat
  moved : List Moved
  replays : List Replay
  walks : List Walk
  groups : List Group
  blocks : List Block
  sheaves : List Sheaf
  grids : List Grid
  pending : List Pending
  cores : List Core
  slots : List Slot
  held : List Hold
  producers : List Producer
  copies : List Copy
  adds : List Add
  /-- Counters and the lines of the byte sets of the adds applied to them (spec/12, R269). -/
  acqs : List (Nat × Nat)
  waiters : List Waiter
  cuts : List Cut
  folds : List Fold
  kvops : List KvReq
  loftq : List LoftCmd
  fetches : List Fetch
  lofts : List Loft
  ctxs : List Ctx
  owner : Option (Fin 4)
  window : Option (Nat × List Claim)
  lastCmd : Nat
  jseq : Nat
  openCmds : List OpenCmd
  staged : Option Nat
  firmware : Nat
  fwOk : Bool
  keysUsed : Nat
  windows : List Window
  down : List Nat
  errlog : List ErrRec
  deriving DecidableEq, Repr

/-- Why the machine stops. -/
inductive Fault where
  /-- Raised by `step` when the hardware has powered the module down (spec/24, R428); safe: nothing runs without power. -/
  | poweredDown
  deriving DecidableEq, Repr

/-- Why the model has no meaning for an instruction. -/
inductive Refusal where
  /-- Raised by an arm of `exec` whose meaning has not been written; safe: the model claims nothing of it. -/
  | notModelled (mnemonic : String)
  deriving DecidableEq, Repr

/-- The module right after reset: powered, nothing resident, no owner, every list empty (notes/assumptions/1 to 6). -/
def State.reset : State where
  cur := none
  inbox := []
  replies := []
  rr := []
  clk := 0
  tick := 0
  nextId := 1
  powered := true
  mem := []
  tags := []
  poison := []
  dirty := []
  dropped := []
  late := []
  stores := []
  passed := []
  l1 := []
  fcache := []
  barms := []
  fired := []
  xlats := []
  moved := []
  replays := []
  walks := []
  groups := []
  blocks := []
  sheaves := []
  grids := []
  pending := []
  cores := []
  slots := []
  held := []
  producers := []
  copies := []
  adds := []
  acqs := []
  waiters := []
  cuts := []
  folds := []
  kvops := []
  loftq := []
  fetches := []
  lofts := []
  ctxs := []
  owner := none
  window := none
  lastCmd := 0
  jseq := 0
  openCmds := []
  staged := none
  firmware := 0
  fwOk := true
  keysUsed := 0
  windows := []
  down := []
  errlog := []

end Sys2Proof.Machine
end

