-- ==== Sys2Proof/Machine/Mem.lean ====
section
/-! DEFINITION. Memory as one canonical list of bytes, granule sets for tags and poison, the addresses of the storage levels,
and the walk of the translation tables. -/
namespace Sys2Proof.Machine

/-- The byte at a key; a key that is not listed reads as 0 (notes/assumptions/1). -/
def memGet : List Host.Cell → Nat → Byte
  | [], _ => 0
  | (k, v) :: r, a => if k = a then v else memGet r a

/-- Writes one byte and keeps the list canonical. -/
def memSet : List Host.Cell → Nat → Byte → List Host.Cell
  | [], a, v => if v = 0 then [] else [(a, v)]
  | (k, w) :: r, a, v =>
    if a < k then (if v = 0 then (k, w) :: r else (a, v) :: (k, w) :: r)
    else if a = k then (if v = 0 then r else (a, v) :: r)
    else (k, w) :: memSet r a v

/-- Every key of the list is above `a`, keys rise strictly, and no listed byte is 0. -/
def memAbove : Nat → List Host.Cell → Bool
  | _, [] => true
  | a, (k, v) :: r => decide (a < k) && decide (v ≠ 0) && memAbove k r

/-- The canonical form of memory. -/
def Memory.wf : List Host.Cell → Bool
  | [] => true
  | (k, v) :: r => decide (v ≠ 0) && memAbove k r

/-- Membership in a rising list of granule numbers. -/
def granGet (l : List Nat) (g : Nat) : Bool := l.contains g

/-- Adds a granule number to a rising list. -/
def granSet : List Nat → Nat → List Nat
  | [], g => [g]
  | h :: t, g => if g < h then g :: h :: t else if g = h then h :: t else h :: granSet t g

/-- Removes a granule number. -/
def granClear (l : List Nat) (g : Nat) : List Nat := l.filter (· != g)

/-- Sets a granule's bit to `b`. -/
def granPut (l : List Nat) (g : Nat) (b : Bool) : List Nat := if b then granSet l g else granClear l g

/-- Keys of host memory, peer modules and scratchpads stand above the 52-bit device physical addresses. -/
def hostKey (pa : Nat) : Nat := 2 ^ 52 + pa
def peerKey (pa : Nat) : Nat := 2 ^ 53 + pa
def scratchKey (core off : Nat) : Nat := 2 ^ 54 + core * 2 ^ 19 + off

/-- A physical address of device memory. Every one holds a byte, also where no HBM is installed (notes/assumptions/108). -/
def isDevice (k : Nat) : Bool := decide (k < 2 ^ 52)
/-- Tier 2 or tier 3: host memory or a peer module (spec/10, R222). -/
def isOutside (k : Nat) : Bool := decide (2 ^ 52 ≤ k) && decide (k < 2 ^ 54)
def isPeer (k : Nat) : Bool := decide (2 ^ 53 ≤ k) && decide (k < 2 ^ 54)
def isScratch (k : Nat) : Bool := decide (2 ^ 54 ≤ k)
def scratchCore (k : Nat) : Nat := (k - 2 ^ 54) / 2 ^ 19
def scratchOff (k : Nat) : Nat := (k - 2 ^ 54) % 2 ^ 19

/-- Numbers of dies, clusters and cores: COREID bits 11:8 die, 7:3 cluster, 2:0 core (spec/08, Table 8.2). A die has
18 clusters of 8 cores (spec/00). -/
def dieOf (core : Nat) : Nat := core / 256
def clusterOf (core : Nat) : Nat := core / 8
def clusterDie (cl : Nat) : Nat := cl / 32
def coreExists (core : Nat) : Bool := decide (core / 256 < 16) && decide (core / 8 % 32 < 18)

/-- The byte the home slice serves: a dirty line over an all-bank pseudo-channel, else memory (spec/19, R365). -/
def State.byteAt (s : State) (k : Nat) : Byte :=
  match s.dirty.find? (fun c => c.1 = k) with
  | some c => c.2
  | none => memGet s.mem k

/-- `n` bytes from key `k`. -/
def State.bytesAt (s : State) (k n : Nat) : List Byte := (List.range n).map fun i => s.byteAt (k + i)

/-- A little-endian number from its bytes. -/
def leNat : List Byte → Nat
  | [] => 0
  | b :: r => b.toNat + 256 * leNat r

/-- CRC-32C of some bytes (spec/19, Table 19.8; spec/22, R403). -/
def crcByte : Nat → Nat → Nat
  | 0, c => c
  | n + 1, c => crcByte n (if c % 2 = 1 then Nat.xor (c / 2) 0x82F63B78 else c / 2)
def crc32c (bs : List Byte) : Nat :=
  Nat.xor (bs.foldl (fun c b => crcByte 8 (Nat.xor c b.toNat)) 0xFFFFFFFF) 0xFFFFFFFF

/-- The `n` bytes of a number, least significant first. -/
def leBytes (n v : Nat) : List Byte := (List.range n).map fun i => BitVec.ofNat 8 (v / 256 ^ i)

/-- A little-endian number of `n` bytes in memory. -/
def State.numAt (s : State) (k n : Nat) : Nat := leNat (s.bytesAt k n)

/-- Writes one byte of storage; the granule's tag is lost (spec/07, R154). -/
def State.setByte (s : State) (k : Nat) (v : Byte) : State :=
  { s with mem := memSet s.mem k v, dirty := s.dirty.filter (fun c => c.1 != k), tags := granClear s.tags (k / 16) }

/-- Writes bytes from key `k` upward. -/
def State.setBytes (s : State) (k : Nat) : List Byte → State
  | [] => s
  | b :: r => (s.setByte k b).setBytes (k + 1) r

/-- Writes a little-endian number of `n` bytes. -/
def State.setNum (s : State) (k n v : Nat) : State := s.setBytes k (leBytes n v)

def State.tagAt (s : State) (k : Nat) : Bool := granGet s.tags (k / 16)
def State.poisonAt (s : State) (k : Nat) : Bool := granGet s.poison (k / 16)
def State.setTag (s : State) (k : Nat) (b : Bool) : State := { s with tags := granPut s.tags (k / 16) b }
def State.setPoison (s : State) (k : Nat) (b : Bool) : State := { s with poison := granPut s.poison (k / 16) b }

/-- Whether any granule of the range is poisoned. -/
def State.poisonIn (s : State) (k n : Nat) : Bool :=
  s.poison.any fun g => decide (k / 16 ≤ g) && decide (g * 16 < k + n)

/-- The home slice, stack * 64 + slice, of a device address (spec/10, R221). -/
def homeSlice (pa : Nat) : Nat :=
  (pa / 2 ^ 48 % 16) * 64 + Nat.xor (pa / 2 ^ 8 % 64) (pa / 2 ^ 14 % 64)

/-- The loft whose pseudo-channel holds a device address (spec/19, R364). -/
def loftOf (pa : Nat) : Nat :=
  Nat.xor (pa / 2 ^ 8 % 64) (pa / 2 ^ 14 % 64) + 64 * (pa / 2 ^ 36 % 2) + 128 * (pa / 2 ^ 48 % 16)

/-- The device address of byte `byte` of a column of a bank row of a loft (spec/19, R364). -/
def loftAddr (loft row col bank byte : Nat) : Nat :=
  byte + 2 ^ 5 * (col % 8) + 2 ^ 8 * (Nat.xor (loft % 64) ((bank + 16 * (col / 8 % 4)) % 64)) + 2 ^ 14 * bank
    + 2 ^ 18 * (col / 8 % 4) + 2 ^ 20 * row + 2 ^ 36 * (loft / 64 % 2) + 2 ^ 48 * (loft / 128)

/-- Whether a device address lies in a pseudo-channel whose loft is in AB mode (spec/19, R365). -/
def State.inAllBank (s : State) (k : Nat) : Bool :=
  isDevice k && s.lofts.any fun l => decide (l.id = loftOf k) && l.allBank

/-- The dirty lines of a slice. -/
def State.dirtyLines (s : State) (slice : Nat) : Nat := (((s.dirty.filter fun c => homeSlice c.1 == slice).map fun c => c.1 / 128).eraseDups).length

/-- The free value that says which lines the slice of a device address holds while its loft is in AB. -/
def State.linesOf (s : State) (k : Nat) : Nat := ((s.lofts.find? fun l => l.id = loftOf k).map (·.lines)).getD 0

/-- Over an all-bank pseudo-channel the home slice serves a line that it holds valid, which a dirty line is and one that a loft
write has dropped is not; which others it has held since MODE.AB is free, but a slice whose 4 MiB are all dirty lines holds none. It
holds back every access that misses (spec/10, R221; spec/19, R365; notes/assumptions/61). -/
def State.heldByLoft (s : State) (k : Nat) : Bool :=
  s.inAllBank k && !(s.dirty.any fun c => c.1 / 128 == k / 128) &&
    (s.dropped.contains (k / 128) || decide (32768 ≤ s.dirtyLines (homeSlice k)) || Config.freeBit (s.linesOf k * 2 ^ 64 + 2 ^ 63 + k / 128))

/-- Writes a byte at its home: an all-bank pseudo-channel's slice keeps it in a dirty line, and holds a write that misses. -/
def State.putByte (s : State) (k : Nat) (v : Byte) : State :=
  if s.heldByLoft k then { s with late := s.late ++ [(k, v)] }
  else if s.inAllBank k then
    { s with dirty := (k, v) :: s.dirty.filter (fun c => c.1 != k), tags := granClear s.tags (k / 16) }
  else s.setByte k v

/-- The bytes of a number put at their home one by one. -/
def State.putBytes (s : State) (k : Nat) : List Byte → State
  | [] => s
  | b :: r => (s.putByte k b).putBytes (k + 1) r

/-- How a walk ends (spec/10, R225). -/
inductive WalkEnd where
  /-- An all-bank pseudo-channel holds the read of a table entry (spec/19, R365). -/
  | held
  | leaf (l : Leaf)
  | replayable
  | fault
  | malformed (entry : Nat)
  deriving DecidableEq, Repr

def entryV (e : Nat) : Bool := bitAt e 0
def entryLeaf (e : Nat) : Bool := bitAt e 1
def entryRd (e : Nat) : Bool := bitAt e 2
def entryWr (e : Nat) : Bool := bitAt e 3
def entryEx (e : Nat) : Bool := bitAt e 4
def entryMi (e : Nat) : Bool := bitAt e 5
def entryRpl (e : Nat) : Bool := bitAt e 6
def entryTgt (e : Nat) : Nat := fld e 56 2
/-- ADDR bits 51:8, in place. -/
def entryAddr (e : Nat) : Nat := fld e 8 44 * 256

/-- An entry that breaks Table 10.3 of spec/10 at level `lvl`, where a leaf maps 2^`shift` bytes (spec/10, R225). -/
def entryMalformed (lvl shift e : Nat) : Bool :=
  fld e 58 6 != 0 || fld e 52 4 != 0 || bitAt e 7 || entryTgt e == 1 ||
  (if entryLeaf e then
    lvl == 0 || (entryMi e && (lvl != 4 || entryTgt e != 0)) || entryAddr e % 2 ^ 48 % 2 ^ shift != 0 ||
      (entryTgt e == 3 && 8 ≤ fld e 48 4)
  else entryTgt e != 0 || lvl == 4 || entryMi e)

/-- The levels of the tables: number, lowest address bit of the index, index bits (spec/10, R223). -/
def walkLevels : List (Nat × Nat × Nat) := [(0, 47, 9), (1, 34, 13), (2, 29, 5), (3, 21, 8), (4, 16, 5)]

/-- The walk from a table address over the levels that remain (spec/10, R223, R225). An entry in a poisoned granule is used as it
stands (notes/assumptions/97). -/
def State.walkFrom (s : State) (va : Nat) : List (Nat × Nat × Nat) → Nat → WalkEnd
  | [], _ => .fault
  | (lvl, shift, bits) :: r, table =>
    let at_ := table + 8 * fld va shift bits
    if s.heldByLoft at_ then .held else
    let e := s.numAt at_ 8
    if !entryV e then (if entryRpl e then .replayable else .fault)
    else if entryMalformed lvl shift e then .malformed at_
    else if entryLeaf e then .leaf ⟨shift, e⟩
    else s.walkFrom va r (entryAddr e)

/-- The context of a number. -/
def State.ctx? (s : State) (n : Nat) : Option Ctx := s.ctxs.find? (fun c => c.num = n)

/-- The leaf by which the device finds a page that Granary has moved while its entry in the tables stands (spec/13, R301). -/
def State.movedLeaf (s : State) (ctx va : Nat) (l : Leaf) : Leaf :=
  match s.moved.find? fun m => m.ctx = ctx ∧ m.size = l.size ∧ m.page = va / 2 ^ l.size ∧ m.old = l.entry with
  | some m => ⟨l.size, m.new⟩
  | none => l

def State.walk (s : State) (ctx va : Nat) : WalkEnd :=
  match s.ctx? ctx with
  | some c => match s.walkFrom va walkLevels c.root with
    | .leaf l => .leaf (s.movedLeaf ctx va l)
    | e => e
  | none => .fault

/-- The key of a virtual address under a leaf (spec/10, R224, R226). -/
def Leaf.key (l : Leaf) (va : Nat) : Nat :=
  let off := va % 2 ^ l.size
  let a := entryAddr l.entry
  if entryMi l.entry then
    let h := a / 2 ^ 48 % 16
    ((h + off / 2 ^ 12 % 16) % 16) * 2 ^ 48 + (a / 2 ^ 16 % 2 ^ 32) * 2 ^ 16 + h * 2 ^ 12 + off % 2 ^ 12
  else
    match entryTgt l.entry with
    | 0 => a + off
    | 2 => hostKey (a + off)
    | _ => peerKey (a + off)

/-- What an access needs of its page. -/
inductive Need where
  | rd | wr | ex | any | add
  deriving DecidableEq, Repr

def Leaf.grants (l : Leaf) : Need → Bool
  | .rd => entryRd l.entry
  | .wr => entryWr l.entry
  | .ex => entryEx l.entry
  | .any => true
  | .add => true

/-! Who translates: a core by its number, or an engine of a die or the control processor, which stands at die 0 (notes/assumptions/119). -/

def dieSite (die : Nat) : Nat := 4096 + die
def siteDie (site : Nat) : Nat := if site < 4096 then dieOf site else site - 4096

/-- The caches that a translation searches, in order: level and unit (spec/10, R227). -/
def cachesOf (site : Nat) : List (Nat × Nat) :=
  if site < 4096 then [(0, site), (1, clusterOf site), (2, dieOf site)] else [(2, site - 4096)]

/-- The kept translations of a page, by the caches in their order. -/
def State.xlatsOf (s : State) (site ctx va : Nat) : List Leaf :=
  (cachesOf site).flatMap fun c =>
    (s.xlats.filter fun x => x.level == c.1 && x.unit == c.2 && x.ctx == ctx && x.page == va / 65536).map (·.leaf)

/-- What a translation finds: a kept entry may still be used after its table has changed, or may have been dropped: where
they differ, a free value decides (spec/10, R227; notes/assumptions/10). -/
def State.lookup (s : State) (site ctx va : Nat) : WalkEnd :=
  let w := s.walk ctx va
  match (s.xlatsOf site ctx va).filter fun l => w != .leaf l with
  | [] => w
  | l :: r => ((l :: r)[Config.freeNat (s.tick * 2 ^ 64 + 2 ^ 60 + va / 65536) % (r.length + 2)]?.map WalkEnd.leaf).getD w

/-- The result of translating one access. -/
inductive Xl where
  | hold
  | ok (key : Nat)
  | pageFault
  | xlatePerm
  | replay
  deriving DecidableEq, Repr

/-! Links (spec/24, R410, R417, R419, R427): 0 to 7 are the Subry ports, 8 and 9 the UCIe links of stacks 0 and 8, 10 to 23 the
east-west bridges, row by row from the west, and 24 to 31 the north-south bridges from the west (notes/assumptions/86). -/

/-- The bridges between two dies: by column first in the row of the first one, then across. -/
def bridges (a b : Nat) : List Nat :=
  let lo := min (a % 8) (b % 8)
  ((List.range (max (a % 8) (b % 8) - lo)).map fun i => 10 + 7 * (a / 8) + lo + i) ++ if a / 8 = b / 8 then [] else [24 + b % 8]

/-- No bridge between two dies is down. -/
def State.routeUp (s : State) (a b : Nat) : Bool := !(s.down.any (bridges a b).contains)

/-- Whether an access of a die reaches a key: no link that it needs is down, and a peer does not drop it (notes/assumptions/122). The host
is reached by either of its stacks. -/
def State.reaches (s : State) (die k : Nat) : Bool :=
  if isPeer k then
    let port := (k - 2 ^ 53) / 2 ^ 48 % 16
    !(s.down.contains port) && s.routeUp die (Config.portDie port % 16) && !Config.peerDrops (k / 16) s.tick
  else if isOutside k then
    (!(s.down.contains 8) && s.routeUp die 0) || (!(s.down.contains 9) && s.routeUp die 8)
  else if isScratch k then s.routeUp die (dieOf (scratchCore k))
  else s.routeUp die (k / 2 ^ 48 % 16)

/-- Writes of a die to keys that it does not reach are answered with an error, which the module records (spec/24, R427). -/
def State.noteLost (s : State) (die : Nat) (keys : List Nat) : State :=
  match keys.find? fun k => !s.reaches die k with
  | some k => { s with errlog := s.errlog ++ [.lost k] }
  | none => s

/-- Translates a virtual address for an access (spec/07, R160; spec/10, R225). -/
def State.translate (s : State) (site ctx va : Nat) (need : Need) : Xl :=
  match s.lookup site ctx va with
  | .leaf l => if l.grants need then (if need = .wr || need = .add || s.reaches (siteDie site) (l.key va) then .ok (l.key va) else .pageFault) else .xlatePerm
  | .held => .hold
  | .replayable => .replay
  | .fault => .pageFault
  | .malformed _ => .pageFault

/-- Entries that a cache holds at most, by level (spec/10, R227). -/
def xlatRoom : Nat → Nat
  | 0 => 64
  | 1 => 2048
  | _ => 32768

/-- A cache keeps a translation as its newest. -/
def State.keepXlat (s : State) (x : Xlat) : State :=
  let mine := fun (y : Xlat) => y.level == x.level && y.unit == x.unit
  { s with xlats := x :: ((s.xlats.filter mine).filter fun y => !(y.ctx == x.ctx && y.page == x.page)).take (xlatRoom x.level - 1) ++
      s.xlats.filter fun y => !mine y }

/-- The caches keep the translation that an access has found (spec/10, R227). Other caches may go on holding an older one of the page. -/
def State.noteWalk (s : State) (site ctx va : Nat) : State :=
  match s.lookup site ctx va with
  | .leaf l => (cachesOf site).foldl (fun t c => t.keepXlat ⟨c.1, c.2, ctx, va / 65536, l⟩) s
  | _ => s

/-- Drops every kept translation of a context (spec/24, Table 24.2, INVAL). -/
def State.dropXlats (s : State) (ctx : Nat) : State :=
  { s with xlats := s.xlats.filter (fun x => x.ctx != ctx) }

/-- Bytes of a virtual range, each byte translated by its own page, as the control processor and the writers of logs and
bales read and write them. `none` when some page cannot be reached. -/
def State.keysOf (s : State) (site ctx va n : Nat) (need : Need) : Option (List Nat) :=
  (List.range n).mapM fun i =>
    match s.translate site ctx (va + i) need with
    | .ok k => some k
    | _ => none

/-- Writes bytes at keys in order. -/
def State.setKeys (s : State) : List Nat → List Byte → State
  | k :: ks, b :: bs => (s.putByte k b).setKeys ks bs
  | _, _ => s

/-- A write of a die: bytes that it does not reach are answered with an error and lost (spec/24, R427). -/
def State.sendKeys (s : State) (die : Nat) (ks : List Nat) (bs : List Byte) : State :=
  let l := (ks.zip bs).filter fun x => s.reaches die x.1
  (s.noteLost die ks).setKeys (l.map (·.1)) (l.map (·.2))

/-- A write of consecutive bytes by a die. -/
def State.sendBytes (s : State) (die k : Nat) (bs : List Byte) : State := s.sendKeys die ((List.range bs.length).map (k + ·)) bs

/-- The error log keeps the first malformed entry of the walks of a range (spec/10, R225). -/
def State.noteRange (s : State) (ctx va n : Nat) : State :=
  match (List.range n).findSome? fun i => match s.walk ctx (va + i) with | .malformed e => some e | _ => none with
  | some e => { s with errlog := s.errlog ++ [.malformed ctx e] }
  | none => s

/-- Writes bytes at a virtual address for the control processor; bytes of pages that cannot be reached are lost. -/
def State.writeVirt (s : State) (ctx va : Nat) (bs : List Byte) : State :=
  match s.keysOf (dieSite 0) ctx va bs.length .wr with
  | some ks => s.sendKeys 0 ks bs
  | none => s.noteRange ctx va bs.length

/-- Reads a little-endian number at a virtual address. -/
def State.readVirt (s : State) (ctx va n : Nat) : Option Nat :=
  (s.keysOf (dieSite 0) ctx va n .any).map fun ks => leNat (ks.map s.byteAt)

end Sys2Proof.Machine
end

