-- ==== Sys2Proof/Machine/Ops.lean ====
section
/-! DEFINITION. The named operations over the state: groups and fibres, registers, STATUS, taking an exception and the
return from one, group faults, named barriers, trace records and free values. -/
namespace Sys2Proof

/-- The registers that a field covers: one, or a pair, or a quad, or more (spec/03, R53, R54). -/
def Reg.span (r : Reg) (n : Nat) : List Reg :=
  match r with
  | .v k => (List.range n).map fun i => .v (Fin.ofNat 64 (k.val + i))
  | .s k => (List.range n).map fun i => .s (Fin.ofNat 32 (k.val + i))
  | .zero => List.replicate n .zero
  | .lane => List.replicate n .lane

/-- The first register of a quad. -/
def Quad.base : Quad → Reg
  | .v n => .v (Fin.ofNat 64 (4 * n.val))
  | .s n => .s (Fin.ofNat 32 (4 * n.val))

end Sys2Proof

namespace Sys2Proof.Machine

/-- The outcome of every meaning: the machine goes on. -/
abbrev Res := Host.Outcome State Fault Refusal

/-- Words as numbers and numbers as words. -/
def w32 (n : Nat) : Word := BitVec.ofNat 32 n
def d64 (n : Nat) : DWord := BitVec.ofNat 64 n

/-- The bit set of a list of lanes. -/
def laneMask : List (Fin 32) → Word
  | [] => 0
  | l :: r => laneMask r ||| (1 <<< l.val)

/-! Lists keyed by a number. -/

def State.group? (s : State) (id : Nat) : Option Group := s.groups.find? (fun g => g.id = id)
def State.block? (s : State) (id : Nat) : Option Block := s.blocks.find? (fun b => b.id = id)
def State.sheaf? (s : State) (id : Nat) : Option Sheaf := s.sheaves.find? (fun x => x.id = id)
def State.grid? (s : State) (id : Nat) : Option Grid := s.grids.find? (fun x => x.id = id)
def State.kernel? (s : State) (ctx addr : Nat) : Option Kernel :=
  (s.ctx? ctx).bind fun c => c.kernels.find? (fun k => k.addr = addr)

def State.updGroup (s : State) (id : Nat) (f : Group → Group) : State :=
  { s with groups := s.groups.map fun g => if g.id = id then f g else g }
def State.updBlock (s : State) (id : Nat) (f : Block → Block) : State :=
  { s with blocks := s.blocks.map fun b => if b.id = id then f b else b }
def State.updSheaf (s : State) (id : Nat) (f : Sheaf → Sheaf) : State :=
  { s with sheaves := s.sheaves.map fun b => if b.id = id then f b else b }
def State.updGrid (s : State) (id : Nat) (f : Grid → Grid) : State :=
  { s with grids := s.grids.map fun b => if b.id = id then f b else b }
def State.updCtx (s : State) (n : Nat) (f : Ctx → Ctx) : State :=
  { s with ctxs := s.ctxs.map fun c => if c.num = n then f c else c }

def Group.fibre? (g : Group) (l : Fin 32) : Option Fibre := g.fibres.find? (fun f => f.lane = l)
def Group.updFibre (g : Group) (l : Fin 32) (f : Fibre → Fibre) : Group :=
  { g with fibres := g.fibres.map fun x => if x.lane = l then f x else x }
/-- The fibres of some lanes, in lane order as the group keeps them. -/
def Group.batch (g : Group) (ls : List (Fin 32)) : List Fibre := g.fibres.filter (fun f => ls.contains f.lane)
def Group.updBatch (g : Group) (ls : List (Fin 32)) (f : Fibre → Fibre) : Group :=
  { g with fibres := g.fibres.map fun x => if ls.contains x.lane then f x else x }

/-- A free bit and a free number, each used once (notes/assumptions/2). -/
def State.tickOn (s : State) : State := { s with tick := s.tick + 1 }
/-- Takes the next identifier. -/
def State.fresh (s : State) : Nat × State := (s.nextId, { s with nextId := s.nextId + 1 })

/-! STATUS and its fields (spec/02, Table 2.1). -/

def Fibre.ih (f : Fibre) : Bool := f.status.getLsbD 0
def Fibre.rat (f : Fibre) : Bool := f.status.getLsbD 4
def Fibre.wb (f : Fibre) : Nat := (f.status.toNat / 2 ^ 20) % 16
def Fibre.enables (f : Fibre) : BitVec 6 := f.status.extractLsb' 8 6
/-- RND; 5 to 7 are never written, and read as RNE (spec/02, R37). -/
def Fibre.rnd (f : Fibre) : Rnd := (Rnd.ofCode (f.status.toNat / 2 % 8)).getD .rne

/-- `v` with the bits of `mask` taken from `w`. -/
def mergeBits (v w mask : Word) : Word := (v &&& ~~~mask) ||| (w &&& mask)

/-- The RW fields of STATUS: trap enables, RAT and RND. -/
def statusRw : Word := 0x00003F1E
/-- Every field of STATUS but the reserved bits. -/
def statusFields : Word := 0xE0F03F1F

/-! Registers (spec/02, R29 to R31). -/

/-- A register that is full and holds a value. -/
def RegCell.of (v : Word) : RegCell := ⟨v, true, none, false⟩

/-- The physical register that a field names in the fibre's window. -/
def Fibre.phys (f : Fibre) (n : Nat) : Nat := f.wb * 16 + n

def cellAt (l : List RegCell) (i : Nat) : RegCell := l.getD i (.of 0)
def boolAt (l : List Bool) (i : Nat) : Bool := l.getD i false

/-- A register as a fibre of the group sees it. -/
def Group.cell (g : Group) (f : Fibre) : Reg → RegCell
  | .v n => cellAt f.vregs (f.phys n.val)
  | .s n => cellAt g.sregs n.val
  | .zero => .of 0
  | .lane => .of (w32 f.lane.val)

/-- The hidden tag of a quad (spec/07, R153). -/
def Group.tagOf (g : Group) (f : Fibre) : Quad → Bool
  | .v n => boolAt f.vtags (f.wb * 4 + n.val)
  | .s n => boolAt g.stags n.val

/-- Writes a cell and clears the tag of its quad. -/
def Fibre.setV (f : Fibre) (phys : Nat) (c : RegCell) : Fibre :=
  { f with vregs := f.vregs.set phys c, vtags := f.vtags.set (phys / 4) false }
def Group.setS (g : Group) (n : Nat) (c : RegCell) : Group :=
  { g with sregs := g.sregs.set n c, stags := g.stags.set (n / 4) false }

/-- Sets a bit of a predicate word; p0 keeps 1 (spec/02, R32). -/
def setPredBit (w : BitVec 8) (p : Fin 8) (b : Bool) : BitVec 8 :=
  if p.val = 0 then w
  else if b then w ||| ((1 : BitVec 8) <<< p.val) else w &&& ~~~((1 : BitVec 8) <<< p.val)
def Fibre.predBit (f : Fibre) (p : Fin 8) : Bool := p.val == 0 || f.pred.getLsbD p.val
def Fibre.setPred (f : Fibre) (p : Fin 8) (b : Bool) : Fibre := { f with pred := setPredBit f.pred p b }

/-- Writes `words` from physical register `phys` upward as full registers. -/
def Fibre.writeV (f : Fibre) (phys : Nat) : List Word → Fibre
  | [] => f
  | w :: r => (f.setV phys (.of w)).writeV (phys + 1) r
def Group.writeS (g : Group) (n : Nat) : List Word → Group
  | [] => g
  | w :: r => (g.setS n (.of w)).writeS (n + 1) r

/-- Changes `n` cells from index `i` upward. -/
def overCells (l : List RegCell) (i n : Nat) (h : RegCell → RegCell) : List RegCell :=
  (List.range n).foldl (fun v k => v.set (i + k) (h (cellAt v (i + k)))) l

/-- Clears the tags of the quads of `n` registers from `i` upward. -/
def dropTags (t : List Bool) (i n : Nat) : List Bool := (List.range n).foldl (fun t k => t.set ((i + k) / 4) false) t

def RegCell.emptied (c : RegCell) : RegCell := { c with full := false, mark := none, poison := false }
def RegCell.marked (t : Trap) (c : RegCell) : RegCell := { c with full := false, mark := some t }
def RegCell.poisoned (c : RegCell) : RegCell := { c with poison := true }

/-- Writes words of a result, with the quad tag `tag` when four words are written as a whole. -/
def Fibre.deliverV (f : Fibre) (phys : Nat) (ws : List Word) (tag poison : Bool) : Fibre :=
  let f := f.writeV phys ws
  let f := if tag then { f with vtags := f.vtags.set (phys / 4) true } else f
  if poison then { f with vregs := overCells f.vregs phys ws.length .poisoned } else f
def Group.deliverS (g : Group) (n : Nat) (ws : List Word) (tag poison : Bool) : Group :=
  let g := g.writeS n ws
  let g := if tag then { g with stags := g.stags.set (n / 4) true } else g
  if poison then { g with sregs := overCells g.sregs n ws.length .poisoned } else g

/-- Writes a destination of one lane. -/
def Group.deliver (g : Group) (d : Dest) (ws : List Word) (tag : Bool) (poison : Bool) : Group :=
  match d with
  | .vec l phys _ => g.updFibre l fun f => f.deliverV phys ws tag poison
  | .sca _ n _ => g.deliverS n ws tag poison
  | .none _ => g

/-- Marks registers empty; the tags of their quads are lost. -/
def Fibre.emptyV (f : Fibre) (phys n : Nat) : Fibre :=
  { f with vregs := overCells f.vregs phys n .emptied, vtags := dropTags f.vtags phys n }
def Group.emptyS (g : Group) (k n : Nat) : Group :=
  { g with sregs := overCells g.sregs k n .emptied, stags := dropTags g.stags k n }

/-- Marks a destination empty at issue (spec/02, R33). -/
def Group.emptyDest (g : Group) (d : Dest) : Group :=
  match d with
  | .vec l phys n => g.updFibre l fun f => f.emptyV phys n
  | .sca _ k n => g.emptyS k n
  | .none _ => g

/-- Marks a destination faulted; it stays empty (spec/02, R35). -/
def Group.markDest (g : Group) (d : Dest) (t : Trap) : Group :=
  match d with
  | .vec l phys n => g.updFibre l fun f => { f with vregs := overCells f.vregs phys n (.marked t) }
  | .sca _ k n => { g with sregs := overCells g.sregs k n (.marked t) }
  | .none _ => g

/-! Codes. -/

def Cause.code : Cause → Nat
  | .illegal => 0x01 | .emptyRead => 0x02 | .capBounds => 0x03 | .capTag => 0x04 | .capPerm => 0x05 | .capStale => 0x06
  | .pageFault => 0x07 | .xlatePerm => 0x08 | .misaligned => 0x09 | .matrixToken => 0x0A | .streamerRights => 0x0B
  | .disocclusion => 0x0C | .scheduleMiss => 0x0D | .counterOverflow => 0x0E | .poison => 0x0F | .breakpoint => 0x10
  | .watch => 0x11 | .arith => 0x12 | .tileConfig => 0x13 | .barrierMembership => 0x14 | .registerRange => 0x15
  | .nvIllegalInRational => 0x16

/-- The word of a special register made of two halves. -/
def hl (hi lo : Nat) : Word := w32 ((hi % 65536) * 65536 + lo % 65536)

/-- The kernel of a group's block. -/
def State.kernelOf (s : State) (g : Group) : Option Kernel :=
  (s.block? g.block).bind fun b => s.kernel? b.ctx b.kernel

/-- HANDLER: 0 without a handler, else its offset plus 1 (spec/02, Table 2.3). -/
def State.handlerOf (s : State) (g : Group) : Word := ((s.kernelOf g).map (·.handler)).getD 0

/-- COREID of a group (spec/08, Table 8.2). -/
def Group.coreId (g : Group) : Word := w32 (g.core % 4096 + (if g.task.isSome then 4096 else 0))

/-- The context of a group. -/
def State.ctxOf (s : State) (g : Group) : Nat := ((s.block? g.block).map (·.ctx)).getD 0

/-- The log entry of a page fault whose walk met a malformed entry (spec/10, R225). -/
def State.notePage (s : State) (ctx : Nat) (t : Trap) : State :=
  if t.cause != .pageFault then s else
  match s.walk ctx t.val.toNat with
  | .malformed e => { s with errlog := s.errlog ++ [.malformed ctx e] }
  | _ => s

/-! Trace records (spec/22, R398). -/

/-- Writes trace record n at TRACE + 64 * (n mod TRACEN); TRACE = 0 disables trace. -/
def State.traceRec (s : State) (ctx : Nat) (bytes : List Byte) : State :=
  match s.ctx? ctx with
  | none => s
  | some c =>
    if c.dbg.trace = 0 || c.dbg.tracen = 0 then s
    else (s.writeVirt ctx (c.dbg.trace + 64 * (c.traceSeq % c.dbg.tracen)) bytes).updCtx ctx fun c =>
      { c with traceSeq := c.traceSeq + 1 }

/-- BLKYZ: z above y (spec/08, Table 8.2). -/
def Block.yz (b : Block) : Word := hl b.z b.y

/-- The launch sequence number of a block's grid. -/
def State.gridSeqOf (s : State) (b : Block) : Nat :=
  (((s.sheaf? b.sheaf).bind fun sh => s.grid? sh.grid).map (·.seq)).getD 0

/-- The head and tail of a trace record (spec/22, Table 22.3). `tail` is bytes 32 to 59. -/
def State.traceBytes (s : State) (b : Block) (ty flags group aux : Nat) (pc : Word) (tail : List Byte) (core slot : Nat) : List Byte :=
  [BitVec.ofNat 8 ty, BitVec.ofNat 8 flags, BitVec.ofNat 8 group, BitVec.ofNat 8 aux] ++ leBytes 4 b.x ++ leBytes 4 b.yz.toNat ++
  leBytes 4 b.phase.toNat ++ leBytes 4 pc.toNat ++ leBytes 4 (s.gridSeqOf b) ++ leBytes 8 s.clk ++
  (tail ++ List.replicate (28 - tail.length) 0) ++ leBytes 4 (core % 4096 + 4096 * slot)

/-- AUX of a STOP record. -/
def StopWhy.aux : StopWhy → Nat
  | .command => 1
  | .brk _ => 2
  | .watch => 3
  | .stepEnd => 4

/-- A group's number in records: its index, 0xFF for a task group. -/
def Group.recNum (g : Group) : Nat := if g.task.isSome then 0xFF else g.index

/-- Stops a block and writes its STOP and BARS records (spec/22, R394). A block that is not running stays as it is. `core` and
`slot` are those of the group that stops it (notes/assumptions/85). -/
def State.stopBlock (s : State) (bid : Nat) (why : StopWhy) (group : Nat) (pc : Word) (core slot : Nat) : State :=
  match s.block? bid with
  | none => s
  | some b =>
    let live := match b.mode with
      | .running => true
      | .stepping _ _ => true
      | _ => false
    if !live then s else
    let tail := match why with
      | .brk n => leBytes 4 n
      | _ => []
    let s := s.traceRec b.ctx (s.traceBytes b 1 0 group why.aux pc tail core slot)
    let arr := b.bars.map (fun x => x.arrived.toNat)
    let bars (s : State) (l : List Nat) : State :=
      s.traceRec b.ctx (s.traceBytes b 2 0 0xFF 0 0 (l.flatMap (leBytes 4)) b.core 0)
    let s := bars (bars (bars s (arr.take 7)) ((arr.drop 7).take 7)) (arr.drop 14)
    s.updBlock bid fun b => { b with mode := .stopped }

/-! Group faults (spec/21, R376). -/

/-- What a block of the sheaf reports that ends with a faulting block. -/
def FaultInfo.kind3 (core clk flags : Nat) : FaultInfo := ⟨3, none, 0xFF, 0, 0, w32 (core % 4096), 0, clk, flags⟩

/-- A block that ends by a group fault. -/
def Block.isFaulting (b : Block) : Bool := match b.mode with | .faulting _ => true | _ => false

/-- A block that is being saved: its groups issue no more, and its matrix loops make no further step. A group fault undoes that
(spec/21, R376, R386, R389). -/
def Block.leaves (b : Block) : Bool := b.leave == .saves && !b.isFaulting

/-- A DUMP has been accepted whose bale is not yet written (spec/22, R402). -/
def Block.dumps (b : Block) : Bool := b.baleWanted && !b.baleDone

/-- A block that is ending by a group fault keeps its first report. -/
def Block.setFault (b : Block) (f : FaultInfo) (bale : Bool) : Block :=
  match b.mode with
  | .faulting _ => b
  | _ => { b with mode := .faulting f, baleWanted := bale || b.dumps, baleDone := false, baleFlags := 0 }

/-- Whether a context has bales armed (spec/22, Table 22.1). -/
def State.balesArmed (s : State) (ctx : Nat) : Bool :=
  ((s.ctx? ctx).map fun c => c.dbg.arm / 2 % 2 == 1).getD false

/-- The saved blocks of a sheaf end with it: each has a record of KIND 3, and a bale of its own when bales are armed (spec/21, R376). -/
def State.faultSaved (s : State) (ctx sheaf : Nat) (bale : Bool) : State :=
  let clk := s.clk
  s.updCtx ctx fun c => { c with saved := c.saved.map fun x =>
    if x.block.sheaf = sheaf then { x with block := x.block.setFault (.kind3 x.block.core clk 0) bale } else x }

/-- Stops a block and every other block of its sheaf; the blocks of its grid that have not been placed are never placed. A
saved or flushed block has been placed (spec/21, R376; notes/assumptions/24). -/
def State.groupFault (s : State) (bid : Nat) (f : FaultInfo) : State :=
  match s.block? bid with
  | none => s
  | some b =>
    let bale := s.balesArmed b.ctx
    let s := s.updBlock bid (·.setFault f bale)
    let s := { s with blocks := s.blocks.map fun (x : Block) =>
      if x.sheaf = b.sheaf ∧ x.id ≠ bid ∧ x.ended = false then x.setFault (.kind3 x.core s.clk 0) bale else x }
    let s := s.faultSaved b.ctx b.sheaf bale
    match s.sheaf? b.sheaf with
    | none => s
    | some sh => { s with pending := s.pending.filter fun p => p.grid != sh.grid || p.saved || p.restarts != 0 }

/-! Taking an exception and the return from one (spec/02, R47, R49; spec/08, R177). -/

/-- The saved registers of trap entry. `ereg` is the faulted field or 127. -/
def Fibre.saveTrap (f : Fibre) (epc : Word) (t : Trap) (ereg : Nat) : Fibre :=
  { f with
    estatus := f.status
    epc := epc
    cause := w32 t.cause.code
    trapval := t.val.truncate 32
    trapvalh := (t.val >>> 32).truncate 32
    ereg := w32 ereg
    watchUnit := if t.cause = .watch then some epc else none }

/-- Entry into the handler: IH set, trap enables cleared, PC at the handler; WB is left as it is. -/
def Fibre.toHandler (f : Fibre) (handler : Word) : Fibre :=
  { f with status := (f.status ||| 1) &&& ~~~(0x3F00 : Word), pc := handler - 1, wait := none, watchOnce := false }

/-- Whether a trap of this fibre is a group fault: KIND 1 in a handler, KIND 2 without one. -/
def trapKind (f : Fibre) (handler : Word) : Option Nat :=
  if f.ih then some 1 else if !handler.getLsbD 0 then some 2 else none

/-- One lane that traps: what it reports and its EREG. -/
structure LaneTrap where
  lane : Fin 32
  trap : Trap
  ereg : Nat
  deriving DecidableEq, Repr

/-- What a fibre of the batch becomes: `h` is HANDLER and `p` the sub-group that parks. -/
def Fibre.takeTrap (ts : List LaneTrap) (rest : List (Fin 32)) (unit h : Word) (p : Nat) (f : Fibre) : Fibre :=
  match ts.find? (fun t => t.lane = f.lane) with
  | none => if rest.contains f.lane then { f with splits := p :: f.splits } else f
  | some t =>
    let f' := f.saveTrap unit t.trap t.ereg
    match trapKind f h with
    | some _ => { f' with wait := none }
    | none => { f'.toHandler h with parked := some p, rejoin := none }

/-- Lanes of a batch take traps at the unit `unit`: each saves its state and enters the handler, together they form one
parked sub-group, and the rest of the batch runs on. A lane in its handler, or in a kernel without one, is a group fault
(spec/02, R47; spec/08, R177). -/
def State.enterTrap (s : State) (gid : Nat) (rest : List (Fin 32)) (unit : Word) (ts : List LaneTrap) : State :=
  match s.group? gid, ts with
  | none, _ => s
  | _, [] => s
  | some g, t0 :: _ =>
    let h := s.handlerOf g
    let p := s.nextId
    let s := { s with nextId := s.nextId + 1 }
    let trapped := ts.map (·.lane)
    let faulting := g.fibres.filter fun f => trapped.contains f.lane && (trapKind f h).isSome
    let s := s.updGroup gid fun g => { g with fibres := g.fibres.map (Fibre.takeTrap ts rest unit h p) }
    match faulting with
    | [] => s
    | f :: _ =>
      let t := (ts.find? (fun t => t.lane = f.lane)).getD t0
      s.groupFault g.block
        ⟨(trapKind f h).getD 1, some t.trap.cause, g.recNum, laneMask (faulting.map (·.lane)), unit, g.coreId, t.trap.val, s.clk, 0⟩

/-- RTT: STATUS from ESTATUS but for STAGE and IH, IH cleared, PC from EPC (spec/02, R49). A return to a unit that took WATCH
runs it once without watch checks (spec/22, R396). -/
def Fibre.returnTrap (f : Fibre) : Fibre :=
  { f with
    status := mergeBits f.estatus f.status 0xE0000000 &&& ~~~(1 : Word) &&& statusFields
    pc := f.epc
    parked := none
    watchOnce := f.cause == w32 Cause.watch.code && f.watchUnit == some f.epc }

/-! Named barriers (spec/08, R193, R194; spec/09, R208). -/

/-- Completes a generation: GEN counts, ARRIVED clears, a pending MEMBER takes effect. -/
def Barrier.complete (b : Barrier) : Barrier :=
  { b with gen := b.gen + 1, arrived := 0, member := b.pending.getD b.member, pending := none }

/-- ARRIVED covers a non-empty MEMBER. -/
def Barrier.covered (b : Barrier) : Bool := b.member != 0 && (b.member &&& ~~~b.arrived) == 0

/-- A barrier after an arrival or a departure, and whether a generation completed. A MEMBER that becomes empty by the
change completes the generation too. -/
def Barrier.settle (b : Barrier) (emptied : Bool) : Barrier × Bool :=
  if b.covered || (emptied && b.member == 0) then (b.complete, true) else (b, false)

def barAt (l : List Barrier) (i : Nat) : Barrier := l.getD i ⟨0, 0, 0, none⟩

/-- A block-barrier generation has completed: PHASE counts, and a step on this barrier ends (spec/22, R393, R395). -/
def State.barCompleted (s : State) (bid n : Nat) : State :=
  let s := s.updBlock bid fun b => { b with phase := b.phase + 1 }
  match s.block? bid with
  | none => s
  | some b =>
    match b.mode with
    | .stepping k g =>
      if k.val = n ∧ (barAt b.bars n).gen = g + 1 then
        let s := s.traceRec b.ctx (s.traceBytes b 3 0 0xFF n 0 [] b.core 0)
        s.stopBlock bid .stepEnd 0xFF 0 b.core 0
      else s
    | _ => s

/-- Applies `f` to block barrier `n` and settles it. -/
def State.touchBar (s : State) (bid n : Nat) (f : Barrier → Barrier) : State :=
  match s.block? bid with
  | none => s
  | some b =>
    let old := barAt b.bars n
    let (nb, done) := (f old).settle (old.member != 0)
    let s := s.updBlock bid fun b => { b with bars := b.bars.set n nb }
    if done then s.barCompleted bid n else s

/-- Applies `f` to sheaf barrier `n` and settles it. -/
def State.touchSheafBar (s : State) (sid n : Nat) (f : Barrier → Barrier) : State :=
  s.updSheaf sid fun sh =>
    let old := barAt sh.bars n
    { sh with bars := sh.bars.set n ((f old).settle (old.member != 0)).1 }

def bitOf (i : Nat) : Word := 1 <<< i

/-- A member leaves a barrier. -/
def Barrier.leave (i : Nat) (b : Barrier) : Barrier :=
  { b with member := b.member &&& ~~~bitOf i, arrived := b.arrived &&& ~~~bitOf i, pending := b.pending.map (· &&& ~~~bitOf i) }

/-- A member arrives. -/
def Barrier.arrive (i : Nat) (b : Barrier) : Barrier := { b with arrived := b.arrived ||| bitOf i }

/-- The mark a fibre holds for a barrier. -/
def Fibre.markOf (f : Fibre) (b : Bar) : Option (BitVec 16) := (f.marks.find? (fun m => m.bar = b)).map (·.gen)
def Fibre.setMark (f : Fibre) (b : Bar) (g : BitVec 16) : Fibre :=
  { f with marks := ⟨b, g⟩ :: f.marks.filter (fun m => m.bar ≠ b), born := f.born.filter (fun m => m.bar ≠ b) }
def Fibre.clearMark (f : Fibre) (b : Bar) : Fibre := { f with marks := f.marks.filter (fun m => m.bar ≠ b) }

/-- The current generation of a barrier as a group sees it. -/
def State.barGen (s : State) (g : Group) (b : Bar) : BitVec 16 :=
  match b, s.block? g.block with
  | .blk n, some bl => (barAt bl.bars n.val).gen
  | .shf n, some bl => ((s.sheaf? bl.sheaf).map fun sh => (barAt sh.bars n.val).gen).getD 0
  | _, none => 0

/-- Every fibre of a group that has not exited holds the current mark of a barrier, but for fibres spawned in this generation. -/
def State.groupArrived (s : State) (g : Group) (b : Bar) : Bool :=
  g.fibres.any (fun f => f.markOf b = some (s.barGen g b)) &&
  g.fibres.all fun f => f.markOf b = some (s.barGen g b) || f.born.contains ⟨b, s.barGen g b⟩

/-- The arrivals that follow once the marks of group `gid` have changed: the group at a block barrier, the block at a sheaf
barrier when all its groups that have not ended have arrived (spec/08, R193; spec/09, R208). -/
def State.arriveIf (s : State) (gid : Nat) (b : Bar) : State :=
  match s.group? gid with
  | none => s
  | some g =>
    if g.task.isSome || g.fibres.isEmpty then s else
    match b, s.block? g.block with
    | _, none => s
    | .blk n, some bl =>
      let old := barAt bl.bars n.val
      if s.groupArrived g b && old.member.getLsbD g.index && !old.arrived.getLsbD g.index then
        s.touchBar bl.id n.val (Barrier.arrive g.index)
      else s
    | .shf n, some bl =>
      let all := s.groups.all fun x => x.block != bl.id || x.task.isSome || x.fibres.isEmpty || s.groupArrived x b
      match s.sheaf? bl.sheaf with
      | none => s
      | some sh =>
        let old := barAt sh.bars n.val
        if all && old.member.getLsbD bl.rank && !old.arrived.getLsbD bl.rank then
          s.touchSheafBar sh.id n.val (Barrier.arrive bl.rank)
        else s

/-- All barriers of a block and its sheaf. -/
def allBars : List Bar := (List.finRange 16).map .blk ++ (List.finRange 8).map .shf

/-- A group has lost fibres: it may now have arrived somewhere, or, with none left, it leaves every MEMBER. -/
def State.afterExit (s : State) (gid : Nat) : State :=
  match s.group? gid with
  | none => s
  | some g =>
    if g.task.isSome then s
    else if g.fibres.isEmpty then
      let s := (List.range 16).foldl (fun s n => s.touchBar g.block n (Barrier.leave g.index)) s
      -- the block may now have arrived at a sheaf barrier without the ended group
      s.groups.foldl (fun t x => if x.block = g.block then (List.finRange 8).foldl (fun t n =>
        if x.fibres.any (fun f => (f.markOf (.shf n)).isSome) then t.arriveIf x.id (.shf n) else t) t else t) s
    else
      allBars.foldl (fun s b => if g.fibres.any (fun f => (f.markOf b).isSome) then s.arriveIf gid b else s) s

/-- A fibre as a launch creates it: registers full and 0, EREG 127, STAGE in STATUS (spec/02, R46). -/
def Fibre.start (lane : Fin 32) (pc : Word) (regsN stage : Nat) : Fibre where
  lane := lane
  pc := pc
  vregs := List.replicate regsN (.of 0)
  vtags := List.replicate ((regsN + 3) / 4) false
  pred := 1
  predBusy := 0
  status := w32 (stage % 8 * 2 ^ 29)
  flags := 0
  epc := 0
  cause := 0
  trapval := 0
  trapvalh := 0
  estatus := 0
  ereg := 127
  link := 0
  clkLatch := none
  marks := []
  born := []
  turn := false
  wait := none
  again := false
  aset := 0
  parked := none
  rejoin := none
  splits := []
  watchOnce := false
  watchUnit := none
  readySince := none

/-! Cores, quadrants, slots, lofts that no list names are fresh. -/

def Quadrant.fresh : Quadrant := ⟨.zero, [], false, none⟩
def Core.fresh (id : Nat) : Core := ⟨id, List.replicate 4 .fresh, [], [], 1, 0, 0⟩
def State.core (s : State) (id : Nat) : Core := (s.cores.find? (fun c => c.id = id)).getD (.fresh id)
def State.setCore (s : State) (c : Core) : State := { s with cores := c :: s.cores.filter (fun x => x.id != c.id) }
def State.updCore (s : State) (id : Nat) (f : Core → Core) : State := s.setCore (f (s.core id))
def Core.quad (c : Core) (q : Fin 4) : Quadrant := c.quads.getD q.val .fresh
def Core.setQuad (c : Core) (q : Fin 4) (x : Quadrant) : Core := { c with quads := c.quads.set q.val x }

def LoftLane.fresh : LoftLane := ⟨List.replicate 16 (List.replicate 16 0), List.replicate 8 0, List.replicate 258 0⟩
def Loft.fresh (id : Nat) : Loft := ⟨id, false, none, List.replicate 16 .fresh, 0⟩
def State.loft (s : State) (id : Nat) : Loft := (s.lofts.find? (fun c => c.id = id)).getD (.fresh id)
def State.setLoft (s : State) (l : Loft) : State := { s with lofts := l :: s.lofts.filter (fun x => x.id != l.id) }

/-- The counters of a slot; one that is not listed has counted NO_GROUP in every clk since module reset (spec/22, R399). -/
def State.slotOf (s : State) (core slot : Nat) : Slot :=
  (s.slots.find? (fun x => x.core = core ∧ x.slot = slot)).getD ⟨core, slot, [0, 0, s.clk] ++ List.replicate 13 0, none, false, none, [], []⟩
def State.setSlot (s : State) (x : Slot) : State :=
  { s with slots := x :: s.slots.filter (fun y => !(y.core == x.core && y.slot == x.slot)) }

end Sys2Proof.Machine
end

