-- ==== Sys2Proof/Machine/Operands.lean ====
section
/-! DEFINITION. How a unit issues: which lanes of the batch trap, wait or go, how operands are read and destinations written,
and what every issue leaves behind (spec/02, R29 to R35, R44 to R48; spec/08, R174 to R178). -/
namespace Sys2Proof.Machine

/-- One register operand: its first register, how many it covers, its F bit, its uses, and the sub-field of a quad, which the
field holds in its low bits (spec/03, R54). Operands stand in the order D, A, B (spec/02, R48). -/
structure Operand where
  reg : Reg
  n : Nat
  trapEmpty : Bool
  src : Bool
  dst : Bool
  sub : Nat
  deriving DecidableEq, Repr

def Operand.source (r : Reg) (n : Nat) (t : Bool) : Operand := ⟨r, n, t, true, false, 0⟩
/-- A quad source with its sub-field. -/
def Operand.quad (q : Quad) (sub : Nat) (t : Bool) : Operand := ⟨q.base, 4, t, true, false, sub⟩
def Operand.dest (r : Reg) (n : Nat) : Operand := ⟨r, n, false, false, true, 0⟩
/-- D read as a source that has no F bit. -/
def Operand.both (r : Reg) (n : Nat) : Operand := ⟨r, n, false, true, true, 0⟩

/-- In which lanes of the batch an instruction reads A: its own; every lane; lanes up to its own; the lane that B names, or its
own (spec/09, R196 to R200; spec/06, R148). -/
inductive Cross where
  | own | every | upTo | named (b : Reg)
  deriving DecidableEq, Repr

/-- How a word uses its registers. `once`: it acts once for the batch, with operands of the lowest fibre (spec/13, R280); D is
written in every fibre. `cross`: the lanes in which it reads A; with `once`, `every` says that its last operand is read in lanes
0 to 15 (spec/19, R351). -/
structure Form where
  ops : List Operand
  preds : List (Fin 8) := []
  once : Bool := false
  cross : Cross := .own
  deriving DecidableEq, Repr

/-- The operand that is read in other lanes: the first source. -/
def Form.readsA (fm : Form) (o : Operand) : Bool := fm.cross != .own && fm.ops.find? (·.src) == some o

/-- The destination of a form: the first operand that is written. -/
def Form.dst (fm : Form) : Option Operand := fm.ops.find? (·.dst)

/-- Where a fibre's result goes. -/
def Operand.destOf (o : Operand) (f : Fibre) : Dest :=
  match o.reg with
  | .v n => .vec f.lane (f.phys n.val) o.n
  | .s n => .sca f.lane n.val o.n
  | _ => .none f.lane

def Form.destOf (fm : Form) (f : Fibre) : Dest :=
  match fm.dst with
  | some o => o.destOf f
  | none => .none f.lane

def Reg.scalar : Reg → Bool
  | .s _ => true
  | _ => false

/-- A scalar destination takes one lane only (spec/02, R30). -/
def Form.scalarDst (fm : Form) : Bool :=
  match fm.dst with
  | some o => Reg.scalar o.reg
  | none => false

def Operand.cells (o : Operand) (g : Group) (f : Fibre) : List RegCell := (o.reg.span o.n).map (g.cell f)

/-- The registers an operand covers lie in the allocation (spec/02, R29; spec/03, R55). -/
def Operand.inRange (o : Operand) (g : Group) (f : Fibre) : Bool :=
  match o.reg with
  | .v n => decide (f.phys n.val + o.n ≤ g.regsN)
  | _ => true

/-- The value of the operand's field: its first register, and the sub-field of a quad (spec/03, R54, R55). -/
def Operand.field (o : Operand) : Nat := o.reg.toNat + o.sub
/-- TRAPVAL of a register trap (spec/02, R29, R33). -/
def Operand.value (o : Operand) : DWord := d64 o.field

/-- A value that covers a register: the mark of the first faulted one. -/
def Operand.marked (o : Operand) (g : Group) (f : Fibre) : Option Trap := (o.cells g f).findSome? (·.mark)
def Operand.empty (o : Operand) (g : Group) (f : Fibre) : Bool := (o.cells g f).any fun c => !c.full && c.mark.isNone
def Operand.poisoned (o : Operand) (g : Group) (f : Fibre) : Bool := (o.cells g f).any (·.poison)

/-- The registers that a producer will write. -/
def Work.dests : Work → List Dest
  | .ready vs => vs.map (·.dest)
  | .load _ _ _ ls => ls.map (·.dest)
  | .atomic _ _ ls => ls.map (·.1)
  | .hist _ _ _ ls => ls.map (·.dest)
  | .tex _ ls => ls.map (·.dest)
  | .trace ls => ls.map (·.dest)
  | .tri _ _ _ => []
  | .kv _ => []
  | .cread _ ds => ds
  | .ctest _ _ _ _ => []
  | .ext _ _ => []

/-- The destinations that a producer has not written yet. -/
def Producer.dests (p : Producer) : List Dest := p.work.dests ++ p.early.map (·.dest)

/-- Whether a destination covers a register of a fibre. -/
def Dest.covers (d : Dest) (f : Fibre) (r : Reg) : Bool :=
  match d, r with
  | .vec l p n, .v k => l == f.lane && decide (p ≤ f.phys k.val) && decide (f.phys k.val < p + n)
  | .sca _ p n, .s k => decide (p ≤ k.val) && decide (k.val < p + n)
  | _, _ => false

/-- The number of registers of a destination. -/
def Dest.size : Dest → Nat
  | .vec _ _ n => n
  | .sca _ _ n => n
  | .none _ => 0

/-- A producer estimated at 64 clk or more (spec/08, Table 8.3). -/
def Producer.long (p : Producer) : Bool :=
  match p.work with
  | .load _ _ _ ls => ls.any fun l => l.key.isNone
  | .atomic _ _ ls => ls.any fun l => !isScratch l.2.key
  | .hist form _ _ _ => form != 2
  | .tex _ _ => true
  | .ready vs => match p.kind with
    | .rational => vs.any fun v => v.dest.size == 2
    | .memory => vs.any fun v => v.dest.size == 4
    | _ => false
  | _ => false

def KvOp.long : KvOp → Bool
  | .look _ _ => true
  | .pub _ _ => true
  | _ => false

/-- Who still has to write a register of a fibre: the kind of the producer, and whether Table 8.3 of spec/08 names it. -/
def State.owers (s : State) (g : Group) (f : Fibre) (r : Reg) : List (ProdKind × Bool) :=
  ((s.producers.filter fun p => p.group == g.id && p.dests.any fun d => d.covers f r).map fun p => (p.kind, p.long)) ++
  (s.kvops.filter fun q => q.group == g.id && q.dest.covers f r).map fun q => (ProdKind.memory, q.op.long)

/-- A register that is neither full nor faulted. -/
def Group.lacks (g : Group) (f : Fibre) (r : Reg) : Bool := !(g.cell f r).full && (g.cell f r).mark.isNone

/-- The registers of an operand that it waits for. An empty register that a save has left is owed by none until its instruction issues
again, and only a read of it waits (spec/21, Table 21.5). -/
def State.waitsOf (s : State) (g : Group) (f : Fibre) (o : Operand) : List (Fin 32 × Reg) :=
  let rs := (o.reg.span o.n).filter (g.lacks f)
  if o.src || rs.any (fun r => !(s.owers g f r).isEmpty) then rs.map fun r => (f.lane, r) else []

/-- What the checks that come before an instruction's own causes say of one fibre. -/
inductive Ready where
  | trap (t : LaneTrap)
  | wait (w : Wait)
  | go
  deriving DecidableEq, Repr

def Ready.trap? : Ready → Option LaneTrap
  | .trap t => some t
  | _ => none
def Ready.wait? : Ready → Option Wait
  | .wait w => some w
  | _ => none

/-- The deferred trap of the first faulted operand in the order D, A, B. A handler, with IH = 1, writes a faulted register
without it: the write clears the mark (spec/02, R35, R48; notes/assumptions/93). -/
def Form.markTrap (fm : Form) (g : Group) (f : Fibre) : Option LaneTrap :=
  fm.ops.findSome? fun o => if f.ih && !o.src then none else (o.marked g f).map fun t => ⟨f.lane, t, o.field⟩

/-- EMPTY_READ of the first operand whose F bit is set and that is empty, by `emptyIn`. -/
def Form.emptyTrap (fm : Form) (f : Fibre) (emptyIn : Operand → Bool) : Option LaneTrap :=
  fm.ops.findSome? fun o => if o.src && o.trapEmpty && emptyIn o then some ⟨f.lane, ⟨.emptyRead, o.value⟩, 127⟩ else none

/-- A poisoned source traps POISON with its register, by `poisonedIn` (spec/10, R229). -/
def Form.poisonTrap (fm : Form) (f : Fibre) (poisonedIn : Operand → Bool) : Option LaneTrap :=
  fm.ops.findSome? fun o => if o.src && poisonedIn o then some ⟨f.lane, ⟨.poison, o.value⟩, 127⟩ else none

/-- The fibres of a batch in which a fibre reads A. -/
def Cross.reads (x : Cross) (g : Group) (batch : List Fibre) (f : Fibre) : List Fibre :=
  match x with
  | .own => [f]
  | .every => batch
  | .upTo => batch.filter fun y => decide (y.lane ≤ f.lane)
  | .named b => [(batch.find? fun y => y.lane.val = (g.cell f b).val.toNat).getD f]

/-- A test of an operand in the fibres in which it is read. -/
def Form.inLanes (fm : Form) (f : Fibre) (others : List Fibre) (p : Operand → Fibre → Bool) (o : Operand) : Bool :=
  if fm.readsA o then others.any (p o) else p o f

/-- The leaf of a producer's kind (spec/22, Table 22.4). -/
def ProdKind.leaf : ProdKind → Nat
  | .memory => 4
  | .longArith => 5
  | .rational => 6
  | .history => 7

/-- The leaf that a waiting cycle counts in (spec/22, Table 22.4); for registers that depends on who owes them. -/
def Wait.leaf : Wait → Nat
  | .register _ _ => 4
  | .producer k => k.leaf
  | .reconv _ _ => 12
  | .barrier _ => 12
  | .lser => 14
  | .token => 9
  | .matrix => 12
  | .counter => 13
  | .queue => 13
  | .streamer => 10
  | .scoreboard => 11
  | .release => 8
  | .replay => 4
  | .held => 8
  | .hopen _ => 12
  | .fetch _ => 3
  | .brk _ => 15

/-- The branches of the issue-slot tree in the order in which they claim a cycle (spec/22, R400). -/
def leafOrder : List Nat := [15, 3, 12, 13, 14, 8, 9, 10, 11, 4, 5, 6, 7]

/-- Of several waits the one whose leaf comes first in that order. -/
def firstWait : List Wait → Option Wait
  | [] => none
  | w :: r => some (r.foldl (fun x y => if leafOrder.idxOf y.leaf < leafOrder.idxOf x.leaf then y else x) w)

/-- Several waits on registers as one. -/
def Wait.join : Wait → Wait → Wait
  | .register a p, .register b q => .register (a ++ b) (p ++ q)
  | w, _ => w
def joinWaits : List Wait → Option Wait
  | [] => none
  | w :: r => some (r.foldl Wait.join w)

/-- Who will write a predicate of a lane. -/
def State.predOwers (s : State) (g : Group) (lane : Fin 32) (p : Fin 8) : List ProdKind :=
  (s.producers.filter fun q => q.group == g.id && q.preds.contains (lane, p)).map (·.kind)

/-- The predicates of a form that are still to be written. -/
def Form.predWaits (fm : Form) (f : Fibre) : List (Fin 32 × Fin 8) :=
  (fm.preds.filter fun p => p.val != 0 && f.predBusy.getLsbD p.val).map fun p => (f.lane, p)

/-- What the operands and predicates of a fibre wait for. -/
def Form.waitOn (fm : Form) (s : State) (g : Group) (f : Fibre) : Option Wait :=
  match fm.ops.flatMap (s.waitsOf g f), fm.predWaits f with
  | [], [] => none
  | cs, ps => some (.register cs ps)

/-- The registers and predicates of a wait that are still awaited. -/
def Group.stillEmpty (g : Group) (cs : List (Fin 32 × Reg)) : List (Fibre × Reg) :=
  cs.filterMap fun x => (g.fibre? x.1).bind fun f => if g.lacks f x.2 then some (f, x.2) else none
def Group.stillBusy (g : Group) (ps : List (Fin 32 × Fin 8)) : List (Fin 32 × Fin 8) :=
  ps.filter fun x => ((g.fibre? x.1).map fun f => f.predBusy.getLsbD x.2.val).getD false

/-- A wait on registers is over. -/
def Group.regsOver (g : Group) (cs : List (Fin 32 × Reg)) (ps : List (Fin 32 × Fin 8)) : Bool :=
  (g.stillEmpty cs).isEmpty && (g.stillBusy ps).isEmpty

/-- The leaves that a wait counts in now: for registers those of the producers that owe them (spec/22, Table 22.4, R400). -/
def State.waitLeaves (s : State) (g : Group) : Wait → List Nat
  | .register cs ps =>
    ((g.stillEmpty cs).flatMap fun x => match s.owers g x.1 x.2 with
      | [] => [4]
      | l => l.map (·.1.leaf)) ++ (g.stillBusy ps).flatMap fun x => (s.predOwers g x.1 x.2).map ProdKind.leaf
  | w => [w.leaf]

/-- A register of a wait is owed by a producer that Table 8.3 of spec/08 names. -/
def State.waitsLong (s : State) (g : Group) : Option Wait → Bool
  | some (.register cs _) => (g.stillEmpty cs).any fun x => (s.owers g x.1 x.2).any (·.2)
  | _ => false

/-- The checks of one fibre whose guard holds, in the order of R48 and R229. `batch` is the fibres whose A is read: A must be full
in all of them, and poison counts in those that the fibre reads (spec/09, R196; spec/10, R229; notes/assumptions/95). -/
def Form.ready (fm : Form) (s : State) (g : Group) (batch : List Fibre) (f : Fibre) : Ready :=
  match fm.markTrap g f with
  | some t => .trap t
  | none =>
    match fm.emptyTrap f (fm.inLanes f batch fun o x => o.empty g x) with
    | some t => .trap t
    | none =>
      match fm.waitOn s g f with
      | some w => .wait w
      | none =>
        match fm.poisonTrap f (fm.inLanes f (fm.cross.reads g batch f) fun o x => o.poisoned g x) with
        | some t => .trap t
        | none => .go

/-- The checks of a form that acts once: those of its lowest fibre, of D in every acting fibre, and for a cross form of the last
operand in the acting fibres of lanes 0 to 15, cause by cause (spec/02, R33, R35; spec/08, R178). -/
def Form.readyOnce (fm : Form) (s : State) (g : Group) (f : Fibre) (act : List Fibre) : Ready :=
  let rest := act.filter fun x => x.lane != f.lane
  let last : Form := { fm with ops := fm.ops.drop (fm.ops.length - 1), preds := [], cross := .own }
  let dsts : Form := { fm with ops := fm.ops.filter (·.dst), cross := .own }
  let all := (fm, f) :: (rest.map fun x => (dsts, x)) ++
    if fm.cross = .every then (rest.filter fun x => decide (x.lane.val < 16)).map fun x => (last, x) else []
  match all.findSome? fun x => x.1.markTrap g x.2 with
  | some t => .trap t
  | none =>
    match all.findSome? fun x => x.1.emptyTrap x.2 (fun o => o.empty g x.2) with
    | some t => .trap t
    | none =>
      match joinWaits (all.filterMap fun x => x.1.waitOn s g x.2) with
      | some w => .wait w
      | none =>
        match all.findSome? fun x => x.1.poisonTrap x.2 (fun o => o.poisoned g x.2) with
        | some t => .trap t
        | none => .go

/-- REGISTER_RANGE of the first operand out of the allocation, made whatever the guard (spec/02, R29). Of several operands it reports
the first in the order D, A, B (notes/assumptions/124). -/
def Form.rangeTrap (fm : Form) (g : Group) (f : Fibre) : Option LaneTrap :=
  fm.ops.findSome? fun o => if o.inRange g f then none else some ⟨f.lane, ⟨.registerRange, o.value⟩, 127⟩

/-- A guard that holds in a fibre (spec/02, R44). -/
def Cur.holds (c : Cur) (f : Fibre) : Bool :=
  match c.guard with
  | none => true
  | some (neg, p) => f.predBit p != neg

/-- The guard's predicate is still to be written. -/
def Cur.guardBusy (c : Cur) (f : Fibre) : Bool :=
  match c.guard with
  | none => false
  | some (_, p) => p.val != 0 && f.predBusy.getLsbD p.val

/-- The wait for the guard's predicate in some fibres. -/
def Cur.guardWait (c : Cur) (fs : List Fibre) : Wait := .register [] (fs.filterMap fun f => c.guard.map fun x => (f.lane, x.2))

/-- The lanes of a batch sorted before the instruction's own causes. -/
structure Sorted where
  traps : List LaneTrap
  wait : Option Wait
  off : List Fibre
  go : List Fibre
  deriving DecidableEq, Repr

/-- The deferred trap of a faulted D, in a form that acts once: each fibre has its own (spec/08, R178). -/
def Form.dstMark (fm : Form) (g : Group) (f : Fibre) : Option LaneTrap := ({ fm with ops := fm.ops.filter (·.dst) } : Form).markTrap g f

/-- The deferred trap of a fibre's own copies in such a form: of D; in a cross form also of the last operand in lanes 0 to 15, and of the
others in the lowest acting fibre. The fibres that go on then lack its lane (spec/08, R178; spec/19, R351). -/
def Form.onceMark (fm : Form) (g : Group) (act : List Fibre) (f : Fibre) : Option LaneTrap :=
  if fm.cross = .every then
    ({ fm with ops := fm.ops.filter fun o => o.dst ||
      (if fm.ops.getLast? == some o then decide (f.lane.val < 16) else (act.head?.map (·.lane)) == some f.lane) } : Form).markTrap g f
  else fm.dstMark g f

/-- Sorts the batch of a unit. When any fibre that would act must wait, no fibre acts (spec/02, R33; spec/08, R175). -/
def State.sort (s : State) (g : Group) (c : Cur) (fm : Form) : Sorted :=
  let batch := g.batch c.lanes
  let ranged := batch.filterMap (fm.rangeTrap g)
  let inside := batch.filter fun f => (fm.rangeTrap g f).isNone
  if inside.any c.guardBusy then ⟨ranged, some (c.guardWait (inside.filter c.guardBusy)), [], []⟩ else
  let off := inside.filter fun f => !c.holds f
  let act := inside.filter c.holds
  if fm.once then
    let early := ranged ++ act.filterMap (fm.onceMark g act)
    match act.filter fun f => (fm.onceMark g act f).isNone with
    | [] => ⟨early, none, off, []⟩
    | f0 :: r =>
      let act := f0 :: r
      match fm.readyOnce s g f0 act with
      | .trap t => ⟨early ++ act.map (fun f => { t with lane := f.lane }), none, off, []⟩
      | .wait w => ⟨early, some w, [], []⟩
      | .go => ⟨early, none, off, act⟩
  else
    let traps := act.filterMap fun f => (fm.ready s g act f).trap?
    let waits := act.filterMap fun f => (fm.ready s g act f).wait?
    let go := act.filter fun f => fm.ready s g act f = .go
    match joinWaits waits with
    | some w => ⟨ranged ++ traps, some w, [], []⟩
    | none => ⟨ranged ++ traps, none, off, go⟩

/-- What one lane's execution gives when it completes. -/
structure LaneRes where
  words : List Word := []
  tag : Bool := false
  /-- The destination is marked empty; a producer will write it. -/
  pend : Bool := false
  /-- The destination is marked faulted at once. -/
  mark : Option Trap := none
  pred : Option (Fin 8 × Bool) := none
  flags : BitVec 6 := 0
  upd : Fibre → Fibre := id
  target : Option Word := none

/-- One lane: it completes, traps (with flags that it has raised), or makes the batch wait. -/
inductive LaneOut where
  | done (r : LaneRes)
  | trap (t : Trap) (flags : BitVec 6)
  | wait (w : Wait)

/-- A trap that raises no flag. -/
def LaneOut.fail (c : Cause) (v : DWord) : LaneOut := .trap ⟨c, v⟩ 0

/-- The lanes of an instruction and what it does besides registers and PC. -/
structure Body where
  outs : List (Fibre × LaneOut)
  effect : State → State := id
  /-- What happens when the batch has to wait. -/
  onWait : State → State := id

/-- Counts one cycle of a slot in a leaf (spec/22, R399). -/
def State.countLeaf (s : State) (core slot leaf : Nat) : State :=
  let x := s.slotOf core slot
  s.setSlot { x with leaves := x.leaves.set leaf (x.leaves.getD leaf 0 + 1) }

/-- The RECONV at which a fibre waits. -/
def Fibre.atReconv (f : Fibre) : Option (Word × Word) :=
  match f.wait with
  | some (.reconv a n) => some (a, n)
  | _ => none

/-- Whether the reconvergence barrier at which `f` waits releases: every fibre that it counts waits there, and outside a handler no
parked sub-group has it as its rejoin barrier (spec/08, R176, R177). -/
def Group.reconvDone (g : Group) (f : Fibre) : Bool :=
  match f.atReconv with
  | none => false
  | some (a, _) =>
    let here := fun (x : Fibre) => (x.atReconv.map (·.1)) == some a
    match f.parked with
    | some p => g.fibres.all fun x => x.parked != some p || here x
    | none =>
      (g.fibres.all fun x => x.parked.isSome || x.aset != f.aset || here x) &&
      !(g.fibres.any fun x => x.parked.isSome && x.rejoin == some a)

/-- Releases the barrier of `f` when it is done: its fibres go on as one batch, outside a handler as a new arrival set; in a handler
their sets stay as they are (notes/assumptions/107). -/
def Group.releaseReconv (g : Group) (f : Fibre) : Group :=
  if !g.reconvDone f then g else
  { g with
    nextAset := g.nextAset + 1
    fibres := g.fibres.map fun x =>
      match x.atReconv with
      | some (a, n) =>
        if (f.atReconv.map (·.1)) == some a && x.parked == f.parked && (f.parked.isSome || x.aset == f.aset) then
          { x with pc := n, wait := none, aset := if f.parked.isSome then x.aset else g.nextAset }
        else x
      | none => x }

/-- Releases every reconvergence barrier of a group that is done. -/
def Group.settleReconv (g : Group) : Group :=
  if g.fibres.any (fun f => f.atReconv.isSome) then
    g.fibres.foldl (fun h f => match h.fibre? f.lane with | some x => h.releaseReconv x | none => h) g
  else g

/-- The end of an issued unit: nothing is being issued, the cycle is counted, reconvergence barriers that are done release. -/
def State.endUnit (s : State) (g : Group) (leaf : Nat) : State :=
  { (s.countLeaf g.core g.slot leaf).updGroup g.id Group.settleReconv with cur := none }

/-- What every issue of a batch leaves behind: ISSUES, the greedy group, the issue that a sample names (spec/08, R187;
spec/21, R382; spec/22, R401). -/
def State.noteIssue (s : State) (g : Group) (c : Cur) : State :=
  let s := s.updBlock g.block fun b => { b with issues := min (b.issues + 1) (2 ^ 48 - 1) }
  let clk := s.clk
  let s := s.updGroup g.id fun g => { g with lastIssue := clk }
  let x := s.slotOf g.core g.slot
  let note := (s.block? g.block).map fun b => (⟨clk, c.unit, g.recNum, b.x, b.yz, b.phase, s.gridSeqOf b⟩ : Issued)
  s.setSlot { x with lastGroup := some g.id, issued := note }

/-- The address of the next unit (spec/02, R42 to R44). -/
def Cur.next (c : Cur) : Word := c.addr + w32 c.len

/-- A destination takes a lane's words, or is marked empty, or faulted. -/
def Group.land (g : Group) (d : Dest) (r : LaneRes) : Group :=
  match r.mark with
  | some t => (g.emptyDest d).markDest d t
  | none => if r.pend then g.emptyDest d else if r.words.isEmpty then g else g.deliver d r.words r.tag false

/-- A lane's predicate, flags and PC after it completes, and the instruction's own change. -/
def LaneRes.finish (c : Cur) (r : LaneRes) (f : Fibre) : Fibre :=
  let f := match r.pred with | some (p, b) => f.setPred p b | none => f
  r.upd { f with flags := f.flags ||| r.flags, pc := r.target.getD c.next, wait := none, watchOnce := false }

/-- One lane completes; `write` tells whether it delivers the destination. -/
def Group.complete (g : Group) (c : Cur) (fm : Form) (write : Bool) (f : Fibre) (r : LaneRes) : Group :=
  (if write then g.land (fm.destOf f) r else g).updFibre f.lane (r.finish c)

/-- Completes lanes in order; a scalar destination is written by the first one only (spec/02, R30). -/
def Group.completeAll (g : Group) (c : Cur) (fm : Form) : Bool → List (Fibre × LaneRes) → Group
  | _, [] => g
  | first, (f, r) :: rest =>
    (g.complete c fm (first || !fm.scalarDst) f r).completeAll c fm false rest

def LaneOut.res? : Fibre × LaneOut → Option (Fibre × LaneRes)
  | (f, .done r) => some (f, r)
  | _ => none
def LaneOut.trap? : Fibre × LaneOut → Option (LaneTrap × BitVec 6)
  | (f, .trap t fl) => some (⟨f.lane, t, 127⟩, fl)
  | _ => none
def LaneOut.wait? : Fibre × LaneOut → Option Wait
  | (_, .wait w) => some w
  | _ => none

/-- A batch that was put to work has not issued: the choices of its slot stand as before it (spec/08, R175; spec/09, R206;
notes/assumptions/115). -/
def State.undoChoice (s : State) (g : Group) : State :=
  match s.cur.bind (·.undo) with
  | none => s
  | some u =>
    let s := s.updGroup g.id fun h => { h with lastLanes := u.lanes, lastRun := u.run, yielded := u.yielded }
    s.setSlot { s.slotOf g.core g.slot with yielded := u.slotYielded }

/-- Makes the lanes of a batch wait; the unit is tried again when the wait ends. The batch has not issued, so the slot's cycle goes to
another batch, or counts as R400 of spec/22 says. -/
def State.waitBatch (s : State) (g : Group) (lanes : List (Fin 32)) (w : Wait) : State :=
  let s := (s.undoChoice g).updGroup g.id fun g => (g.updBatch lanes fun f => { f with wait := some w }).settleReconv
  { s with cur := none, rr := (g.core, g.slot) :: s.rr }

/-- Issues the unit at work: sorts its lanes, runs `body` on those that go, and retires them. -/
def State.issue (s : State) (fm : Form) (body : State → Group → Cur → List Fibre → Body) : State :=
  match s.cur with
  | none => s
  | some c =>
    match s.group? c.group with
    | none => { s with cur := none }
    | some g =>
      let so := s.sort g c fm
      let early := so.traps.map (·.lane)
      let rest := c.lanes.filter (fun l => !early.contains l)
      match so.wait with
      | some w =>
        let s := s.enterTrap g.id rest c.unit so.traps
        s.waitBatch g rest w
      | none =>
        let b := if so.go.isEmpty then ⟨[], id, id⟩ else body s g c so.go
        let own := b.outs.filterMap LaneOut.trap?
        let ownLanes := own.map (fun t => t.1.lane)
        let rest := rest.filter (fun l => !ownLanes.contains l)
        match b.outs.findSome? LaneOut.wait? with
        | some w =>
          let s := s.updGroup g.id fun g => own.foldl (fun g t => g.updFibre t.1.lane fun f => { f with flags := f.flags ||| t.2 }) g
          let s := s.enterTrap g.id rest c.unit (so.traps ++ own.map (·.1))
          (b.onWait s).waitBatch g rest w
        | none =>
          let s := s.noteIssue g c
          let s := s.updGroup g.id fun g =>
            let g := so.off.foldl (fun g f => g.updFibre f.lane fun f => { f with pc := c.next, wait := none, watchOnce := false }) g
            let g := g.completeAll c fm true (b.outs.filterMap LaneOut.res?)
            own.foldl (fun g t => g.updFibre t.1.lane fun f => { f with flags := f.flags ||| t.2 }) g
          let s := s.enterTrap g.id rest c.unit (so.traps ++ own.map (·.1))
          let s := b.effect s
          s.endUnit g (if (g.batch c.lanes).any c.holds then 0 else 1)

/-- A trap of the whole batch at decode, whatever the guard (spec/02, R45). -/
def State.illegalUnit (s : State) (val : DWord) (unit : Word) : State :=
  match s.cur with
  | none => s
  | some c =>
    match s.group? c.group with
    | none => { s with cur := none }
    | some g =>
      let s := s.noteIssue g c
      (s.enterTrap g.id [] unit (c.lanes.map fun l => ⟨l, ⟨.illegal, val⟩, 127⟩)).endUnit g 15

/-- Lanes one by one. -/
def eachLane (f : Group → Fibre → LaneOut) : State → Group → Cur → List Fibre → Body :=
  fun _ g _ fs => { outs := fs.map fun x => (x, f g x) }

/-- Fibres of a batch that have heard of a declined page. -/
def State.hearDeclined (s : State) (gid : Nat) (lanes : List (Fin 32)) : State :=
  let drop := fun (r : Replay) =>
    if r.declined then { r with fibres := r.fibres.filter (fun x => !(x.1 == gid && lanes.contains x.2)) } else r
  { s with replays := (s.replays.map drop).filter (fun r => !(r.declined && r.prods.isEmpty && r.fibres.isEmpty)) }

/-- An instruction that acts once for its batch (spec/11, R233; spec/13, R280): a trap of all, a wait, or one effect. -/
inductive Once where
  | trap (t : Trap)
  /-- A trap that leaves an effect behind. -/
  | trapWith (t : Trap) (effect : State → State)
  | wait (w : Wait) (onWait : State → State)
  | go (r : LaneRes) (effect : State → State)

/-- The body of such an instruction; `f` is the lowest fibre whose guard holds. -/
def onceBody (h : State → Group → Cur → Fibre → Once) : State → Group → Cur → List Fibre → Body :=
  fun s g c fs =>
    match fs with
    | [] => { outs := [] }
    | f :: _ =>
      match h s g c f with
      | .trap t => { outs := fs.map fun x => (x, .trap t 0), effect := fun u => (u.hearDeclined g.id c.lanes).notePage (s.ctxOf g) t }
      | .trapWith t e => { outs := fs.map fun x => (x, .trap t 0), effect := e }
      | .wait w e => { outs := fs.map fun x => (x, .wait w), onWait := e }
      | .go r e => { outs := fs.map fun x => (x, .done r), effect := e }

/-- Waits that end when what they wait for may have changed: the unit is tried again. HOPEN keeps its field until walks have left it. -/
def Wait.retries : Wait → Bool
  | .reconv _ _ => false
  | .barrier _ => false
  | .lser => false
  | .token => false
  | .counter => false
  | .brk _ => false
  | .hopen (some _) => false
  | .register _ _ => false
  | .replay => false
  | .fetch true => false
  | _ => true

/-- Waits that end only with the answer of a replay (spec/21, R379, R380). -/
def Wait.onReplay : Wait → Bool
  | .replay => true
  | .fetch true => true
  | _ => false

/-- Adds a long-latency producer of the group (spec/02, R33). -/
def State.addProducer (s : State) (gid : Nat) (kind : ProdKind) (preds : List (Fin 32 × Fin 8)) (flagLanes : List (Fin 32)) (acq : Option Scope) (w : Work) : State :=
  let s := s.updGroup gid fun g => preds.foldl (fun g q => g.updFibre q.1 fun f =>
    { f with predBusy := if q.2.val = 0 then f.predBusy else f.predBusy ||| ((1 : BitVec 8) <<< q.2.val) }) g
  { s with producers := s.producers ++ [⟨s.nextId, gid, kind, preds.filter (fun q => q.2.val != 0), flagLanes, acq, w, []⟩], nextId := s.nextId + 1 }

/-- Wakes the fibres of a group whose wait satisfies `p`: they try their unit again, and until then their wait stands (spec/23,
R407). -/
def Group.wake (g : Group) (p : Wait → Bool) : Group :=
  { g with fibres := g.fibres.map fun f => match f.wait with | some w => if p w then { f with again := true } else f | none => f }

/-- A group of a block that is not stopped: only there does a wait end (spec/22, R394; spec/23, R407). -/
def State.wakes (s : State) (g : Group) : Bool :=
  match s.block? g.block with
  | some b => match b.mode with
    | .running => true
    | .stepping _ _ => true
    | _ => false
  | none => true
def State.wakeAll (s : State) (p : Wait → Bool) : State := { s with groups := s.groups.map fun g => if s.wakes g then g.wake p else g }

/-- Wakes the fibres of one group. -/
def State.wakeGroup (s : State) (gid : Nat) (p : Wait → Bool) : State :=
  { s with groups := s.groups.map fun g => if g.id = gid && s.wakes g then g.wake p else g }

/-- Wakes some fibres of a group from one wait. -/
def State.wakeLanes (s : State) (gid : Nat) (ls : List (Fin 32)) (w : Wait) : State :=
  { s with groups := s.groups.map fun g =>
    if g.id = gid && s.wakes g then g.updBatch ls fun f => if f.wait = some w then { f with wait := none } else f else g }

/-! Reading operands. -/

/-- A register as a 32-bit value. -/
def Group.word (g : Group) (f : Fibre) (r : Reg) : Word := (g.cell f r).val
/-- A pair as a 64-bit value (spec/04, R77). -/
def Group.dword (g : Group) (f : Fibre) (r : Reg) : DWord :=
  match r.span 2 with
  | [lo, hi] => (g.word f hi) ++ (g.word f lo)
  | _ => 0
/-- A register or a pair by width, as a number. -/
def Group.num (g : Group) (f : Fibre) (wide : Bool) (r : Reg) : Nat :=
  if wide then (g.dword f r).toNat else (g.word f r).toNat
/-- A quad as a 128-bit value. -/
def Group.quad (g : Group) (f : Fibre) (q : Quad) : QWord :=
  match q.base.span 4 with
  | [a, b, c, d] => (g.word f d) ++ (g.word f c) ++ (g.word f b) ++ (g.word f a)
  | _ => 0
/-- The words of a quad, first register first. -/
def Group.words (g : Group) (f : Fibre) (r : Reg) (n : Nat) : List Word := (r.span n).map (g.word f)

/-- The words of a result of 32 or 64 bits. -/
def outWords (wide : Bool) (v : Nat) : List Word := if wide then [w32 v, w32 (v / 2 ^ 32)] else [w32 v]
/-- The four words of a quad. -/
def quadWords (q : QWord) : List Word := (List.range 4).map fun i => q.extractLsb' (32 * i) 32
/-- Registers of a width. -/
def regs (wide : Bool) : Nat := if wide then 2 else 1

/-- Forms by shape. -/
def formRrr (n : Nat) (o : Rrr) : Form :=
  ⟨[.dest o.d n, .source o.a n o.fa, .source o.b n o.fb], [], false, .own⟩
def formRr (o : Rr) : Form := ⟨[.dest o.d (regs o.x), .source o.a (regs o.x) o.fa], [], false, .own⟩

end Sys2Proof.Machine
end

