-- ==== Sys2Proof/Machine/Fetch.lean ====
section
/-! DEFINITION. Fetching the unit at work and its traps (spec/02, R42 to R45; spec/04, R98). -/
namespace Sys2Proof.Machine

/-- What a fetch gives. -/
inductive Fetched where
  /-- The bits of the instruction and its length. -/
  | word (bits : Nat) (len : Nat)
  | fail (cause : Cause) (va : Nat)
  | replay (va : Nat)
  /-- An all-bank pseudo-channel holds the read (spec/19, R365). -/
  | hold
  deriving DecidableEq, Repr

/-- A half-word of code at a virtual address, poisoned or not (notes/assumptions/97); a half-word never crosses a page, for its address is even. -/
def State.codeHalf (s : State) (site ctx va : Nat) : Fetched :=
  match s.translate site ctx va .ex with
  | .ok k => if s.heldByLoft k then .hold else .word (s.numAt k 2) 2
  | .pageFault => .fail .pageFault va
  | .xlatePerm => .fail .xlatePerm va
  | .replay => .replay va
  | .hold => .hold

/-- The instruction at a virtual address: one half-word, or two when bit 0 of the first is 1 (spec/02, R42). -/
def State.codeAt (s : State) (site ctx va : Nat) : Fetched :=
  match s.codeHalf site ctx va with
  | .word h _ =>
    if bitAt h 0 then
      match s.codeHalf site ctx (va + 2) with
      | .word h2 _ => .word (h + 65536 * h2) 4
      | x => x
    else .word h 2
  | x => x

/-- A declined replay that names those who waited on it (spec/21, R379). -/
def State.declinedFor (s : State) (ctx va : Nat) (who : Replay → Bool) : Bool :=
  s.replays.any fun r => r.declined && r.ctx == ctx && r.page == va / 65536 && who r

/-- A fibre at work has waited for code of a page that was declined: its fetch fails, whatever the tables say now (spec/21, R379). -/
def State.codeDeclined (s : State) (g : Group) (c : Cur) (va : Nat) : Bool :=
  (g.batch c.lanes).any fun f => f.wait == some (.fetch true) && s.declinedFor (s.ctxOf g) va fun r => r.fibres.contains (g.id, f.lane)

/-- The unit's instruction: a dictionary entry that a DREF has named, or the word at the unit's address. -/
def State.fetch (s : State) (g : Group) (c : Cur) : Fetched :=
  match c.entry with
  | some e => .word e 2
  | none =>
    let ctx := s.ctxOf g
    let va := ((s.ctx? ctx).map (·.codeBase)).getD 0 + c.addr.toNat
    if s.codeDeclined g c va then .fail .pageFault va
    else if s.codeDeclined g c (va + 2) then .fail .pageFault (va + 2)
    else s.codeAt g.core ctx va

/-- The instruction of fetched bits. -/
def decodeFetched (bits len : Nat) (fromDict : Bool) : Option Instr :=
  if fromDict || len = 4 then decode32 bits else decode16 bits

/-- A unit that cannot be fetched: the whole batch takes the fault at the unit (spec/04, R98). -/
def State.fetchFail (s : State) (g : Group) (c : Cur) (cause : Cause) (va : Nat) : State :=
  let s := ((s.notePage (s.ctxOf g) ⟨cause, d64 va⟩).hearDeclined g.id c.lanes).noteIssue g c
  (s.enterTrap g.id [] c.unit (c.lanes.map fun l => ⟨l, ⟨cause, d64 va⟩, 127⟩)).endUnit g 15

/-- Adds a replayable fault, or joins the entry of its page; beyond 1,024 entries of a die it waits without one
(spec/21, R379). -/
def State.addReplay (s : State) (die ctx va : Nat) (prods : List Nat) (fibres : List (Nat × Fin 32)) : State :=
  let page := va / 65536
  if s.replays.any (fun r => r.die = die ∧ r.ctx = ctx ∧ r.page = page ∧ r.declined = false) then
    { s with replays := s.replays.map fun r =>
      if r.die = die ∧ r.ctx = ctx ∧ r.page = page ∧ r.declined = false then
        { r with prods := r.prods ++ prods.filter (fun x => !r.prods.contains x),
                 fibres := r.fibres ++ fibres.filter (fun x => !r.fibres.contains x) }
      else r }
  else if (s.replays.filter fun r => r.die = die ∧ r.declined = false).length < 1024 then
    { s with replays := s.replays ++ [⟨s.nextId, die, ctx, page, false, prods, fibres⟩], nextId := s.nextId + 1 }
  else s

/-- Lanes of an instruction that takes its translation faults itself wait for a replay (spec/21, R380). -/
def State.awaitReplay (s : State) (g : Group) (lanes : List (Fin 32)) (va : Nat) : State :=
  s.addReplay (dieOf g.core) (s.ctxOf g) va [] (lanes.map fun l => (g.id, l))

/-- The unit at work fetches its instruction; `run` gives the instruction's meaning. -/
def State.stepUnit (s : State) (c : Cur) (run : Instr → State → Res) : Res :=
  match s.group? c.group with
  | none => .next { s with cur := none }
  | some g =>
    match s.fetch g c with
    | .word bits len =>
      let s := { s with cur := some { c with len := len, word := bits } }
      match decodeFetched bits len c.entry.isSome with
      | some i => run i s
      | none => .next (s.illegalUnit (d64 bits) c.unit)
    | .fail cause va => .next (s.fetchFail g c cause va)
    | .replay va => .next ((s.awaitReplay g c.lanes va).waitBatch g c.lanes (.fetch true))
    | .hold => .next (s.waitBatch g c.lanes (.fetch false))

end Sys2Proof.Machine
end

