-- ==== Sys2Proof/Machine/Flags.lean ====
section
/-! DEFINITION. Flags and the ARITH trap (spec/02, R38), results at a fixed latency and results of long-latency producers. -/
namespace Sys2Proof.Machine

/-- Bits of FLAGS (spec/02, Table 2.2). -/
def flagIX : BitVec 6 := 1
def flagOF : BitVec 6 := 2
def flagUF : BitVec 6 := 4
def flagDZ : BitVec 6 := 8
def flagNV : BitVec 6 := 16
def flagQZ : BitVec 6 := 32

/-- The ARITH trap of raised flags whose enables are set. -/
def arithTrap (f : Fibre) (flags : BitVec 6) : Option Trap :=
  if flags &&& f.enables = 0 then none else some ⟨.arith, flags.zeroExtend 64⟩

/-- A fixed-latency result with its flags: it traps ARITH when an enabled flag is raised, and FLAGS is updated in either case. -/
def arithOut (f : Fibre) (flags : BitVec 6) (r : LaneRes) : LaneOut :=
  match arithTrap f flags with
  | some t => .trap t flags
  | none => .done { r with flags := flags }

/-- The result of one lane of a long-latency producer. -/
structure LongRes where
  words : List Word := []
  flags : BitVec 6 := 0
  pred : Option (Fin 8 × Bool) := none

/-- What the producer delivers for a lane: words, or the mark of its ARITH trap (spec/02, R35, R38). -/
def LongRes.val (d : Dest) (f : Fibre) (r : LongRes) : LaneVal :=
  match arithTrap f r.flags with
  | some t => ⟨d, [], false, false, some t, r.flags, none⟩
  | none => ⟨d, r.words, false, false, none, r.flags, r.pred⟩

/-- Destinations by lane: a scalar destination is delivered for the lane `lead` only (spec/02, R30). -/
def Form.dests (fm : Form) (lead : Option (Fin 32)) (fs : List Fibre) : List (Fibre × Dest) :=
  fs.map fun f => (f, if fm.scalarDst && lead != some f.lane then .none f.lane else fm.destOf f)

def Dest.isNone : Dest → Bool
  | .none _ => true
  | _ => false

/-- A scalar destination has one mark for the group: the first mark of any lane falls on it, whichever lane delivers it
(spec/02, R38; spec/06, R125; spec/08, R178; notes/assumptions/96). -/
def markScalar (scalar : Bool) (vs : List LaneVal) : List LaneVal :=
  match scalar, vs.findSome? (·.mark) with
  | true, some t => vs.map fun v => if v.dest.isNone then v else { v with mark := some t }
  | _, _ => vs

/-- The lowest lane that does not trap: for a scalar destination it counts as the lowest active one (spec/08, R177). -/
def leadOf (outs : List (Fibre × LaneOut)) : Option (Fin 32) :=
  (outs.find? fun x => match x.2 with | .trap _ _ => false | _ => true).map (·.1.lane)

/-- The effect of issuing a long-latency producer for `fs` whose results are bound at issue. -/
def longEffect (fm : Form) (kind : ProdKind) (p : Option (Fin 8)) (lead : Option (Fin 32)) (h : Group → Fibre → LongRes)
    (g : Group) (fs : List Fibre) (s : State) : State :=
  if fs.isEmpty then s else
    s.addProducer g.id kind (match p with | some q => fs.map fun f => (f.lane, q) | none => []) (fs.map (·.lane)) none
      (.ready (markScalar fm.scalarDst ((fm.dests lead fs).map fun fd => (h g fd.1).val fd.2 fd.1)))

/-- Issues a long-latency producer: every lane goes and its destination is marked empty (spec/02, R33). -/
def longBody (fm : Form) (kind : ProdKind) (p : Option (Fin 8)) (h : Group → Fibre → LongRes) :
    State → Group → Cur → List Fibre → Body :=
  fun _ g _ fs =>
    { outs := fs.map fun f => (f, .done { pend := true }), effect := longEffect fm kind p ((fs.map (·.lane)).head?) h g fs }

/-- Words that a lane has already computed. -/
def LaneOut.words : LaneOut → List Word
  | .done r => r.words
  | _ => []

/-- A lane that completes, but whose destination a producer delivers. -/
def LaneOut.later : LaneOut → LaneOut
  | .done r => .done { r with words := [], pend := true }
  | x => x

/-- Lanes for which `slow` holds issue a long-latency producer; the others complete or trap at once. A scalar destination that both
share turns full with the producer, which carries the words of its lane (spec/02, R30, R34). -/
def mixedBody (fm : Form) (kind : ProdKind) (p : Option (Fin 8)) (slow : Fibre → Bool) (h : Group → Fibre → LongRes)
    (fast : Group → Cur → Fibre → LaneOut) : State → Group → Cur → List Fibre → Body :=
  fun _ g c fs =>
    let outs : List (Fibre × LaneOut) := fs.map fun f => (f, if slow f then .done { pend := true } else fast g c f)
    let lead := leadOf outs
    if fm.scalarDst && fs.any slow then
      let res := fun (g : Group) (f : Fibre) => if slow f then h g f else { words := (fast g c f).words }
      { outs := outs.map fun x => (x.1, x.2.later)
        effect := longEffect fm kind p lead res g (fs.filter fun f => slow f || lead == some f.lane) }
    else { outs := outs, effect := longEffect fm kind p lead h g (fs.filter slow) }

/-- A word-per-lane result with no flags and no trap. -/
def State.lanes (s : State) (fm : Form) (h : Group → Fibre → List Word) : Res :=
  .next (s.issue fm (eachLane fun g f => .done { words := h g f }))

/-- A predicate-per-lane result. -/
def State.lanePreds (s : State) (fm : Form) (p : Fin 8) (h : Group → Fibre → Bool) : Res :=
  .next (s.issue fm (eachLane fun g f => .done { pred := some (p, h g f) }))

end Sys2Proof.Machine
end

