-- ==== Sys2Proof/Machine/Access.lean ====
section
/-! DEFINITION. Capabilities and their checks, what a load sees, how stores are queued and performed, releases and acquires,
watches (spec/07; spec/10, R218, R220; spec/12; spec/22, R396). -/
namespace Sys2Proof

/-- The value of a quad field with a sub-field in its low bits (spec/07, R159; notes/assumptions/11). -/
def Quad.field (q : Quad) (sub : Nat) : Nat := q.base.toNat + sub

/-- Bytes of an access size. -/
def Size.bytes : Size → Nat
  | .b1 => 1 | .b2 => 2 | .b4 => 4 | .b8 => 8

/-- Scopes from narrow to wide (spec/12, Table 12.1). -/
def Scope.rank : Scope → Nat
  | .core => 0 | .sheaf => 1 | .die => 2 | .module => 3 | .system => 4
def Scope.wider (a b : Scope) : Scope := if a.rank < b.rank then b else a

end Sys2Proof

namespace Sys2Proof.Machine

/-! The fields of a capability (spec/07, Table 7.2). -/

def capBase (q : QWord) : Nat := q.toNat % 2 ^ 56
/-- The byte length (spec/07, R151). -/
def capLen (q : QWord) : Nat :=
  let l := q.toNat / 2 ^ 56 % 2 ^ 39
  if q.getLsbD 95 then l * 65536 else l
def capPerm (q : QWord) (i : Nat) : Bool := q.getLsbD (96 + i)
def capPerms (q : QWord) : Nat := q.toNat / 2 ^ 96 % 65536
def capSpace (q : QWord) : Nat := q.toNat / 2 ^ 112 % 16
def capGen (q : QWord) : Nat := q.toNat / 2 ^ 116
def capHi (q : QWord) : Nat := q.toNat / 2 ^ 96

/-- The current generation of a space (spec/07, R156). -/
def State.curGen (s : State) (ctx space : Nat) : Nat := ((s.ctx? ctx).map fun c => c.gens.getD space 0).getD 0
def State.stale (s : State) (ctx : Nat) (q : QWord) : Bool := decide (capSpace q ≤ 6) && capGen q != s.curGen ctx (capSpace q)

/-- What an instruction asks of a capability (spec/07, Tables 7.1 and 7.3). -/
structure MemUse where
  spaces : List Nat
  perms : List Nat
  need : Need
  size : Nat
  store : Bool
  deriving DecidableEq, Repr

def MemUse.load (n : Nat) : MemUse := ⟨[0, 1, 2, 5], [0], .rd, n, false⟩
def MemUse.st (n : Nat) : MemUse := ⟨[0, 1, 2], [1], .wr, n, true⟩
def MemUse.atom (n : Nat) : MemUse := ⟨[0, 1, 2], [4], .wr, n, true⟩
/-- Counter instructions (spec/13). -/
def MemUse.counter : MemUse := ⟨[3], [6], .add, 8, false⟩

/-- The trap value of the first three checks: the field and bits 127:96 (spec/07, R159). -/
def capVal (field : Nat) (q : QWord) : DWord := d64 (field + 2 ^ 32 * capHi q)

/-- Tag, generation, space, SEALED and permissions (spec/07, R158). -/
def State.capCheck (s : State) (ctx : Nat) (q : QWord) (tag : Bool) (field : Nat) (u : MemUse) : Option Trap :=
  if !tag then some ⟨.capTag, capVal field q⟩
  else if s.stale ctx q then some ⟨.capStale, capVal field q⟩
  else if !u.spaces.contains (capSpace q) || capPerm q 10 || u.perms.any (fun i => !capPerm q i) then some ⟨.capPerm, capVal field q⟩
  else none

/-- Bounds of `n` bytes at an offset that has passed its alignment: the address, and the key of a scratchpad byte
(spec/07, R158). A block of the sheaf that has ended has no allocation. -/
def State.bounds (s : State) (b : Block) (q : QWord) (off : Int) (n : Nat) : Except Trap (Nat × Option Nat) :=
  let a : Int := capBase q + off
  let bad : Except Trap (Nat × Option Nat) := .error ⟨.capBounds, BitVec.ofInt 64 a⟩
  if off < 0 ∨ (capLen q : Int) < off + n then bad
  else
    let p := a.toNat
    match capSpace q with
    | 1 => if b.scratchLen < p + n then bad else .ok (p, some (scratchKey b.core (b.scratchBase + p)))
    | 2 =>
      match s.blocks.find? (fun x => x.sheaf = b.sheaf ∧ x.rank = p / 2 ^ 19) with
      | some t => if t.scratchLen < p % 2 ^ 19 + n then bad else .ok (p, some (scratchKey t.core (t.scratchBase + p % 2 ^ 19)))
      | none => bad
    | _ => .ok (p, none)

/-- Alignment and bounds of an access of `n` bytes. -/
def State.place (s : State) (b : Block) (q : QWord) (off : Int) (n : Nat) : Except Trap (Nat × Option Nat) :=
  let a : Int := capBase q + off
  if a % (n : Int) ≠ 0 then .error ⟨.misaligned, BitVec.ofInt 64 a⟩ else s.bounds b q off n

/-! Watches (spec/22, R396). -/

/-- The lowest watch that an access hits. -/
def State.watchHit (s : State) (ctx lo n : Nat) (kind : Watch → Bool) : Option (Nat × Watch) :=
  match s.ctx? ctx with
  | none => none
  | some c => (c.dbg.watches.zipIdx.find? fun (w, _) =>
      w.action != 0 && kind w && decide (lo < w.hi) && decide (w.lo < lo + n)).map fun (w, i) => (i, w)

def watchKind (store : Bool) (w : Watch) : Bool := if store then w.st else w.ld

/-- The WATCH trap of an access. -/
def watchTrap (w va : Nat) : Trap := ⟨.watch, d64 (va % 2 ^ 32 + 2 ^ 32 * (va / 2 ^ 32 % 2 ^ 24) + 2 ^ 56 * w)⟩

/-- One fibre's access after its checks. `key` is none for a load, whose translation comes later. -/
inductive Access where
  | trap (t : Trap)
  | hold
  | replay (va : Nat)
  | ok (a : Nat) (key : Option Nat)
  deriving DecidableEq, Repr

/-- An engine whose access waits on a replay has heard that the page was declined. -/
def State.hearEngine (s : State) (id : Nat) : State :=
  let drop := fun (r : Replay) => if r.declined then { r with prods := r.prods.filter (· != id) } else r
  { s with replays := (s.replays.map drop).filter (fun r => !(r.declined && r.prods.isEmpty && r.fibres.isEmpty)) }

/-- Translation and watch of an access that has passed R158. `defer` is set for loads (spec/07, R160). -/
def State.reach (s : State) (g : Group) (f : Fibre) (u : MemUse) (defer : Bool) (a : Nat) : Access :=
  let ctx := s.ctxOf g
  let seen : Access :=
    match (if f.watchOnce then none else s.watchHit ctx a u.size (watchKind u.store)) with
    | some (w, x) => if x.action = 3 then .trap (watchTrap w a) else .ok a none
    | none => .ok a none
  if !defer && s.declinedFor ctx a (fun r => r.fibres.contains (g.id, f.lane)) then .trap ⟨.pageFault, d64 a⟩ else
  match s.translate g.core ctx a u.need with
  | .ok k =>
    match seen with
    | .ok a _ => .ok a (if defer then none else some k)
    | x => x
  | .hold => if defer then seen else .hold
  | .replay => if defer then seen else .replay a
  | .pageFault => if defer then .ok a none else .trap ⟨.pageFault, d64 a⟩
  | .xlatePerm => if defer then .ok a none else .trap ⟨.xlatePerm, d64 a⟩

/-- All the checks of one fibre's access (spec/07, R158, R160). `more` stands in the permission step. -/
def State.access (s : State) (g : Group) (f : Fibre) (u : MemUse) (cap : Quad) (sub : Nat) (off : Int) (defer : Bool)
    (more : Option Trap) : Access :=
  let q := g.quad f cap
  match s.block? g.block with
  | none => .trap ⟨.capBounds, 0⟩
  | some b =>
    match s.capCheck (s.ctxOf g) q (g.tagOf f cap) (cap.field sub) u with
    | some t => .trap t
    | none =>
      match more with
      | some t => .trap t
      | none =>
        match s.place b q off u.size with
        | .error t => .trap t
        | .ok (a, some k) => .ok a (some k)
        | .ok (a, none) => s.reach g f u defer a

/-! Releases and acquires (spec/12, R259 to R261). -/

/-- The address scope of an access (spec/12, Table 12.2). -/
def addrScope (space : Nat) (key : Option Nat) : Scope :=
  if space = 1 then .core else if space = 2 then .sheaf
  else match key with
    | some k => if isOutside k then .system else .module
    | none => .module

/-- A producer that is an access to memory of the group. -/
def Work.isAccess : Work → Bool
  | .load _ _ _ _ => true
  | .atomic _ _ _ => true
  | .hist form _ _ _ => form != 2
  | .tex _ _ => true
  | .trace _ => true
  | .tri _ _ _ => true
  | .kv _ => false
  | .cread _ _ => true
  | .ctest _ _ _ _ => true
  | .ext _ _ => true
  | .ready _ => false

/-- What a release waits for: accesses, and requests to table agents, which KVAPP makes a store of the group (spec/12, R260;
spec/19, R360). -/
def Work.holdsRelease (w : Work) : Bool :=
  w.isAccess || match w with | .kv _ => true | _ => false

/-- Whether a release of a group at a scope may go: its earlier accesses, its adds among them, are performed there. The adds of
its copies are the streamer's (spec/09, R211; spec/12, R260). -/
def State.released (s : State) (g : Group) (sc : Scope) : Bool :=
  !(s.producers.any fun p => p.group == g.id && p.work.holdsRelease) && g.mloop.isNone &&
  !(s.adds.any fun a => a.owner == some g.id && a.lines.isEmpty) &&
  !(s.stores.any fun p => p.group == g.id && (sc != .core || !p.left)) && (sc != .system || g.outack == 0)

/-- An acquire of the group has not bound its value yet. -/
def State.acquiring (s : State) (g : Group) : Bool := s.producers.any fun p => p.group == g.id && p.acq.isSome

/-- An acquire at SHEAF scope or wider drops the context's GLOBAL lines from the core's L1 (spec/12, R261). -/
def State.acquire (s : State) (core ctx : Nat) (sc : Scope) : State :=
  if sc = .core then s
  else { s with l1 := s.l1.filter (fun l => !(l.core == core && l.ctx == ctx && !l.constant)) }

/-! Counter overflow (spec/13, R288). -/

/-- A counter instruction, a release or FEXIT first takes the pending overflow of its group. -/
def withOverflow (body : State → Group → Cur → List Fibre → Body) : State → Group → Cur → List Fibre → Body :=
  fun s g c fs =>
    match g.ovf with
    | some va =>
      { outs := fs.map fun f => (f, .trap ⟨.counterOverflow, d64 va⟩ 0), effect := fun t => t.updGroup g.id fun g => { g with ovf := none } }
    | none => body s g c fs

/-! The range scoreboard (spec/10, R218). -/

def State.boarded (s : State) (key n : Nat) : Bool :=
  isScratch key && s.copies.any fun c =>
    match c.board with
    | some (core, lo, hi) => core == scratchCore key && decide (lo < scratchOff key + n) && decide (scratchOff key < hi)
    | none => false

/-- The range scoreboard of the scratchpad's core on the arrival of a request with number `id`: one that comes from another core
waits for any live entry; one of the core's own that was made before the copy was accepted may have entered its bank queue
already, when `entered` says so. A copy comes after the earlier accesses of its own group (spec/10, R218, R219; spec/12, R270;
notes/assumptions/98). -/
def State.boardHolds (s : State) (g : Group) (id key n : Nat) (entered : Bool) : Bool :=
  isScratch key && !(entered && scratchCore key == g.core) && s.copies.any fun c =>
    !(c.group == g.id && decide (id < c.id)) &&
    match c.board with
    | some (core, lo, hi) => core == scratchCore key && decide (lo < scratchOff key + n) && decide (scratchOff key < hi)
    | none => false

/-- Bytes that a running MLOOP of the group reads: a later store to them waits (spec/11, R231, R250). -/
def tcCw (tc : Word) : Nat := 4 * 2 ^ (tc.toNat / 2 ^ 26 % 4)
def tcCols (tc : Word) : Nat := tc.toNat / 2 ^ 16 % 512 + 1
def tcRows (tc : Word) : Nat := tc.toNat / 2 ^ 8 % 128 + 1
def tcPitch (tc : Word) : Nat := (tcCols tc * tcCw tc + 127) / 128 * 16
def tcSize (tc : Word) : Nat := tcRows tc * tcPitch tc
def MLoop.reads (m : MLoop) (key n : Nat) : Bool :=
  (decide (m.keyA < key + n) && decide (key < m.keyA + 2 * m.ksteps * tcSize m.tcA)) ||
  (decide (m.keyB < key + n) && decide (key < m.keyB + 2 * m.ksteps * tcSize m.tcB))
def Group.mloopHolds (g : Group) (key n : Nat) : Bool := (g.mloop.map fun m => m.reads key n).getD false

/-! The body of a memory instruction. -/

/-- The watch that a fibre's access hits; one that its translation refuses hits none (spec/22, R396). -/
def State.watched (s : State) (g : Group) (u : MemUse) (f : Fibre) (space a : Nat) : Option (Nat × Watch) :=
  if f.watchOnce || (space != 0 && space != 5) then none else
  match s.translate g.core (s.ctxOf g) a u.need with
  | .pageFault => none
  | .xlatePerm => none
  | _ => s.watchHit (s.ctxOf g) a u.size (watchKind u.store)

/-- Records and stops of the watches that the accesses of a unit hit: a record each, then the block stops when one of them says so
(spec/22, R396). -/
def State.noteWatches (s : State) (g : Group) (c : Cur) (u : MemUse) (l : List (Fibre × Nat × Nat)) : State :=
  let hits := l.filterMap fun x => (s.watched g u x.1 x.2.1 x.2.2).map fun h => (h, x.2.2)
  match s.block? g.block with
  | none => s
  | some b =>
    let s := hits.foldl (fun s h => s.traceRec (s.ctxOf g) (s.traceBytes b 4 0 g.recNum h.1.1 c.unit (leBytes 8 h.2) g.core g.slot)) s
    if hits.any fun h => h.1.2.action == 2 then s.stopBlock b.id .watch g.recNum c.unit g.core g.slot else s

/-- Keeps the translation of a virtual access. -/
def State.noteXlat (s : State) (g : Group) (space a : Nat) : State :=
  if space = 1 || space = 2 then s else s.noteWalk g.core (s.ctxOf g) a

/-- The 8-byte bank words that `n` bytes at a key touch (spec/10, R216). -/
def bankWords (key n : Nat) : List Nat := (List.range ((key + n - 1) / 8 - key / 8 + 1)).map (key / 8 + ·)

/-- The requests to the banks of a core that come in through a slot: each bank serves one a clk. The result is the clk at which the
last has entered a queue of 8 entries (spec/10, R216). -/
def State.fillBanks (s : State) (core slot : Nat) (words : List Nat) : State × Nat :=
  let free := fun (b : Nat) => ((s.slots.filter fun x => x.core == core).map fun x => x.banks.getD b 0).foldl max s.clk
  let count := fun (b : Nat) => (words.filter fun w => w % 64 == b).length
  let done := (List.range 64).map fun b => if count b = 0 then 0 else free b + count b
  let x := s.slotOf core slot
  (s.setSlot { x with banks := (List.range 64).map fun b => max (x.banks.getD b 0) (done.getD b 0) }, done.foldl max 0 - 8)

/-- The requests of one instruction enter the bank queues of its core, and those of SHEAF accesses the queues of other cores; the group's
slot holds until the last has entered (spec/10, R216, R217). `words` are bank words. -/
def State.enterWords (s : State) (g : Group) (words : List Nat) : State :=
  let words := (words.filter fun w => isScratch (8 * w)).eraseDups
  let cores := (words.map fun w => scratchCore (8 * w)).eraseDups
  let r := cores.foldl (fun (r : State × Nat) core =>
    let y := r.1.fillBanks core (if core = g.core then g.slot else 0) (words.filter fun w => scratchCore (8 * w) == core)
    (y.1, max r.2 y.2)) (s, 0)
  if words.isEmpty then s else
  let x := r.1.slotOf g.core g.slot
  let live := x.entering.filter fun e => decide (s.clk < e.2) && e.1 != g.id
  r.1.setSlot { x with entering := if s.clk < r.2 then (g.id, r.2) :: live else live }

def State.enterBanks (s : State) (g : Group) (keys : List Nat) (n : Nat) : State := s.enterWords g (keys.flatMap fun k => bankWords k n)

/-- One lane of a memory instruction that goes: its fibre, space, address and key. -/
structure AccLane where
  f : Fibre
  space : Nat
  a : Nat
  key : Option Nat

/-- A memory instruction: every lane's access is checked; with none waiting, `eff` acts on the lanes that go. `idle` lanes
complete without an access. `gate` is a wait of the whole batch that depends on the lanes that go. -/
def State.memBody (s : State) (g : Group) (c : Cur) (u : MemUse) (idle : List Fibre) (accs : List (Fibre × Nat × Access))
    (res : Fibre → LaneRes) (gate : List AccLane → Option Wait) (eff : List AccLane → State → State) : Body :=
  let go : List AccLane := accs.filterMap fun (f, sp, x) => match x with | .ok a k => some ⟨f, sp, a, k⟩ | _ => none
  let replays := accs.any fun (_, _, x) => match x with | .replay _ => true | _ => false
  let wait : Option Wait :=
    if replays then some .replay else
    firstWait (List.flatten [
      if accs.any (fun (_, _, x) => match x with | .hold => true | _ => false) then [.held] else [],
      if u.store && go.any (fun l => match l.key with | some k => g.mloopHolds k u.size | none => false) then [.matrix] else [],
      if u.store && decide (65535 < g.outack + (go.filter fun l => (l.key.map isOutside).getD false).length) then [.release] else [],
      (gate go).toList,
      if go.any (fun l => match l.key with | some k => s.boarded k u.size | none => false) then [.scoreboard] else [],
      if s.acquiring g then [.producer .memory] else []])
  let faults : List Trap := accs.filterMap fun (_, _, x) => match x with | .trap t => some t | _ => none
  let out : Fibre × Nat × Access → Fibre × LaneOut := fun (f, _, x) =>
    (f, match x with
      | .trap t => .trap t 0
      | .ok _ _ => match wait with | some w => .wait w | none => .done (res f)
      | _ => .wait (wait.getD .held))
  { outs := (accs.map out) ++ idle.map fun f => (f, match wait with | some w => .wait w | none => .done {})
    effect := fun t =>
      let t := faults.foldl (fun t x => t.notePage (s.ctxOf g) x) (t.hearDeclined g.id (accs.map (·.1.lane)))
      let t := go.foldl (fun t l => if l.key.isSome then t.noteXlat g l.space l.a else t) t
      let t := if u.store && go.any (fun l => l.space != 1) then t.updBlock g.block fun b => { b with sidefx := true } else t
      let t := (eff go t).enterBanks g (go.filterMap fun l => l.key) u.size
      t.noteWatches g c u (go.map fun l => (l.f, l.space, l.a))
    onWait := fun t =>
      let t := faults.foldl (fun t x => t.notePage (s.ctxOf g) x) (t.hearDeclined g.id (accs.map (·.1.lane)))
      accs.foldl (fun t x => match x.2.2 with | .replay va => t.awaitReplay g [x.1.lane] va | _ => t) t }

/-! Stores in the queue of their core (spec/12, R259, R264, R265). -/

/-- The number of granules' bytes that a list of keys covers. -/
def covers16 (keys : List Nat) (gr : Nat) : Bool := (List.range 16).all fun i => keys.contains (16 * gr + i)

/-- One store access of `n` bytes. -/
def byteWrites (key va n v : Nat) : List ByteWrite := (List.range n).map fun i => ⟨key + i, va + i, BitVec.ofNat 8 (v / 256 ^ i)⟩

/-- Queues a store access of a group that instruction `insn` makes. -/
def State.queueStore (s : State) (g : Group) (insn key : Nat) (w : StoreWork) : State :=
  let out := isOutside key
  let s := if out then s.updGroup g.id fun g => { g with outack := g.outack + 1 } else s
  { s with
    stores := s.stores ++ [⟨s.nextId, insn, g.id, g.core, s.ctxOf g, false, out, w⟩]
    nextId := s.nextId + 1 }

/-- One lane of a store: its key, its virtual address and its value. -/
structure StoreLane where
  key : Nat
  va : Nat
  val : Nat
  deriving DecidableEq, Repr

/-- The lanes of a store by request: those that touch one bank word of a scratchpad share a request, in lane order; any other lane
has its own (spec/10, R216). -/
def storeRequests (ls : List StoreLane) : List (List StoreLane) :=
  ls.foldl (fun r l =>
    let same := fun (q : List StoreLane) => match q with
      | x :: _ => isScratch l.key && x.key / 8 == l.key / 8
      | [] => false
    if r.any same then r.map fun q => if same q then q ++ [l] else q else r ++ [[l]]) []

/-- Queues the requests of one store; a granule that they cover whole together loses its poison with the last of them
(spec/10, R229). -/
def State.queueRequests (s : State) (g : Group) (insn n : Nat) : List (List StoreLane) → List Nat → State
  | [], _ => s
  | q :: r, before =>
    let mine := q.flatMap fun l => (List.range n).map (l.key + ·)
    let keys := before ++ mine
    let healed := ((mine.map (· / 16)).eraseDups).filter fun gr =>
      covers16 keys gr && !(r.any fun p => p.any fun l => l.key / 16 == gr)
    (s.queueStore g insn ((q.head?.map (·.key)).getD 0) (.bytes (q.flatMap fun l => byteWrites l.key l.va n l.val) [] healed)).queueRequests
      g insn n r keys

/-- Queues the stores of the lanes of one instruction (spec/07, R163). -/
def State.queueStores (s : State) (g : Group) (n : Nat) (ls : List StoreLane) : State :=
  s.queueRequests g s.nextId n (storeRequests ls) []

/-! What a load sees (spec/07, R173; spec/12, R263, R264). -/

def StoreWork.keys : StoreWork → List Nat
  | .bytes ws _ _ => ws.map (·.key)
  | .red _ n ls => ls.flatMap fun l => (List.range n).map (l.key + ·)

/-- A store to the scratchpad of another core, which the groups of its own core see only once it has entered the banks there
(spec/10, R217, R219). -/
def PStore.afar (p : PStore) : Bool := p.work.keys.any fun k => isScratch k && scratchCore k != p.core

/-- The stores that a load of group `gid` on `core` sees over memory: those of its core that have left the store queue, then its
own that precede it and have not. -/
def State.seenStores (s : State) (core gid before : Nat) : List PStore :=
  s.stores.filter (fun p => p.left && p.core == core && (!p.afar || (p.group == gid && decide (p.id < before)))) ++
  s.stores.filter (fun p => !p.left && p.group == gid && decide (p.id < before))

/-- The last byte that queued stores write at a key. -/
def lastWrite (ps : List PStore) (k : Nat) : Option Byte :=
  ps.foldl (fun r p => match p.work with
    | .bytes ws _ _ => ws.foldl (fun r w => if w.key = k then some w.val else r) r
    | .red _ _ _ => r) none

/-- The last effect of queued stores on a granule's tag. -/
def lastTag (ps : List PStore) (gr : Nat) : Option Bool :=
  ps.foldl (fun r p => if p.work.keys.any (fun k => k / 16 == gr) then
    (match p.work with | .bytes _ t _ => some (t.contains gr) | .red _ _ _ => some false) else r) none

/-- Queued stores write the whole granule. -/
def healsOver (ps : List PStore) (gr : Nat) : Bool :=
  ps.any fun p => match p.work with | .bytes _ _ h => h.contains gr | .red _ _ _ => false

def L1Line.is (l : L1Line) (core ctx va key : Nat) : Bool :=
  l.core == core && l.ctx == ctx && l.va / 128 % 256 == va / 128 % 256 && l.key == key / 128 * 128

def State.l1At (s : State) (core ctx va key : Nat) : Option L1Line := s.l1.find? (·.is core ctx va key)

/-- The line of an address as the home slice serves it. -/
def State.freshLine (s : State) (core ctx va key : Nat) (constant : Bool) : L1Line :=
  let k := key / 128 * 128
  { core := core, ctx := ctx, va := va / 128 * 128, key := k, constant := constant, bytes := s.bytesAt k 128
    tags := (List.range 8).map fun i => s.tagAt (k + 16 * i), poison := (List.range 8).map fun i => s.poisonAt (k + 16 * i) }

/-- A hit makes a line the most recently used of its set. -/
def State.l1Use (s : State) (l : L1Line) : State := { s with l1 := s.l1.filter (· != l) ++ [l] }

/-- Allocates a line in its set of 4 ways. The lines of a set stand in the order of their use; pseudo-LRU never takes the one used
last, and which other it takes is free (spec/10, R220; notes/assumptions/111). -/
def State.l1Fill (s : State) (l : L1Line) : State :=
  let same := fun (x : L1Line) => x.core == l.core && x.va / 128 % 256 == l.va / 128 % 256
  let set := s.l1.filter same
  let rest := s.l1.filter fun x => !same x
  let kept := if set.length < 4 then set else set.eraseIdx (Config.freeNat (s.tick * 2 ^ 64 + 2 ^ 61 + l.key / 128) % 3)
  { s with l1 := rest ++ kept ++ [l] }

/-- A byte that a newer store of a group has passed an older one to, as the groups of the core see it: the stores that come after the
newer one, then the newer one until another party has written the byte. -/
def State.passedByte (s : State) (ps : List PStore) (e : Passed) : Byte :=
  match lastWrite (ps.filter fun q => q.group != e.group || decide (e.id < q.id)) e.key with
  | some b => b
  | none => if s.byteAt e.key = e.home then e.val else s.byteAt e.key

/-- The byte that a group sees at a key: queued stores, then a line of the L1 of a virtual address, then memory. -/
def State.seenByte (s : State) (core gid before ctx : Nat) (va : Option Nat) (k : Nat) : Byte :=
  match s.passed.find? fun e => e.core = core ∧ e.key = k with
  | some e => s.passedByte (s.seenStores core gid before) e
  | none =>
    match lastWrite (s.seenStores core gid before) k with
    | some b => b
    | none =>
      match va.bind fun v => s.l1At core ctx v k with
      | some l => l.bytes.getD (k % 128) 0
      | none => s.byteAt k

/-- The tag that a group sees on the granule of a key. -/
def State.seenTag (s : State) (core gid before ctx : Nat) (va : Option Nat) (k : Nat) : Bool :=
  match lastTag (s.seenStores core gid before) (k / 16) with
  | some b => b
  | none =>
    match va.bind fun v => s.l1At core ctx v k with
    | some l => l.tags.getD (k % 128 / 16) false
    | none => s.tagAt k

/-- The poison that a group sees on the granule of a key. -/
def State.seenPoison (s : State) (core gid before ctx : Nat) (va : Option Nat) (k : Nat) : Bool :=
  !healsOver (s.seenStores core gid before) (k / 16) &&
  match va.bind fun v => s.l1At core ctx v k with
  | some l => l.poison.getD (k % 128 / 16) false
  | none => s.poisonAt k

/-- A RED that is not yet performed and that the group would have to see. -/
def State.redPending (s : State) (core gid before key n : Nat) : Bool :=
  s.stores.any fun p => ((p.group == gid && decide (p.id < before)) || (p.left && p.core == core && !p.afar)) && match p.work with
    | .red _ w ls => ls.any fun l => decide (l.key < key + n) && decide (key < l.key + w)
    | _ => false

/-- An own add to a counter, or a reduction, that an access to its bytes comes after; and every access but a load comes after a
CADD.REL (spec/12, R263, R264). -/
def State.afterAdds (s : State) (g : Group) (id key n : Nat) : Bool :=
  !(s.adds.any fun a => a.owner == some g.id && a.lines.isEmpty && decide (a.id < id) && decide (a.ctr < key + n) && decide (key < a.ctr + 8)) &&
  !s.redPending g.core g.id id key n

/-- A CADD.REL of a group that has not been applied, before its access `id`: later stores and atomics come after it (spec/12,
Table 12.3). -/
def State.relPending (s : State) (gid id : Nat) : Bool :=
  s.adds.any fun a => a.owner == some gid && a.rel && decide (a.id < id)

/-- A store updates the line of its core that its address finds (spec/10, R220). -/
def State.l1Write (s : State) (core ctx va k : Nat) (v : Byte) : State :=
  { s with l1 := s.l1.map fun l => if l.is core ctx va k then
      { l with bytes := l.bytes.set (k % 128) v, tags := l.tags.set (k % 128 / 16) false } else l }

def State.l1Tag (s : State) (core ctx va gr : Nat) : State :=
  { s with l1 := s.l1.map fun l => if l.is core ctx va (gr * 16) then { l with tags := l.tags.set (gr % 8) true } else l }

def State.l1Heal (s : State) (core ctx va gr : Nat) : State :=
  { s with l1 := s.l1.map fun l => if l.is core ctx va (gr * 16) then { l with poison := l.poison.set (gr % 8) false } else l }

/-- An atomic drops the line that its address finds. -/
def State.l1Drop (s : State) (core ctx va k : Nat) : State := { s with l1 := s.l1.filter fun l => !l.is core ctx va k }

/-- The value of the counter at a key. -/
def State.counterVal (s : State) (key : Nat) : Nat := s.numAt key 8

/-- A CADD of a group to a counter, made before its access `id`, that has not been applied: the access sees the counter only after it
(spec/12, R263). -/
def State.ownAdd (s : State) (gid id ctr : Nat) : Bool :=
  s.adds.any fun a => a.owner == some gid && a.lines.isEmpty && decide (a.id < id) && a.ctr == ctr

/-- Waiters listed whose target the value of their counter now meets: an add, or any other write to its bytes, releases them
(spec/13, R283). -/
def State.settleWaiters (s : State) : State :=
  { s with waiters := s.waiters.map fun (w : Waiter) =>
    if w.listed && !s.ownAdd w.group w.id w.ctr && decide (w.target ≤ s.counterVal w.ctr) then { w with met := true } else w }

/-! Atomics (spec/09, R210). -/

def AtomOp.fn (op : AtomOp) (w m d new : Nat) : Nat :=
  let sx (n : Nat) : Int := if n % 2 ^ w < 2 ^ (w - 1) then (n % 2 ^ w : Nat) else (n % 2 ^ w : Nat) - (2 ^ w : Nat)
  match op with
  | .add => (m + d) % 2 ^ w
  | .minS => if sx m ≤ sx d then m else d
  | .maxS => if sx m ≤ sx d then d else m
  | .minN => if m ≤ d then m else d
  | .maxN => if m ≤ d then d else m
  | .and => Nat.land m d
  | .or => Nat.lor m d
  | .xor => Nat.xor m d
  | .xchg => d
  | .cas => if m = d then new else m

/-- One lane of an atomic at memory: the old value and the state after it. -/
def State.atomLane (s : State) (core ctx : Nat) (op : AtomOp) (n : Nat) (l : AtomLane) : Nat × State :=
  let m := s.numAt l.key n
  let v := op.fn (8 * n) m l.data l.new
  (m, ((s.putBytes l.key (leBytes n v)).l1Drop core ctx l.va l.key).settleWaiters)

/-! Performing a store (spec/12, R259). -/

def State.performBytes (s : State) (core ctx : Nat) (ws : List ByteWrite) : State :=
  ws.foldl (fun s w => (s.putByte w.key w.val).l1Write core ctx w.va w.key w.val) s

/-- What of a store reaches its home (spec/24, R427). -/
def StoreWork.reaching (s : State) (die : Nat) : StoreWork → StoreWork
  | .bytes ws tagged healed =>
    .bytes (ws.filter fun w => s.reaches die w.key) (tagged.filter fun gr => s.reaches die (gr * 16)) (healed.filter fun gr => s.reaches die (gr * 16))
  | .red op n ls => .red op n (ls.filter fun l => (List.range n).all fun i => s.reaches die (l.key + i))

/-- The virtual address of a granule that a store writes. -/
def granuleVa (ws : List ByteWrite) (gr : Nat) : Nat :=
  ((ws.find? fun w => w.key / 16 = gr).map fun w => w.va - w.key % 16).getD 0

def State.performWork (s : State) (p : PStore) : State :=
  match p.work.reaching s (dieOf p.core) with
  | .bytes ws tagged healed =>
    let s := s.performBytes p.core p.ctx ws
    let s := tagged.foldl (fun s gr => (s.setTag (gr * 16) true).l1Tag p.core p.ctx (granuleVa ws gr) gr) s
    healed.foldl (fun s gr => (s.setPoison (gr * 16) false).l1Heal p.core p.ctx (granuleVa ws gr) gr) s
  | .red op n ls => ls.foldl (fun s l => (s.atomLane p.core p.ctx op n l).2) s

/-- No entry of the range scoreboard holds a store on its arrival. -/
def State.boardClear (s : State) (p : PStore) : Bool :=
  match s.group? p.group with
  | some g => !(p.work.keys.any fun k => s.boardHolds g p.id k 1 false)
  | none => true

/-- Two stores write a common byte. -/
def PStore.meets (p q : PStore) : Bool := p.work.keys.any fun k => q.work.keys.contains k

/-- The scratchpad bytes of a load or an atomic. -/
def Work.scratchKeys : Work → List Nat
  | .load n _ _ ls => (ls.filterMap (·.key)).flatMap fun k => (List.range n).map (k + ·)
  | .atomic _ n ls => ls.flatMap fun l => if isScratch l.2.key then (List.range n).map (l.2.key + ·) else []
  | .ext _ bs => (bs.map (·.key)).filter isScratch
  | .tri _ _ ws => ws.flatMap fun w => (List.range 8).map (w.key + ·)
  | _ => []

/-- Two scratchpad bytes in one bank of one core (spec/10, R215). -/
def oneBank (a b : Nat) : Bool := isScratch a && isScratch b && scratchCore a == scratchCore b && a / 8 % 64 == b / 8 % 64

/-- Requests of one slot enter a bank in the order of their instructions: an access with number `id` waits for the loads, atomics
and reductions of its slot before it that touch a bank it touches, and a store, atomic or reduction for the stores before it. A
load may pass a store that is still in its queue (spec/10, R216; spec/12, Table 12.6; notes/assumptions/98). A replay that is
pending holds no other access. -/
def State.bankClear (s : State) (g : Group) (id : Nat) (keys : List Nat) (load : Bool) : Bool :=
  let mine := fun (gid : Nat) => ((s.group? gid).map fun x => x.core == g.core && x.slot == g.slot).getD false
  let meets := fun (ks : List Nat) => ks.any fun a => keys.any (oneBank a)
  let red := fun (w : StoreWork) => match w with | .red _ _ _ => true | _ => false
  !(s.producers.any fun q => decide (q.id < id) && mine q.group && meets q.work.scratchKeys &&
      !(s.replays.any fun r => !r.declined && r.prods.contains q.id)) &&
  !(s.stores.any fun q => !q.left && decide (q.id < id) && (!load || red q.work) && mine q.group && meets q.work.keys)

/-- The accesses of a group before its access `id` that a running MLOOP has still to make (spec/12, R272). A block that leaves its
core makes no further step (spec/21, R386). -/
def State.mloopBefore (s : State) (gid id : Nat) : Bool :=
  match s.group? gid with
  | none => false
  | some g => (g.mloop.map fun m => decide (m.id < id)).getD false && !(((s.block? g.block).map Block.leaves).getD false)

/-! Walks that wait on an OPEN field (spec/15, R311, R320, R324). -/

def Field.fresh (n : Nat) : Field :=
  { num := n, state := 0, span := 1, gen := 0, fold := none, fgn := 0, fgo := 0, fgs := 0, frame := 0, width := 0, height := 0
    cellk := 0, parent := none, sealCtr := 0, entries := 0 }
def Ctx.field (c : Ctx) (n : Nat) : Field := (c.fields.find? fun f => f.num = n).getD (.fresh n)

/-- A field that some HOPEN, past its first check, waits to move on: a walk that arrives treats it as OPEN (spec/15, R320). -/
def State.opening (s : State) (ctx n : Nat) : Bool :=
  s.groups.any fun g => s.ctxOf g == ctx && g.fibres.any fun f => f.wait == some (.hopen (some n))

/-- A context's fields as a walk finds them that is reading some of them as SEALED. -/
def State.walkView (s : State) (c : Ctx) (reading : List Nat) : Ctx :=
  { c with fields := c.fields.map fun f => if s.opening c.num f.num && !reading.contains f.num then { f with state := 1 } else f }

/-- A walk has reached its depth, or has ended before. -/
def HistLane.over (l : HistLane) : Bool := l.left == 0 || l.halt.isSome

/-- A walk waits on an OPEN field. -/
def State.waitsOpen (s : State) (ctx : Nat) (l : HistLane) : Bool :=
  !l.over && match s.ctx? ctx with
    | some c => ((s.walkView c l.reading).field l.cur).state == 1
    | none => false

/-- A walk of a block that leaves its core, every lane of which waits on an OPEN field: the save abandons it, and nothing of its group comes
after it (spec/15, R324). -/
def State.setAside (s : State) (p : Producer) : Bool :=
  match p.work, s.group? p.group with
  | .hist _ _ _ ls, some g => ls.all (s.waitsOpen (s.ctxOf g)) && ((s.block? g.block).map Block.leaves).getD false
  | _, _ => false

/-- A store may leave the queue of its core: the stores of its group before it have left, its earlier loads and atomics are
bound, its adds to these bytes and its releases by CADD are applied, and in a bank it comes after the earlier accesses of its slot
(spec/10, R216; spec/12, R263, R264; notes/assumptions/14). -/
def State.mayLeave (s : State) (p : PStore) : Bool :=
  !(s.stores.any fun q => q.group == p.group && !q.left && decide (q.id < p.id)) &&
  !(s.producers.any fun q => q.group == p.group && q.work.isAccess && decide (q.id < p.id) && !s.setAside q) &&
  !s.mloopBefore p.group p.id && !s.relPending p.group p.id &&
  !(s.adds.any fun a => a.owner == some p.group && a.lines.isEmpty && decide (a.id < p.id) &&
    p.work.keys.any fun k => decide (a.ctr ≤ k) && decide (k < a.ctr + 8)) &&
  match s.group? p.group with
  | some g => s.bankClear g p.id (p.work.keys.filter isScratch) false
  | none => true

/-- A store that has left may be performed at its home: no store of its core that left before it writes a common byte, but between
instructions of one group order at tier 2 and tier 3 is free (spec/07, R163; spec/12, R265, R267); no all-bank pseudo-channel and no entry of
the target's range scoreboard holds it. -/
def State.mayPerform (s : State) (p : PStore) : Bool :=
  p.left &&
  !((s.stores.takeWhile fun q => q.id != p.id).any fun q =>
    q.left && q.core == p.core && q.meets p && !(p.outside && q.insn != p.insn && q.group == p.group)) &&
  !(p.work.keys.any s.heldByLoft) && s.boardClear p

/-- The store leaves: it stands behind every store that has left. -/
def State.leave (s : State) (p : PStore) : State :=
  { s with stores := s.stores.filter (·.left) ++ [{ p with left := true }] ++ s.stores.filter (fun q => !q.left && q.id != p.id) }

/-- What the core keeps of a byte that its store has been written to, at tier 2 or tier 3: whether the store passed an older one of its
group, or was passed. -/
def State.passNote (s : State) (p : PStore) (k : Nat) : List Passed :=
  let b := s.byteAt k
  let older := s.stores.any fun q => q.group == p.group && q.outside && decide (q.id < p.id) && q.work.keys.contains k
  if older then [⟨p.core, p.group, k, p.id, b, b⟩]
  else (s.passed.filter fun e => e.core == p.core && e.key == k && e.group == p.group && decide (p.id < e.id)).map fun e => { e with home := b }

/-- The same for all its bytes. -/
def State.notePassed (s : State) (p : PStore) : State :=
  if !p.outside then s else
  { s with passed := p.work.keys.eraseDups.flatMap (s.passNote p) ++ s.passed.filter fun e => e.core != p.core || !p.work.keys.contains e.key }

/-- The store is performed at its home. -/
def State.performStore (s : State) (p : PStore) : State :=
  let s := (((s.noteLost (dieOf p.core) p.work.keys).performWork p).settleWaiters).notePassed p
  let s := { s with stores := s.stores.filter (fun q => q.id != p.id) }
  s.wakeAll (· == .release)

/-! The end of a group (spec/09, R202; spec/11, R234). -/

/-- Quadrants of a mask. -/
def maskQuads (m : Nat) : List (Fin 4) := (List.finRange 4).filter fun q => bitAt m q.val
/-- The mask of quadrants whose token the group holds, or does not. -/
def Core.heldMask (c : Core) (gid : Nat) : Nat := ((List.finRange 4).map fun q => nb ((c.quad q).holder == some gid) * 2 ^ q.val).foldl (· + ·) 0
def Core.takeBack (c : Core) (m : Nat) : Core :=
  (maskQuads m).foldl (fun c q => c.setQuad q { c.quad q with holder := none }) c

/-- Tokens of a group that has ended return (spec/11, R234). -/
def State.freeTokens (s : State) (core gid : Nat) : State :=
  if (s.core core).heldMask gid = 0 then s else s.updCore core fun c => c.takeBack (c.heldMask gid)

/-- A matrix instruction of a group that reads or writes its quadrants is under way. -/
def State.quadsBusy (s : State) (g : Group) : Bool :=
  g.mloop.isSome || s.producers.any fun p => p.group == g.id && match p.work with | .ext (.quad _) _ => true | _ => false

/-- The tokens of an ended group return when its last matrix instruction has completed (spec/11, R234), and the group is gone once
every operation that it issued has (spec/09, R202). -/
def State.reap (s : State) (gid : Nat) : State :=
  match s.group? gid with
  | none => s
  | some g =>
    if !g.ended || s.quadsBusy g then s else
    let s := s.freeTokens g.core gid
    if s.producers.any (fun p => p.group == gid) || s.stores.any (fun p => p.group == gid) ||
      s.adds.any (fun a => a.owner == some gid && a.lines.isEmpty) then s
    else { s with groups := s.groups.filter (fun x => x.id != gid), passed := s.passed.filter fun e => e.group != gid }

end Sys2Proof.Machine
end

