-- ==== Sys2Proof/Machine/LoadStore.lean ====
section
/-! DEFINITION. Loads, stores, capability loads, stores and derivation, prefetch and L1 invalidation (spec/07, R161 to R172). -/
namespace Sys2Proof.Machine

/-- Asks for the walk of a virtual page that no cache of a core keeps a translation of; misses on one page share a walk (spec/10, R227). -/
def State.askWalk (s : State) (core ctx va : Nat) : State :=
  let page := va / 65536
  if !(s.xlatsOf core ctx va).isEmpty || s.walks.any (fun w => w.die == dieOf core && w.ctx == ctx && w.page == page) then s
  else { s with walks := s.walks ++ [⟨s.nextId, dieOf core, core, ctx, page⟩], nextId := s.nextId + 1 }

/-- Lanes that make an access: with a scalar D only the lowest active one, where a lane that traps counts as inactive
(spec/07, R162; spec/08, R177). -/
def Form.accessing (fm : Form) (traps : Fibre → Bool) (fs : List Fibre) : List Fibre :=
  if fm.scalarDst then fs.takeWhile traps ++ (fs.dropWhile traps).take 1 else fs
def Form.idling (fm : Form) (traps : Fibre → Bool) (fs : List Fibre) : List Fibre :=
  if fm.scalarDst then (fs.dropWhile traps).drop 1 else []

def Access.traps : Access → Bool
  | .trap _ => true
  | _ => false

/-- The memory operand of a load or store: capability, sub-field, offset of a lane. -/
structure MemRef where
  cap : Quad
  sub : Nat
  off : Group → Fibre → Int

/-- sext(IMM9) times a unit (spec/07, R158). -/
def immOff (i : BitVec 9) (unit : Nat) : Group → Fibre → Int := fun _ _ => i.toInt * unit

def MemImm.ref (o : MemImm) : MemRef := ⟨o.a, o.sz.toNat, immOff o.i o.sz.bytes⟩
def MemIdx.ref (o : MemIdx) : MemRef :=
  ⟨o.a, o.sz.toNat, fun g f => ((g.word f o.b).toNat : Int) * (if o.x then o.sz.bytes else 1)⟩

/-- Issues a load: a long-latency producer that reads memory when it completes. -/
def loadBody (fm : Form) (n : Nat) (sg cap acq : Bool) (r : MemRef) : State → Group → Cur → List Fibre → Body :=
  fun s g c fs =>
    let one := fun (f : Fibre) => s.access g f (.load n) r.cap r.sub (r.off g f) true none
    let traps := fun f => (one f).traps
    let accs := (fm.accessing traps fs).map fun f => (f, capSpace (g.quad f r.cap), one f)
    s.memBody g c (.load n) (fm.idling traps fs) accs (fun _ => { pend := true }) (fun _ => none) fun go t =>
      if go.isEmpty then t else
      let lanes := go.map fun l : AccLane =>
        (⟨fm.destOf l.f, l.a, l.key, l.space == 5, capPerm (g.quad l.f r.cap) 2⟩ : LoadLane)
      let keyOf := fun (l : AccLane) => match l.key with
        | some k => some k
        | none => match s.translate g.core (s.ctxOf g) l.a .rd with | .ok k => some k | _ => none
      let sc := (go.map fun l => addrScope l.space (keyOf l)).foldl Scope.wider .core
      let t := go.foldl (fun t l => if l.key.isNone then t.askWalk g.core (s.ctxOf g) l.a else t) t
      t.addProducer g.id .memory [] [] (if acq then some sc else none) (.load n sg cap lanes)

def formLoad (o : MemImm) : Form :=
  ⟨[.dest o.d (if o.sz = .b8 then 2 else 1), .quad o.a o.sz.toNat o.fa], [], false, .own⟩
def formLoadX (o : MemIdx) : Form :=
  ⟨[.dest o.d (if o.sz = .b8 then 2 else 1), .quad o.a o.sz.toNat o.fa, .source o.b 1 o.fb], [], false, .own⟩

def execLd (o : MemImm) (s : State) : Res := .next (s.issue (formLoad o) (loadBody (formLoad o) o.sz.bytes false false false (MemImm.ref o)))
def execLdS (o : MemImm) (s : State) : Res := .next (s.issue (formLoad o) (loadBody (formLoad o) o.sz.bytes true false false (MemImm.ref o)))
def execLdx (o : MemIdx) (s : State) : Res := .next (s.issue (formLoadX o) (loadBody (formLoadX o) o.sz.bytes false false false (MemIdx.ref o)))
def execLdxS (o : MemIdx) (s : State) : Res := .next (s.issue (formLoadX o) (loadBody (formLoadX o) o.sz.bytes true false false (MemIdx.ref o)))
def execLdAcq (o : MemImm) (s : State) : Res := .next (s.issue (formLoad o) (loadBody (formLoad o) o.sz.bytes false false true (MemImm.ref o)))

/-- Issues a store: its accesses join the store queue of the core (spec/07, R163; spec/12, R259). `rel`: a release. -/
def storeBody (n : Nat) (rel : Bool) (d : Reg) (r : MemRef) : State → Group → Cur → List Fibre → Body :=
  fun s g c fs =>
    let accs := fs.map fun f => (f, capSpace (g.quad f r.cap), s.access g f (.st n) r.cap r.sub (r.off g f) false none)
    let gate : List AccLane → Option Wait := fun go =>
      let sc := (go.map fun l => addrScope l.space l.key).foldl Scope.wider .core
      if rel && !s.released g sc then some .release else none
    s.memBody g c (.st n) [] accs (fun _ => {}) gate fun go t =>
      t.queueStores g n (go.filterMap fun l => l.key.map fun k => ⟨k, l.a, g.num l.f (n == 8) d⟩)

def formStore (o : MemImm) : Form :=
  ⟨[.source o.d (if o.sz = .b8 then 2 else 1) false, .quad o.a o.sz.toNat o.fa], [], false, .own⟩
def formStoreX (o : MemIdx) : Form :=
  ⟨[.source o.d (if o.sz = .b8 then 2 else 1) false, .quad o.a o.sz.toNat o.fa, .source o.b 1 o.fb], [], false, .own⟩

def execSt (o : MemImm) (s : State) : Res := .next (s.issue (formStore o) (storeBody o.sz.bytes false o.d (MemImm.ref o)))
def execStx (o : MemIdx) (s : State) : Res := .next (s.issue (formStoreX o) (storeBody o.sz.bytes false o.d (MemIdx.ref o)))
def execStRel (o : MemImm) (s : State) : Res := .next (s.issue (formStore o) (withOverflow (storeBody o.sz.bytes true o.d (MemImm.ref o))))

/-! Capability loads and stores (spec/07, R165, R166). -/

def execLdc (o : MemCap) (s : State) : Res :=
  let fm : Form := ⟨[.dest o.d.base 4, .quad o.a 0 o.fa], [], false, .own⟩
  .next (s.issue fm (loadBody fm 16 false true false ⟨o.a, 0, immOff o.i 16⟩))

/-- The checks of STC on a tagged D: STCAP on C, and GLOBALIZE on D for GLOBAL (spec/07, R166). -/
def stcCheck (q : QWord) (field : Nat) (d : QWord) (tagD : Bool) (dField : Nat) : Option Trap :=
  if tagD && !capPerm q 3 then some ⟨.capPerm, capVal field q⟩
  else if tagD && capSpace q == 0 && !capPerm d 8 then some ⟨.capPerm, capVal (0x80 + dField) d⟩
  else none

/-- The requests of an STC: lanes at one granule of a scratchpad share one, in which the last lane's tag stands (spec/10, R216). -/
def capRequests (ls : List (Nat × List ByteWrite × Bool)) : List (Nat × List ByteWrite × Bool) :=
  ls.foldl (fun r l => if isScratch l.1 && r.any (fun q => q.1 == l.1) then
      r.map fun q => if q.1 == l.1 then (q.1, q.2.1 ++ l.2.1, l.2.2) else q
    else r ++ [l]) []

def execStc (o : MemCap) (s : State) : Res :=
  let fm : Form := ⟨[.quad o.d 0 false, .quad o.a 0 o.fa], [], false, .own⟩
  .next (s.issue fm fun s g c fs =>
    let accs := fs.map fun f =>
      let q := g.quad f o.a
      (f, capSpace q, s.access g f (.st 16) o.a 0 (immOff o.i 16 g f) false
        (stcCheck q (o.a.field 0) (g.quad f o.d) (g.tagOf f o.d) (o.d.field 0)))
    s.memBody g c (.st 16) [] accs (fun _ => {}) (fun _ => none) fun go t =>
      let insn := t.nextId
      (capRequests (go.filterMap fun l => l.key.map fun k =>
        (k, byteWrites k l.a 16 (g.quad l.f o.d).toNat, g.tagOf l.f o.d && !isOutside k))).foldl (fun t q =>
          t.queueStore g insn q.1 (.bytes q.2.1 (if q.2.2 then [q.1 / 16] else []) [q.1 / 16])) t)

/-! Capability instructions (spec/07, R168 to R171). -/

/-- A capability with new fields. -/
def setField (q : QWord) (lo w v : Nat) : QWord :=
  BitVec.ofNat 128 (q.toNat - (q.toNat / 2 ^ lo % 2 ^ w) * 2 ^ lo + (v % 2 ^ w) * 2 ^ lo)

/-- CDER's result, whatever its tag. -/
def cderOf (p : QWord) (O L : Nat) : QWord :=
  let r := setField p 0 56 (capBase p + O)
  if L < 2 ^ 39 then setField (setField r 95 1 0) 56 39 L else setField (setField r 95 1 1) 56 39 (L / 65536)
def cpermOf (p : QWord) (m : Nat) : QWord := setField p 96 16 (Nat.land (capPerms p) (m % 65536))
def csealOf (p : QWord) : QWord := setField p 106 1 1

/-- Deriving from parent `p`: the result is tagged only when every check passes (spec/07, R169). `field` is A's. -/
def State.derive (s : State) (ctx : Nat) (p r : QWord) (tag : Bool) (field : Nat) (bounds : Option Trap) : LaneOut :=
  let out (t : Bool) : LaneOut := .done { words := quadWords r, tag := t }
  if !tag then out false
  else if 7 ≤ capSpace p then .trap ⟨.capPerm, capVal field p⟩ 0
  else if s.stale ctx p then .trap ⟨.capStale, capVal field p⟩ 0
  else if capPerm p 10 || !capPerm p 9 then out false
  else match bounds with
    | some t => .trap t 0
    | none => out true

def execCder (o : CapQuad) (s : State) : Res :=
  .next (s.issue ⟨[.dest o.d.base 4, .quad o.a 0 o.fa, .quad o.b 0 o.fb], [], false, .own⟩ fun s g _ fs =>
    { outs := fs.map fun f =>
        let p := g.quad f o.a
        let b := (g.quad f o.b).toNat
        let O := b % 2 ^ 64
        let L := b / 2 ^ 64
        let bad := decide (capLen p < O + L) || (decide (2 ^ 39 ≤ L) && (L % 65536 != 0 || decide (2 ^ 39 ≤ L / 65536)))
        (f, s.derive (s.ctxOf g) p (cderOf p O L) (g.tagOf f o.a) (o.a.field 0) (if bad then some ⟨.capBounds, d64 O⟩ else none)) })

def execCperm (o : CapReg) (s : State) : Res :=
  .next (s.issue ⟨[.dest o.d.base 4, .quad o.a 1 o.fa, .source o.b 1 o.fb], [], false, .own⟩ fun s g _ fs =>
    { outs := fs.map fun f =>
        let p := g.quad f o.a
        (f, s.derive (s.ctxOf g) p (cpermOf p (g.word f o.b).toNat) (g.tagOf f o.a) (o.a.field 1) none) })

def execCseal (fa : Bool) (a : Quad) (d : Quad) (s : State) : Res :=
  .next (s.issue ⟨[.dest d.base 4, .quad a 0 fa], [], false, .own⟩ fun s g _ fs =>
    { outs := fs.map fun f =>
        let p := g.quad f a
        (f, s.derive (s.ctxOf g) p (csealOf p) (g.tagOf f a) (a.field 0) none) })

/-- CGET (spec/07, Table 7.8). -/
def cgetOf (q : QWord) : Nat → Nat
  | 0 => capBase q
  | 1 => capBase q / 2 ^ 32
  | 2 => capLen q
  | 3 => capLen q / 2 ^ 32
  | 4 => capPerms q
  | 5 => capSpace q
  | _ => capGen q

def execCget (fn : Fin 7) (fa : Bool) (a : Quad) (d : Reg) (s : State) : Res :=
  s.lanes ⟨[.dest d 1, .quad a 2 fa], [], false, .own⟩ fun g f => [w32 (cgetOf (g.quad f a) fn.val)]

def execCtag (fa : Bool) (a : Quad) (d : Reg) (s : State) : Res :=
  .next (s.issue ⟨[.dest d 1, .quad a 3 fa], [], false, .own⟩ fun s g _ fs =>
    { outs := fs.map fun f =>
        let t := g.tagOf f a
        (f, .done { words := [w32 (nb t + 2 * nb (t && s.stale (s.ctxOf g) (g.quad f a)))] }) })

/-! Prefetch and L1 invalidation (spec/07, R172). -/

/-- The lines of virtual memory that L1INV and PREF name: GLOBAL and CONST. -/
def lineUse : MemUse := ⟨[0, 5], [0], .rd, 1, false⟩

def formLine (o : MemLine) (sub : Nat) : Form := ⟨[.quad o.a sub o.fa], [], false, .own⟩

/-- The address of a line operand when every check of R158 passes. -/
def State.lineAt (s : State) (g : Group) (f : Fibre) (o : MemLine) (sub : Nat) : Except Trap Nat :=
  let q := g.quad f o.a
  match s.block? g.block, s.capCheck (s.ctxOf g) q (g.tagOf f o.a) (o.a.field sub) lineUse with
  | none, _ => .error ⟨.capBounds, 0⟩
  | _, some t => .error t
  | some b, none =>
    match s.place b q (o.i.toInt * 128) 1 with
    | .ok x => .ok x.1
    | .error t => .error t

/-- PREF does nothing on any failure; toward the L1 it allocates the line. -/
def prefetch (toL1 : Bool) (sub : Nat) (o : MemLine) (s : State) : Res :=
  .next (s.issue (formLine o sub) fun s g _ fs =>
    { outs := fs.map fun f => (f, .done {})
      effect := fun t => if !toL1 then t else fs.foldl (fun t f =>
        match s.lineAt g f o sub with
        | .ok va =>
          match t.translate g.core (t.ctxOf g) va .rd with
          | .ok k => if isPeer k || t.heldByLoft k then t else
              match t.l1At g.core (t.ctxOf g) va k with
              | some l => t.l1Use l
              | none => t.l1Fill (t.freshLine g.core (t.ctxOf g) va k (capSpace (g.quad f o.a) == 5))
          | _ => t
        | .error _ => t) t })

def execPrefL1 (o : MemLine) (s : State) : Res := prefetch true 0 o s
def execPrefL2 (o : MemLine) (s : State) : Res := prefetch false 1 o s

def execL1inv (o : MemLine) (s : State) : Res :=
  .next (s.issue (formLine o 2) fun s g _ fs =>
    { outs := fs.map fun f => (f, match s.lineAt g f o 2 with | .ok _ => .done {} | .error t => .trap t 0)
      effect := fun t => fs.foldl (fun t f =>
        match s.lineAt g f o 2 with
        | .ok va =>
          match t.lookup g.core (t.ctxOf g) va with
          | .leaf l => { t with l1 := t.l1.filter fun x => !x.is g.core (t.ctxOf g) va (l.key va) }
          | _ => t
        | .error _ => t) t })

end Sys2Proof.Machine
end

