-- ==== Sys2Proof/Machine/Atomics.lean ====
section
/-! DEFINITION. ATOM and RED (spec/03, R66; spec/09, R209, R210). -/
namespace Sys2Proof.Machine

/-- Registers of D: two values of the width for CAS, compare first (spec/03, R66). -/
def atomRegs (x cas : Bool) : Nat := if x && cas then 4 else if x || cas then 2 else 1

/-- The form of an ATOM: D is read and written; the result takes the width only. -/
def formAtom (ord : AtomOrd) (o : Atomic) (cas : Bool) : Form :=
  ⟨[.both o.d (atomRegs o.x cas), .quad o.a ord.toNat o.fa, .source o.b 1 o.fb], [], false, .own⟩
def formRed (o : Atomic) : Form :=
  ⟨[.source o.d (regs o.x) false, .quad o.a 3 o.fa, .source o.b 1 o.fb], [], false, .own⟩

/-- Data and new value of a lane. -/
def Atomic.data (o : Atomic) (g : Group) (f : Fibre) (cas : Bool) : Nat × Nat :=
  let d := g.num f o.x o.d
  if cas then
    let ws := g.words f o.d (atomRegs o.x true)
    (d, if o.x then (ws.getD 2 0).toNat + 2 ^ 32 * (ws.getD 3 0).toNat else (ws.getD 1 0).toNat)
  else (d, 0)

/-- Where the old value goes: the registers of the width. -/
def atomDest (o : Atomic) (f : Fibre) : Dest := (Operand.dest o.d (regs o.x)).destOf f

def atomBody (op : AtomOp) (ord : AtomOrd) (o : Atomic) : State → Group → Cur → List Fibre → Body :=
  fun s g c fs =>
    let n := if o.x then 8 else 4
    let accs := fs.map fun f => (f, capSpace (g.quad f o.a),
      s.access g f (.atom n) o.a ord.toNat (g.word f o.b).toNat false none)
    let scopeOf := fun (go : List AccLane) => (go.map fun l => addrScope l.space l.key).foldl Scope.wider .core
    s.memBody g c (.atom n) [] accs (fun _ => { pend := true })
      (fun go => if ord = .rel && !s.released g (scopeOf go) then some .release else none) fun go t =>
        if go.isEmpty then t else
        let lead := (go.map (·.f.lane)).head?
        let scalar := (formAtom ord o false).scalarDst
        let lanes := go.filterMap fun l => l.key.map fun k =>
          ((if scalar && lead != some l.f.lane then .none l.f.lane else atomDest o l.f : Dest),
            (⟨l.f.lane, k, l.a, (Atomic.data o g l.f (op = .cas)).1, (Atomic.data o g l.f (op = .cas)).2⟩ : AtomLane))
        let out := (go.filter fun l => (l.key.map isOutside).getD false).length
        let t := t.updGroup g.id fun g => { g with outack := g.outack + out }
        t.addProducer g.id .memory [] [] (if ord = .acq then some (scopeOf go) else none) (.atomic op n lanes)

/-- Only the registers of the width are marked empty; CAS leaves its new value in place (notes/assumptions/16). -/
def formAtomDst (ord : AtomOrd) (o : Atomic) (cas : Bool) : Form :=
  if cas then ⟨[.both o.d (regs o.x),
    .source o.d (atomRegs o.x cas) false, .quad o.a ord.toNat o.fa, .source o.b 1 o.fb], [], false, .own⟩
  else formAtom ord o false

def atomOp (op : AtomOp) (ord : AtomOrd) (o : Atomic) (s : State) : Res :=
  .next (s.issue (formAtomDst ord o (op = .cas)) (if ord = .rel then withOverflow (atomBody op ord o) else atomBody op ord o))

def execAtomAdd (ord : AtomOrd) (o : Atomic) (s : State) : Res := atomOp .add ord o s
def execAtomMinS (ord : AtomOrd) (o : Atomic) (s : State) : Res := atomOp .minS ord o s
def execAtomMinN (ord : AtomOrd) (o : Atomic) (s : State) : Res := atomOp .minN ord o s
def execAtomMaxS (ord : AtomOrd) (o : Atomic) (s : State) : Res := atomOp .maxS ord o s
def execAtomMaxN (ord : AtomOrd) (o : Atomic) (s : State) : Res := atomOp .maxN ord o s
def execAtomAnd (ord : AtomOrd) (o : Atomic) (s : State) : Res := atomOp .and ord o s
def execAtomOr (ord : AtomOrd) (o : Atomic) (s : State) : Res := atomOp .or ord o s
def execAtomXor (ord : AtomOrd) (o : Atomic) (s : State) : Res := atomOp .xor ord o s
def execAtomXchg (ord : AtomOrd) (o : Atomic) (s : State) : Res := atomOp .xchg ord o s
def execAtomCas (ord : AtomOrd) (o : Atomic) (s : State) : Res := atomOp .cas ord o s

/-- Two lanes share a request: at one address, or in one bank word of a scratchpad (spec/09, R210; spec/10, R216). -/
def oneRequest (a b : Nat) : Bool := a == b || (isScratch a && isScratch b && a / 8 == b / 8)

/-- The requests of a RED with their lanes in order. -/
def redRequests (ls : List AtomLane) : List (Nat × List AtomLane) :=
  ls.foldr (fun l r => if r.any (fun q => oneRequest q.1 l.key) then r.map (fun q => if oneRequest q.1 l.key then (q.1, l :: q.2) else q)
    else (l.key, [l]) :: r) []

def redOp (op : AtomOp) (o : Atomic) (s : State) : Res :=
  .next (s.issue (formRed o) fun s g c fs =>
    let n := if o.x then 8 else 4
    let accs := fs.map fun f => (f, capSpace (g.quad f o.a), s.access g f (.atom n) o.a 3 (g.word f o.b).toNat false none)
    s.memBody g c (.atom n) [] accs (fun _ => {}) (fun _ => none) fun go t =>
      let ls := go.filterMap fun l => l.key.map fun k => (⟨l.f.lane, k, l.a, g.num l.f o.x o.d, 0⟩ : AtomLane)
      let insn := t.nextId
      (redRequests ls).foldl (fun t q => t.queueStore g insn q.1 (.red op n q.2)) t)

def execRedAdd (o : Atomic) (s : State) : Res := redOp .add o s
def execRedMinS (o : Atomic) (s : State) : Res := redOp .minS o s
def execRedMinN (o : Atomic) (s : State) : Res := redOp .minN o s
def execRedMaxS (o : Atomic) (s : State) : Res := redOp .maxS o s
def execRedMaxN (o : Atomic) (s : State) : Res := redOp .maxN o s
def execRedAnd (o : Atomic) (s : State) : Res := redOp .and o s
def execRedOr (o : Atomic) (s : State) : Res := redOp .or o s
def execRedXor (o : Atomic) (s : State) : Res := redOp .xor o s

end Sys2Proof.Machine
end

