-- ==== Sys2Proof/Machine/Barriers.lean ====
section
/-! DEFINITION. Named barriers: BARA, BARW, BARM (spec/09, R208; spec/08, R193, R194). -/
namespace Sys2Proof.Machine

/-- The number of a barrier in TRAPVAL: bit 4 marks a sheaf barrier (spec/08, R194). -/
def barNum : Bar → Nat
  | .blk n => n.val
  | .shf n => 16 + n.val

/-- The scope of an ordering form. -/
def barScope : Bar → Scope
  | .blk _ => .core
  | .shf _ => .sheaf

/-- Whether a group, or its block, is in MEMBER; a task group is in none (spec/08, R191). -/
def State.isMember (s : State) (g : Group) (b : Bar) : Bool :=
  g.task.isNone &&
  match b, s.block? g.block with
  | .blk n, some bl => (barAt bl.bars n.val).member.getLsbD g.index
  | .shf n, some bl => ((s.sheaf? bl.sheaf).map fun sh => (barAt sh.bars n.val).member.getLsbD bl.rank).getD false
  | _, none => false

/-- BARA: each fibre marks its arrival; the group arrives with its last one. -/
def execBara (ord : Bool) (b : Bar) (s : State) : Res :=
  let body : State → Group → Cur → List Fibre → Body := fun s g _ fs =>
    let gen := s.barGen g b
    { outs := fs.map fun f =>
        (f, if !s.isMember g b || f.markOf b == some gen then .fail .barrierMembership (d64 (barNum b))
          else if ord && !s.released g (barScope b) then .wait .release
          else .done { upd := fun f => f.setMark b gen })
      effect := fun t => t.arriveIf g.id b }
  .next (s.issue ⟨[], [], false, .own⟩ (if ord then withOverflow body else body))

/-- BARW: waits until the generation of its mark has passed. -/
def execBarw (ord : Bool) (b : Bar) (s : State) : Res :=
  .next (s.issue ⟨[], [], false, .own⟩ fun s g _ fs =>
    let gen := s.barGen g b
    { outs := fs.map fun f =>
        (f, match f.markOf b with
          | none => .fail .barrierMembership (d64 (barNum b))
          | some m => if m == gen then .wait (.barrier b) else .done { upd := fun f => f.clearMark b })
      effect := fun t => if ord && fs.any (fun f => match f.markOf b with | some m => m != gen | none => false)
        then t.acquire g.core (t.ctxOf g) (barScope b) else t })

/-- A new MEMBER: at once when nothing has arrived, else at the end of the generation. -/
def Barrier.setMember (m : Word) (b : Barrier) : Barrier :=
  if b.arrived = 0 then { b with member := m } else { b with pending := some m }

/-- The low `n` bits. -/
def lowMask (n : Nat) : Word := w32 (2 ^ n - 1)

/-- Changes a barrier of a block or of its sheaf. -/
def State.touch (s : State) (bl : Block) (b : Bar) (f : Barrier → Barrier) : State :=
  match b with
  | .blk n => s.touchBar bl.id n.val f
  | .shf n => s.touchSheafBar bl.sheaf n.val f

/-- The barrier as the block's groups see it. -/
def State.barOf (s : State) (bl : Block) (b : Bar) : Barrier :=
  match b with
  | .blk n => barAt bl.bars n.val
  | .shf n => barAt (((s.sheaf? bl.sheaf).map (·.bars)).getD []) n.val

/-- The marks that the fibres of a block, or of a sheaf, hold of a barrier. -/
def State.marksOf (s : State) (bl : Block) (b : Bar) : List (Nat × Nat × List Arrival) :=
  let mine := fun (x : Block) => match b with
    | .blk _ => x.id == bl.id
    | .shf _ => x.sheaf == bl.sheaf
  (s.groups.filter fun g => ((s.block? g.block).map mine).getD false).flatMap fun g =>
    g.fibres.map fun f => (g.id, f.lane, (f.marks ++ f.born).filter fun m => m.bar == b)

/-- A BARM as a mark. -/
def State.barmMark (s : State) (g : Group) (bl : Block) (b : Bar) (m : Word) : BarmMark :=
  match b with
  | .blk n => ⟨false, bl.id, n.val, s.clk, g.index, m, s.barOf bl b, s.marksOf bl b⟩
  | .shf n => ⟨true, bl.sheaf, n.val, s.clk, bl.rank, m, s.barOf bl b, s.marksOf bl b⟩

/-- Two BARMs that reach one barrier in one clk. -/
def BarmMark.meets (x y : BarmMark) : Bool := x.sheaf == y.sheaf && x.owner == y.owner && x.bar == y.bar && x.clk == y.clk

/-- How many generations a MEMBER that changes at once completes: one where it becomes empty. -/
def emptying (old new : Word) : Nat := if old ≠ 0 ∧ new = 0 then 1 else 0

/-- A BARM of `m` that applies before `x` completes a generation more. -/
def BarmMark.adds (x : BarmMark) (m : Word) : Bool :=
  decide (x.before.arrived = 0 ∧ emptying x.before.member x.member < emptying x.before.member m + emptying m x.member)

/-- Marks of barrier `b` of one generation later. -/
def laterMarks (b : Bar) (l : List Arrival) : List Arrival := l.map fun m => if m.bar = b then { m with gen := m.gen + 1 } else m

/-- A generation that was over before `x` found the barrier: what has been marked since is of one generation later. -/
def State.lateGen (s : State) (bl : Block) (b : Bar) (x : BarmMark) : State :=
  let anew := fun (gid lane : Nat) (l : List Arrival) => !x.marks.contains (gid, lane, l.filter fun m => m.bar == b)
  let later := fun (g : Group) (f : Fibre) =>
    if anew g.id f.lane (f.marks ++ f.born) then { f with marks := laterMarks b f.marks, born := laterMarks b f.born } else f
  let seen := fun (e : Nat × Nat × List Arrival) => if anew e.1 e.2.1 e.2.2 then (e.1, e.2.1, laterMarks b e.2.2) else e
  let s := s.touch bl b fun a => { a with gen := a.gen + 1 }
  let s := match b with
    | .blk n => s.barCompleted bl.id n.val
    | .shf _ => s
  { s with
    groups := s.groups.map fun g => { g with fibres := g.fibres.map (later g) }
    barms := s.barms.map fun y => if y.meets x && decide (x.who < y.who) then { y with marks := y.marks.map seen } else y }

/-- MEMBER takes a new value. Of two BARMs in one clk that of the lower group index or block rank applies first: one that comes after a
higher one goes before it, and leaves nothing but the generation that it adds. -/
def State.newMember (s : State) (g : Group) (bl : Block) (b : Bar) (m : Word) : State :=
  let k := s.barmMark g bl b m
  match (s.barms.filter fun x => BarmMark.meets x k && decide (k.who < x.who)).foldl (fun o x => match o with
      | some y => if x.who < y.who then some x else o
      | none => some x) none with
  | none => { s.touch bl b (Barrier.setMember m) with barms := k :: s.barms.filter fun x => x.clk == s.clk }
  | some x =>
    let y := { x with before := ((Barrier.setMember m x.before).settle (x.before.member != 0)).1 }
    let u := { s with barms := { k with before := x.before, marks := x.marks } :: y :: s.barms.filter (· != x) }
    if x.adds m then u.lateGen bl b x else u

/-- Members that a barrier can have: the groups of a block or the blocks of a sheaf. -/
def State.memberCount (s : State) (g : Group) (bl : Block) : Bar → Nat
  | .blk _ => ((s.kernelOf g).map (·.stages.length)).getD 32
  | .shf _ => ((s.sheaf? bl.sheaf).map (·.count)).getD 0

/-- BARM: MEMBER from A in the lowest active lane. One of a task group changes the barriers of the block that forked it
(notes/assumptions/106). -/
def execBarm (b : Bar) (fa : Bool) (a : Reg) (s : State) : Res :=
  .next (s.issue ⟨[.source a 1 fa], [], false, .own⟩ fun s g _ fs =>
    { outs := fs.map fun f => (f, .done {})
      effect := fun t =>
        match fs, t.block? g.block with
        | f :: _, some bl => t.newMember g bl b (g.word f a &&& lowMask (s.memberCount g bl b))
        | _, _ => t })

end Sys2Proof.Machine
end

