-- ==== Sys2Proof/Machine/Fibres.lean ====
section
/-! DEFINITION. Creating, forking and ending fibres, reconvergence, yielding, serial sections, fence and window
(spec/09, R201 to R207, R211, R212; spec/08, R176, R189 to R191). -/
namespace Sys2Proof.Machine

/-! SPAWN (spec/09, R201). -/

/-- The lowest lane that holds no fibre and is not taken. -/
def Group.freeLane (g : Group) (taken : List (Fin 32)) : Option (Fin 32) :=
  (List.finRange 32).find? fun l => !(g.fibres.any fun f => f.lane == l) && !taken.contains l

/-- Lanes given to spawning fibres in ascending order. -/
def spawnLanes (g : Group) : List Fibre → List (Fin 32) → List (Fibre × Option (Fin 32))
  | [], _ => []
  | f :: r, taken =>
    match g.freeLane taken with
    | some l => (f, some l) :: spawnLanes g r (l :: taken)
    | none => (f, none) :: spawnLanes g r taken

/-- Inserts a fibre in lane order. -/
def insertFibre (x : Fibre) : List Fibre → List Fibre
  | [] => [x]
  | f :: r => if x.lane.val < f.lane.val then x :: f :: r else f :: insertFibre x r

/-- The state of a new fibre: R46, v0 to v3 from quad B without its tag, the arrival set of its parent. -/
def State.newFibre (s : State) (g : Group) (o : Spawn) (f : Fibre) (l : Fin 32) : Fibre :=
  let x := Fibre.start l (g.word f o.a) g.regsN g.stage
  { x.writeV 0 (g.words f o.b.base 4) with
    aset := f.aset, born := if g.task.isSome then [] else allBars.map fun b => ⟨b, s.barGen g b⟩ }

def execSpawn (o : Spawn) (s : State) : Res :=
  .next (s.issue ⟨[.dest o.d 1, .source o.a 1 o.fa, .quad o.b 0 o.fb], [], false, .own⟩ fun s g _ fs =>
    let odd := fun (f : Fibre) => (g.word f o.a).getLsbD 0
    let made := spawnLanes g (fs.filter fun f => !odd f) []
    { outs := fs.map fun f =>
        (f, if odd f then .fail .misaligned ((g.word f o.a).zeroExtend 64)
          else match made.find? fun m => m.1.lane = f.lane with
            | some (_, some l) => .done { words := [w32 l.val] }
            | _ => .done { words := [0xFFFFFFFF] })
      effect := fun t => t.updGroup g.id fun h => made.foldl (fun h m => match m.2 with
        | some l => { h with fibres := insertFibre (s.newFibre g o m.1 l) h.fibres }
        | none => h) h })

/-! FORK (spec/09, R203; spec/08, R189). -/

/-- A record goes to the head of the core's deque, or to the tail of the sheaf's overflow queue. -/
def State.fileTask (s : State) (core sheaf : Nat) (r : TaskRec) : State :=
  if (s.core core).deque.length < 64 then s.updCore core fun c => { c with deque := r :: c.deque }
  else s.updSheaf sheaf fun sh => { sh with overflow := sh.overflow ++ [r] }

def Fork.record (o : Fork) (g : Group) (f : Fibre) : TaskRec :=
  let el := g.dword f o.a
  ⟨el.truncate 32, (el >>> 32).toNat, capBase (g.quad f o.d), g.words f o.b.base 4, g.block⟩

/-- The checks of one fibre but for the room in the queues. -/
def State.forkCheck (s : State) (g : Group) (b : Block) (o : Fork) (f : Fibre) : Option Trap :=
  let q := g.quad f o.d
  match s.capCheck (s.ctxOf g) q (g.tagOf f o.d) (o.d.field 0) .counter with
  | some t => some t
  | none =>
    match s.place b q 0 8 with
    | .error t => some t
    | .ok _ =>
      let r := Fork.record o g f
      if r.entry.getLsbD 0 then some ⟨.misaligned, r.entry.zeroExtend 64⟩
      else if r.lanes = 0 || 32 < r.lanes then some ⟨.illegal, d64 r.lanes⟩
      else none

/-- Fibres in order: each that passes its checks takes a place while one is left. -/
def forkOuts (check : Fibre → Option Trap) : Nat → List Fibre → List (Fibre × Option Trap)
  | _, [] => []
  | room, f :: r =>
    match check f with
    | some t => (f, some t) :: forkOuts check room r
    | none => if room = 0 then (f, some ⟨.illegal, 0x10000⟩) :: forkOuts check room r else (f, none) :: forkOuts check (room - 1) r

def execFork (o : Fork) (s : State) : Res :=
  .next (s.issue ⟨[.quad o.d 0 false, .source o.a 2 o.fa, .quad o.b 0 o.fb], [], false, .own⟩
    (withOverflow fun s g _ fs =>
      match s.block? g.block with
      | none => { outs := fs.map fun f => (f, .done {}) }
      | some b =>
        let queued := ((s.sheaf? b.sheaf).map (·.overflow.length)).getD 0
        let outs := forkOuts (s.forkCheck g b o) ((64 - (s.core g.core).deque.length) + (65536 - queued)) fs
        let wait := !s.released g .die
        { outs := outs.map fun x => (x.1, match x.2 with
            | some t => .trap t 0
            | none => if wait then .wait .release else .done {})
          effect := fun t =>
            let go := outs.filter fun x => x.2.isNone
            let t := if go.isEmpty then t else t.updBlock g.block fun b => { b with sidefx := true }
            go.foldl (fun t x => t.fileTask g.core b.sheaf (Fork.record o g x.1)) t }))

/-! Ending fibres (spec/09, R202). -/

/-- The lane of a destination. -/
def Dest.lane : Dest → Fin 32
  | .vec l _ _ => l
  | .sca l _ _ => l
  | .none l => l

/-- A vector destination of a lane is no longer written. A scalar register is the group's, and is still written (spec/09, R202;
notes/assumptions/102). -/
def Dest.dropLane (l : Fin 32) : Dest → Dest
  | .vec k p n => if k = l then .none k else .vec k p n
  | d => d

/-- A result of an exited lane reaches no register of the lane and no predicate. -/
def LaneVal.dropLane (l : Fin 32) (v : LaneVal) : LaneVal :=
  if v.dest.lane = l then { v with dest := v.dest.dropLane l, pred := none } else v

/-- What the producers of a group have still to do once a lane has exited. -/
def Work.dropLane (l : Fin 32) : Work → Work
  | .ready vs => .ready (vs.map (·.dropLane l))
  | .load n sg c ls => .load n sg c (ls.map fun x => { x with dest := x.dest.dropLane l })
  | .atomic op n ls => .atomic op n (ls.map fun x => (x.1.dropLane l, x.2))
  | .hist a b c ls => .hist a b c (ls.map fun x => if x.lane = l then { x with dest := x.dest.dropLane l, live := false } else x)
  | .tex a ls => .tex a (ls.map fun x => { x with dest := x.dest.dropLane l })
  | .trace ls => .trace (ls.map fun x => { x with dest := x.dest.dropLane l })
  | .tri p r ws => .tri p (r.filter fun x => x.1 != l) ws
  | .kv ids => .kv ids
  | .cread c ds => .cread c (ds.map (·.dropLane l))
  | .ctest c t p ls => .ctest c t p (ls.filter (· != l))
  | .ext d bs => .ext d bs

/-- A producer no longer writes registers, predicates or FLAGS of a lane (spec/09, R202). -/
def Producer.dropLane (l : Fin 32) (p : Producer) : Producer :=
  { p with preds := p.preds.filter (fun q => q.1 != l), flagLanes := p.flagLanes.filter (· != l), work := p.work.dropLane l
           early := p.early.map (·.dropLane l) }
def KvReq.dropLane (l : Fin 32) (r : KvReq) : KvReq :=
  { r with dest := r.dest.dropLane l, answer := r.answer.map (·.dropLane l) }

/-- The next waiting lane of a serial section runs, or with none left the section ends (spec/09, R207). -/
def Group.nextTurn (g : Group) : Group :=
  match g.lser with
  | none => g
  | some sec =>
    match sec.waiting with
    | l :: r =>
      { g.updFibre l fun f => { f with turn := true, wait := none, pc := sec.next } with lser := some { sec with waiting := r } }
    | [] => { g.wake (· == .lser) with lser := none }

/-- Ends fibres: they leave arrival sets, barriers and serial turns; the group ends with its last one. -/
def State.exitFibres (s : State) (gid : Nat) (lanes : List (Fin 32)) : State :=
  let s := { s with
    producers := s.producers.map fun (p : Producer) => if p.group = gid then lanes.foldl (fun p l => p.dropLane l) p else p
    kvops := s.kvops.map fun (r : KvReq) => if r.group = gid then lanes.foldl (fun r l => r.dropLane l) r else r }
  let s := s.updGroup gid fun g =>
    let turn := (g.batch lanes).any (·.turn)
    let g := { g with fibres := g.fibres.filter fun f => !lanes.contains f.lane }
    let g := if turn then g.nextTurn else g
    { g with ended := g.fibres.isEmpty }
  s.afterExit gid

/-- Sends an add of a die to the counter at a key (spec/13, R283). -/
def State.putAdd (s : State) (die key va ctx amount : Nat) (owner : Option Nat) (lines : List Nat) : State :=
  { s with
    adds := s.adds ++ [⟨s.nextId, key, va, ctx, amount, owner, lines, none, 0, false, die⟩]
    nextId := s.nextId + 1 }

/-- The add of a group's CADD or CADD.REL; one to a counter outside the module counts in OUTACK (spec/13, R285; spec/24, R417). -/
def State.groupAdd (s : State) (g : Group) (key va amount : Nat) (rel : Bool) : State :=
  let s := if isOutside key then s.updGroup g.id fun h => { h with outack := h.outack + 1 } else s
  { s with
    adds := s.adds ++ [⟨s.nextId, key, va, s.ctxOf g, amount, some g.id, [], none, 0, rel, dieOf g.core⟩]
    nextId := s.nextId + 1 }

/-- Sends an add to a counter (spec/13, R283, R285); one whose page is not mapped is lost, and a malformed entry is recorded (spec/10,
R225). -/
def State.sendAdd (s : State) (site ctx va amount : Nat) (owner : Option Nat) (lines : List Nat) : State :=
  match s.lookup site ctx va with
  | .leaf l => s.putAdd (siteDie site) (l.key va) va ctx amount owner lines
  | _ => s.noteRange ctx va 1

/-- FEXIT. The end of a task group adds 1 to its counter as a CADD.REL at DIE scope (spec/08, R191). -/
def execFexit (s : State) : Res :=
  .next (s.issue ⟨[], [], false, .own⟩ (withOverflow fun s g _ fs =>
    let last := g.fibres.length == fs.length
    let wait := g.task.isSome && last && !s.released g .die
    { outs := fs.map fun f => (f, if wait then .wait .release else .done {})
      effect := fun t =>
        let t := t.exitFibres g.id (fs.map (·.lane))
        let t := match g.task with
          | some k => if last then t.sendAdd g.core (t.ctxOf g) k.ctr 1 none [] else t
          | none => t
        t.reap g.id }))

/-! Reconvergence (spec/08, R176, R177; spec/09, R205). -/

/-- The first RECONV that remaining fibres reach after a split is the rejoin barrier of the sub-group; one executed in a handler
holds nothing outside it (spec/08, R176, R177). -/
def Group.noteRejoin (g : Group) (lanes : List (Fin 32)) (a : Word) : Group :=
  let ps := ((g.batch lanes).filter fun f => f.parked.isNone).flatMap (·.splits)
  { g with fibres := g.fibres.map fun f =>
      let f := match f.parked with
        | some p => if ps.contains p && f.rejoin.isNone then { f with rejoin := some a } else f
        | none => f
      { f with splits := f.splits.filter fun p => !ps.contains p } }

def execReconv (s : State) : Res :=
  .next (s.issue ⟨[], [], false, .own⟩ fun _ g c fs =>
    { outs := fs.map fun f => (f, .done { target := some c.unit, upd := fun f => { f with wait := some (.reconv c.addr c.next) } })
      effect := fun t => t.updGroup g.id fun h => h.noteRejoin (fs.map (·.lane)) c.addr })

/-! Yielding (spec/09, R206). -/

def execYield (s : State) : Res :=
  .next (s.issue ⟨[], [], false, .own⟩ fun _ g c fs =>
    { outs := fs.map fun f => (f, .done {})
      effect := fun t =>
        let t := t.updGroup g.id fun h => { h with yielded := c.lanes }
        t.setSlot { t.slotOf g.core g.slot with yielded := true } })

/-! Serial sections (spec/09, R207). -/

/-- A word that traps ILLEGAL at decode behind a GUARD prefix. -/
def State.unguarded (s : State) (run : State → State) : Res :=
  match s.cur with
  | none => .next s
  | some c => if c.guard.isSome then .next (s.illegalUnit (d64 c.word) c.unit) else .next (run s)

def execLser (s : State) : Res :=
  s.unguarded fun s => s.issue ⟨[], [], false, .own⟩ fun _ g c fs =>
    let fresh := fs.filter fun f => !f.turn
    let busy := g.lser.isSome
    let first := (fresh.map (·.lane)).head?
    { outs := fs.map fun f =>
        (f, if f.turn then .fail .illegal (d64 c.word)
          else if busy then .wait .lser
          else if first = some f.lane then .done { upd := fun f => { f with turn := true } }
          else .done { target := some c.unit, upd := fun f => { f with wait := some .lser } })
      effect := fun t => if fresh.isEmpty then t else
        t.updGroup g.id fun h => { h with lser := some ⟨(fresh.map (·.lane)).drop 1, [], c.next⟩ } }

def execLsend (s : State) : Res :=
  s.unguarded fun s => s.issue ⟨[], [], false, .own⟩ fun _ g c fs =>
    { outs := fs.map fun f =>
        (f, if f.turn then .done { upd := fun f => { f with turn := false, wait := some .lser } } else .fail .illegal (d64 c.word))
      effect := fun t => t.updGroup g.id fun h =>
        let ended := (fs.filter (·.turn)).map (·.lane)
        if ended.isEmpty then h
        else ({ h with lser := h.lser.map fun (x : Section) => { x with done := x.done ++ ended } }).nextTurn }

/-! Fence and window (spec/09, R211, R212). -/

/-- FENCE: a release and an acquire together at its scope. -/
def execFence (sc : Scope) (s : State) : Res :=
  .next (s.issue ⟨[], [], false, .own⟩ (withOverflow fun s g _ fs =>
    { outs := fs.map fun f => (f, if s.released g sc && !s.acquiring g then .done {} else .wait .release)
      effect := fun t => t.acquire g.core (t.ctxOf g) sc }))

/-- WIN n, or REGISTER_RANGE when n * 16 lies beyond the allocation. -/
def execWin (n : Fin 16) (s : State) : Res :=
  .next (s.issue ⟨[], [], false, .own⟩ (eachLane fun g _ =>
    if g.regsN ≤ n.val * 16 then .fail .registerRange (d64 n.val)
    else .done { upd := fun f => { f with status := mergeBits f.status (w32 (n.val * 2 ^ 20)) 0x00F00000 } }))

/-- A walk of the context that has read a field as SEALED still reads it. -/
def State.fieldRead (s : State) (ctx n : Nat) : Bool :=
  s.producers.any fun p => ((s.group? p.group).map fun g => s.ctxOf g == ctx).getD false && match p.work with
    | .hist _ _ _ ls => ls.any fun l => l.reading.contains n
    | _ => false

end Sys2Proof.Machine
end

