-- ==== Sys2Proof/Machine/Place.lean ====
section
/-! DEFINITION. Launching grids, dividing them over dies, placing sheaves and starting task groups (spec/08, R180 to R191;
spec/07, R157; spec/10, R215). -/
namespace Sys2Proof.Machine

/-! Capabilities that the hardware makes. -/

/-- A tagged capability of the current generation. -/
def State.makeCap (s : State) (ctx space base len perms : Nat) : QWord :=
  BitVec.ofNat 128 (base + len * 2 ^ 56 + perms * 2 ^ 96 + space * 2 ^ 112 + s.curGen ctx space * 2 ^ 116)

/-- A quad and its tag at a virtual address; a page that is not mapped gives an untagged zero. -/
def State.quadAt (s : State) (ctx va : Nat) : QWord × Bool :=
  match s.translate (dieSite 0) ctx va .any with
  | .ok k => (BitVec.ofNat 128 (s.numAt k 16), s.tagAt k && !isOutside k)
  | _ => (0, false)

/-! Grids (spec/08, R180, R181). -/

def Grid.total (g : Grid) : Nat := g.x * g.y * g.z
/-- Blocks of a sheaf, and the number of sheaves. -/
def Grid.sheafSize (k : Kernel) : Nat := max 1 k.sheaf
def Grid.sheafCount (g : Grid) (k : Kernel) : Nat := (g.total + Grid.sheafSize k - 1) / Grid.sheafSize k

/-- Clusters of a context by die, in order of die, that are not being pre-empted. -/
def State.diesOf (s : State) (ctx : Nat) : List (Nat × Nat) :=
  ((List.range 16).map fun d => (d, (s.held.filter fun h => h.ctx == ctx && clusterDie h.cluster == d).length)).filter fun x => x.2 != 0

/-- Shares of `n` sheaves: in proportion to the clusters of each die, each sheaf that remains to the next die in order
(spec/08, R185). -/
def sharesOf (n : Nat) (dies : List (Nat × Nat)) : List (Nat × Nat) :=
  let c := (dies.map (·.2)).foldl (· + ·) 0
  let base := dies.map fun d => (d.1, n * d.2 / c)
  let left := n - (base.map (·.2)).foldl (· + ·) 0
  base.zipIdx.map fun (d, i) => (d.1, d.2 + (if i < left then 1 else 0))

/-- The ranges of one waiting entry over the dies. -/
def rangesOf (p : Pending) : Nat → Nat → List (Nat × Nat) → List Pending
  | _, _, [] => []
  | first, ord, (d, n) :: r =>
    let rest := rangesOf p (first + n) ord r
    if n = 0 then rest else { p with first := first, count := n, die := some d, order := ord } :: rest

/-- Divides entries that no die has taken yet among the dies of their context; those of a context that holds no cluster are divided
when it gets its first (notes/assumptions/109). -/
def State.dispatch (s : State) : State :=
  { s with pending := s.pending.flatMap fun p =>
    match p.die, s.grid? p.grid with
    | none, some g =>
      let dies := s.diesOf g.ctx
      if dies.isEmpty || p.saved || p.ahead then [p] else rangesOf p p.first p.order (sharesOf p.count dies)
    | _, _ => [p] }

/-- A launch within the limits of R180: the extents of the grid, the groups of a block, the blocks of a sheaf. -/
def launchOk (x y z : Nat) (k : Kernel) : Bool :=
  decide (1 ≤ x) && decide (x < 2 ^ 31) && decide (1 ≤ y) && decide (y < 65536) && decide (1 ≤ z) && decide (z < 65536) &&
  decide (1 ≤ k.stages.length) && decide (k.stages.length ≤ 32) && decide (1 ≤ k.sheaf) && decide (k.sheaf ≤ 32)

/-- Launches a grid; one that breaks a limit, or names no kernel of the context, is refused and logged. -/
def State.launchGrid (s : State) (ctx kernel argtab x y z prio : Nat) (queue : Option Retire) (ring : Nat) (gateAcq : Option Nat) : State :=
  match s.ctx? ctx, s.kernel? ctx kernel with
  | some c, some k =>
    if !launchOk x y z k then { s with errlog := s.errlog ++ [.launch ctx kernel] } else
    let g : Grid := ⟨s.nextId, ctx, c.gridSeq, kernel, x, y, z, argtab, prio, 0, none, queue, ring, gateAcq⟩
    let s := s.updCtx ctx fun c => { c with gridSeq := c.gridSeq + 1 }
    State.dispatch { s with
      grids := s.grids ++ [g]
      pending := s.pending ++ [⟨g.id, 0, g.sheafCount k, none, s.nextId + 1, false, 0, [], false, 0⟩]
      nextId := s.nextId + 2 }
  | _, _ => { s with errlog := s.errlog ++ [.launch ctx kernel] }

/-! Room on cores (spec/08, R184; spec/10, R215). -/

/-- What one block needs of its core. -/
structure Room where
  groups : Nat
  blocks : Nat
  vbytes : Nat
  tiles : Nat
  scratch : Nat
  /-- Quadrants whose tokens it holds, as a mask: those of saved groups (spec/21, R388). -/
  quads : Nat
  deriving DecidableEq, Repr

def round512 (n : Nat) : Nat := (n + 511) / 512 * 512

def Kernel.room (k : Kernel) : Room :=
  ⟨k.stages.length, 1, k.stages.length * 128 * k.regs, k.stages.length * k.tiles, round512 k.scratch, 0⟩

/-- What stands on a core, and the scratchpad ranges in use: a block keeps its resources until it ends (spec/08, R192). -/
structure CoreUse where
  core : Nat
  room : Room
  ranges : List (Nat × Nat)
  deriving DecidableEq, Repr

def State.coreUse (s : State) (core : Nat) : CoreUse :=
  let tasks := (s.groups.filter fun g => g.core == core && g.task.isSome).map fun g => 128 * g.regsN
  let bs := s.blocks.filter fun b => b.core == core
  let rooms := bs.filterMap fun b => (s.kernel? b.ctx b.kernel).map Kernel.room
  let sum := fun (f : Room → Nat) => (rooms.map f).foldl (· + ·) 0
  ⟨core, ⟨sum Room.groups + tasks.length, bs.length, sum Room.vbytes + tasks.foldl (· + ·) 0, sum Room.tiles, 0,
      ((List.finRange 4).map fun q => if ((s.core core).quad q).holder.isSome then 2 ^ q.val else 0).foldl (· + ·) 0⟩,
    (bs.filter fun b => b.scratchLen != 0).map fun b => (b.scratchBase, round512 b.scratchLen)⟩

/-- The lowest base for a scratchpad range of `n` bytes. -/
def CoreUse.base (u : CoreUse) (n : Nat) : Option Nat :=
  if n = 0 then some 0 else
  let free := fun (b : Nat) => decide (b + n ≤ 2 ^ 19) && u.ranges.all fun r => decide (b + n ≤ r.1) || decide (r.1 + r.2 ≤ b)
  ((0 :: u.ranges.map fun r => r.1 + r.2).filter free).min?

/-- A block is added to a core, when everything it needs fits. -/
def CoreUse.add (u : CoreUse) (r : Room) : Option (Nat × CoreUse) :=
  if u.room.groups + r.groups ≤ 64 ∧ u.room.blocks + r.blocks ≤ 16 ∧ u.room.vbytes + r.vbytes ≤ 2 ^ 18 ∧ u.room.tiles + r.tiles ≤ 64 ∧
      Nat.land u.room.quads r.quads = 0 then
    (u.base r.scratch).map fun b =>
      (b, ⟨u.core, ⟨u.room.groups + r.groups, u.room.blocks + r.blocks, u.room.vbytes + r.vbytes, u.room.tiles + r.tiles, 0, Nat.lor u.room.quads r.quads⟩,
        if r.scratch = 0 then u.ranges else (b, r.scratch) :: u.ranges⟩)
  else none

/-- Cores of a cluster. -/
def coresOf (cluster : Nat) : List Nat := (List.range 8).map fun i => 8 * cluster + i

/-- Clusters that a context holds on a die and that take blocks. -/
def State.clustersOn (s : State) (ctx die : Nat) : List Nat :=
  (s.held.filter fun h => h.ctx == ctx && clusterDie h.cluster == die && !h.preempt).map (·.cluster)

/-- Sublists of at most `n` elements. -/
def sublistsTo : Nat → List Nat → List (List Nat)
  | _, [] => [[]]
  | 0, _ => [[]]
  | n + 1, x :: r => sublistsTo (n + 1) r ++ (sublistsTo n r).map (x :: ·)

/-- Core and base for each of some blocks; `pick` chooses among the cores that fit. -/
def assignCores (pick : Nat → Nat) : List Room → List CoreUse → Option (List (Nat × Nat))
  | [], _ => some []
  | r :: rs, us =>
    let fit := us.filter fun u => (u.add r).isSome
    match fit[pick rs.length % fit.length]? with
    | none => none
    | some u =>
      match u.add r with
      | none => none
      | some (b, v) =>
        (assignCores pick rs (us.map fun x => if x.core = u.core then v else x)).map ((u.core, b) :: ·)

/-- A place for blocks on at most 4 clusters of a context on a die: the choice among clusters and cores is free (spec/08, R184,
R186). -/
def State.findPlace (s : State) (ctx die : Nat) (needs : List Room) : Option (List (Nat × Nat)) :=
  let uses := fun (cls : List Nat) => (cls.flatMap coresOf).map s.coreUse
  let sets := (sublistsTo 4 (s.clustersOn ctx die)).filter fun cls => (assignCores (fun _ => 0) needs (uses cls)).isSome
  match sets[Config.freeNat (s.tick * 2 ^ 64 + 2 ^ 63) % sets.length]? with
  | none => none
  | some cls =>
    match assignCores (fun n => Config.freeNat (s.tick * 2 ^ 64 + n)) needs (uses cls) with
    | some l => some l
    | none => assignCores (fun _ => 0) needs (uses cls)

/-! Starting groups. -/

/-- The issue slot with the fewest resident groups (spec/08, R184). -/
def State.freeSlot (s : State) (core : Nat) : Nat :=
  let n := fun (i : Nat) => (s.groups.filter fun g => g.core == core && g.slot == i).length
  [1, 2, 3].foldl (fun b i => if n i < n b then i else b) 0

/-- Whether a slot's active set has room (spec/08, R187). -/
def State.activeRoom (s : State) (core slot : Nat) : Bool :=
  decide ((s.groups.filter fun g => g.core == core && g.slot == slot && g.active && !g.ended).length < 8)

/-- A new group of a block on a core, in the state of R46. -/
def State.newGroup (s : State) (id block index core stage regsN tilesN lanes : Nat) (task : Option TaskInfo) (entry : Word)
    (quads : List (QWord × Bool)) : Group :=
  let slot := s.freeSlot core
  { id := id, block := block, index := index, core := core, slot := slot, task := task, stage := stage, regsN := regsN
    fibres := ((List.finRange 32).take lanes).map fun l => Fibre.start l entry regsN stage
    sregs := quads.flatMap fun q => (quadWords q.1).map RegCell.of
    stags := quads.map (·.2)
    tilesN := tilesN, tcs := List.replicate tilesN 0, tiles := List.replicate tilesN ⟨[], false⟩
    rasthresh := 64, vistile := 0, visorg := 0, vpsize := 0, kvmodel := 0, kvmodelh := 0, kvver := 0
    ovf := none, outack := 0, lser := none, mloop := none, fence := 0, lastLanes := [], lastRun := 0, yielded := []
    active := s.activeRoom core slot, since := s.clk, lastIssue := s.clk, nextAset := 1, ended := false }

/-- The launch capabilities of a block: arguments 0 to 4, the argument table, SCRATCH and SHEAF (spec/07, Table 7.4; for a queue
firing spec/13, R296). -/
def State.launchQuads (s : State) (g : Grid) (k : Kernel) (count : Nat) : List (QWord × Bool) :=
  let arg := fun (i : Nat) => s.quadAt g.ctx (g.argtab + 16 * i)
  let first := match g.queue with
    | some r => (s.makeCap g.ctx 0 g.ring (64 * r.count) 3, true)
    | none => arg 0
  [first, arg 1, arg 2, arg 3, arg 4, (s.makeCap g.ctx 5 g.argtab 256 0x5, true),
    (s.makeCap g.ctx 1 0 k.scratch 0x29F, true), (s.makeCap g.ctx 2 0 (count * 2 ^ 19) 0x21F, true)]

/-- Registers a group in its slot. -/
def State.enterGroup (s : State) (g : Group) : State := { s with groups := s.groups ++ [g] }

/-- The groups of a new block, in launch order. -/
def State.startGroups (s : State) (bid core : Nat) (k : Kernel) (lanes : Nat) (quads : List (QWord × Bool)) : List (Nat × Nat) → State
  | [] => s
  | (stage, i) :: r =>
    let g := s.newGroup s.nextId bid i core stage k.regs k.tiles lanes none k.entry quads
    ({ s with nextId := s.nextId + 1 }.enterGroup g).startGroups bid core k lanes quads r

/-- A barrier at launch (spec/08, R193). -/
def Barrier.fresh (n : Nat) : Barrier := ⟨w32 (2 ^ n - 1), 0, 0, none⟩

/-- One block of a sheaf starts on a core. It acquires: behind a gate, fired from a queue, and for what the host has written before its
LAUNCH record (spec/13, R292, R297; spec/24, R420). -/
def State.startBlock (s : State) (g : Grid) (k : Kernel) (sheaf : Nat) (count rank linear core base restarts resumes : Nat) : State :=
  let x := match g.queue with | some r => r.first | none => linear % g.x
  let quads := s.launchQuads g k count
  let b : Block :=
    { id := s.nextId, ctx := g.ctx, sheaf := sheaf, rank := rank, core := core
      x := x, y := linear / g.x % g.y, z := linear / g.x / g.y
      kernel := g.kernel, scratchBase := base, scratchLen := k.scratch, priority := g.priority
      bars := List.replicate 16 (.fresh k.stages.length), phase := 0, issues := 0, sidefx := false
      resumes := resumes, restarts := restarts, mode := .running, baleWanted := false, baleDone := false, baleFlags := 0
      records := g.queue, reserved := [], copyLog := [], leave := .stays, ended := false, caps := (quads.drop 4).take 2 }
  let s := { s with blocks := s.blocks ++ [b], nextId := s.nextId + 1 }
  let lanes := match g.queue with | some r => r.count | none => 32
  let s := s.startGroups b.id core k lanes quads k.stages.zipIdx
  s.acquire core g.ctx .module

/-- The blocks of sheaf number `n` of a grid, at their places. -/
def State.startSheaf (s : State) (g : Grid) (k : Kernel) (die n restarts : Nat) (resumes : List Nat) (places : List (Nat × Nat)) : State :=
  let sid := s.nextId
  let count := places.length
  let first := n * Grid.sheafSize k
  let s := { s with nextId := sid + 1, sheaves := s.sheaves ++ [⟨sid, g.id, die, first, count, List.replicate 8 (.fresh count), []⟩] }
  places.zipIdx.foldl (fun s (p, i) => s.startBlock g k sid count i (first + i) p.1 p.2 restarts (resumes.getD i 0)) s

/-! Placement (spec/08, R186; spec/21, R388). -/

/-- Blocks of the next sheaf of an entry. -/
def Grid.sheafBlocks (g : Grid) (k : Kernel) (n : Nat) : Nat := min (Grid.sheafSize k) (g.total - n * Grid.sheafSize k)

/-- Saved blocks of a sheaf, in order of rank. -/
def State.savedOf (s : State) (ctx sheaf : Nat) : List Saved :=
  (((s.ctx? ctx).map (·.saved)).getD []).filter fun x => x.block.sheaf == sheaf

/-- What a saved block needs: its own room, that of its task groups, and the tokens of its image. -/
def Saved.room (x : Saved) (k : Kernel) : Room :=
  let tasks := (x.groups.filter fun g => g.task.isSome).map fun g => 128 * g.regsN
  let r := k.room
  ⟨r.groups + tasks.length, 1, r.vbytes + tasks.foldl (· + ·) 0, r.tiles, r.scratch, ((x.quads.filter fun q => decide (q.1 < 4)).map fun q => 2 ^ q.1).foldl (· + ·) 0⟩

/-- A pre-emption of a context is under way: until it ends no block of its set is placed (spec/21, R381). -/
def State.preempting (s : State) (ctx : Nat) : Bool :=
  s.held.any (fun h => h.ctx == ctx && h.preempt && !h.assigned) || s.blocks.any (fun b => b.ctx == ctx && b.leave != .stays)

/-- The context of an entry and what the blocks of its next sheaf need. -/
def State.needsOf (s : State) (p : Pending) : Option (Nat × List Room) :=
  (s.grid? p.grid).bind fun g => (s.kernel? g.ctx g.kernel).map fun k =>
    (g.ctx, if p.saved then (s.savedOf g.ctx p.sheaf).map (·.room k) else List.replicate (g.sheafBlocks k p.first) k.room)

/-- A place for the next sheaf of an entry on a die. -/
def State.entryPlace (s : State) (die : Nat) (p : Pending) : Option (List (Nat × Nat)) :=
  match s.needsOf p with
  | none => none
  | some (ctx, needs) =>
      if (p.die.isNone || p.die = some die) && decide (p.saved ∨ p.ahead ∨ p.die.isSome) &&
          !((p.saved || p.ahead) && s.preempting ctx) then s.findPlace ctx die needs else none

/-- Two entries compete within one context and level. -/
def State.sameLevel (s : State) (p q : Pending) : Bool :=
  match s.grid? p.grid, s.grid? q.grid with
  | some a, some b => a.ctx == b.ctx && a.priority == b.priority
  | _, _ => false

/-- `p` stands before `q`: saved and flushed sheaves ahead of unplaced ones, else by arrival. -/
def Pending.before (p q : Pending) : Bool :=
  let f := fun (x : Pending) => x.saved || x.ahead
  if f p == f q then decide (p.order < q.order) || (p.order == q.order && decide (p.first < q.first)) else f p

/-- Entries that may be taken next on a die: none of their context and level stands before them. -/
def State.heads (s : State) (die : Nat) : List Pending :=
  let on := s.pending.filter fun p => p.die.isNone || p.die = some die
  on.filter fun p => !(on.any fun q => q != p && s.sameLevel q p && q.before p)

/-- The level of an entry. -/
def State.levelOf (s : State) (p : Pending) : Nat := ((s.grid? p.grid).map (·.priority)).getD 3

/-- The entry that a die places next: the highest level, then the order of arrival, among those that fit. -/
def State.nextSheaf (s : State) (die : Nat) : Option (Pending × List (Nat × Nat)) :=
  let fit := (s.heads die).filterMap fun p => (s.entryPlace die p).map fun x => (p, x)
  fit.foldl (fun b x => match b with
    | none => some x
    | some y => if s.levelOf x.1 < s.levelOf y.1 || (s.levelOf x.1 == s.levelOf y.1 && x.1.before y.1) then some x else some y) none

/-- The entry after its next sheaf has been taken. -/
def State.takeSheaf (s : State) (p : Pending) : State :=
  { s with pending := s.pending.flatMap fun q =>
    if q != p then [q] else if p.saved || p.count ≤ 1 then [] else [{ p with first := p.first + 1, count := p.count - 1 }] }

/-! Tasks (spec/08, R190, R191). -/

/-- A block whose groups may run. -/
def Block.runs (b : Block) : Bool :=
  (match b.mode with
  | .running => true
  | .stepping _ _ => true
  | _ => false) &&
  match b.leave with
  | .stays => true
  | .drains _ => true
  | _ => false

/-- The block and the kernel of a record, when it can start. -/
def State.taskBlock (s : State) (r : TaskRec) : Option (Block × Kernel) :=
  (s.block? r.block).bind fun b => if b.runs then (s.kernel? b.ctx b.kernel).map fun k => (b, k) else none

/-- Where a core finds its next record: its own deque, a resident sheaf's overflow queue, the tail of another deque of its
cluster. -/
inductive TaskSource where
  | own
  | overflow (sheaf : Nat)
  | steal (core : Nat)
  deriving DecidableEq, Repr

def State.nextTask (s : State) (core : Nat) : Option (TaskSource × TaskRec) :=
  match (s.core core).deque with
  | r :: _ => some (.own, r)
  | [] =>
    let res := s.sheaves.filter fun sh => s.blocks.any fun b => b.core == core && b.sheaf == sh.id
    match res.findSome? fun sh => sh.overflow.head?.map fun r => (TaskSource.overflow sh.id, r) with
    | some x => some x
    | none =>
      ((coresOf (clusterOf core)).filter (· != core)).findSome? fun c => (s.core c).deque.getLast?.map fun r => (TaskSource.steal c, r)

/-- Removes the record from its source. -/
def State.dropTask (s : State) (core : Nat) : TaskSource → State
  | .own => s.updCore core fun c => { c with deque := c.deque.drop 1 }
  | .overflow sh => s.updSheaf sh fun x => { x with overflow := x.overflow.drop 1 }
  | .steal k => s.updCore k fun c => { c with deque := c.deque.dropLast }

/-- The record that a core can take: there is room for one group. A core looks at no other record than its next; among the overflow
queues of several sheaves the one placed first comes first (notes/assumptions/105). -/
def State.taskReady (s : State) (core : Nat) : Option (TaskSource × TaskRec × Block × Kernel) :=
  if s.held.any (fun h => h.cluster == clusterOf core) then
    (s.nextTask core).bind fun (src, r) => (s.taskBlock r).bind fun (b, k) =>
      if ((s.coreUse core).add ⟨1, 0, 128 * k.regs, 0, 0, 0⟩).isSome then some (src, r, b, k) else none
  else none

/-- A core wants its next record in this clk: which do is free. -/
def State.wantsTask (s : State) (core : Nat) : Bool := (s.taskReady core).isSome && Config.wants s.clk core

/-- A core takes a record that it wants: for one in a deque the owner goes before thieves, and a thief before those of a higher number
(spec/08, R190). -/
def State.mayTake (s : State) (core : Nat) : Bool :=
  s.wantsTask core && match s.nextTask core with
  | some (.steal k, _) =>
    !((s.core k).deque.length == 1 && s.wantsTask k) &&
      !((coresOf (clusterOf core)).any fun c => decide (c < core) && s.wantsTask c && (s.nextTask c).map (·.1) == some (.steal k))
  | _ => true

/-- The scalar registers of a task group (spec/08, R191). -/
def State.taskQuads (s : State) (r : TaskRec) (b : Block) : List (QWord × Bool) :=
  let arg : QWord := BitVec.ofNat 128 ((r.args.take 4).zipIdx.map (fun x => x.1.toNat * 2 ^ (32 * x.2))).sum
  [(arg, false), (0, false), (0, false), (0, false), b.caps.getD 0 (0, false), b.caps.getD 1 (0, false),
    (s.makeCap b.ctx 1 0 0 0x29F, true), (0, false)]

/-- TASK_TAKE: the start of a task group acquires at DIE scope (spec/08, R189). -/
def execTaskTake (core : Nat) (s : State) : Res :=
  match s.taskReady core with
  | none => .next s
  | some (src, r, b, k) =>
    let s := s.dropTask core src
    let g := s.newGroup s.nextId b.id 0 core 1 k.regs 0 r.lanes (some ⟨r.ctr⟩) r.entry (s.taskQuads r b)
    .next (({ s with nextId := s.nextId + 1 }.enterGroup g).acquire core b.ctx .die)

end Sys2Proof.Machine
end

