-- ==== Sys2Proof/Machine/Number.lean ====
section
/-! DEFINITION. Numbers: the IEEE, narrow, block and rational formats, their exact values, and the roundings round_fmt,
round_narrow and round_q (spec/05). -/
namespace Sys2Proof.Machine

/-- The exact value that a code stands for: NaN or indeterminate, an infinity, or a signed fraction n/q with q > 0. -/
inductive Num where
  | nan (signalling : Bool)
  | inf (neg : Bool)
  | fin (neg : Bool) (n q : Nat)
  deriving DecidableEq, Repr

def Num.isNan : Num → Bool
  | .nan _ => true
  | _ => false
def Num.isSnan : Num → Bool
  | .nan b => b
  | _ => false
def Num.isInf : Num → Bool
  | .inf _ => true
  | _ => false
def Num.isZero : Num → Bool
  | .fin _ n _ => n == 0
  | _ => false
def Num.neg : Num → Bool
  | .nan _ => false
  | .inf s => s
  | .fin s _ _ => s
def Num.withSign (s : Bool) : Num → Num
  | .nan b => .nan b
  | .inf _ => .inf s
  | .fin _ n q => .fin s n q
def Num.negate (x : Num) : Num := x.withSign (!x.neg)

/-- A signed numerator. -/
def sgn (neg : Bool) (n : Nat) : Int := if neg then -(n : Int) else n
/-- A fraction of an integer; the sign of zero is given. -/
def Num.ofInt (zeroNeg : Bool) (i : Int) (q : Nat) : Num := .fin (if i = 0 then zeroNeg else decide (i < 0)) i.natAbs q

/-! Rounding. -/

/-- Whether a magnitude k + r/q is rounded away from zero (spec/02, Table 2.1). -/
def roundsUp (rnd : Rnd) (neg : Bool) (k r q : Nat) : Bool :=
  r != 0 && match rnd with
  | .rne => decide (q < 2 * r) || (2 * r == q && k % 2 == 1)
  | .rna => decide (q ≤ 2 * r)
  | .rtz => false
  | .rdn => neg
  | .rup => !neg

/-- n/q rounded to an integer magnitude, and whether it was inexact. -/
def roundNat (rnd : Rnd) (neg : Bool) (n q : Nat) : Nat × Bool :=
  let k := n / q
  let r := n % q
  (k + nb (roundsUp rnd neg k r q), r != 0)

/-- n/q divided by 2^e, as a fraction. -/
def scaleFrac (n q : Nat) (e : Int) : Nat × Nat :=
  if 0 ≤ e then (n, q * 2 ^ e.toNat) else (n * 2 ^ (-e).toNat, q)

/-- The floor of the binary logarithm of n/q, for n and q above 0. -/
def flog2 (n q : Nat) : Int :=
  let e : Int := (Nat.log2 n : Int) - (Nat.log2 q : Int)
  let (a, b) := scaleFrac n q e
  if a < b then e - 1 else e

/-- An IEEE layout: exponent width, fraction width and bias (spec/05, Table 5.1). -/
structure Lay where
  eb : Nat
  mb : Nat
  bias : Nat
  deriving DecidableEq, Repr

def Lay.f32 : Lay := ⟨8, 23, 127⟩
def Lay.f64 : Lay := ⟨11, 52, 1023⟩
def Lay.f16 : Lay := ⟨5, 10, 15⟩
def Lay.bf16 : Lay := ⟨8, 7, 127⟩
def layOf : Fmt → Lay
  | .f32 => .f32
  | .f64 => .f64
  | .f16 => .f16
  | .bf16 => .bf16

/-- The code of +∞. -/
def Lay.infCode (L : Lay) : Nat := (2 ^ L.eb - 1) * 2 ^ L.mb
/-- The sign bit. -/
def Lay.signBit (L : Lay) : Nat := 2 ^ (L.eb + L.mb)
/-- The canonical quiet NaN. -/
def Lay.nanCode (L : Lay) : Nat := L.infCode + 2 ^ (L.mb - 1)

/-- A binary fraction (k * 2^e). -/
def pow2Num (neg : Bool) (k : Nat) (e : Int) : Num :=
  if 0 ≤ e then .fin neg (k * 2 ^ e.toNat) 1 else .fin neg k (2 ^ (-e).toNat)

/-- The value of a code (spec/05, R108). -/
def Lay.read (L : Lay) (c : Nat) : Num :=
  let s := c / L.signBit % 2 == 1
  let e := c / 2 ^ L.mb % 2 ^ L.eb
  let f := c % 2 ^ L.mb
  if e = 2 ^ L.eb - 1 then (if f = 0 then .inf s else .nan (f < 2 ^ (L.mb - 1)))
  else if e = 0 then pow2Num s f (1 - (L.bias : Int) - L.mb)
  else pow2Num s (2 ^ L.mb + f) ((e : Int) - L.bias - L.mb)

/-- A magnitude n/q above 0 as a code with exponent range `eb` bits, before any overflow test, with IX and tininess
(spec/05, R110: tininess is detected after rounding). -/
def Lay.roundMag (L : Lay) (rnd : Rnd) (neg : Bool) (n q : Nat) : Nat × Bool × Bool :=
  let emin : Int := 1 - (L.bias : Int)
  let e := flog2 n q
  let top := max e emin
  let (a, b) := scaleFrac n q (top - L.mb)
  let (k, ix) := roundNat rnd neg a b
  let (a', b') := scaleFrac n q (e - L.mb)
  let tiny := decide (e < emin) && (decide (e < emin - 1) || (roundNat rnd neg a' b').1 != 2 ^ (L.mb + 1))
  (((top - emin).toNat) * 2 ^ L.mb + k, ix, tiny)

/-- Whether overflow gives an infinity, and not the largest finite value (spec/05, R110). -/
def overflowsToInf (rnd : Rnd) (neg : Bool) : Bool :=
  match rnd with
  | .rne => true
  | .rna => true
  | .rtz => false
  | .rdn => neg
  | .rup => !neg

/-- round_fmt (spec/05, R110): the code and the flags of rounding. -/
def Lay.round (L : Lay) (rnd : Rnd) : Num → Nat × BitVec 6
  | .nan _ => (L.nanCode, 0)
  | .inf s => (L.infCode + nb s * L.signBit, 0)
  | .fin s n q =>
    let sb := nb s * L.signBit
    if n = 0 then (sb, 0) else
    let (m, ix, tiny) := L.roundMag rnd s n q
    if L.infCode ≤ m then
      ((if overflowsToInf rnd s then L.infCode else L.infCode - 1) + sb, flagOF ||| flagIX)
    else (m + sb, (if ix then flagIX else 0) ||| (if ix && tiny then flagUF else 0))

/-! Arithmetic on exact values. The sign of an exact zero follows IEEE 754-2019: equal signs keep it, else it is minus under
RDN only (spec/05, R110). -/

def zeroSign (rnd : Rnd) (a b : Bool) : Bool := if a == b then a else rnd == .rdn

/-- Sum; `none` is the invalid ∞ − ∞. -/
def Num.add? (rnd : Rnd) : Num → Num → Option Num
  | .nan _, _ => some (.nan false)
  | _, .nan _ => some (.nan false)
  | .inf a, .inf b => if a == b then some (.inf a) else none
  | .inf a, .fin _ _ _ => some (.inf a)
  | .fin _ _ _, .inf b => some (.inf b)
  | .fin a n q, .fin b m r => some (.ofInt (zeroSign rnd a b) (sgn a (n * r) + sgn b (m * q)) (q * r))

/-- Product; `none` is the invalid 0 × ∞. -/
def Num.mul? : Num → Num → Option Num
  | .nan _, _ => some (.nan false)
  | _, .nan _ => some (.nan false)
  | .inf a, .inf b => some (.inf (a != b))
  | .inf a, .fin b m _ => if m = 0 then none else some (.inf (a != b))
  | .fin a n _, .inf b => if n = 0 then none else some (.inf (a != b))
  | .fin a n q, .fin b m r => some (.fin (a != b) (n * m) (q * r))

/-- What a division finds. -/
inductive Quot where
  | ok (x : Num)
  | byZero (x : Num)
  | invalid
  deriving DecidableEq, Repr

/-- Quotient of operands that are not NaN; 0 ÷ 0 and ∞ ÷ ∞ are invalid. -/
def Num.div (x y : Num) : Quot :=
  match x, y with
  | .nan _, _ => .ok (.nan false)
  | _, .nan _ => .ok (.nan false)
  | .inf _, .inf _ => .invalid
  | .inf a, .fin b m _ => if m = 0 then .byZero (.inf (a != b)) else .ok (.inf (a != b))
  | .fin a _ _, .inf b => .ok (.fin (a != b) 0 1)
  | .fin a n q, .fin b m r =>
    if m = 0 then (if n = 0 then .invalid else .byZero (.inf (a != b)))
    else .ok (.fin (a != b) (n * r) (q * m))

/-- Order of two values that are not NaN; −0 equals +0. -/
def Num.lt : Num → Num → Bool
  | .inf a, .inf b => a && !b
  | .inf a, .fin _ _ _ => a
  | .fin _ _ _, .inf b => !b
  | .fin a n q, .fin b m r => decide (sgn a (n * r) < sgn b (m * q))
  | _, _ => false
def Num.eqv : Num → Num → Bool
  | .inf a, .inf b => a == b
  | .fin a n q, .fin b m r => decide (sgn a (n * r) = sgn b (m * q))
  | _, _ => false

/-- Floating conditions (spec/03, Table 3.6). -/
def condNum (c : Nat) (a b : Num) : Bool :=
  let un := a.isNan || b.isNan
  match c with
  | 0 => !un && a.eqv b
  | 1 => un || !a.eqv b
  | 2 => !un && a.lt b
  | 3 => !un && !a.lt b
  | 4 => !un && !b.lt a
  | 5 => !un && b.lt a
  | 6 => un
  | 7 => !un
  | _ => false

/-- The lesser operand, −0 below +0; when exactly one is NaN the other (spec/06, R132, R139). -/
def Num.minOf (a b : Num) : Num :=
  if a.isNan then (if b.isNan then .nan false else b) else if b.isNan then a
  else if a.lt b then a else if b.lt a then b else if a.neg then a else b
def Num.maxOf (a b : Num) : Num :=
  if a.isNan then (if b.isNan then .nan false else b) else if b.isNan then a
  else if a.lt b then b else if b.lt a then a else if a.neg then b else a

/-- The integer square root by bits, from bit `i - 1` down. -/
def isqrtBits (n : Nat) : Nat → Nat → Nat
  | 0, r => r
  | i + 1, r => if (r + 2 ^ i) * (r + 2 ^ i) ≤ n then isqrtBits n i (r + 2 ^ i) else isqrtBits n i r

/-- A value between two representable halves that rounds as the square root of n/q at up to `p` bits does. -/
def sqrtFrac (p n q : Nat) : Nat × Nat :=
  let e := flog2 n q / 2
  let t : Int := (p : Int) + 2 - e
  let (a, b) := scaleFrac n q (-2 * t)
  let k := isqrtBits (a / b) (p + 4) 0
  let x := if k * k * b = a then 2 * k else 2 * k + 1
  scaleFrac x 1 (t + 1)

/-! Narrow formats (spec/05, R111 to R113). -/

/-- Layout of a floating narrow format: exponent bits, mantissa bits, bias, and the code of its largest finite value. -/
structure NLay where
  lay : Lay
  largest : Nat
  deriving DecidableEq, Repr

def NLay.e4m3 : NLay := ⟨⟨4, 3, 7⟩, 0x7E⟩
def NLay.e5m2 : NLay := ⟨⟨5, 2, 15⟩, 0x7B⟩
def NLay.e3m2 : NLay := ⟨⟨3, 2, 3⟩, 0x1F⟩
def NLay.e2m3 : NLay := ⟨⟨2, 3, 1⟩, 0x1F⟩
def NLay.e2m1 : NLay := ⟨⟨2, 1, 1⟩, 0x7⟩

def nlayOf : Narrow → NLay
  | .e4m3 => .e4m3
  | .e5m2 => .e5m2
  | .e3m2 => .e3m2
  | .e2m3 => .e2m3
  | .e2m1 => .e2m1
  | .s8 => .e2m1

/-- Bits of a narrow code. -/
def narrowBits : Narrow → Nat
  | .e3m2 => 6
  | .e2m3 => 6
  | .e2m1 => 4
  | _ => 8

/-- The value of a narrow code; bits above its width are ignored (spec/05, R111; spec/06, R130). -/
def narrowRead (N : Narrow) (code : Nat) : Num :=
  let c := code % 2 ^ narrowBits N
  match N with
  | .s8 => .ofInt false (if c < 128 then c else (c : Int) - 256) 1
  | _ =>
    let L := (nlayOf N).lay
    let s := c / L.signBit % 2 == 1
    let e := c / 2 ^ L.mb % 2 ^ L.eb
    let f := c % 2 ^ L.mb
    if N = .e4m3 && c % 128 == 127 then .nan false
    else if N = .e5m2 && e == 31 then (if f = 0 then .inf s else .nan false)
    else if e = 0 then pow2Num s f (1 - (L.bias : Int) - L.mb)
    else pow2Num s (2 ^ L.mb + f) ((e : Int) - L.bias - L.mb)

/-- round_narrow (spec/05, R112). -/
def roundNarrow (rnd : Rnd) (N : Narrow) (sat : Bool) (x : Num) : Nat × BitVec 6 :=
  let P := nlayOf N
  let sb (s : Bool) : Nat := nb s * P.lay.signBit
  let nanSigned (s : Bool) : Nat := 0x7F + sb s
  match N, x with
  | .e4m3, .nan sig => (0x7F, if sig then flagNV else 0)
  | .e5m2, .nan sig => (0x7E, if sig then flagNV else 0)
  | _, .nan _ => (0, flagNV)
  | .s8, .inf s => (if s then 0x80 else 0x7F, flagOF ||| flagIX)
  | .s8, .fin s n q =>
    let (k, ix) := roundNat rnd s n q
    let y := sgn s k
    if y < -128 then (0x80, flagOF ||| flagIX)
    else if 127 < y then (0x7F, flagOF ||| flagIX)
    else (wrapInt 8 y, if ix then flagIX else 0)
  | .e5m2, .inf s => if sat then (P.largest + sb s, flagOF) else (0x7C + sb s, 0)
  | .e4m3, .inf s => if sat then (P.largest + sb s, flagOF) else (nanSigned s, flagOF)
  | _, .inf s => (P.largest + sb s, flagOF)
  | _, .fin s n q =>
    if n = 0 then (sb s, 0) else
    let (m, ix, _) := P.lay.roundMag rnd s n q
    if P.largest < m then
      let keep := sat || N == .e3m2 || N == .e2m3 || N == .e2m1 || !overflowsToInf rnd s
      (if keep then P.largest + sb s else if N == .e5m2 then 0x7C + sb s else nanSigned s, flagOF ||| flagIX)
    else (m + sb s, (if ix then flagIX else 0) ||| (if ix && decide (m < 2 ^ P.lay.mb) then flagUF else 0))
where
  wrapInt (w : Nat) (i : Int) : Nat := (i % (2 ^ w : Nat)).toNat

/-! Floating-slash rationals (spec/05, R117 to R121). -/

/-- Width of the field d, by W. -/
def ratDBits (W : Nat) : Nat := if W = 26 then 5 else 6
/-- Width W by the width flag of a form. -/
def ratW (wide : Bool) : Nat := if wide then 57 else 26

/-- The value of a rational code, with the flags of reading it (spec/05, Table 5.7). -/
def ratRead (W c : Nat) : Num × BitVec 6 :=
  let M := c % 2 ^ W
  let d := c / 2 ^ W % 2 ^ ratDBits W
  let s := c / 2 ^ (W + ratDBits W) % 2 == 1
  if d = 0 then
    if M = 1 then (.inf s, 0) else if M = 2 then (.nan false, 0) else (.nan false, flagQZ ||| flagNV)
  else if W < d then (.nan false, flagQZ ||| flagNV)
  else if M % 2 ^ d = 0 then (.nan false, flagQZ ||| flagNV)
  else (.fin s (M / 2 ^ d) (M % 2 ^ d), 0)

/-- Bits of a natural number. -/
def bitlen (n : Nat) : Nat := if n = 0 then 0 else Nat.log2 n + 1
def fitsIn (W n q : Nat) : Bool := decide (bitlen n + bitlen q ≤ W)

/-- Euclid's algorithm, by fuel. -/
def gcdFuel : Nat → Nat → Nat → Nat
  | 0, a, _ => a
  | f + 1, a, b => if b = 0 then a else gcdFuel f b (a % b)

/-- The code of a value in lowest terms (spec/05, R117, R118). -/
def ratCode (W : Nat) : Num → Nat
  | .nan _ => 2
  | .inf s => nb s * 2 ^ (W + ratDBits W) + 1
  | .fin s n q => nb s * 2 ^ (W + ratDBits W) + (if n = 0 then 2 ^ W + 1 else bitlen q * 2 ^ W + n * 2 ^ bitlen q + q)

/-- The largest k below 2^i for which `p` holds of every number up to it; `p` is downward closed. -/
def lastTrue (p : Nat → Bool) : Nat → Nat → Nat
  | 0, k => k
  | i + 1, k => if p (k + 2 ^ i) then lastTrue p i (k + 2 ^ i) else lastTrue p i k

/-- Where the mediant descent ends: the value itself, or its neighbours. -/
inductive Descent where
  | exact (n q : Nat)
  | between (ln lq hn hq : Nat)
  deriving DecidableEq, Repr

/-- The descent of round_q for n/q above 0, taking each run of steps in one direction at once (spec/05, R119). Each level of
fuel is one run upward and one run downward. -/
def descend (fits : Nat → Nat → Bool) (n q : Nat) : Nat → Nat → Nat → Nat → Nat → Descent
  | 0, ln, lq, hn, hq => .between ln lq hn hq
  | f + 1, ln, lq, hn, hq =>
    let up := (n * lq - ln * q) / (hn * q - n * hq)
    let ku := lastTrue (fun k => decide (k ≤ up) && fits (ln + k * hn) (lq + k * hq)) 64 0
    let ln' := ln + ku * hn
    let lq' := lq + ku * hq
    if ku < up then .between ln' lq' hn hq
    else if ln' * q = n * lq' then .exact ln' lq'
    else
      let dn := (hn * q - n * hq) / (n * lq' - ln' * q)
      let kd := lastTrue (fun k => decide (k ≤ dn) && fits (hn + k * ln') (hq + k * lq')) 64 0
      let hn' := hn + kd * ln'
      let hq' := hq + kd * lq'
      if kd < dn then .between ln' lq' hn' hq'
      else if hn' * q = n * hq' then .exact hn' hq'
      else descend fits n q f ln' lq' hn' hq'

/-- choose (spec/05, R120): whether `hi` is taken, on magnitudes. -/
def chooseHi (rnd : Rnd) (neg : Bool) (n q ln lq hn hq : Nat) : Bool :=
  let dl := (n * lq - ln * q) * hq
  let dh := (hn * q - n * hq) * lq
  match rnd with
  | .rtz => false
  | .rdn => neg
  | .rup => !neg
  | .rne => if dl < dh then false else if dh < dl then true else if lq = hq then ln % 2 == 1 else decide (hq < lq)
  | .rna => if dl < dh then false else if dh < dl then true else if lq = hq then true else decide (lq < hq)

/-- round_q of an exact value with a test of what fits (spec/05, R119; spec/06, R142): the result in lowest terms. -/
def roundQWith (W : Nat) (fits : Nat → Nat → Bool) (rnd : Rnd) : Num → Num × BitVec 6
  | .fin s n q =>
    if n = 0 then (.fin s 0 1, 0)
    else if (2 ^ (W - 1) - 1) * q < n then (.inf s, flagOF ||| flagIX)
    else match descend fits n q 128 0 1 1 0 with
      | .exact a b => (.fin s a b, 0)
      | .between ln lq hn hq =>
        if chooseHi rnd s n q ln lq hn hq then (.fin s hn hq, flagIX)
        else (.fin s ln lq, if ln = 0 then flagIX ||| flagUF else flagIX)
  | x => (x, 0)

def roundQ (W : Nat) (rnd : Rnd) (x : Num) : Num × BitVec 6 := roundQWith W (fitsIn W) rnd x

/-- A value in lowest terms. -/
def Num.reduce : Num → Num
  | .fin s n q => let g := gcdFuel 200 n q; if n = 0 then .fin s 0 1 else .fin s (n / g) (q / g)
  | x => x

/-! Planes (spec/05, R116; spec/06, R148). -/

/-- The planes of a width, top bit and width, in storage order (spec/05, Table 5.5). -/
def planes : Nat → List (Nat × Nat)
  | 2 => [(1, 2)]
  | 3 => [(2, 2), (0, 1)]
  | 4 => [(3, 4)]
  | 5 => [(4, 4), (0, 1)]
  | 6 => [(5, 4), (1, 2)]
  | 7 => [(6, 4), (2, 2), (0, 1)]
  | _ => [(7, 8)]

/-- A block of 32 codes as one number, bit 0 of byte 0 lowest: planes one after another. -/
def packPlanes (m : Nat) (c : Nat → Nat) : Nat :=
  ((planes m).foldl (fun (acc : Nat × Nat) (p : Nat × Nat) =>
    let (blk, bit) := acc
    let plane := (List.range 32).foldl (fun v e => v + (c e / 2 ^ (p.1 + 1 - p.2) % 2 ^ p.2) * 2 ^ (e * p.2)) 0
    (blk + plane * 2 ^ bit, bit + 32 * p.2)) (0, 0)).1

/-- Element e of a block. -/
def unpackPlanes (m blk e : Nat) : Nat :=
  ((planes m).foldl (fun (acc : Nat × Nat) (p : Nat × Nat) =>
    let (v, bit) := acc
    (v + (blk / 2 ^ (bit + e * p.2) % 2 ^ p.2) * 2 ^ (p.1 + 1 - p.2), bit + 32 * p.2)) (0, 0)).1

end Sys2Proof.Machine
end

