-- ==== Sys2Proof/Machine/Counters.lean ====
section
/-! DEFINITION. Counters: CADD, CWAIT, CTEST, CREAD, and what the home slices and cores do for them (spec/13, R283 to R289;
spec/12, R268, R269). -/
namespace Sys2Proof.Machine

/-- The checks of a counter operand: R158 as 8 bytes at offset 0, then its translation (spec/13, R284). COPY, COPYG and HALO make
both at step 2 of R277 (notes/assumptions/131). -/
def State.counterAt (s : State) (g : Group) (f : Fibre) (q : Quad) : Access :=
  let cap := g.quad f q
  match s.block? g.block, s.capCheck (s.ctxOf g) cap (g.tagOf f q) (q.field 0) .counter with
  | none, _ => .trap ⟨.capBounds, 0⟩
  | _, some t => .trap t
  | some b, none =>
    match s.place b cap 0 8 with
    | .error t => .trap t
    | .ok x =>
      if s.declinedFor (s.ctxOf g) x.1 (fun r => r.fibres.contains (g.id, f.lane)) then .trap ⟨.pageFault, d64 x.1⟩ else
      match s.translate g.core (s.ctxOf g) x.1 .add with
      | .ok k => .ok x.1 (some k)
      | .pageFault => .trap ⟨.pageFault, d64 x.1⟩
      | .xlatePerm => .trap ⟨.xlatePerm, d64 x.1⟩
      | .hold => .hold
      | .replay => .replay x.1

/-- What a virtual operand leaves behind when its instruction goes: its translation is kept, a declined page has been heard. -/
def State.noteOperand (s : State) (g : Group) (c : Cur) (va : Nat) : State :=
  (s.hearDeclined g.id c.lanes).noteXlat g 0 va

/-- An instruction that acts once on a counter: its virtual address and its key. -/
def State.onCounter (s : State) (g : Group) (c : Cur) (f : Fibre) (q : Quad) (k : Nat → Nat → Once) : Once :=
  match s.counterAt g f q with
  | .trap t => .trap t
  | .hold => .wait .held id
  | .replay va => .wait .replay fun t => t.awaitReplay g c.lanes va
  | .ok va key =>
    if s.acquiring g then .wait (.producer .memory) id else
    match k va (key.getD 0) with
    | .go r e => .go r fun t => e (t.noteOperand g c va)
    | o => o

/-- A batch that has seen a counter meet its target acquires the byte sets added to it: when they hold GLOBAL bytes, the core drops
its GLOBAL lines of the context (spec/12, R261, R269). -/
def State.acquireSets (s : State) (core ctx ctr : Nat) : State :=
  if s.acqs.any fun x => x.1 == ctr && !isScratch (x.2 * 128) then s.acquire core ctx .sheaf else s

/-- SIDEFX of the group's block is set (spec/21, R382). -/
def State.sideEffect (s : State) (g : Group) : State := s.updBlock g.block fun b => { b with sidefx := true }

def formCtr (fa : Bool) (a : Quad) (fb : Bool) (b : Reg) : Form := ⟨[.quad a 0 fa, .source b 2 fb], [], true, .own⟩

/-- CADD and CADD.REL (spec/13, R285). -/
def execCadd (o : CtrPair) (s : State) : Res :=
  .next (s.issue (formCtr o.fa o.a o.fb o.b) (withOverflow (onceBody fun s g c f =>
    s.onCounter g c f o.a fun va key =>
      let amount := (g.dword f o.b).toNat
      if (o.x && !s.released g (addrScope 3 (some key))) || (amount != 0 && isOutside key && decide (65535 ≤ g.outack)) then .wait .release id
      else .go {} fun t =>
        let t := t.sideEffect g
        if amount = 0 then t else t.groupAdd g key va amount o.x)))

/-- Room in the waiter list of a counter's home slice (spec/13, R289). -/
def State.listRoom (s : State) (ctr : Nat) : Bool :=
  decide ((s.waiters.filter fun w => w.listed && homeSlice w.ctr == homeSlice ctr).length < 4096)

/-- A waiter enters; with the target met it waits for the reply only. Fibres that join a batch that waits already wait with it, and a
batch that they give another counter or target waits for that (spec/08, R174). -/
def State.addWaiter (s : State) (gid : Nat) (lanes : List (Fin 32)) (ctr target : Nat) : State :=
  let same := fun (w : Waiter) => w.group == gid && w.lanes.all lanes.contains && w.ctr == ctr && w.target == target
  let s := { s with waiters := s.waiters.filter fun w => !(w.group == gid && w.lanes.any lanes.contains && !same w) }
  if s.waiters.any same then { s with waiters := s.waiters.map fun w => if same w then { w with lanes := lanes } else w }
  else { s with
    waiters := s.waiters ++ [⟨s.nextId, gid, lanes, ctr, target, s.listRoom ctr,
      !s.ownAdd gid s.nextId ctr && decide (target ≤ s.counterVal ctr), false, s.clk⟩]
    nextId := s.nextId + 1 }

/-- CWAIT and CWAIT.ACQ: a batch whose waiter has been woken goes on and acquires (spec/13, R286). -/
def execCwait (o : CtrPair) (s : State) : Res :=
  .next (s.issue (formCtr o.fa o.a o.fb o.b) (withOverflow (onceBody fun s g c f =>
    s.onCounter g c f o.a fun va key =>
      if !s.reaches (dieOf g.core) key then .trap ⟨.pageFault, d64 va⟩ else
      let target := (g.dword f o.b).toNat
      let mine := fun (w : Waiter) => w.woken && w.group == g.id && w.ctr == key && w.target == target && w.lanes.all c.lanes.contains
      if s.waiters.any mine then
        .go {} fun t =>
          let t := { t with waiters := t.waiters.filter fun w => !mine w }
          let t := t.acquireSets g.core (t.ctxOf g) key
          if o.x then t.acquire g.core (t.ctxOf g) (addrScope 3 (some key)) else t
      else .wait .counter fun t => t.addWaiter g.id c.lanes key target)))

/-- CTEST: its predicate is written in every lane when it completes (spec/13, R287). -/
def execCtest (o : CtrTest) (s : State) : Res :=
  .next (s.issue ⟨[.quad o.a 0 o.fa, .source o.b 2 o.fb], [o.p], true, .own⟩ (withOverflow fun s g c fs =>
    onceBody (fun s g c f =>
      s.onCounter g c f o.a fun va key =>
        if !s.reaches (dieOf g.core) key then .trap ⟨.pageFault, d64 va⟩ else
        .go {} fun t =>
          let ls := fs.map (·.lane)
          t.addProducer g.id .memory (ls.map fun l => (l, o.p)) [] (some .core) (.ctest key (g.dword f o.b).toNat o.p ls)) s g c fs))

/-- CREAD: a long-latency producer (spec/13, R287). -/
def execCread (fa : Bool) (a : Quad) (d : Reg) (s : State) : Res :=
  let fm : Form := ⟨[.dest d 2, .quad a 0 fa], [], true, .own⟩
  .next (s.issue fm (withOverflow fun s g c fs =>
    onceBody (fun s g c f =>
      s.onCounter g c f a fun va key =>
        if !s.reaches (dieOf g.core) key then .trap ⟨.pageFault, d64 va⟩ else
        .go { pend := true } fun t =>
          t.addProducer g.id .memory [] [] none (.cread key ((fm.dests ((fs.map (·.lane)).head?) fs).map (·.2)))) s g c fs))

/-! Adds at the home slice. -/

/-- Some bytes that an access may touch: their keys, and their virtual addresses where they have them. -/
structure Bytes where
  keys : List Nat
  vas : List Nat

/-- One of the bytes is among `n` at a key, or at a virtual address. -/
def Bytes.near (b : Bytes) (k : Option Nat) (va n : Nat) : Bool :=
  match k with
  | some k => b.keys.any fun x => decide (k ≤ x) && decide (x < k + n)
  | none => b.vas.any fun x => decide (va ≤ x) && decide (x < va + n)

/-- One of the bytes is among those that a capability names. -/
def Bytes.within (b : Bytes) (q : QWord) : Bool :=
  if capSpace q = 1 || capSpace q = 2 then b.keys.any isScratch
  else b.vas.any fun a => decide (capBase q ≤ a) && decide (a < capBase q + capLen q)

/-- A producer that may read bytes that a later access writes, or write bytes that it reads or writes (spec/12, R265, R270). -/
def Producer.mayTouch (p : Producer) (written all : Bytes) : Bool :=
  match p.work with
  | .load n _ _ ls => ls.any fun l => written.near l.key l.va n
  | .atomic _ n ls => ls.any fun l => all.near (some l.2.key) 0 n
  | .ext _ bs => bs.any fun b => written.keys.contains b.key
  | .hist _ _ _ ls => ls.any fun l => (l.surf.map fun u => written.within u.cap).getD false
  | .tex _ ls => ls.any fun l => written.within l.tex.cap
  | .trace ls => ls.any fun l => [l.recs, l.graph, l.sbt].any written.within
  | .tri _ _ ws => ws.any fun w => all.near (some w.key) 0 8
  | .kv _ => false
  | .cread ctr _ => written.near (some ctr) 0 8
  | .ctest ctr _ _ _ => written.near (some ctr) 0 8
  | .ready _ => false

/-- Accesses of a group before `id` to the bytes of a counter: its add comes after them, and after no others, for a plain CADD is no
release (spec/12, R265; spec/13, R285; notes/assumptions/14). -/
def State.ownBefore (s : State) (gid id key va : Nat) : Bool :=
  let b : Bytes := ⟨(List.range 8).map (key + ·), (List.range 8).map (va + ·)⟩
  s.stores.any (fun p => p.group == gid && decide (p.id < id) && p.work.keys.any b.keys.contains) ||
  s.producers.any (fun p => p.group == gid && decide (p.id < id) && !s.setAside p && p.mayTouch b b)

/-- Whether a gate of a context is the counter at a key. -/
def State.gateIs (s : State) (ctx gate key : Nat) : Bool :=
  gate != 0 && (match s.lookup (dieSite 0) ctx gate with | .leaf l => l.key gate == key | _ => false)

/-- An add that meets a gate's target opens it: GATE of a queue is cleared (spec/13, R297). -/
def State.openGates (s : State) (key value : Nat) : State :=
  s.ctxs.foldl (fun s c =>
    let s := c.queues.foldl (fun s q =>
      if s.gateIs c.num (s.numAt (q.desc + 28) 8) key && decide (s.numAt (q.desc + 36) 8 ≤ value) then s.setNum (q.desc + 28) 8 0 else s) s
    let mark := fun (r : RootRec) => if s.gateIs c.num r.gate key && decide (r.gval ≤ value) then { r with opened := true } else r
    s.updCtx c.num fun x => { x with rootq := x.rootq.map mark }) s

/-- An overflow is told to its group, which a save may have put away, or to the error log when the group has ended
(spec/13, R288; spec/21, Table 21.7). -/
def State.tellOverflow (s : State) (owner : Option Nat) (va : Nat) : State :=
  let here := fun (l : List Group) => l.any fun g => some g.id == owner && !g.ended
  if here s.groups then { s with groups := s.groups.map fun g => if some g.id = owner then { g with ovf := some va } else g }
  else if s.ctxs.any fun c => c.saved.any fun x => here x.groups then
    { s with ctxs := s.ctxs.map fun c => { c with saved := c.saved.map fun x => { x with
        groups := x.groups.map fun g => if some g.id = owner then { g with ovf := some va } else g } } }
  else { s with errlog := s.errlog ++ [.overflow va] }

/-- One add is applied: it saturates, and a saturating add is told to its group or to the error log (spec/13, R283, R288). -/
def State.applyAdd (s : State) (a : Add) : State :=
  let sum := s.counterVal a.ctr + a.amount
  let sat := decide (2 ^ 64 ≤ sum)
  let v := if sat then 2 ^ 64 - 1 else sum
  let s := if a.amount = 0 then s else s.putBytes a.ctr (leBytes 8 v)
  let s := { s with acqs := s.acqs ++ (a.lines.map fun l => (a.ctr, l)).filter fun x => !s.acqs.contains x }
  let live := a.owner.bind s.group?
  let s := match live with
    | some g => s.l1Drop g.core a.ctx a.va a.ctr
    | none => s
  let s := if sat then s.tellOverflow a.owner a.va else s
  (s.settleWaiters).openGates a.ctr v

/-- An add may be applied: the earlier accesses of its group to the counter are performed. The add of a copy is no access of its
group. -/
def State.mayAdd (s : State) (a : Add) : Bool :=
  !(a.lines.isEmpty && (a.owner.map fun g => s.ownBefore g a.id a.ctr a.va).getD false) && !s.heldByLoft a.ctr

/-- The add of a copy or a HALO has been applied: with the last of the unit its record has the clk (spec/22, Table 22.6; spec/23, R409). -/
def State.noteCopyAdd (s : State) (a : Add) : State :=
  match a.copyOf with
  | none => s
  | some b =>
    if s.copies.any (fun x => x.unit == a.unit) || s.adds.any (fun x => x.copyOf == some b && x.unit == a.unit) then s else
    let clk := s.clk
    s.updBlock b fun b => { b with copyLog := b.copyLog.map fun l => if l.copyId = a.unit then { l with done := some clk } else l }

/-- COUNTER_ADD: the home slice applies one add. One that needs a link that is down is lost (spec/24, R427). -/
def execCounterAdd (addId : Nat) (s : State) : Res :=
  match s.adds.find? (fun a => a.id = addId) with
  | none => .next s
  | some a =>
    if !s.mayAdd a then .next s else
    let t := { s with adds := s.adds.filter fun x => x.id != addId }
    let t := if s.reaches a.die a.ctr then t.applyAdd a else (t.noteLost a.die [a.ctr]).settleWaiters
    let t := (t.noteCopyAdd a).wakeAll (· == .release)
    .next (match a.owner with | some gid => t.reap gid | none => t)

/-! Waiters. -/

/-- CWAIT_WAKE: a waiter whose target has been met issues next. -/
def execCwaitWake (waitId : Nat) (s : State) : Res :=
  match s.waiters.find? (fun w => w.id = waitId ∧ w.met ∧ w.woken = false) with
  | none => .next s
  | some w =>
    .next ({ s with waiters := s.waiters.map fun (x : Waiter) => if x.id = waitId then { x with woken := true } else x }.wakeLanes
      w.group w.lanes .counter)

/-- A waiter that found the list full may ask again. -/
def Waiter.resends (w : Waiter) (clk : Nat) : Bool := !w.listed && !w.met && decide (w.since + 512 ≤ clk)

/-- CWAIT_RESEND: the core sends the request again. -/
def execCwaitResend (waitId : Nat) (s : State) : Res :=
  .next { s with waiters := s.waiters.map fun (w : Waiter) =>
    if w.id = waitId && w.resends s.clk then
      { w with listed := s.listRoom w.ctr, met := !s.ownAdd w.group w.id w.ctr && decide (w.target ≤ s.counterVal w.ctr), since := s.clk } else w }

end Sys2Proof.Machine
end

