-- ==== Sys2Proof/Machine/Extent.lean ====
section
/-! DEFINITION. Extents: ranges of bytes that an instruction checks as one access and translates page by page
(spec/11, R243; spec/13, R277). -/
namespace Sys2Proof.Machine

/-- A checked range: its first address, its length, the scratchpad key of the first byte or the leaf of each page. -/
structure Extent where
  a : Nat
  n : Nat
  scratch : Option Nat
  leaves : List (Nat × Leaf)
  deriving DecidableEq, Repr

/-- The key of an address of the range. -/
def Extent.key (e : Extent) (va : Nat) : Nat :=
  match e.scratch with
  | some k => k + (va - e.a)
  | none => match e.leaves.find? (fun p => p.1 = va / 65536) with
    | some (_, l) => l.key va
    | none => 0

def Extent.virt (e : Extent) (va : Nat) : Option Nat := if e.scratch.isSome then none else some va

/-- The checks of a range. -/
inductive Reach where
  | trap (t : Trap)
  /-- An all-bank pseudo-channel holds a table walk (spec/19, R365). -/
  | hold
  | replay (va : Nat)
  | ok (e : Extent)
  deriving DecidableEq, Repr

/-- The pages that a range touches. -/
def pagesOf (a n : Nat) : List Nat := (List.range ((a + n - 1) / 65536 - a / 65536 + 1)).map (a / 65536 + ·)

/-- One page of a range: its leaf, or how it fails. `va` is the page's first address in the range. -/
def State.pageReach (s : State) (g : Group) (lane : Fin 32) (need : Need) (va : Nat) : Except Reach Leaf :=
  let ctx := s.ctxOf g
  if s.declinedFor ctx va (fun x => x.fibres.contains (g.id, lane)) then .error (.trap ⟨.pageFault, d64 va⟩) else
  match s.translate g.core ctx va need with
  | .ok _ =>
    match s.lookup g.core ctx va with
    | .leaf l => .ok l
    | _ => .error (.trap ⟨.pageFault, d64 va⟩)
  | .hold => .error .hold
  | .replay => .error (.replay va)
  | .pageFault => .error (.trap ⟨.pageFault, d64 va⟩)
  | .xlatePerm => .error (.trap ⟨.xlatePerm, d64 va⟩)

/-- What the page results of a range come to: a wait, then the first replayable fault, then the first fatal one
(spec/11, R243; spec/13, R277). -/
def firstReach (l : List Reach) : Option Reach :=
  (l.find? fun r => match r with | .hold => true | .replay _ => true | _ => false) <|>
  (l.find? fun r => match r with | .trap _ => true | _ => false)

/-- Translates the pages of a range. -/
def State.translatePages (s : State) (g : Group) (lane : Fin 32) (need : Need) (a n : Nat) (pages : List Nat) : Reach :=
  let rs := pages.map fun p => (p, s.pageReach g lane need (max a (p * 65536)))
  match firstReach (rs.filterMap fun x => match x.2 with | .error r => some r | .ok _ => none) with
  | some r => r
  | none => .ok ⟨a, n, none, rs.filterMap fun x => match x.2 with | .ok l => some (x.1, l) | .error _ => none⟩

/-- A range of `n` bytes at offset `off` of a capability: tag, generation and permissions, then `mis`, then bounds, then every
page. -/
def State.extent (s : State) (g : Group) (lane : Fin 32) (u : MemUse) (q : QWord) (tag : Bool) (field : Nat) (off : Int) (n : Nat)
    (mis : Option Trap) : Reach :=
  match s.block? g.block, s.capCheck (s.ctxOf g) q tag field u with
  | none, _ => .trap ⟨.capBounds, 0⟩
  | _, some t => .trap t
  | some b, none =>
    match mis with
    | some t => .trap t
    | none =>
      match s.bounds b q off n with
      | .error t => .trap t
      | .ok (a, some k) => .ok ⟨a, n, some k, []⟩
      | .ok (a, none) => s.translatePages g lane u.need a n (pagesOf a n)

/-- The byte of a range that a group sees. -/
def State.extByte (s : State) (g : Group) (e : Extent) (va : Nat) : Byte :=
  s.seenByte g.core g.id s.nextId (s.ctxOf g) (e.virt va) (e.key va)
def State.extPoison (s : State) (g : Group) (e : Extent) (va : Nat) : Bool :=
  s.seenPoison g.core g.id s.nextId (s.ctxOf g) (e.virt va) (e.key va)

/-- A reduction of the group before its access `id` that is still in the store queue: every later access comes after it (spec/12,
Table 12.3). -/
def State.redQueued (s : State) (gid id : Nat) : Bool :=
  s.stores.any fun q => q.group == gid && !q.left && decide (q.id < id) && match q.work with | .red _ _ _ => true | _ => false

/-- Whether a read of a range has to wait: for the group's acquires, earlier loads and atomics (spec/12, R264), reductions not yet
performed, the range scoreboard, an all-bank pseudo-channel. `rows` are its parts. -/
def State.readWait (s : State) (g : Group) (e : Extent) (rows : List (Nat × Nat)) : Option Wait :=
  firstWait (List.flatten [
    if s.redQueued g.id s.nextId || rows.any (fun r => !s.afterAdds g s.nextId (e.key r.1) r.2) then [.release] else [],
    if rows.any (fun r => (List.range ((r.2 + 127) / 128)).any fun i => s.heldByLoft (e.key (r.1 + 128 * i))) then [.held] else [],
    if rows.any (fun r => s.boarded (e.key r.1) r.2) then [.scoreboard] else [],
    if s.acquiring g || s.producers.any (fun p => p.group == g.id && p.work.isAccess) then [.producer .memory] else []])

/-- What a TLD or ACLD waits for before it issues. -/
def State.extWait (s : State) (g : Group) (e : Extent) (rows : List (Nat × Nat)) : Option Wait :=
  firstWait (List.flatten [
    if rows.any (fun r => s.boarded (e.key r.1) r.2) then [.scoreboard] else [],
    if s.acquiring g then [.producer .memory] else []])

/-- Runs of byte writes at rising keys that cross no 8-byte boundary, the last first, each backward. -/
def writeRuns (ws : List ByteWrite) : List (List ByteWrite) :=
  ws.foldl (fun r w => match r with
    | (x :: q) :: rest => if x.key + 1 == w.key && w.key % 8 != 0 then (w :: x :: q) :: rest else [w] :: (x :: q) :: rest
    | _ => [w] :: r) []

/-- The accesses that make up a list of byte writes: an aligned 8-byte unit that is written whole is one, any other byte is its
own (spec/12, R266). -/
def writeUnits (ws : List ByteWrite) : List (List ByteWrite) :=
  ((writeRuns ws).reverse.map List.reverse).flatMap fun q => if q.length = 8 then [q] else q.map ([·])

/-- The accesses to tier 2 and tier 3 that a write of rows makes (spec/12, R267; notes/assumptions/117). -/
def Extent.outUnits (e : Extent) (rows : List (Nat × Nat)) : Nat :=
  let out := rows.filter fun r => isOutside (e.key r.1) || isOutside (e.key (r.1 + r.2 - 1))
  ((writeUnits (out.flatMap fun r => (List.range r.2).map fun i => ⟨e.key (r.1 + i), r.1 + i, 0⟩)).filter fun u =>
    isOutside ((u.head?.map (·.key)).getD 0)).length

/-- Whether a write of a range has to wait. -/
def State.writeWait (s : State) (g : Group) (e : Extent) (rows : List (Nat × Nat)) : Option Wait :=
  firstWait (List.flatten [
    if rows.any (fun r => g.mloopHolds (e.key r.1) r.2) then [.matrix] else [],
    if 65535 < g.outack + e.outUnits rows then [.release] else [],
    if rows.any (fun r => s.boarded (e.key r.1) r.2) then [.scoreboard] else [],
    if s.acquiring g then [.producer .memory] else []])

/-! Instructions that check at issue and leave the rest to an engine. -/

/-- What a fibre's checks give at the instruction. -/
inductive AtIssue (α : Type) where
  | ok (v : α)
  | trap (t : Trap)
  | wait (w : Wait)
  | replay (va : Nat)
  deriving DecidableEq, Repr

def AtIssue.trap? {α : Type} : AtIssue α → Option Trap
  | .trap t => some t
  | _ => none
def AtIssue.wait? {α : Type} : AtIssue α → Option Wait
  | .wait w => some w
  | .replay _ => some .replay
  | _ => none

/-- Issues one producer for the lanes whose checks pass: D is marked empty, and `send` leaves the work of those lanes behind. A wait
of the whole batch is `first`, then what a lane waits for, then `last`. A scalar D is that of the lowest lane that does not trap. -/
def issueBody {α : Type} (s : State) (g : Group) (fm : Form) (fs : List Fibre) (first last : Option Wait) (check : Fibre → Dest → AtIssue α)
    (send : List (Fibre × α) → State → State) : Body :=
  let lead := (fs.find? fun f => ((check f (.none f.lane)).trap?).isNone).map (·.lane)
  let lanes := (fm.dests lead fs).map fun x => (x.1, check x.1 x.2)
  let wait := if lanes.any (fun x => match x.2 with | .replay _ => true | _ => false) then some .replay
    else firstWait (first.toList ++ (lanes.filterMap fun x => x.2.wait?) ++ last.toList)
  let note := fun (t : State) =>
    (lanes.filterMap fun x => x.2.trap?).foldl (fun t x => t.notePage (s.ctxOf g) x) (t.hearDeclined g.id (fs.map (·.lane)))
  { outs := lanes.map fun x => (x.1, match x.2 with
      | .trap t => .trap t 0
      | _ => match wait with | some w => .wait w | none => .done { pend := true })
    effect := fun t =>
      let go := lanes.filterMap fun x => match x.2 with | .ok v => some (x.1, v) | _ => none
      if go.isEmpty then note t else send go (note t)
    onWait := fun t => lanes.foldl (fun t x => match x.2 with | .replay va => t.awaitReplay g [x.1.lane] va | _ => t) (note t) }

/-- The watch of a range in GLOBAL or CONST space. -/
def State.extWatch (s : State) (g : Group) (f : Fibre) (u : MemUse) (space : Nat) (e : Extent) : Option (Nat × Watch) :=
  if f.watchOnce || (space != 0 && space != 5) then none else s.watchHit (s.ctxOf g) e.a e.n (watchKind u.store)

/-- Keeps the translations of a range. -/
def State.noteExtent (s : State) (g : Group) (e : Extent) : State :=
  e.leaves.foldl (fun s p => s.noteWalk g.core (s.ctxOf g) (p.1 * 65536)) s

/-- Queues the accesses of a list of byte writes in order; each to tier 2 or tier 3 is one in OUTACK (notes/assumptions/117). A granule
that they cover whole together loses its poison with the last of them
(spec/10, R229). -/
def State.queueUnits (s : State) (g : Group) (insn : Nat) (keys : List Nat) : List (List ByteWrite) → State
  | [] => s
  | q :: r =>
    let grs := (q.map (·.key / 16)).eraseDups
    let healed := grs.filter fun gr => !(r.any fun p => p.any fun w => w.key / 16 == gr) && covers16 keys gr
    (s.queueStore g insn ((q.head?.map (·.key)).getD 0) (.bytes q [] healed)).queueUnits g insn keys r

/-- Queues the writes of rows of bytes of a range, row after row. -/
def State.queueRows (s : State) (g : Group) (e : Extent) (rows : List (Nat × List Byte)) : State :=
  let ws := rows.flatMap fun r => r.2.zipIdx.map fun (b, i) => (⟨e.key (r.1 + i), r.1 + i, b⟩ : ByteWrite)
  s.queueUnits g s.nextId (ws.map (·.key)) (writeUnits ws)

end Sys2Proof.Machine
end

