-- ==== Sys2Proof/Machine/Streamer.lean ====
section
/-! DEFINITION. The streamer: layout records, COPY, COPYG, CFENCE, and the completion of a copy (spec/13, R273 to R282;
spec/10, R218; spec/22, R397). -/
namespace Sys2Proof.Machine

/-! Tensor layout records (spec/13, Table 13.1). -/

structure Layout where
  rank : Nat
  esize : Nat
  wrap : Nat
  halo : Nat
  swz : Nat
  wrapn : Nat
  strides : List Int
  deriving DecidableEq, Repr

/-- A signed number of `w` bits. -/
def signedOf (w n : Nat) : Int := if n % 2 ^ w < 2 ^ (w - 1) then (n % 2 ^ w : Nat) else (n % 2 ^ w : Nat) - (2 ^ w : Nat)

/-- The record of 64 bytes, when its fields keep the table (spec/13, R273). -/
def layoutOf (b : List Byte) : Option Layout :=
  let at_ := fun (i n : Nat) => leNat ((b.drop i).take n)
  let l : Layout := ⟨at_ 0 1, at_ 1 1, at_ 2 1, at_ 3 1, at_ 4 2, at_ 6 2, (List.range 5).map fun k => signedOf 64 (at_ (8 + 8 * k) 8)⟩
  if decide (1 ≤ l.rank) && decide (l.rank ≤ 5) && decide (1 ≤ l.esize) && decide (l.esize ≤ 64) && decide (l.wrap ≤ l.rank) &&
      decide (l.halo ≤ 2) && decide (l.swz ≤ 1) && (l.wrapn != 0) == (l.wrap != 0) &&
      (l.strides.drop l.rank).all (· == 0) && (b.drop 48).all (· == 0) then some l else none

/-- The record at an offset of the kernel's section. -/
def layoutAt (sec : List Byte) (off : Nat) : Option Layout :=
  if off % 64 = 0 ∧ off + 64 ≤ sec.length then layoutOf ((sec.drop off).take 64) else none

/-! What a copy moves (spec/13, R276). -/

/-- Box indexes i0, i1, … of extents B0, B1, …, the first running fastest. -/
def boxIndexes : List Nat → List (List Nat)
  | [] => [[]]
  | b :: r => (boxIndexes r).flatMap fun t => (List.range b).map fun i => i :: t

/-- Bits 6:4 of a byte offset XORed with its bits 9:7. -/
def swizzle (off : Int) : Int :=
  let m := (off % 1024).toNat
  off - m + Nat.xor m (m / 128 * 16)

def Layout.offset (l : Layout) (cs : List Int) : Int :=
  let o := ((cs.zip l.strides).map fun x => x.1 * x.2).foldl (· + ·) 0
  if l.swz = 1 then swizzle o else o

/-- The operands of a copy. `idx` is the index list of COPYG. -/
structure CopyArgs where
  src : Layout
  dst : Layout
  ext : List Nat
  box : List Nat
  origin : List Int
  ring : Nat
  idx : Option (List Nat)
  deriving DecidableEq, Repr

/-- The source coordinate of dimension k: none when it faults, else the coordinate and whether the element is filled with 0. -/
def CopyArgs.coord (p : CopyArgs) (k i : Nat) : Int × Option (Int × Bool) :=
  let c : Int := match p.idx with
    | some l => if k + 1 = p.src.rank then (l.getD i 0 : Nat) else p.origin.getD k 0 + i
    | none => p.origin.getD k 0 + i
  let x : Int := p.ext.getD k 0
  (c, if p.src.wrap = k + 1 then some (c % (p.src.wrapn : Int), false)
    else if c < 0 ∨ x ≤ c then
      (if p.src.halo = 0 then none else if p.src.halo = 1 then some (c, true) else some (max 0 (min c (x - 1)), false))
    else some (c, false))

/-- Source coordinates of one element: the first dimension that faults, or the coordinates and the fill. -/
def CopyArgs.coords (p : CopyArgs) : List (Nat × Nat) → Except (Nat × Int) (List Int × Bool)
  | [] => .ok ([], false)
  | (k, i) :: r =>
    match p.coord k i with
    | (c, none) => .error (k, c)
    | (_, some (c, z)) =>
      match p.coords r with
      | .error e => .error e
      | .ok (cs, zs) => .ok (c :: cs, z || zs)

/-- One element: the source byte offset, or none for a zero fill, and the destination byte offset. -/
def CopyArgs.elem (p : CopyArgs) (ix : List Nat) : Except (Nat × Int) (Option Int × Int) :=
  match p.coords ((List.range p.src.rank).zip ix) with
  | .error e => .error e
  | .ok (cs, z) =>
    let ts := ((List.range p.src.rank).zip ix).map fun (k, i) =>
      if p.dst.wrap = k + 1 then (((p.ring + i) % p.dst.wrapn : Nat) : Int) else (i : Int)
    .ok (if z then none else some (p.src.offset cs), p.dst.offset ts)

/-- Every element of the box in order, or the first that faults. -/
def CopyArgs.elems (p : CopyArgs) : Except (Nat × Int) (List (Option Int × Int)) := (boxIndexes p.box).mapM p.elem

/-! The descriptor (spec/13, Table 13.3). -/

/-- The sixteen registers of a descriptor start at register 16 times `a`. -/
def descReg (a : Fin 6) (k : Nat) : Reg :=
  if a.val < 4 then .v (Fin.ofNat 64 (16 * a.val + k)) else .s (Fin.ofNat 32 (16 * (a.val - 4) + k))

def descQuad (a : Fin 6) (k : Nat) : Quad :=
  if a.val < 4 then .v (Fin.ofNat 16 (4 * a.val + k)) else .s (Fin.ofNat 8 (4 * (a.val - 4) + k))

/-- Five extents of sixteen bits in three registers. -/
def extents (ws : List Word) : List Nat :=
  (ws.flatMap fun w => [w.toNat % 65536, w.toNat / 65536]).take 5

/-- The low `w` bits as a signed number, by half-words of the coordinate quad. -/
def halfWords (ws : List Word) : List Nat := ws.flatMap fun w => [w.toNat % 65536, w.toNat / 65536]

/-- TILE_CONFIG of a copy's records and descriptor: reason 7, the lowest field (spec/13, R277). -/
def copyConfig (src dst : Option Layout) (d : List Word) : Option Trap :=
  let rank := match src, dst with | some l, _ => l.rank | none, some l => l.rank | none, none => 5
  let ext := extents ((d.drop 9).take 3)
  let box := extents ((d.drop 12).take 3)
  let badSrc := src.isNone || (ext.take rank).contains 0 || decide (65536 ≤ (d.getD 11 0).toNat)
  let es := match src, dst with | some l, _ => l.esize | none, some l => l.esize | none, none => 1
  let badDst := match dst with
    | none => true
    | some t => t.halo != 0 || (match src with | some l => l.rank != t.rank || l.esize != t.esize | none => false)
  let badBox := (box.take rank).contains 0 || decide (65536 ≤ (d.getD 14 0).toNat) ||
    decide (2 ^ 24 < (box.take rank).foldl (· * ·) es)
  if badSrc then some ⟨.tileConfig, d64 (7 * 256 + 0x20)⟩
  else if badDst || badBox then some ⟨.tileConfig, d64 (7 * 256 + 0x21)⟩ else none

/-! The checks of the source and the destination (spec/13, R277, steps 6 and 7). -/

/-- The spaces are those of R277, also where Table 7.1 of spec/07 names no streamer (notes/assumptions/110). -/
def copySrc : MemUse := ⟨[0, 5, 1, 2], [0, 7], .rd, 1, false⟩
def copyDst : MemUse := ⟨[0, 1, 2], [1, 7], .wr, 1, true⟩

def lowOf : List Int → Int
  | [] => 0
  | x :: r => r.foldl min x
def highOf : List Int → Int
  | [] => 0
  | x :: r => r.foldl max x

/-- Permissions, element alignment and bounds of one side; none when it covers no byte. -/
def State.copySide (s : State) (g : Group) (b : Block) (u : MemUse) (q : QWord) (tag : Bool) (field : Nat) (es : Nat) (offs : List Int) :
    Except Trap (Option Extent) :=
  match s.capCheck (s.ctxOf g) q tag field u with
  | some t => .error t
  | none =>
    let addr := fun (o : Int) => (capBase q : Int) + o
    match (if es = 1 || es = 2 || es = 4 || es = 8 then offs.find? (fun o => addr o % (es : Int) != 0) else none) with
    | some o => .error ⟨.misaligned, BitVec.ofInt 64 (addr o)⟩
    | none =>
      if offs.isEmpty then .ok none else
      let n := (highOf offs - lowOf offs + es).toNat
      match s.bounds b q (lowOf offs) n with
      | .error t => .error t
      | .ok (a, k) => .ok (some ⟨a, n, k, []⟩)

/-- The translation of a side. -/
def State.sideReach (s : State) (g : Group) (f : Fibre) (u : MemUse) : Option Extent → Reach
  | none => .ok ⟨0, 0, none, []⟩
  | some e => if e.scratch.isSome then .ok e else s.translatePages g f.lane u.need e.a e.n (pagesOf e.a e.n)

/-- The index list of COPYG, read as a load of the group (spec/13, R277, step 4, R280). Poison of its granules has no
destination to mark: the bytes count as they stand (notes/assumptions/126). -/
def State.indexList (s : State) (g : Group) (b : Block) (n off : Nat) : List Nat :=
  (List.range n).map fun j => leNat ((List.range 4).map fun i =>
    s.seenByte g.core g.id s.nextId (s.ctxOf g) none (scratchKey b.core (b.scratchBase + off + 4 * j + i)))

/-! Acceptance (spec/13, R278). -/

/-- The accepted copies and HALOs that hold an entry of a core's range scoreboard (spec/10, R218; spec/17, R348). -/
def State.boardUnits (s : State) (core : Nat) : List Nat :=
  ((s.copies.filter fun c => (c.board.map (·.1)) == some core).map (·.unit)).eraseDups

/-- The scoreboard entry of a destination in scratchpad. -/
def boardOf (t : Extent) : Option (Nat × Nat × Nat) :=
  t.scratch.map fun k => (scratchCore k, scratchOff k, scratchOff k + t.n)

/-- The streamer of a core holds at most 32 accepted operations. -/
def State.slotRoom (s : State) (core : Nat) : Option Wait :=
  if 32 ≤ (((s.copies.filter fun c => c.core == core).map (·.unit)).eraseDups).length then some .streamer else none

/-- Why a copy is not ready. -/
def State.copyRoom (s : State) (core : Nat) (board : Option (Nat × Nat × Nat)) : Option Wait :=
  match board with
  | some (k, _, _) =>
    if 32 ≤ (s.boardUnits k).length then some .scoreboard else s.slotRoom core
  | none => s.slotRoom core

/-- A copy joins the streamer, and the block remembers it (spec/22, Table 22.6). -/
def State.acceptCopy (s : State) (c : Copy) (desc coords : List Word) : State :=
  let s := { s with copies := s.copies ++ [c], nextId := s.nextId + 1 }
  s.updBlock c.block fun b => { b with copyLog := b.copyLog ++ [⟨c.unit, desc, coords, c.ctrVa, c.num, c.pc, none⟩] }

/-- Keys of the bytes of an element. -/
def elemKeys (e : Extent) (base : Nat) (es : Nat) (off : Int) : List Nat :=
  (List.range es).map fun i => e.key (((base : Int) + off).toNat + i)
def elemVas (base : Nat) (es : Nat) (off : Int) : List Nat := (List.range es).map fun i => ((base : Int) + off).toNat + i

/-- COPY and COPYG after the descriptor has been read and the counter checked. -/
def State.copyBody (s : State) (gather : Bool) (o : CopyOp) (g : Group) (c : Cur) (f : Fibre) (b : Block) (ctrVa ctrKey : Nat) : Once :=
  let d := (List.range 15).map fun k => g.word f (descReg o.a k)
  let sec := ((s.kernelOf g).map (·.layout)).getD []
  let rec0 := (d.getD 8 0).toNat
  let src := layoutAt sec (rec0 % 65536)
  let dst := layoutAt sec (rec0 / 65536)
  match copyConfig src dst d, src, dst with
  | some t, _, _ => .trap t
  | none, some l, some t =>
    let q := g.words f o.d.base 4
    let hs := halfWords q
    let box := (extents ((d.drop 12).take 3)).take l.rank
    let n := box.getD (l.rank - 1) 0
    let off := (q.getD 3 0).toNat
    let list : Option Once :=
      if !gather then none
      else if off % 4 ≠ 0 then some (.trap ⟨.misaligned, d64 off⟩)
      else if b.scratchLen < off + 4 * n then some (.trap ⟨.capBounds, d64 off⟩)
      else
        let e : Extent := ⟨off, 4 * n, some (scratchKey b.core (b.scratchBase + off)), []⟩
        (s.readWait g e [(off, 4 * n)]).map fun w => .wait w id
    match list with
    | some x => x
    | none =>
      let p : CopyArgs := ⟨l, t, extents ((d.drop 9).take 3), box, (hs.take 5).map (signedOf 16), hs.getD 5 0,
        if gather then some (s.indexList g b n off) else none⟩
      match p.elems with
      | .error (k, x) => .trap ⟨.capBounds, d64 (k + 2 ^ 32 * (BitVec.ofInt 32 x).toNat)⟩
      | .ok es =>
        let sq := g.quad f (descQuad o.a 0)
        let dq := g.quad f (descQuad o.a 1)
        match s.copySide g b copySrc sq (g.tagOf f (descQuad o.a 0)) ((descQuad o.a 0).field 0) l.esize (es.filterMap (·.1)) with
        | .error t => .trap t
        | .ok se =>
          match s.copySide g b copyDst dq (g.tagOf f (descQuad o.a 1)) ((descQuad o.a 1).field 0) l.esize (es.map (·.2)) with
          | .error t => .trap t
          | .ok de =>
            let sr := s.sideReach g f copySrc se
            let dr := s.sideReach g f copyDst de
            match firstReach [sr, dr], sr, dr with
            | some (.trap t), _, _ => .trap t
            | some (.replay va), _, _ => .wait .replay fun t => t.awaitReplay g c.lanes va
            | _, .ok se, .ok de =>
              match s.copyRoom g.core (boardOf de) with
              | some w => .wait w id
              | none =>
                .go {} fun t =>
                  let t := (t.noteExtent g se).noteExtent g de
                  let t := if capSpace dq = 1 then t else t.sideEffect g
                  t.acceptCopy
                    { id := t.nextId, unit := t.nextId, group := g.id, num := g.recNum, block := b.id, core := g.core, ctx := t.ctxOf g, pc := c.unit, strip := false
                      srcs := es.flatMap fun x => match x.1 with
                        | some y => (elemKeys se (capBase sq) l.esize y).map some
                        | none => List.replicate l.esize none
                      dsts := es.flatMap fun x => elemKeys de (capBase dq) l.esize x.2
                      dstVa := if capSpace dq = 0 then es.flatMap fun x => elemVas (capBase dq) l.esize x.2 else []
                      fence := g.fence, ctr := ctrKey, ctrVa := ctrVa, amount := (box.foldl (· * ·) 1) * l.esize
                      read := [], wrote := [], watched := [], board := boardOf de, gone := none } (d ++ [0]) q
            | _, _, _ => .wait .held id
  | none, _, _ => .trap ⟨.tileConfig, d64 (7 * 256 + 0x20)⟩

/-- Registers 0 to 14 of the descriptor are read (spec/13, R275, R280). -/
def formCopy (o : CopyOp) : Form :=
  ⟨[.quad o.d 0 false, .source (descReg o.a 0) 15 o.fa, .quad o.b 0 o.fb], [], true, .own⟩

def copyOp (gather : Bool) (o : CopyOp) (s : State) : Res :=
  .next (s.issue (formCopy o) (onceBody fun s g c f =>
    if g.stage ≠ 0 then .trap ⟨.streamerRights, d64 g.stage⟩
    else match s.block? g.block with
      | none => .go {} id
      | some b => s.onCounter g c f o.b fun va key => s.copyBody gather o g c f b va key))

def execCopy (o : CopyOp) (s : State) : Res := copyOp false o s
def execCopyg (o : CopyOp) (s : State) : Res := copyOp true o s

/-- CFENCE: later copies of the group come after its earlier ones (spec/13, R281). -/
def execCfence (s : State) : Res :=
  .next (s.issue ⟨[], [], true, .own⟩ (onceBody fun _ g _ _ => .go {} fun t => t.updGroup g.id fun h => { h with fence := h.fence + 1 }))

/-! Completion (spec/13, R279; spec/12, R270, R271). -/

/-- Two lists of keys have a common key. -/
def meetsKeys (a b : List Nat) : Bool := a.any b.contains

/-- A copy may go on: copies before its CFENCE are done, and the earlier accesses of its group to its bytes are performed, its adds and
MLOOP reads among them; a walk that a save will abandon is none (spec/12, R270; spec/13, R281; spec/15, R324). -/
def State.copyReady (s : State) (c : Copy) : Bool :=
  let touched := c.dsts ++ c.srcs.filterMap id
  !(s.copies.any fun x => x.group == c.group && decide (x.fence < c.fence) && !x.strip) &&
  !(s.stores.any fun p => p.group == c.group && decide (p.id < c.id) && meetsKeys p.work.keys touched) &&
  !(s.producers.any fun p => p.group == c.group && decide (p.id < c.id) && !s.setAside p && p.mayTouch ⟨c.dsts, c.dstVa⟩ ⟨touched, []⟩) &&
  !(s.adds.any fun a => a.owner == some c.group && a.lines.isEmpty && decide (a.id < c.id) &&
    touched.any fun k => decide (a.ctr ≤ k) && decide (k < a.ctr + 8)) &&
  !(s.groups.any fun g => g.id == c.group && (g.mloop.map fun m => decide (m.id < c.id)).getD false && c.dsts.any fun k => g.mloopHolds k 1) &&
  !(touched.any s.heldByLoft)

/-- Writes the bytes of a copy that were read before: values, and granules that get poison. -/
def State.writeCopy (s : State) : List (Nat × Byte × Bool) → State
  | [] => s
  | (k, v, bad) :: r =>
    let s := s.putByte k v
    (if bad then s.setPoison k true else s).writeCopy r

/-- The source byte of a place of a copy, as the groups of its core see it, stores that have left their queues among them (spec/12,
Table 12.1). -/
def State.sourceByte (s : State) (c : Copy) (k : Nat) : Byte × Bool :=
  (s.seenByte c.core c.group c.id c.ctx none k, s.seenPoison c.core c.group c.id c.ctx none k)

/-- Places of a copy whose source is still to be read. -/
def Copy.unread (c : Copy) : List Nat :=
  (List.range c.srcs.length).filter fun i => (c.srcs.getD i none).isSome && !(c.read.any fun x => x.1 == i)

/-- The places that are read together with place `i`: the aligned 8-byte unit around it when the copy reads that whole (spec/12, R266). -/
def Copy.readUnit (c : Copy) (i : Nat) : List Nat :=
  match c.srcs.getD i none with
  | none => []
  | some k =>
    let at_ := fun (j : Nat) => i - k % 8 + j
    if k % 8 ≤ i && (List.range 8).all fun j => c.srcs[at_ j]? == some (some (k - k % 8 + j)) then
      ((List.range 8).map at_).filter fun j => !(c.read.any fun x => x.1 == j)
    else [i]

/-- A copy with some of its places read. -/
def State.readPlaces (s : State) (c : Copy) (is : List Nat) : Copy :=
  { c with read := c.read ++ is.filterMap fun i => (c.srcs.getD i none).map fun k => (i, s.sourceByte c k) }

/-- What a copy whose source is read has still to write. -/
def Copy.data (c : Copy) : List (Nat × Byte × Bool) :=
  (c.dsts.zipIdx.filter fun x => !c.wrote.contains x.1).map fun (k, i) =>
    (k, ((c.read.find? fun x => x.1 = i).map (·.2)).getD (0, false))

/-- Some bytes of a copy are written. -/
def State.writePart (s : State) (c : Copy) (part : List (Nat × Byte × Bool)) : State :=
  (s.noteLost (dieOf c.core) (part.map (·.1))).writeCopy (part.filter fun x => s.reaches (dieOf c.core) x.1)

/-- The bytes that a copy writes together with the one at `k`: the aligned 8-byte unit when it writes that whole
(spec/12, R266). -/
def Copy.unitOf (c : Copy) (k : Nat) : List Nat :=
  let u := (List.range 8).map (k / 8 * 8 + ·)
  if u.all c.dsts.contains then u else [k]

/-- The watches of kind COPY that a copy hits for the first time in writing some of its bytes, each with its first byte (spec/22, R397). -/
def State.copyHits (s : State) (c : Copy) (keys : List Nat) : List (Nat × Watch × Nat) :=
  match s.ctx? c.ctx with
  | none => []
  | some x =>
    let vas := ((c.dsts.zip c.dstVa).filter fun y => keys.contains y.1).map (·.2)
    x.dbg.watches.zipIdx.filterMap fun (w, i) =>
      if w.action = 0 || !w.copy || c.watched.contains i then none
      else (vas.find? fun a => decide (w.lo ≤ a) && decide (a < w.hi)).map fun a => (i, w, a)

/-- The WATCH record of a hit that finds its block gone: ORIGIN_EXITED and BLOCK_ENDED (spec/22, R397, Table 22.3). -/
def State.lateHit (s : State) (c : Copy) (i : Issued) (w a : Nat) : State :=
  let tail := leBytes 8 a
  s.traceRec c.ctx ([4, 7, BitVec.ofNat 8 c.num, BitVec.ofNat 8 w] ++ leBytes 4 i.x ++ leBytes 4 i.yz.toNat ++ leBytes 4 i.phase.toNat ++
    leBytes 4 c.pc.toNat ++ leBytes 4 i.grid ++ leBytes 8 s.clk ++ (tail ++ List.replicate (28 - tail.length) 0) ++ leBytes 4 (c.core % 4096))

/-- One hit: its record, and the stop of the block while any of its groups remains. -/
def State.copyHit (s : State) (c : Copy) (h : Nat × Watch × Nat) : State :=
  match s.block? c.block with
  | none => match c.gone with
    | some i => s.lateHit c i h.1 h.2.2
    | none => s
  | some b =>
    let origin := (s.groups.any fun g => g.id == c.group && !g.ended)
    let any := s.groups.any fun g => g.block == c.block && !g.ended
    let flags := 4 + (if origin then 0 else 1) + (if any then 0 else 2)
    let slot := ((s.group? c.group).map (·.slot)).getD 0
    let s := s.traceRec c.ctx (s.traceBytes b 4 flags c.num h.1 c.pc (leBytes 8 h.2.2) c.core slot)
    if !any || h.2.1.action = 1 then s else s.stopBlock b.id .watch c.num c.pc c.core slot

/-- Some bytes of a copy are written, and checked against the watches. -/
def State.copyPart (s : State) (c : Copy) (part : List (Nat × Byte × Bool)) : State :=
  let hits := s.copyHits c (part.map (·.1))
  hits.foldl (fun s h => s.copyHit c h) (s.writePart c part)

def State.setCopy (s : State) (c : Copy) : State := { s with copies := s.copies.map fun y => if y.id = c.id then c else y }

/-- A copy that may go on reads one unit, which `n` picks, or, once all its source is read, writes one before its other bytes. It writes
nothing before it has read everything (spec/13, R276). -/
def State.copyUnit (s : State) (c : Copy) (n : Nat) : State :=
  match c.unread, c.data with
  | i :: r, _ =>
    let l := i :: r
    s.setCopy (s.readPlaces c (c.readUnit (l.getD (n % l.length) i)))
  | [], [] => s
  | [], x :: r =>
    let l := x :: r
    let u := c.unitOf (l.getD (n % l.length) x).1
    let c' := { c with wrote := c.wrote ++ u, watched := c.watched ++ (s.copyHits c u).map (·.1) }
    ((s.copyPart c (l.filter fun y => u.contains y.1)).setCopy c').settleWaiters

/-- A copy reads and writes what it has left and sends its add. -/
def State.finishCopy (s : State) (c : Copy) : State :=
  let c := s.readPlaces c c.unread
  let s := s.copyPart c c.data
  let s : State := { s with
    copies := s.copies.filter fun x => x.id != c.id
    adds := s.adds ++ [⟨s.nextId, c.ctr, c.ctrVa, c.ctx, c.amount, if c.strip then none else some c.group, (c.dsts.map (· / 128)).eraseDups,
      some c.block, c.unit, false, dieOf c.core⟩]
    nextId := s.nextId + 1 }
  s.settleWaiters.wakeAll fun w => w == .streamer || w == .scoreboard

/-- COPY_COMPLETE. -/
def execCopyComplete (copyId : Nat) (s : State) : Res :=
  match s.copies.find? (fun c => c.id = copyId ∧ c.strip = false) with
  | none => .next s
  | some c => if s.copyReady c then .next (s.finishCopy c) else .next s

end Sys2Proof.Machine
end

