-- ==== Sys2Proof/Machine/Walk.lean ====
section
/-! DEFINITION. The History Field Table, the walk through motion fields, and the sampling of history surfaces and textures
(spec/15, R306 to R314, R326, R327). -/
namespace Sys2Proof.Machine

/-- What an engine read gives: a value, a deferred trap, a replayable fault at an address, or not yet. -/
inductive Got (α : Type) where
  | ok (v : α)
  | fail (t : Trap)
  | replay (va : Nat)
  | hold
  deriving DecidableEq, Repr

def Got.bind {α β : Type} (x : Got α) (f : α → Got β) : Got β :=
  match x with
  | .ok v => f v
  | .fail t => .fail t
  | .replay va => .replay va
  | .hold => .hold

/-- Values of a list in order; the first that is no value ends it. -/
def gotAll {α β : Type} (f : α → Got β) : List α → Got (List β)
  | [] => .ok []
  | x :: r => (f x).bind fun v => (gotAll f r).bind fun vs => .ok (v :: vs)

/-! Field records (spec/15, R306, R307). -/

def State.field (s : State) (ctx n : Nat) : Field := ((s.ctx? ctx).map (·.field n)).getD (.fresh n)

/-- The state record of a field in memory (spec/15, Table 15.2); the form of its LATCH is the HTU's own, and it is 0 until the first latch,
whose WIDTH is not 0. -/
def State.fieldRecord (s : State) (f : Field) : List Byte :=
  [BitVec.ofNat 8 f.state, BitVec.ofNat 8 f.span] ++ leBytes 2 f.gen ++ leBytes 2 ((f.fold.map (· + 2 ^ 15)).getD 0) ++
  leBytes 2 f.fgn ++ leBytes 2 f.fgo ++ leBytes 2 f.fgs ++
  (List.range 20).map fun i => if f.width = 0 then 0 else Config.freeByte (s.tick * 2 ^ 64 + 2 ^ 59 + 32 * f.num + i)

/-- The HTU writes a record into the state array, which stands at a physical address (spec/15, R306; notes/assumptions/121). -/
def State.writeField (s : State) (ctx : Nat) (f : Field) : State :=
  let base := ((s.ctx? ctx).map (·.histStates)).getD 0 + 32 * f.num
  s.sendKeys 0 ((List.range 32).map (base + ·)) (s.fieldRecord f)

/-- The state array of a context whose table has just been set: records that have not changed stand at their reset values (spec/15,
R306, R307). -/
def State.writeFields (s : State) (ctx : Nat) : State :=
  (List.range (((s.ctx? ctx).map (·.histCount)).getD 0)).foldl (fun s n => s.writeField ctx (s.field ctx n)) s

/-- The HTU changes a state record (spec/15, R306, R307). -/
def State.setField (s : State) (ctx : Nat) (f : Field) : State :=
  (s.updCtx ctx fun c => { c with fields := f :: c.fields.filter fun x => x.num != f.num }).writeField ctx f

/-- A history fault (spec/15, R316). -/
def histTrap (field reason : Nat) : Trap := ⟨.capBounds, d64 (field % 2 ^ 32 + 2 ^ 32 * (2 ^ 31 + reason))⟩

/-! Entries (spec/15, Table 15.4). -/

structure Motion where
  dx : Int
  dy : Int
  v : Bool
  e : Bool
  deriving DecidableEq, Repr

def motionOf (w : Nat) : Motion := ⟨signedOf 14 (w / 2 ^ 18), signedOf 14 (w / 2 ^ 4), bitAt w 3, bitAt w 2⟩
def Motion.word (m : Motion) : Nat :=
  (BitVec.ofInt 14 m.dx).toNat * 2 ^ 18 + (BitVec.ofInt 14 m.dy).toNat * 2 ^ 4 + nb m.v * 8 + nb m.e * 4

/-- A number of `n` bytes at a virtual address as an engine of a die reads it for its operation `who`: home memory, with its
faults; a page that was declined is fatal (spec/21, R379). -/
def State.engineNum (s : State) (die ctx who va n : Nat) : Got Nat :=
  if s.declinedFor ctx va (fun r => r.prods.contains who) then .fail ⟨.pageFault, d64 va⟩ else
  match s.translate (dieSite die) ctx va .rd with
  | .hold => .hold
  | .ok k =>
    if (List.range n).any fun i => s.heldByLoft (k + i) then .hold
    else if s.poisonIn k n then .fail ⟨.poison, d64 va⟩
    else .ok (s.numAt k n)
  | .replay => .replay va
  | .pageFault => .fail ⟨.pageFault, d64 va⟩
  | .xlatePerm => .fail ⟨.xlatePerm, d64 va⟩

/-- The virtual address of the entry of a cell. -/
def Field.entryVa (f : Field) (cx cy : Nat) : Nat := f.entries + 4 * (cy * f.width + cx)

/-- An entry as a fold reads it. -/
def State.entryAt (s : State) (die ctx who : Nat) (f : Field) (cx cy : Nat) : Got Motion :=
  (s.engineNum die ctx who (f.entryVa cx cy) 4).bind fun w => .ok (motionOf w)

/-- A word of a field's entries that a cluster's field cache may serve: whether it does is free (spec/15, R321). -/
def State.fieldHit (s : State) (cluster ctx field va : Nat) : Option (Option Nat) :=
  if !Config.freeBit (s.tick * 2 ^ 64 + 2 ^ 63 + va / 128) then none else
  (s.fcache.find? fun l => l.cluster = cluster ∧ l.ctx = ctx ∧ l.field = field ∧ l.va = va / 128 * 128).bind fun l => l.words[va % 128 / 4]?

/-- An entry as a walk on a core's cluster reads it. -/
def State.walkEntry (s : State) (core ctx who : Nat) (f : Field) (cx cy : Nat) : Got Motion :=
  let va := f.entryVa cx cy
  match s.fieldHit (clusterOf core) ctx f.num va with
  | some (some w) => .ok (motionOf w)
  | some none => .fail ⟨.poison, d64 va⟩
  | none => s.entryAt (dieOf core) ctx who f cx cy

/-- The cluster's field cache of 16 KiB takes the line of an entry; which line goes is free (spec/15, R325). -/
def State.fillField (s : State) (core ctx : Nat) (f : Field) (cx cy : Nat) : State :=
  let cl := clusterOf core
  let va := f.entryVa cx cy / 128 * 128
  if s.fcache.any fun l => l.cluster == cl && l.ctx == ctx && l.field == f.num && l.va == va then s else
  match s.translate core ctx va .rd with
  | .ok k =>
    let words := (List.range 32).map fun i => if s.poisonAt (k + 4 * i) then none else some (s.numAt (k + 4 * i) 4)
    let mine := s.fcache.filter fun l => l.cluster == cl
    let kept := if mine.length < 128 then mine else mine.eraseIdx (Config.freeNat (s.tick * 2 ^ 64 + 2 ^ 63 + va / 128) % 128)
    { s with fcache := ⟨cl, ctx, f.num, va, words⟩ :: kept ++ s.fcache.filter fun l => l.cluster != cl }
  | _ => s

/-! The walk (spec/15, R311, R312). -/

/-- A position outside a field. -/
def Field.outside (f : Field) (px py : Int) : Bool :=
  decide (px < 0) || decide (py < 0) || decide ((16 * f.width * 2 ^ f.cellk : Nat) ≤ px) || decide ((16 * f.height * 2 ^ f.cellk : Nat) ≤ py)

/-- The fold of a field, when it is linked. -/
def Ctx.linked (c : Ctx) (g : Field) : Option Field :=
  match g.fold, g.parent with
  | some s, some p =>
    if g.gen = g.fgn ∧ (c.field p).gen = g.fgo ∧ (c.field s).gen = g.fgs ∧ (c.field s).state = 2 then some (c.field s) else none
  | _, _ => none

/-- The chain of folds from a field whose spans are at most `r`, longest first; spans are at most 64. -/
def Ctx.chain (c : Ctx) (r : Nat) : Nat → Field → List Field
  | 0, g => [g]
  | n + 1, g =>
    match c.linked g with
    | some s => if s.span ≤ r then c.chain r n s ++ [g] else [g]
    | none => [g]

/-- The cell of a position. -/
def Field.cell (f : Field) (px py : Int) : Nat × Nat := (px.toNat / 16 / 2 ^ f.cellk, py.toNat / 16 / 2 ^ f.cellk)

/-- The entry that a chain gives for a position: none without an ancestor. The last of the list is the field F itself. -/
def State.pick (s : State) (core ctx who : Nat) (px py : Int) : List Field → Got (Option (Field × Motion))
  | [] => .ok none
  | h :: r =>
    if h.outside px py then .ok none else
    (s.walkEntry core ctx who h (h.cell px py).1 (h.cell px py).2).bind fun e =>
      if !e.v then .ok none
      else if e.e && decide (2 ≤ h.span) && !r.isEmpty then s.pick core ctx who px py r
      else .ok (some (h, e))

/-- The chain that a walk reads at its present field. -/
def Ctx.walkChain (c : Ctx) (l : HistLane) : List Field := c.chain l.left 64 (c.field l.cur)

/-- One turn of a walk at its present field; an OPEN field holds it (spec/15, R311). -/
def State.walkStep (s : State) (core who : Nat) (c : Ctx) (l : HistLane) : Got HistLane :=
  let fd := c.field l.cur
  if fd.state = 1 then .hold
  else if fd.state = 0 ∨ l.left < fd.span then .ok { l with halt := some none }
  else
    (s.pick core c.num who l.pos.1 l.pos.2 (c.walkChain l)).bind fun x => match x with
      | none => .ok { l with halt := some none, reading := [] }
      | some (h, e) =>
        let l := { l with pos := (l.pos.1 + e.dx, l.pos.2 + e.dy), left := l.left - h.span, reading := [] }
        if l.left = 0 then .ok l else
        match h.parent with
        | none => .ok { l with halt := some none }
        | some q => .ok (if c.histCount ≤ q then { l with halt := some none } else { l with cur := q })

/-- The frame of its first field is read as a walk starts. -/
def HistLane.begin (c : Ctx) (l : HistLane) : HistLane := { l with frame := some (l.frame.getD (c.field l.field).frame) }

/-- A walk goes on by at most so many turns: the state with what its cluster has cached, and the walk. One that meets a replay or an
all-bank pseudo-channel is still reading its fields. -/
def State.walkOn (s : State) (core who ctx : Nat) : Nat → HistLane → State × HistLane
  | 0, l => (s, l)
  | k + 1, l =>
    match s.ctx? ctx with
    | none => (s, { l with halt := some none })
    | some c =>
      if l.over then (s, l) else
      let c := s.walkView c l.reading
      let l := l.begin c
      match s.walkStep core who c l with
      | .ok l' =>
        let s := (c.walkChain l).foldl (fun s h => if h.state = 2 && !h.outside l.pos.1 l.pos.2 then
          s.fillField core ctx h (h.cell l.pos.1 l.pos.2).1 (h.cell l.pos.1 l.pos.2).2 else s) s
        s.walkOn core who ctx k l'
      | .fail t => (s, { l with halt := some (some t), reading := [] })
      | _ => (s, if (c.field l.cur).state = 2 then { l with reading := (c.walkChain l).map (·.num) } else l)

/-- Changes the lanes of a producer's walks. -/
def State.setWalks (s : State) (id : Nat) (ls : List HistLane) : State :=
  { s with producers := s.producers.map fun (q : Producer) => if q.id = id then
      { q with work := match q.work with | .hist form p pc _ => .hist form p pc ls | w => w } else q }

/-- A walk that its cluster's HTU runs: it has started and has not ended. One that waits on an OPEN field is among them
(notes/assumptions/120). -/
def HistLane.runs (l : HistLane) : Bool := l.frame.isSome && !l.over

/-- The lane walks that the HTU of a cluster runs. -/
def State.htuWalks (s : State) (cluster : Nat) : Nat :=
  ((s.producers.filter fun p => ((s.group? p.group).map fun g => clusterOf g.core == cluster).getD false).map fun p => match p.work with
    | .hist _ _ _ ls => (ls.filter (·.runs)).length
    | _ => 0).foldl (· + ·) 0

/-- The walks of a producer go on: all of them as far as they can, or the one that `n` picks by one turn. A walk starts when it is one of
the 64 that its HTU runs at once (spec/15, R325). -/
def State.walkLanes (s : State) (g : Group) (p : Producer) (one : Option Nat) : State :=
  match p.work with
  | .hist _ _ _ ls =>
    let room := 64 - s.htuWalks (clusterOf g.core)
    let go := fun (x : State × List HistLane) (l : HistLane × Nat) =>
      let fuel := if l.1.frame.isNone && decide (room ≤ ((ls.take l.2).filter fun y => y.frame.isNone).length) then 0 else
        match one with | some n => if n % ls.length = l.2 then 1 else 0 | none => l.1.n
      let r := x.1.walkOn g.core p.id (s.ctxOf g) fuel l.1
      (r.1, x.2 ++ [r.2])
    let r := ls.zipIdx.foldl go (s, [])
    r.1.setWalks p.id r.2
  | _ => s

/-! Samples (spec/15, R310, R314). -/

/-- Bytes of an element by format code. -/
def texBytes (fmt : Nat) : Nat :=
  match fmt with
  | 0 => 4 | 1 => 2 | 2 => 2 | 7 => 8 | _ => 1

/-- The exact value of an element. -/
def texValue (fmt v : Nat) : Num :=
  match fmt with
  | 0 => Lay.f32.read v
  | 1 => Lay.f16.read v
  | 2 => Lay.bf16.read v
  | 3 => narrowRead .e4m3 v
  | 4 => narrowRead .e5m2 v
  | 5 => .ofInt false (signedOf 8 v) 1
  | 6 => .ofInt false (v % 256 : Nat) 1
  | _ => Lay.f64.read v

/-- Where an element of a capability lies for an engine's operation `who` of a group: its address, its key, and its virtual
address when it has one. -/
def State.groupKey (s : State) (g : Group) (who : Nat) (u : MemUse) (q : QWord) (operand : Nat) (off : Int) (n : Nat) :
    Got (Nat × Nat × Option Nat) :=
  match s.block? g.block, s.capCheck (s.ctxOf g) q true operand u with
  | none, _ => .fail ⟨.capBounds, 0⟩
  | _, some t => .fail t
  | some b, none =>
    match s.place b q off n with
    | .error t => .fail t
    | .ok (a, some k) => .ok (a, k, none)
    | .ok (a, none) =>
      if s.declinedFor (s.ctxOf g) a (fun r => r.prods.contains who) then .fail ⟨.pageFault, d64 a⟩ else
      match s.translate g.core (s.ctxOf g) a u.need with
      | .ok k => .ok (a, k, some a)
      | .hold => .hold
      | .replay => .replay a
      | .pageFault => .fail ⟨.pageFault, d64 a⟩
      | .xlatePerm => .fail ⟨.xlatePerm, d64 a⟩

/-- A number that an engine reads there for a group, as a load of the group in program order. -/
def State.groupNum (s : State) (g : Group) (who : Nat) (u : MemUse) (q : QWord) (operand : Nat) (off : Int) (n : Nat) : Got Nat :=
  (s.groupKey g who u q operand off n).bind fun (a, k, va) =>
    if s.redPending g.core g.id who k n || s.boarded k n || s.heldByLoft k then (.hold : Got Nat)
    else if s.seenPoison g.core g.id who (s.ctxOf g) va k then .fail ⟨.poison, d64 a⟩
    else .ok (leNat ((List.range n).map fun i => s.seenByte g.core g.id who (s.ctxOf g) va (k + i)))

/-- An element that a sample reads (spec/15, R313, R317). -/
def State.sampleNum (s : State) (g : Group) (before : Nat) (q : QWord) (operand : Nat) (off : Int) (n : Nat) : Got Nat :=
  s.groupNum g before ⟨[0, 5, 1], [0], .rd, n, false⟩ q operand off n

/-- A header that could not be read at the instruction, in units of 16 bytes (spec/21, R378). -/
def State.sampleHeader (s : State) (g : Group) (before : Nat) (q : QWord) (operand n : Nat) : Got (List Byte) :=
  (gotAll (fun i => s.sampleNum g before q operand ((16 * i : Nat) : Int) 16) (List.range (n / 16))).bind fun vs => .ok (vs.flatMap (leBytes 16))

/-! Headers. -/

/-- The number in bytes of a header. -/
def hdr (b : List Byte) (i n : Nat) : Nat := leNat ((b.drop i).take n)
def hdrZero (b : List Byte) (i n : Nat) : Bool := ((b.drop i).take n).all (· == 0)

/-- The surface that a header describes. -/
def surfFrom (cap : QWord) (operand chan : Nat) (b : List Byte) : Surf :=
  ⟨cap, operand, hdr b 0 1, hdr b 1 1, hdr b 4 2, hdr b 6 2, hdr b 8 4, hdr b 12 4, hdr b 16 8, chan⟩

/-- A surface header that keeps Table 15.5. -/
def surfOf (cap : QWord) (operand chan : Nat) (b : List Byte) : Option Surf :=
  let u := surfFrom cap operand chan b
  if decide (u.fmt ≤ 7) && decide (1 ≤ u.chans) && decide (u.chans ≤ 64) && hdrZero b 2 2 && u.width != 0 && u.height != 0 &&
      u.rpitch % 16 == 0 && decide (1 ≤ u.ring) && decide (u.ring ≤ 65535) && u.fstride % 16 == 0 && hdrZero b 24 40 then some u else none

/-- The checks of a surface by its header (spec/15, R317). -/
def surfCheck (cap : QWord) (operand chan : Nat) (b : List Byte) : Except Trap Surf :=
  match surfOf cap operand chan b with
  | none => .error (histTrap 0 5)
  | some u => if u.chans ≤ chan then .error (histTrap 0 6) else .ok u

/-- The texture that a header describes. -/
def texelFrom (cap : QWord) (operand : Nat) (b : List Byte) : Texel :=
  ⟨cap, operand, hdr b 0 1, hdr b 1 1, hdr b 4 2, hdr b 6 2, hdr b 16 8,
    (List.range (hdr b 2 1)).map fun l => (hdr b (64 + 16 * l) 8, hdr b (72 + 16 * l) 4, hdr b (76 + 16 * l) 4)⟩

/-- A texture header that keeps Table 15.9, with its count of layers. -/
def texelOf (cap : QWord) (operand : Nat) (b : List Byte) : Option (Texel × Nat) :=
  let n := hdr b 2 1
  let t := texelFrom cap operand b
  if decide (t.fmt ≤ 7) && decide (1 ≤ t.chans) && decide (t.chans ≤ 4) && decide (1 ≤ n) && decide (n ≤ 15) && hdrZero b 3 1 &&
      t.width != 0 && t.height != 0 && hdr b 8 2 != 0 && hdrZero b 10 6 && hdrZero b 24 40 &&
      t.levels.all (fun l => l.2.1 % 16 == 0) then some (t, hdr b 8 2) else none

/-- The checks of a texture by its header (spec/15, R327). -/
def texelCheck (cap : QWord) (operand level layer : Nat) (b : List Byte) : Except Trap Texel :=
  match texelOf cap operand b with
  | none => .error (histTrap 0 5)
  | some (t, layers) => if t.levels.length ≤ level ∨ layers ≤ layer then .error (histTrap 0 6) else .ok t

/-- Weighted taps of a position in sixteenths: offsets in x and y, and the weight. -/
def tapsOf (fx fy : Nat) : List (Nat × Nat × Nat) :=
  ([(0, 0, (16 - fx) * (16 - fy)), (1, 0, fx * (16 - fy)), (0, 1, (16 - fx) * fy), (1, 1, fx * fy)]).filter fun t => t.2.2 != 0

/-- The filtered value of weighted texels, rounded once by RNE into binary32 (spec/15, R314). -/
def filterOf (ts : List (Nat × Num)) : Nat :=
  if ts.any (fun t => t.2.isNan) || (ts.any (fun t => t.2 == .inf false) && ts.any (fun t => t.2 == .inf true)) then 0x7FC00000
  else if ts.any (fun t => t.2 == .inf false) then 0x7F800000
  else if ts.any (fun t => t.2 == .inf true) then 0xFF800000
  else
    let sum := ts.foldl (fun (a : Int × Nat) t => match t.2 with
      | .fin sg n q => (a.1 * q + sgn sg (n * t.1) * a.2, a.2 * q)
      | _ => a) (0, 1)
    (Lay.f32.round .rne (.ofInt false sum.1 (sum.2 * 256))).1

/-- Position split into a whole part and sixteenths. -/
def splitPos (p : Int) : Int × Nat := (p / 16, (p % 16).toNat)

/-- The sample of a surface at a position of frame `t`; none without an ancestor. -/
def State.sampleSurf (s : State) (g : Group) (before : Nat) (u : Surf) (px py : Int) (t : Nat) : Got (Option Nat) :=
  let (x0, fx) := splitPos px
  let (y0, fy) := splitPos py
  if x0 < 0 ∨ y0 < 0 ∨ (u.width : Int) ≤ x0 ∨ (u.height : Int) ≤ y0 ∨ (fx ≠ 0 ∧ (u.width : Int) ≤ x0 + 1) ∨
      (fy ≠ 0 ∧ (u.height : Int) ≤ y0 + 1) then .ok none
  else
    let es := texBytes u.fmt
    let slot := 64 + t % u.ring * u.fstride
    let addr := fun (a b : Nat) => ((slot + (y0.toNat + b) * u.rpitch + ((x0.toNat + a) * u.chans + u.chan) * es : Nat) : Int)
    (gotAll (fun tap => (s.sampleNum g before u.cap u.operand (addr tap.1 tap.2.1) es).bind fun v => .ok (tap.2.2, texValue u.fmt v))
      (tapsOf fx fy)).bind fun ts => .ok (some (filterOf ts))

/-! Textures (spec/15, R326, R327). -/

def clampTo (n : Nat) (x : Int) : Nat := if x < 0 then 0 else min x.toNat (n - 1)

/-- The taps of a level: texel coordinates and weights. -/
def Texel.taps (t : Texel) (lvl : Nat) (u v : Int) : List (Nat × Nat × Nat) :=
  let (x0, fx) := splitPos (u / (2 ^ lvl : Nat))
  let (y0, fy) := splitPos (v / (2 ^ lvl : Nat))
  (tapsOf fx fy).map fun tap =>
    (clampTo (max 1 (t.width / 2 ^ lvl)) (x0 + tap.1), clampTo (max 1 (t.height / 2 ^ lvl)) (y0 + tap.2.1), tap.2.2)

/-- Whether all taps of a level lie in resident tiles. -/
def State.residentTaps (s : State) (g : Group) (before : Nat) (t : Texel) (layer lvl lmap : Nat) : List (Nat × Nat × Nat) → Got Bool
  | [] => .ok true
  | (x, y, _) :: r =>
    let j := y / 64 * ((max 1 (t.width / 2 ^ lvl) + 63) / 64) + x / 64
    (s.sampleNum g before t.cap t.operand ((layer * t.lstride + lmap + j / 8 : Nat) : Int) 1).bind fun b =>
      if bitAt b (j % 8) then s.residentTaps g before t layer lvl lmap r else .ok false

/-- The first resident level from `lvl` over the levels that remain: its number and its four words. -/
def State.texFrom (s : State) (g : Group) (before : Nat) (l : TexLane) : Nat → List (Nat × Nat × Nat) → Got (Option (Nat × List Word))
  | _, [] => .ok none
  | lvl, (loff, lpitch, lmap) :: r =>
    let t := l.tex
    let taps := t.taps lvl l.u l.v
    (s.residentTaps g before t l.layer lvl lmap taps).bind fun yes =>
      if !yes then s.texFrom g before l (lvl + 1) r else
      let es := texBytes t.fmt
      (gotAll (fun ch => (gotAll (fun tap =>
          (s.sampleNum g before t.cap t.operand
            ((l.layer * t.lstride + loff + tap.2.1 * lpitch + (tap.1 * t.chans + ch) * es : Nat) : Int) es).bind fun v =>
              .ok (tap.2.2, texValue t.fmt v)) taps).bind fun ts => .ok (w32 (filterOf ts)))
        (List.range t.chans)).bind fun ws => .ok (some (lvl, ws ++ List.replicate (4 - t.chans) 0))

/-! Results of lanes. -/

/-- A value of one lane with its predicate; a deferred trap gives p 0 (spec/15, R317). -/
def laneOf (d : Dest) (p : Fin 8) (r : Got (List Word × Bool × Option Trap)) : Got LaneVal :=
  match r with
  | .ok (ws, b, t) => .ok ⟨d, ws, false, false, t, 0, some (p, b)⟩
  | .fail t => .ok ⟨d, [], false, false, some t, 0, some (p, false)⟩
  | .replay va => .replay va
  | .hold => .hold

/-- A header read after the instruction: one that does not keep its table faults the destination (notes/assumptions/101). -/
def Got.checked {α : Type} (x : Got (List Byte)) (check : List Byte → Except Trap α) : Got α :=
  x.bind fun b => match check b with
    | .ok v => .ok v
    | .error t => .fail t

/-- The surface of a lane, whose header may still have to be read. -/
def State.laneSurf (s : State) (g : Group) (before : Nat) (l : HistLane) : Got (Option Surf) :=
  match l.surf with
  | some u => if l.headless then
      ((s.sampleHeader g before u.cap u.operand 64).checked (surfCheck u.cap u.operand u.chan)).bind fun v => .ok (some v)
    else .ok (some u)
  | none => .ok none

/-- One lane of HLD, HLD.F or HLDP whose walk has ended; one that has not holds the producer (spec/15, Table 15.7). -/
def State.histLane (s : State) (g : Group) (before form : Nat) (p : Fin 8) (l : HistLane) : Got LaneVal :=
  let none_ : List Word × Bool × Option Trap :=
    if form = 2 then ([0x80000000, 0x80000000], false, none)
    else if form = 1 then ([], false, some ⟨.disocclusion, d64 ((BitVec.ofInt 32 l.x).toNat + 2 ^ 32 * (BitVec.ofInt 32 l.y).toNat)⟩)
    else ([0], false, none)
  laneOf l.dest p ((s.laneSurf g before l).bind fun surf =>
    match l.halt, s.ctx? (s.ctxOf g) with
    | some none, _ => .ok none_
    | some (some t), _ => .fail t
    | none, none => .ok none_
    | none, some c =>
      if l.left ≠ 0 then (s.walkStep g.core before (s.walkView c l.reading) l).bind fun _ => .hold else
      match surf with
      | none => .ok ([BitVec.ofInt 32 l.pos.1, BitVec.ofInt 32 l.pos.2], true, none)
      | some u => (s.sampleSurf g before u l.pos.1 l.pos.2 ((l.frame.getD 0 + 2 ^ 32 - l.n) % 2 ^ 32)).bind fun v => match v with
          | some w => .ok ([w32 w], true, none)
          | none => .ok none_)

/-- The texture of a lane, whose header may still have to be read. -/
def State.laneTex (s : State) (g : Group) (before : Nat) (l : TexLane) : Got Texel :=
  if l.headless then (s.sampleHeader g before l.tex.cap l.tex.operand 304).checked (texelCheck l.tex.cap l.tex.operand l.level l.layer)
  else .ok l.tex

/-- One lane of TEX (spec/15, R327). -/
def State.texLane (s : State) (g : Group) (before : Nat) (p : Fin 8) (l : TexLane) : Got LaneVal :=
  laneOf l.dest p ((s.laneTex g before l).bind fun t =>
    (s.texFrom g before { l with tex := t } l.level (t.levels.drop l.level)).bind fun r =>
      match r with
      | none => .ok ([0, 0, 0, 0], false, none)
      | some (lvl, ws) => .ok (ws, lvl == l.level, none))

end Sys2Proof.Machine
end

