-- ==== Sys2Proof/Machine/Granary.lean ====
section
/-! DEFINITION. Granary: MARK, TTBIND, and the entries of a bound timetable (spec/13, R299 to R303; spec/19, R362, R363). -/
namespace Sys2Proof.Machine

/-! MARK (spec/13, R302). -/

/-- Entries whose absence a MARK of `n` misses: FETCH, EVICT and KVSTAGE with a deadline up to it. -/
def Entry.due (e : Entry) (n : Nat) : Bool := (e.action == 0 || e.action == 1 || e.action == 3) && decide (e.deadline ≤ n)

/-- The sub-cause of an entry that is missed. -/
def Entry.miss (e : Entry) : Option Nat :=
  match e.state with
  | .complete => if e.integrity then some 1 else none
  | .failed => some 2
  | _ => some 0

/-- The lowest entry that a MARK misses. -/
def Timetable.missed (t : Timetable) (n : Nat) : Option (Nat × Nat) :=
  t.entries.zipIdx.findSome? fun (e, i) => if e.due n then e.miss.map fun m => (i, m) else none

/-- Changes one entry. -/
def Timetable.upd (t : Timetable) (i : Nat) (f : Entry → Entry) : Timetable :=
  { t with entries := match t.entries[i]? with | some e => t.entries.set i (f e) | none => t.entries }

/-- The grid of a group. -/
def State.gridOf (s : State) (g : Group) : Option Grid :=
  ((s.block? g.block).bind fun b => s.sheaf? b.sheaf).bind fun sh => s.grid? sh.grid

def execMark (i : BitVec 17) (s : State) : Res :=
  .next (s.issue ⟨[], [], true, .own⟩ (onceBody fun s g _ _ =>
    match s.gridOf g with
    | none => .go {} id
    | some gr =>
      match gr.table with
      | none => .go {} fun t => t.sideEffect g
      | some tab =>
        let raise := fun (t : State) => (t.sideEffect g).updGrid gr.id fun x => { x with marker := max x.marker i.toNat }
        match tab.missed i.toNat with
        | none => .go {} raise
        | some (e, m) => .trapWith ⟨.scheduleMiss, d64 (e + 2 ^ 32 * m)⟩ fun t =>
          (raise t).updGrid gr.id fun x => { x with table := x.table.map fun y => if m = 1 then y.upd e fun z => { z with integrity := false } else y }))

/-! TTBIND (spec/13, R299, R300). -/

/-- An entry as its 32 bytes give it. -/
def State.entryOf (s : State) (ctx : Nat) (keys : Nat → Nat) (base : Nat) : Entry :=
  let num := fun (i n : Nat) => leNat ((List.range n).map fun j => s.byteAt (keys (base + i + j)))
  let obj : QWord := BitVec.ofNat 128 (num 0 16)
  let tag := s.tagAt (keys base) && !isOutside (keys base)
  let action := num 22 1
  let tier := num 23 1
  let ok := tag && !s.stale ctx obj && capSpace obj == 0 && capPerm obj 0 && decide (num 16 4 < 131072) &&
    decide (action < 4) && tier == (if action = 1 then 2 else 0) && num 24 8 == 0
  ⟨obj, tag, num 16 4, num 20 2, action, ok, if ok then .waiting else .failed, false⟩

/-- The bound timetable. -/
def State.readTable (s : State) (g : Group) (e : Extent) (n ctrBase : Nat) : Timetable :=
  ⟨dieOf g.core, ctrBase, (List.range n).map fun i => s.entryOf (s.ctxOf g) e.key (e.a + 32 * i)⟩

def execTtbind (fb fa : Bool) (b a : Quad) (s : State) : Res :=
  .next (s.issue ⟨[.quad a 0 fa, .quad b 0 fb], [], true, .own⟩ (onceBody fun s g c f =>
    let q := g.quad f a
    let len := capLen q
    let cq := g.quad f b
    if len % 32 ≠ 0 ∨ len < 32 ∨ 2097152 < len then .trap ⟨.capBounds, d64 (capBase q)⟩
    else
      let n := len / 32
      let mis := fun (q : QWord) (m : Nat) => if capBase q % m ≠ 0 then some (⟨.misaligned, d64 (capBase q)⟩ : Trap) else none
      match s.extent g f.lane ⟨[0, 5], [0], .rd, len, false⟩ q (g.tagOf f a) (a.field 0) 0 len (mis q 32) with
      | .trap t => .trap t
      | .hold => .wait .held id
      | .replay va => .wait .replay fun t => t.awaitReplay g c.lanes va
      | .ok e =>
        match s.extent g f.lane .counter cq (g.tagOf f b) (b.field 0) 0 (8 * n) (mis cq 8) with
        | .trap t => .trap t
        | .hold => .wait .held id
        | .replay va => .wait .replay fun t => t.awaitReplay g c.lanes va
        | .ok k => .go {} fun t =>
          let t := (((t.hearDeclined g.id c.lanes).noteExtent g e).noteExtent g k).sideEffect g
          match t.gridOf g with
          | none => t
          | some gr =>
            if gr.table.isSome then t else
            let tab := t.readTable g e n (capBase cq)
            let t := t.updGrid gr.id fun x => { x with table := some tab, marker := 0 }
            { t with errlog := t.errlog ++ (tab.entries.zipIdx.filter fun x => !x.1.valid).map fun x => .entryFailed gr.id x.2 }))

/-! Entries (spec/13, R301). -/

/-- The binding lasts while blocks of the grid are placed or wait to be. -/
def State.gridLive (s : State) (gid : Nat) : Bool :=
  s.sheaves.any (fun sh => sh.grid == gid) || s.pending.any (fun p => p.grid == gid)

def Entry.startable (e : Entry) (marker : Nat) : Bool := e.state == .waiting && e.valid && decide (e.deadline - e.lead ≤ marker)
def Timetable.running (t : Timetable) : Nat := (t.entries.filter fun e => e.state == .running).length

/-- Entries that a die's Granary runs. -/
def State.granaryLoad (s : State) (die : Nat) : Nat :=
  ((s.grids.filterMap (·.table)).map fun t => if t.die = die then t.running else 0).foldl (· + ·) 0

/-- The next entry of a grid that may start. -/
def State.nextEntry (s : State) (g : Grid) : Option Nat :=
  match g.table with
  | none => none
  | some t =>
    if s.gridLive g.id && decide (s.granaryLoad t.die < 16) then
      (t.entries.zipIdx.find? fun x => x.1.startable g.marker).map (·.2)
    else none

/-- GRANARY_ENTRY_START. -/
def execGranaryEntryStart (grid entry : Nat) (s : State) : Res :=
  match (s.grid? grid).bind s.nextEntry with
  | some e =>
    if e = entry then
      .next (s.updGrid grid fun x => { x with table := x.table.map fun t => t.upd entry fun y => { y with state := .running } })
    else .next s
  | none => .next s

/-- The offset of a key in the page of a leaf, when it lies there. -/
def Leaf.offset (l : Leaf) (va k : Nat) : Option Nat :=
  let base := va / 2 ^ l.size * 2 ^ l.size
  if entryMi l.entry then
    ((List.range 16).find? fun i => l.key (base + 4096 * i) / 4096 = k / 4096).map fun i => 4096 * i + k % 4096
  else if l.key base ≤ k ∧ k < l.key base + 2 ^ l.size then some (k - l.key base) else none

/-- The page of a leaf lies where a migration takes it: in host memory, or on the stack of a die. -/
def Leaf.homed (l : Leaf) (evict : Bool) (die : Nat) : Bool :=
  if evict then entryTgt l.entry == 2
  else !entryMi l.entry && entryTgt l.entry == 0 && entryAddr l.entry / 2 ^ 48 == die

/-- Keys that a producer holds translated. -/
def Work.keys : Work → List Nat
  | .atomic _ _ ls => ls.map (·.2.key)
  | .tri _ _ ws => ws.map (·.key)
  | .cread k _ => [k]
  | .ctest k _ _ _ => [k]
  | .ext _ bs => bs.map (·.key)
  | _ => []

/-- An access in flight holds a key of a page: the page moves once it is done. -/
def State.pageBusy (s : State) (inPage : Nat → Bool) : Bool :=
  s.groups.any (·.mloop.isSome) || s.stores.any (fun p => p.work.keys.any inPage) || s.adds.any (fun a => inPage a.ctr) ||
  s.producers.any (fun p => p.work.keys.any inPage) ||
  s.copies.any (fun c => inPage c.ctr || c.dsts.any inPage || c.srcs.any fun k => match k with | some k => inPage k | none => false)

/-- The bytes that a leaf maps. -/
def Leaf.ranges (l : Leaf) : List (Nat × Nat) :=
  if entryMi l.entry then (List.range 16).map fun i => (l.key (4096 * i), l.key (4096 * i) + 4096)
  else [(l.key 0, l.key 0 + 2 ^ l.size)]

/-- Bytes that are in use: those that hold something, pages that have moved, and pages that any entry in memory maps. -/
def State.usedRanges (s : State) : List (Nat × Nat) :=
  (s.mem ++ s.dirty ++ s.late).map (fun c => (c.1, c.1 + 1)) ++ (s.tags ++ s.poison).map (fun gr => (16 * gr, 16 * gr + 16)) ++
  s.moved.flatMap (fun m => Leaf.ranges ⟨m.size, m.new⟩) ++
  ((s.mem.map (·.1 / 8)).eraseDups).flatMap fun w =>
    let e := s.numAt (8 * w) 8
    if !entryV e || !entryLeaf e then [] else
    (walkLevels.filter fun x => !entryMalformed x.1 x.2.1 e).flatMap fun x => Leaf.ranges ⟨x.2.1, e⟩

/-- The first frame of 2^`size` bytes from `a` upward that meets no range in use; from `hi` on the search goes on at `lo`. -/
def freeFrame (used : List (Nat × Nat)) (lo hi size : Nat) : Nat → Nat → Nat
  | 0, a => a
  | n + 1, a =>
    match used.find? fun r => decide (r.1 < a + 2 ^ size) && decide (a < r.2) with
    | none => a
    | some r =>
      let b := (r.2 + 2 ^ size - 1) / 2 ^ size * 2 ^ size
      freeFrame used lo hi size n (if hi ≤ b then lo else b)

/-- The frame, as a key, that a page of 2^`size` bytes moves to: any of host memory or of a die's stack that is not in use; the spec does
not say who chooses it (notes/assumptions/112). A stack's addresses are taken to run to 2^37, two HBM devices of 2^36 bytes as R364 lays
them out, where R1 and R4 give a device 64 * 10^9 (notes/assumptions/108). -/
def State.frameFor (s : State) (evict : Bool) (die size : Nat) : Nat :=
  let lo := if evict then hostKey 0 else die * 2 ^ 48
  let room := if evict then 48 else 37
  let used := s.usedRanges
  freeFrame used lo (lo + 2 ^ room) size (2 * used.length + 2) (lo + Config.freeNat (s.tick * 2 ^ 64 + 2 ^ 58) % 2 ^ (room - size) * 2 ^ size)

/-- A page moves: its bytes and poison to the new frame, its tags as well unless they pass through host memory or a peer
(spec/07, R155). The device finds it there from now on, while its entry in the tables, which the device never writes, stands as it is
(spec/10, R224; notes/assumptions/31); kept translations of it are dropped, and waiters follow their counters. -/
def State.movePage (s : State) (ctx va : Nat) (l : Leaf) (evict : Bool) (die : Nat) : State :=
  let base := s.frameFor evict die l.size
  let addr := if evict then base - hostKey 0 else base
  let moved := fun (k : Nat) => (l.offset va k).map (base + ·)
  let grans := fun (gs : List Nat) => gs.filterMap fun gr => (moved (16 * gr)).map (· / 16)
  let kept := if evict || entryTgt l.entry != 0 then [] else grans s.tags
  let sick := grans s.poison
  let keys := (s.mem ++ s.dirty).map (·.1)
  let entry := l.entry % 32 + (if evict then 2 * 2 ^ 56 else 0) + addr
  let page := va / 2 ^ l.size
  let mine := fun (m : Moved) => m.ctx == ctx && m.size == l.size && m.page == page
  let old := ((s.moved.find? fun m => mine m && m.new == l.entry).map (·.old)).getD l.entry
  let t := keys.eraseDups.foldl (fun t k => match moved k with | some k' => t.putByte k' (s.byteAt k) | none => t) s
  { t with
    tags := (kept.foldl granSet (t.tags.filter fun gr => (moved (16 * gr)).isNone))
    poison := (sick.foldl granSet (t.poison.filter fun gr => (moved (16 * gr)).isNone))
    moved := ⟨ctx, l.size, page, old, entry⟩ :: t.moved.filter fun m => !mine m
    xlats := t.xlats.filter fun x => x.ctx != ctx || x.page * 65536 / 2 ^ l.size != page
    waiters := t.waiters.map fun w => { w with ctr := (moved w.ctr).getD w.ctr }
    acqs := t.acqs.map fun (k, ls) => ((moved k).getD k, ls) }

/-- What a part of an entry comes to: done, not yet, or failed. -/
inductive Part (α : Type) where
  | done (v : α)
  | later
  | failed
  deriving DecidableEq, Repr

/-- Pages of a migration must be free of accesses in flight before it moves them. -/
def State.migrateLater (s : State) (ctx : Nat) (evict : Bool) (die : Nat) (pages : List Nat) : Bool :=
  pages.any fun p => match s.walk ctx (p * 65536) with
    | .held => true
    | .leaf l => !l.homed evict die && (s.pageBusy (fun k => (l.offset (p * 65536) k).isSome) ||
        (s.dirty ++ s.late).any fun c => (l.offset (p * 65536) c.1).isSome)
    | _ => false

/-- Migration of pages in order: every leaf must be valid, and no link that it needs down (spec/24, R427). A page keeps its virtual
address and its bytes (spec/13, R301). -/
def State.migrate (s : State) (ctx : Nat) (evict : Bool) (die : Nat) : List Nat → State × Bool
  | [] => (s, true)
  | p :: r =>
    match s.walk ctx (p * 65536) with
    | .leaf l =>
      if l.homed evict die then s.migrate ctx evict die r
      else if (l.ranges.all fun x => s.reaches die x.1) && (!evict || s.reaches die (hostKey 0)) then
        (s.movePage ctx (p * 65536) l evict die).migrate ctx evict die r
      else (s, false)
    | _ => (s, false)

/-- The keys of a range that an engine of a die accesses; a range over an all-bank pseudo-channel may have to wait
(spec/19, R365). -/
def State.engineKeys (s : State) (die ctx va : Nat) (need : Need) : Nat → Part (List Nat)
  | 0 => .done []
  | n + 1 =>
    match s.translate (dieSite die) ctx va need with
    | .hold => .later
    | .ok k =>
      if s.heldByLoft k then .later else
      match s.engineKeys die ctx (va + 1) need n with
      | .done ks => .done (k :: ks)
      | .later => .later
      | .failed => .failed
    | _ => .failed

/-- One stage record: its checks of R158 through OBJ, then its data good or poisoned (spec/19, R362). -/
def State.stageRecord (s : State) (die ctx : Nat) (obj : QWord) (va : Nat) : Part (State × Nat × List Nat × Bool) :=
  if s.stale ctx obj || capSpace obj != 0 || capPerm obj 10 || !capPerm obj 0 || va % 32 != 0 then .failed else
  match s.engineKeys die ctx va .rd 32 with
  | .later => .later
  | .failed => .failed
  | .done keys =>
    let num := fun (i n : Nat) => leNat (((keys.drop i).take n).map s.byteAt)
    let src := num 0 8
    let dst := num 8 8
    let n := num 16 4
    if src % 16 ≠ 0 ∨ dst % 16 ≠ 0 ∨ n % 16 ≠ 0 ∨ n < 16 ∨ 2 ^ 20 < n then .failed else
    match s.engineKeys die ctx src .rd n, s.engineKeys die ctx dst .wr n with
    | .failed, _ => .failed
    | _, .failed => .failed
    | .done ks, .done kd =>
      if !(kd.all isDevice) then .failed else
      let bs := ks.map s.byteAt
      let bad := crc32c bs != num 20 4
      let s' := (s.noteLost die kd).writeCopy (((kd.zip (ks.zip bs)).filter fun x => s.reaches die x.1).map fun x =>
        (x.1, x.2.2, bad || s.poisonAt x.2.1))
      let s' := if bad then { s' with errlog := s'.errlog ++ [.staged src dst (num 24 4)] } else s'
      .done (s', n, kd.map (· / 128), bad)
    | _, _ => .later

/-- Stage records in order: the bytes moved, the lines written, whether one is poisoned. -/
def State.stageAll (s : State) (die ctx : Nat) (obj : QWord) : List Nat → Nat × List Nat × Bool → State × Part (Nat × List Nat × Bool)
  | [], acc => (s, .done acc)
  | va :: r, (n, ls, bad) =>
    match s.stageRecord die ctx obj va with
    | .failed => (s, .failed)
    | .later => (s, .later)
    | .done (s, m, l, b) => s.stageAll die ctx obj r (n + m, ls ++ l, bad || b)

/-- Records of the list of a KVSTAGE entry. -/
def stageVas (obj : QWord) : List Nat := (List.range (capLen obj / 32)).map fun i => capBase obj + 32 * i

/-- The pages of the extent of an object. -/
def objPages (obj : QWord) : List Nat := if capLen obj = 0 then [] else pagesOf (capBase obj) (capLen obj)

/-- A migration of an object's pages toward host memory or to the stack of a die. -/
def State.runMigrate (s : State) (die ctx : Nat) (obj : QWord) (evict : Bool) : State × Part (Nat × List Nat × Bool) :=
  if s.migrateLater ctx evict die (objPages obj) then (s, .later) else
  match s.migrate ctx evict die (objPages obj) with
  | (s, true) => (s, .done (capLen obj, [], false))
  | (s, false) => (s, .failed)

/-- What an entry does: the state, and when it completes the amount, the lines and the integrity mark. An entry that has to wait
changes nothing. -/
def State.runEntry (s : State) (die ctx : Nat) (e : Entry) : State × Part (Nat × List Nat × Bool) :=
  if e.action = 3 then
    (if capLen e.obj % 32 ≠ 0 then (s, .failed) else s.stageAll die ctx e.obj (stageVas e.obj) (0, [], false))
  else if e.action = 2 then (s, .done (capLen e.obj, [], false))
  else s.runMigrate die ctx e.obj (e.action = 1)

/-- A grid whose blocks are gone and whose entries have finished is gone. -/
def State.dropGrid (s : State) (gid : Nat) : State :=
  if s.gridLive gid then s
  else { s with grids := s.grids.filter fun g => g.id != gid || (match g.table with | some t => t.running != 0 | none => false) }

/-- A FETCH that Gleaner has asked for, outside any timetable (spec/17, R337). -/
def State.finishFetch (s : State) (x : Fetch) : State :=
  let gone := fun (s : State) => { s with fetches := s.fetches.filter fun y => y.id != x.id }
  match s.runMigrate x.die x.ctx x.obj false with
  | (t, .done (n, _, _)) => ((gone t).sendAdd (dieSite x.die) x.ctx x.ctrVa n none []).settleWaiters
  | (_, .later) => s
  | (t, .failed) => { gone t with errlog := t.errlog ++ [.entryFailed x.id 0] }

/-- GRANARY_ENTRY_COMPLETE; a fetch of Gleaner's is named by its own number. -/
def execGranaryEntryComplete (grid entry : Nat) (s : State) : Res :=
  match s.fetches.find? (fun x => x.id = grid) with
  | some x => .next (s.finishFetch x)
  | none =>
  match s.grid? grid with
  | none => .next s
  | some g =>
    match g.table.bind fun t => (t.entries[entry]?).map fun e => (t, e) with
    | none => .next s
    | some (t, e) =>
      if e.state ≠ .running then .next s else
      let setState := fun (s : State) (st : EntryState) (bad : Bool) =>
        s.updGrid grid fun x => { x with table := x.table.map fun t => t.upd entry fun y => { y with state := st, integrity := bad } }
      match s.runEntry t.die g.ctx e with
      | (_, .later) => .next s
      | (s, .done (n, ls, bad)) =>
        .next (((setState s .complete bad).sendAdd (dieSite t.die) g.ctx (t.ctrBase + 8 * entry) n none ls.eraseDups).settleWaiters.dropGrid grid)
      | (s, .failed) =>
        let s := setState s .failed false
        .next (({ s with errlog := s.errlog ++ [.entryFailed grid entry] } : State).dropGrid grid)

end Sys2Proof.Machine
end

