-- ==== Sys2Proof/Machine/Schedule.lean ====
section
/-! DEFINITION. Command records and other inputs: the event that acts on each. -/
namespace Sys2Proof.Machine

/-- The instruction of a command record, by its opcode (spec/24, Table 24.2). -/
def commandOf (r : CmdRecord) : Option Instr :=
  match (r.truncate 8).toNat with
  | 0x01 => some .claim
  | 0x02 => some .heartbeat
  | 0x03 => some .handover
  | 0x04 => some .release
  | 0x10 => some .launch
  | 0x11 => some .ctxset
  | 0x12 => some .inval
  | 0x13 => some .revoke
  | 0x14 => some .preempt
  | 0x20 => some .stop
  | 0x21 => some .step
  | 0x22 => some .resume
  | 0x23 => some .dump
  | 0x30 => some .read
  | 0x31 => some .attest
  | 0x40 => some .fwload
  | _ => none

/-- The event that acts on an input. A die at 120 degrees takes the module's power (spec/24, R428). -/
def Input.event : Input → Option Instr
  | .command _ r => commandOf r
  | .hostRead _ => some .hostRead
  | .hostWrite _ => some .hostWrite
  | .peer _ => some .subryInbound
  | .flitReplay _ => some .flitReplay
  | .linkDown _ => some .linkDown
  | .thermal x => if x.dies.any (fun t => decide (120 ≤ t)) then some .thermalPowerDown else some .thermal
  | .storage _ => some .eccError
  | .reset => some .moduleReset

/-- Puts a record before those of higher masters. -/
def putRecord (m : Fin 4) (r : CmdRecord) : List Input → List Input
  | .command n q :: l => if m ≤ n then .command m r :: .command n q :: l else .command n q :: putRecord m r l
  | l => .command m r :: l

/-- Records that have arrived together stand in ascending master id (spec/24, R421). -/
def orderRecords : List Input → List Input
  | .command m r :: l => putRecord m r (orderRecords l)
  | l => l

def State.orderInbox (s : State) : State := { s with inbox := orderRecords s.inbox }

/-- Drops the first input. -/
def State.popInput (s : State) : State := { s with inbox := s.inbox.tail }

/-- A record whose opcode names no command is refused with ILLEGAL (spec/24, R422). -/
def State.refuseInput (s : State) : State :=
  match s.inbox with
  | .command m r :: _ => { s.popInput with replies := s.replies ++ [.command m (r.extractLsb' 64 64) .illegal []] }
  | _ => s.popInput

end Sys2Proof.Machine
end

