-- ==== Sys2Proof/Machine/Queues.lean ====
section
/-! DEFINITION. Queues: CBIND, QPUSH, QRES, QDONE, coalescing and firing, the root queue (spec/13, R290 to R298). -/
namespace Sys2Proof.Machine

/-! The descriptor in device memory (spec/13, Table 13.5). -/

def State.qRing (s : State) (q : QueueRef) : Nat := s.numAt q.desc 8
def State.qCap (s : State) (q : QueueRef) : Nat := 2 ^ s.numAt (q.desc + 8) 1
def State.qCtl (s : State) (q : QueueRef) : Nat := s.numAt (q.desc + 9) 1
def State.qTimer (s : State) (q : QueueRef) : Nat := let t := s.numAt (q.desc + 10) 2; if t = 0 then 2000 else t
def State.qKernel (s : State) (q : QueueRef) : Nat := s.numAt (q.desc + 12) 8
def State.qArgtab (s : State) (q : QueueRef) : Nat := s.numAt (q.desc + 20) 8
def State.qGate (s : State) (q : QueueRef) : Nat := s.numAt (q.desc + 28) 8
def State.qGval (s : State) (q : QueueRef) : Nat := s.numAt (q.desc + 36) 8
def State.qTail (s : State) (q : QueueRef) : Nat := s.numAt (q.desc + 44) 4
def State.qFired (s : State) (q : QueueRef) : Nat := s.numAt (q.desc + 48) 4
def State.qHead (s : State) (q : QueueRef) : Nat := s.numAt (q.desc + 52) 4

/-- A difference of record numbers modulo 2^32. -/
def diff32 (a b : Nat) : Nat := (a + 2 ^ 32 - b % 2 ^ 32) % 2 ^ 32

def State.queue? (s : State) (ctx handle : Nat) : Option QueueRef :=
  (s.ctx? ctx).bind fun c => c.queues.find? fun q => q.handle = handle
def State.updQueue (s : State) (ctx handle : Nat) (f : QueueRef → QueueRef) : State :=
  s.updCtx ctx fun c => { c with queues := c.queues.map fun q => if q.handle = handle then f q else q }

/-- The checks of a queue operand: R158 as one byte at offset 0, then that the context has the queue (spec/13, R290). -/
def State.queueAt (s : State) (g : Group) (f : Fibre) (q : Quad) (perm : Nat) : Except Trap QueueRef :=
  let cap := g.quad f q
  match s.block? g.block, s.capCheck (s.ctxOf g) cap (g.tagOf f q) (q.field 0) ⟨[6], [perm], .any, 1, false⟩ with
  | none, _ => .error ⟨.capBounds, 0⟩
  | _, some t => .error t
  | some b, none =>
    match s.place b cap 0 1 with
    | .error t => .error t
    | .ok x =>
      match s.queue? (s.ctxOf g) x.1 with
      | some r => .ok r
      | none => .error ⟨.capBounds, d64 x.1⟩

/-- The scope of a queue: DIE on the issuer's own die, else MODULE. -/
def queueScope (core : Nat) (handle : Nat) : Scope := if handle / 4096 = dieOf core then .die else .module

/-- Slots that blocks of a context other than `bid`, saved ones included, have reserved in a queue (spec/13, R293). -/
def State.othersReserved (s : State) (ctx bid handle : Nat) : Nat :=
  (((s.blocks ++ s.ctxs.flatMap fun c => c.saved.map (·.block)).filter fun b => b.ctx == ctx && b.id != bid).map fun b =>
    ((b.reserved.filter fun r => r.queue == handle).map (·.count)).foldl (· + ·) 0).foldl (· + ·) 0

/-- Slots that a block may fill. -/
def State.qRoom (s : State) (ctx bid : Nat) (q : QueueRef) : Nat :=
  s.qCap q - diff32 (s.qTail q) (s.qHead q) - s.othersReserved ctx bid q.handle

/-! CBIND (spec/13, R297). -/

def execCbind (o : CtrBind) (s : State) : Res :=
  .next (s.issue ⟨[.quad o.d 0 false, .quad o.a 0 o.fa, .source o.b 2 o.fb], [], true, .own⟩
    (withOverflow (onceBody fun s g c f =>
      match s.queueAt g f o.d 1 with
      | .error t => .trap t
      | .ok q => s.onCounter g c f o.a fun va _ =>
        .go {} fun t => ((t.sideEffect g).setNum (q.desc + 28) 8 va).setNum (q.desc + 36) 8 (g.dword f o.b).toNat)))

/-! QPUSH (spec/13, R292). -/

/-- The 64 bytes of a fibre's record. -/
def recordOf (g : Group) (f : Fibre) (b : Fin 6) : List Byte :=
  (g.words f (if b.val < 4 then .v (Fin.ofNat 64 (16 * b.val)) else .s (Fin.ofNat 32 (16 * (b.val - 4)))) 16).flatMap
    fun w => leBytes 4 w.toNat

/-- Takes slots from a block's reservation. -/
def drawDown (handle : Nat) : Nat → List Reservation → List Reservation
  | _, [] => []
  | n, r :: l =>
    if r.queue = handle then
      (if r.count ≤ n then drawDown handle (n - r.count) l else { r with count := r.count - n } :: l)
    else r :: drawDown handle n l

/-- Appends one record. -/
def State.appendRecord (s : State) (ctx : Nat) (q : QueueRef) (bytes : List Byte) : State :=
  let tail := s.qTail q
  let s := s.writeVirt ctx (s.qRing q + 64 * (tail % s.qCap q)) bytes
  let clk := s.clk
  (s.setNum (q.desc + 44) 4 ((tail + 1) % 2 ^ 32)).updQueue ctx q.handle fun x => { x with pushed := x.pushed ++ [clk] }

/-- Appends records of one block, in order. -/
def State.pushRecords (s : State) (ctx bid : Nat) (q : QueueRef) (recs : List (List Byte)) : State :=
  (recs.foldl (fun s b => s.appendRecord ctx q b) s).updBlock bid fun b => { b with reserved := drawDown q.handle recs.length b.reserved }

def execQpush (o : QueuePush) (s : State) : Res :=
  let rb : Reg := if o.b.val < 4 then .v (Fin.ofNat 64 (16 * o.b.val)) else .s (Fin.ofNat 32 (16 * (o.b.val - 4)))
  .next (s.issue ⟨[.quad o.a 0 o.fa, .source rb 16 o.fb], [], false, .own⟩ (withOverflow fun s g _ fs =>
    let at_ := fs.map fun f => (f, s.queueAt g f o.a 1)
    let ok := at_.filterMap fun x => match x.2 with | .ok q => some (x.1, q) | .error _ => none
    let qs := (ok.map (·.2)).eraseDups
    let needs := fun (q : QueueRef) => (ok.filter fun x => x.2.handle == q.handle).length
    let wait : Option Wait :=
      if qs.any (fun q => decide (s.qRoom (s.ctxOf g) g.block q < needs q)) then some .queue
      else if s.acquiring g || !(qs.all fun q => s.released g (queueScope g.core q.handle)) then some .release
      else none
    { outs := at_.map fun x => (x.1, match x.2 with
        | .error t => .trap t 0
        | .ok _ => match wait with | some w => .wait w | none => .done {})
      effect := fun t =>
        let t := if ok.isEmpty then t else t.sideEffect g
        qs.foldl (fun t q => t.pushRecords (t.ctxOf g) g.block q
          ((ok.filter fun x => x.2.handle == q.handle).map fun x => recordOf g x.1 o.b)) t }))

/-! QRES (spec/13, R293). -/

/-- The answer of the queue manager; for a count of 0, outside the range of the rule, it is free. -/
def State.grantSlots (s : State) (g : Group) (q : QueueRef) (n : Nat) : Bool :=
  if n = 0 then Config.freeBit (s.tick * 2 ^ 64 + 2 ^ 62) else decide (n ≤ s.qRoom (s.ctxOf g) g.block q)

def execQres (o : QuadReg) (s : State) : Res :=
  let fm : Form := ⟨[.dest o.d 1, .quad o.a 0 o.fa, .source o.b 1 o.fb], [], true, .own⟩
  .next (s.issue fm fun s g c fs =>
    onceBody (fun s g _ f =>
      match s.queueAt g f o.a 1 with
      | .error t => .trap t
      | .ok q =>
        let n := (g.word f o.b).toNat
        let yes := s.grantSlots g q n
        .go { pend := true } fun t =>
          let t := t.sideEffect g
          let t := if yes then t.updBlock g.block fun b => { b with reserved := b.reserved ++ [⟨q.handle, n⟩] } else t
          t.addProducer g.id .memory [] [] none (.ready ((fm.dests ((fs.map (·.lane)).head?) fs).map fun x =>
            ⟨x.2, [w32 (nb yes)], false, false, none, 0, none⟩))) s g c fs)

/-! Retiring records (spec/13, R294). -/

/-- HEAD advances over the run of retired records from it. -/
def advanceHead : Nat → Nat → List Nat → Nat × List Nat
  | 0, h, l => (h, l)
  | n + 1, h, l => if l.contains h then advanceHead n ((h + 1) % 2 ^ 32) (l.filter (· != h)) else (h, l)

/-- Retires the records of a block. -/
def State.retireRecords (s : State) (ctx : Nat) (r : Retire) : State :=
  match s.queue? ctx r.queue with
  | none => s
  | some q =>
    let l := q.retired ++ (List.range r.count).map fun i => (r.first + i) % 2 ^ 32
    let (h, l) := advanceHead l.length (s.qHead q) l
    ((s.setNum (q.desc + 52) 4 h).updQueue ctx r.queue fun x => { x with retired := l }).wakeAll (· == .queue)

def execQdone (fa : Bool) (a : Quad) (s : State) : Res :=
  .next (s.issue ⟨[.quad a 0 fa], [], true, .own⟩ (onceBody fun s g _ f =>
    match s.queueAt g f a 0 with
    | .error t => .trap t
    | .ok q => .go {} fun t =>
      let t := t.sideEffect g
      match (t.block? g.block).bind (·.records) with
      | some r => if r.queue = q.handle then (t.retireRecords (t.ctxOf g) r).updBlock g.block fun b => { b with records := none } else t
      | none => t))

/-! Firing (spec/13, R295, R296). -/

/-- A gate that is open: none, or its counter at its target. -/
def State.gateOpen (s : State) (ctx gate gval : Nat) : Bool :=
  gate == 0 || (match s.lookup (dieSite 0) ctx gate with | .leaf l => decide (gval ≤ s.counterVal (l.key gate)) | _ => false)

/-- Clk that the oldest unlaunched record of a queue has waited. -/
def State.qAge (s : State) (q : QueueRef) : Nat := s.clk - (q.pushed.head?).getD 0
def State.qWaiting (s : State) (q : QueueRef) : Nat := diff32 (s.qTail q) (s.qFired q)

/-- COALESCE_TIMER_EXPIRY: the oldest unlaunched record has waited TIMER. -/
def State.timerDue (s : State) (q : QueueRef) : Bool := !q.expired && s.qWaiting q != 0 && decide (s.qTimer q ≤ s.qAge q)

def execCoalesceTimerExpiry (ctx queue : Nat) (s : State) : Res :=
  match s.queue? ctx queue with
  | none => .next s
  | some q => if s.timerDue q then .next (s.updQueue ctx queue fun x => { x with expired := true }) else .next s

/-- A queue that may fire. -/
def State.eligible (s : State) (ctx : Nat) (q : QueueRef) : Bool :=
  bitAt (s.qCtl q) 7 && s.gateOpen ctx (s.qGate q) (s.qGval q) && s.qWaiting q != 0 && (decide (32 ≤ s.qWaiting q) || q.expired)

/-- What the choice of a queue goes by: whether its oldest unlaunched record has waited more than 4 × TIMER, how long it has waited, and how
many there are. -/
structure Turn where
  late : Bool
  age : Nat
  waiting : Nat
  deriving DecidableEq, Repr

def Turn.before (a b : Turn) : Bool :=
  if a.late || b.late then a.late && (!b.late || decide (b.age < a.age))
  else decide (b.waiting < a.waiting) || (a.waiting == b.waiting && decide (b.age < a.age))

def State.turnOf (s : State) (q : QueueRef) : Turn := ⟨decide (4 * s.qTimer q < s.qAge q), s.qAge q, s.qWaiting q⟩

/-- Eligible queues of a die with their contexts. -/
def State.eligibleOn (s : State) (die : Nat) : List (Nat × QueueRef) :=
  s.ctxs.flatMap fun c => (c.queues.filter fun q => q.handle / 4096 == die && s.eligible c.num q).map fun q => (c.num, q)

/-- TIMER of a context's root queue; 0 where the driver has given handle 0 no descriptor (notes/assumptions/42). -/
def State.rootTimer (s : State) (c : Ctx) : Nat := ((s.queue? c.num 0).map s.qTimer).getD 0

/-- The launch at the head of a context's root queue, when its gate is open and it has waited as R295 says (spec/13, R295, R298). -/
def State.rootReady (s : State) (c : Ctx) : Option RootRec :=
  match c.rootq with
  | r :: _ =>
    if (r.opened || s.gateOpen c.num r.gate r.gval) && (decide (32 ≤ c.rootq.length) || decide (s.rootTimer c ≤ s.clk - r.since)) then some r
    else none
  | [] => none

def State.rootTurn (s : State) (c : Ctx) (r : RootRec) : Turn :=
  ⟨decide (4 * s.rootTimer c < s.clk - r.since), s.clk - r.since, c.rootq.length⟩

/-- A launch record, from the bytes of a LAUNCH command pushed at a clk (spec/24, Table 24.2). -/
def launchRec (r : CmdRecord) (since : Nat) : RootRec :=
  let f := fun (i n : Nat) => (r.extractLsb' (8 * i) (8 * n)).toNat
  ⟨f 16 8, f 24 8, f 32 4, f 36 2, f 38 2, f 40 1, f 48 8, f 56 8, false, since⟩

/-- Launches the head of a context's root queue. -/
def State.fireRoot (s : State) (ctx : Nat) (r : RootRec) : State :=
  (s.updCtx ctx fun c => { c with rootq := c.rootq.drop 1 }).launchGrid ctx r.kernel r.argtab r.x r.y r.z (r.priority % 4) none 0
    (if r.gate = 0 then none else some r.gate)

/-- A LAUNCH of the host enters the context's root queue: the ring of handle 0 while it has room, or a list where the driver has
given handle 0 no descriptor (spec/13, R298). -/
def State.enterRoot (s : State) (ctx : Nat) (r : CmdRecord) : Option State :=
  match s.queue? ctx 0 with
  | some q => if s.qCap q ≤ diff32 (s.qTail q) (s.qHead q) then none else some (s.appendRecord ctx q (leBytes 64 r.toNat))
  | none => some (s.updCtx ctx fun c => { c with rootq := c.rootq ++ [launchRec r s.clk] })

/-- The record at the root ring's head is a host command: a LAUNCH waits for its gate in the list of launches, any other is taken
as a command of the master that its byte 1 names. -/
def State.fireRootRing (s : State) (ctx : Nat) (q : QueueRef) : State :=
  let first := s.qFired q
  let bytes := ((s.readVirt ctx (s.qRing q + 64 * (first % s.qCap q)) 64).getD 0)
  let r : CmdRecord := BitVec.ofNat 512 bytes
  let since := (q.pushed.head?).getD s.clk
  let s := (s.setNum (q.desc + 48) 4 ((first + 1) % 2 ^ 32)).updQueue ctx q.handle fun x => { x with pushed := x.pushed.drop 1, expired := false }
  let s := s.retireRecords ctx ⟨q.handle, first, 1⟩
  if commandOf r = some .launch then s.updCtx ctx fun c => { c with rootq := c.rootq ++ [launchRec r since] }
  else { s with inbox := s.inbox ++ [.command (Fin.ofNat 4 (r.extractLsb' 8 8).toNat) r] }

/-- One firing, or its refusal. -/
def State.fireQueue (s : State) (ctx : Nat) (q : QueueRef) : State :=
  if q.handle = 0 then s.fireRootRing ctx q else
  let ok := match s.kernel? ctx (s.qKernel q) with
    | some k => k.stages.length == 1 && Grid.sheafSize k == 1
    | none => false
  if !ok then
    { s.setNum (q.desc + 9) 1 (s.qCtl q % 128) with errlog := s.errlog ++ [.firing ctx q.handle (s.qKernel q)] }
  else
    let first := s.qFired q
    let cap := s.qCap q
    let n := min (min 32 (s.qWaiting q)) (cap - first % cap)
    let gate := s.qGate q
    let kernel := s.qKernel q
    let argtab := s.qArgtab q
    let prio := s.qCtl q % 4
    let ring := s.qRing q + 64 * (first % cap)
    let s := (s.setNum (q.desc + 48) 4 ((first + n) % 2 ^ 32)).setNum (q.desc + 28) 8 0
    let s := s.updQueue ctx q.handle fun x => { x with pushed := x.pushed.drop n, expired := false }
    s.launchGrid ctx kernel argtab 1 1 1 prio (some ⟨q.handle, first, n⟩) ring (if gate = 0 then none else some gate)

/-- What a die's queue manager may fire: launches of root queues, which are on die 0, and eligible queues. -/
def State.fireable (s : State) (die : Nat) : List (Turn × Nat × (QueueRef ⊕ RootRec)) :=
  (if die = 0 then s.ctxs.filterMap fun c => (s.rootReady c).map fun r => (s.rootTurn c r, c.num, Sum.inr r) else []) ++
  (s.eligibleOn die).map fun x => (s.turnOf x.2, x.1, Sum.inl x.2)

/-- What it fires in a clk, by the order of R295 (notes/assumptions/42). -/
def State.canFire (s : State) (die : Nat) : Option (Nat × (QueueRef ⊕ RootRec)) :=
  if s.fired.contains die then none else
  ((s.fireable die).foldl (fun (b : Option (Turn × Nat × (QueueRef ⊕ RootRec))) x => match b with
    | none => some x
    | some y => if x.1.before y.1 then some x else some y) none).map (·.2)

/-- QUEUE_FIRE. -/
def execQueueFire (die : Nat) (s : State) : Res :=
  match s.canFire die with
  | none => .next s
  | some (ctx, .inl q) => .next { s.fireQueue ctx q with fired := die :: s.fired }
  | some (ctx, .inr r) => .next { s.fireRoot ctx r with fired := die :: s.fired }

end Sys2Proof.Machine
end

