-- ==== Sys2Proof/Machine/Blocks.lean ====
section
/-! DEFINITION. Placing sheaves, ending blocks, fault records (spec/08, R185, R186, R192; spec/21, R376, R377). -/
namespace Sys2Proof.Machine

/-! SHEAF_PLACE (spec/08, R186). -/

/-- The number of the sheaf that an entry places next is its first. A flushed sheaf starts with its count of restarts. -/
def State.placeEntry (s : State) (die : Nat) (p : Pending) (places : List (Nat × Nat)) : State :=
  match s.grid? p.grid with
  | none => s
  | some g =>
    match s.kernel? g.ctx g.kernel with
    | none => s
    | some k => (s.takeSheaf p).startSheaf g k die p.first p.restarts p.resumes places

/-- SHEAF_PLACE: the die places all blocks of its next sheaf in one step. Saved sheaves are placed by BLOCK_RESUME. -/
def execSheafPlace (die : Nat) (s : State) : Res :=
  match s.nextSheaf die with
  | some (p, places) => if p.saved then .next s else .next (s.placeEntry die p places)
  | none => .next s

/-! What becomes of a block's belongings. -/

/-- Groups and task groups of a block. -/
def State.groupsOf (s : State) (bid : Nat) : List Group := s.groups.filter fun g => g.block == bid

/-- A task record of the block has not been taken. -/
def State.hasTasks (s : State) (bid : Nat) : Bool :=
  s.cores.any (fun c => c.deque.any fun r => r.block == bid) || s.sheaves.any fun sh => sh.overflow.any fun r => r.block == bid

/-- Task records of a block are dropped. -/
def State.dropTasks (s : State) (bid : Nat) : State :=
  { s with
    cores := s.cores.map fun c => { c with deque := c.deque.filter fun r => r.block != bid }
    sheaves := s.sheaves.map fun sh => { sh with overflow := sh.overflow.filter fun r => r.block != bid } }

/-- The tokens and waits of some groups on their core are free. -/
def Core.release (gone : List Nat) (c : Core) : Core :=
  { c with
    quads := c.quads.map fun q => if (q.holder.map gone.contains).getD false then { q with holder := none } else q
    macqs := c.macqs.filter fun m => !gone.contains m.group }

/-- The groups of a block leave the machine with all they wait for; stores that they have issued stay. When they are saved, a declined
page that a fibre has not heard of stays known (spec/21, R379). -/
def State.dropGroups (s : State) (bid : Nat) (saved : Bool) : State :=
  let gone := (s.groupsOf bid).map (·.id)
  let ids := ((s.producers.filter fun p => gone.contains p.group).map (·.id)) ++ ((s.kvops.filter fun r => gone.contains r.group).map (·.id))
  let strip := fun (r : Replay) =>
    { r with prods := r.prods.filter (fun i => !ids.contains i), fibres := if saved && r.declined then r.fibres else r.fibres.filter fun x => !gone.contains x.1 }
  { s with
    groups := s.groups.filter fun g => g.block != bid
    producers := s.producers.filter fun p => !gone.contains p.group
    kvops := s.kvops.filter fun r => !gone.contains r.group
    waiters := s.waiters.filter fun w => !gone.contains w.group
    cores := s.cores.map (Core.release gone)
    replays := (s.replays.map strip).filter fun r => !(r.declined && r.prods.isEmpty && r.fibres.isEmpty) }

/-- Copies of a block that goes keep what records say of it (spec/22, R397). -/
def State.noteGone (s : State) (b : Block) : State :=
  let i : Issued := ⟨s.clk, 0, 0, b.x, b.yz, b.phase, s.gridSeqOf b⟩
  { s with copies := s.copies.map fun (c : Copy) => if c.block = b.id then { c with gone := some i } else c }

/-- Takes a block off its core. -/
def State.takeOff (s : State) (b : Block) : State :=
  let s := s.noteGone b
  { s with blocks := s.blocks.filter fun x => x.id != b.id }

/-- After a block has ended or left: the sheaf is gone when all its blocks have ended, which stay on their cores till then; with
saved ones and no other on a core it waits to be placed again (spec/08, R180; spec/21, R388). -/
def State.settleSheaf (s : State) (sid : Nat) : State :=
  match s.sheaf? sid with
  | none => s
  | some sh =>
    let ctx := ((s.grid? sh.grid).map (·.ctx)).getD 0
    let here := s.blocks.filter fun b => b.sheaf == sid
    if here.all (·.ended) && (s.savedOf ctx sid).all fun x => x.block.ended then
      let s := here.foldl State.takeOff s
      let s := s.updCtx ctx fun c => { c with saved := c.saved.filter fun x => x.block.sheaf != sid }
      ({ s with sheaves := s.sheaves.filter fun x => x.id != sid } : State).dropGrid sh.grid
    else if !here.isEmpty || s.pending.any fun p => p.saved && p.sheaf == sid then s
    else { s with pending := s.pending ++ [⟨sh.grid, sh.first, 1, none, sid, false, 0, [], true, sid⟩] }

/-- The block has ended: it leaves the sheaf's barriers, and its reservations end (spec/08, R193; spec/13, R293). -/
def State.removeBlock (s : State) (b : Block) : State :=
  let s := (List.range 8).foldl (fun s n => s.touchSheafBar b.sheaf n (Barrier.leave b.rank)) s
  let s := s.updBlock b.id fun x => { x with ended := true, reserved := [], mode := .running, baleWanted := false, leave := if x.leave == .stays then .stays else .saves }
  (s.wakeAll (· == .queue)).settleSheaf b.sheaf

/-! The end of a block. -/

/-- A block that has no group and no task left ends: the records it was fired with retire, and a step of it ends (spec/08, R192;
spec/13, R294; spec/22, R395). -/
def State.endBlock (s : State) (b : Block) : State :=
  let s := match b.records with
    | some r => s.retireRecords b.ctx r
    | none => s
  let s := match b.mode with
    | .stepping k _ => s.traceRec b.ctx (s.traceBytes b 3 2 0xFF k.val 0 [] b.core 0)
    | _ => s
  s.removeBlock b

/-- The bytes of a fault record (spec/21, Table 21.2). -/
def State.faultBytes (s : State) (b : Block) (f : FaultInfo) (seq : Nat) : List Byte :=
  [BitVec.ofNat 8 f.kind, BitVec.ofNat 8 ((f.cause.map Cause.code).getD 0), BitVec.ofNat 8 f.group, BitVec.ofNat 8 (Nat.lor f.flags b.baleFlags)] ++
  leBytes 4 f.lanes.toNat ++ leBytes 4 f.pc.toNat ++ leBytes 4 b.x ++ leBytes 4 b.yz.toNat ++ leBytes 4 (s.gridSeqOf b) ++
  leBytes 4 f.coreId.toNat ++ leBytes 8 f.val.toNat ++ leBytes 8 f.clk ++ leBytes 4 seq ++ List.replicate 16 0

/-- The control processor appends a record to the fault log and notifies the owner (spec/21, R377; spec/24, R424). -/
def State.appendFault (s : State) (b : Block) (f : FaultInfo) : State :=
  match s.ctx? b.ctx with
  | none => s
  | some c =>
    let n := c.flogSeq
    let s := if c.control.flogn = 0 then s
      else s.writeVirt b.ctx (c.control.flog + 64 * (n % c.control.flogn)) (s.faultBytes b f n)
    let s := s.updCtx b.ctx fun c => { c with flogSeq := c.flogSeq + 1 }
    if s.owner.isSome then { s with replies := s.replies ++ [.fault b.ctx n] } else s

/-- What has to be over before a faulting block ends: producers in flight, its matrix loops, the bales of it and of the saved blocks of
its sheaf that come with its last block (spec/21, R376). -/
def State.faultSettled (s : State) (b : Block) : Bool :=
  let gs := (s.groupsOf b.id).map (·.id)
  !(s.producers.any fun p => gs.contains p.group) && !((s.groupsOf b.id).any fun g => g.mloop.isSome) && (!b.baleWanted || b.baleDone) &&
  (s.blocks.any (fun x => x.sheaf == b.sheaf && x.id != b.id && !x.ended) ||
    (s.savedOf b.ctx b.sheaf).all fun x => x.block.ended || !x.block.baleWanted || x.block.baleDone)

/-- A saved block of the sheaf ends by the fault of another: its record of KIND 3, with what its own bale says, and the retirement of
its records. -/
def State.endSavedOne (s : State) (x : Saved) : State :=
  let s := s.appendFault x.block (match x.block.mode with | .faulting f => f | _ => .kind3 x.block.core s.clk 0)
  match x.block.records with
  | some r => s.retireRecords x.block.ctx r
  | none => s

/-- Saved blocks of the sheaf end with its last faulting block; those that had ended before have no record. -/
def State.endSaved (s : State) (b : Block) : State :=
  if s.blocks.any (fun x => x.sheaf == b.sheaf && x.id != b.id && !x.ended) then s else
  let mine := (s.savedOf b.ctx b.sheaf).filter fun x => !x.block.ended
  let s := mine.foldl State.endSavedOne s
  s.updCtx b.ctx fun c => { c with saved := c.saved.filter fun x => x.block.sheaf != b.sheaf }

/-- A faulting block ends. -/
def State.endFault (s : State) (b : Block) (f : FaultInfo) : State :=
  let s := s.appendFault b f
  let s := (s.dropGroups b.id false).dropTasks b.id
  let s := if f.flags = 4 then s else s.endSaved b
  let s := match b.records with
    | some r => s.retireRecords b.ctx r
    | none => s
  s.removeBlock b

/-- A block that may end: one that faults once all is over, any other with no group and no task left, and no bale of a DUMP still to
be written (spec/22, R402). -/
def State.blockOver (s : State) (b : Block) : Bool :=
  !b.ended && if b.isFaulting then s.faultSettled b else (s.groupsOf b.id).isEmpty && !s.hasTasks b.id && !b.dumps

/-- BLOCK_END. -/
def execBlockEnd (block : Nat) (s : State) : Res :=
  match s.block? block with
  | none => .next s
  | some b =>
    if !s.blockOver b then .next s else
    match b.mode with
    | .faulting f => .next (s.endFault b f)
    | _ => .next (s.endBlock b)

end Sys2Proof.Machine
end

