-- ==== Sys2Proof/Machine/Control.lean ====
section
/-! DEFINITION. Special registers, MODE, control transfer, traps and returns, GUARD and DREF (spec/02, R36 to R49; spec/04,
R94 to R107). -/
namespace Sys2Proof.Machine

/-- Bits 31:0 of the pair ext:low fields of a quadrant in ACSTATE (spec/11, Table 11.4). -/
def acByte (gid : Nat) (q : Quadrant) : Nat :=
  let held := if q.holder = some gid then 128 else 0
  match q.mode with
  | .zero => held
  | .fp32 => held + 16
  | .int f => held + 32 + f

/-- PREINFO (spec/21, Table 21.3). -/
def preinfo (b : Block) (k : Option Kernel) : Word :=
  hl (min b.resumes 65535) (min b.restarts 255 * 256 + (if (k.map (·.idempotent)).getD false then 2 else 0) + nb b.sidefx)

/-- The value of a special register for one fibre; the address is the unit word's (spec/02, Table 2.3; spec/04, R95;
spec/08, R183). One count of clks stands for every die's (notes/assumptions/3). -/
def State.srRead (s : State) (g : Group) (c : Cur) (f : Fibre) (n : Nat) : Word :=
  let b := s.block? g.block
  let sh := b.bind fun b => s.sheaf? b.sheaf
  let gr := sh.bind fun x => s.grid? x.grid
  let core := s.core g.core
  match n with
  | 0x00 => f.status
  | 0x01 => f.flags.zeroExtend 32
  | 0x02 => f.pred.zeroExtend 32 ||| 1
  | 0x03 => c.addr
  | 0x04 => f.epc
  | 0x05 => f.cause
  | 0x06 => f.trapval
  | 0x07 => f.trapvalh
  | 0x08 => f.estatus
  | 0x09 => f.ereg
  | 0x0A => w32 g.regsN
  | 0x0B => s.handlerOf g
  | 0x0C => w32 s.clk
  | 0x0D => f.clkLatch.getD (w32 (s.clk / 2 ^ 32))
  | 0x0E => f.link
  | 0x10 => w32 ((b.map (·.x)).getD 0)
  | 0x11 => (b.map Block.yz).getD 0
  | 0x12 => w32 ((gr.map (·.x)).getD 0)
  | 0x13 => (gr.map fun x => hl x.z x.y).getD 0
  | 0x14 => if g.task.isSome then 0 else w32 ((((s.kernelOf g).map (·.stages.length)).getD 1 - 1) % 32 * 256 + g.index)
  | 0x15 => if g.task.isSome then 0 else
      match b, sh with
      | some b, some sh => w32 ((sh.count - 1) % 32 * 256 + b.rank)
      | _, _ => 0
  | 0x16 => g.coreId
  | 0x17 => laneMask c.lanes
  | 0x18 => w32 (acByte g.id (core.quad 0) + 2 ^ 8 * acByte g.id (core.quad 1) + 2 ^ 16 * acByte g.id (core.quad 2)
      + 2 ^ 24 * acByte g.id (core.quad 3))
  | 0x19 => w32 (g.outack % 65536)
  | 0x1A => w32 (((s.ctx? (s.ctxOf g)).map (·.histCount)).getD 0)
  | 0x1B => g.rasthresh
  | 0x1C => g.vistile
  | 0x1D => g.visorg
  | 0x1E => g.vpsize
  | 0x1F => g.kvmodel
  | 0x20 => g.kvmodelh
  | 0x21 => g.kvver
  | 0x22 => (b.map fun b => preinfo b (s.kernelOf g)).getD 0
  | _ => 0

/-- Special registers held once per group (spec/17, R339; spec/19, R352). -/
def Group.srWrite (g : Group) (n : Nat) (v : Word) : Group :=
  match n with
  | 0x1B => { g with rasthresh := v }
  | 0x1C => { g with vistile := v &&& 0x0007FFF8 }
  | 0x1D => { g with visorg := v }
  | 0x1E => { g with vpsize := v }
  | 0x1F => { g with kvmodel := v }
  | 0x20 => { g with kvmodelh := v }
  | 0x21 => { g with kvver := v }
  | _ => g

/-- RND of a value written to STATUS or ESTATUS is one of the five modes. -/
def rndOk (v : Word) : Bool := (Rnd.ofCode (v.toNat / 2 % 8)).isSome

/-- A write of a special register of one fibre (spec/04, R96). -/
def Fibre.srWrite (f : Fibre) (n : Nat) (v : Word) : Fibre :=
  match n with
  | 0x00 => { f with status := mergeBits f.status v statusRw }
  | 0x01 => { f with flags := v.truncate 6 }
  | 0x02 => { f with pred := (v.truncate 8) ||| 1 }
  | 0x04 => { f with epc := v &&& ~~~(1 : Word) }
  | 0x05 => { f with cause := v &&& 0x3F }
  | 0x06 => { f with trapval := v }
  | 0x07 => { f with trapvalh := v }
  | 0x08 => { f with estatus := v }
  | 0x09 => { f with ereg := v &&& 0x7F }
  | 0x0E => { f with link := v &&& ~~~(1 : Word) }
  | _ => f

/-- An unfinished producer can still raise flags in a fibre (spec/02, R39). -/
def State.flagsBusy (s : State) (g : Group) (f : Fibre) : Bool :=
  s.producers.any fun p => p.group == g.id && p.flagLanes.contains f.lane

/-- FLAGS waits for producers that raise flags, PRED for those that write predicates. -/
def State.srWait (s : State) (g : Group) (n : Nat) (f : Fibre) : Bool :=
  (n == 1 && s.flagsBusy g f) || (n == 2 && f.predBusy != 0)

def execRdsr (n : Fin 128) (d : Reg) (s : State) : Res :=
  .next (s.issue ⟨[.dest d 1], [], false, .own⟩ fun s g c fs =>
    ⟨fs.map fun f => (f, if s.srWait g n.val f then .wait (.producer .longArith) else
      .done { words := [s.srRead g c f n.val],
              upd := fun f => if n.val = 0x0C then { f with clkLatch := some (w32 (s.clk / 2 ^ 32)) } else f }), id, id⟩)

def execWrsr (n : Fin 128) (fa : Bool) (a : Reg) (s : State) : Res :=
  .next (s.issue ⟨[.source a 1 fa], [], false, .own⟩ fun s g _ fs =>
    ⟨fs.map fun f =>
      let v := g.word f a
      (f, if s.srWait g n.val f then .wait (.producer .longArith)
        else if (n.val = 0 || n.val = 8) && !rndOk v then .fail .illegal (v.zeroExtend 64)
        else .done { upd := fun f => f.srWrite n.val v }),
     fun s => match fs with
      | [] => s
      | f :: _ => s.updGroup g.id fun x => x.srWrite n.val (g.word f a), id⟩)

def execModeSet (rat : Bool) (rnd : Rnd) (s : State) : Res :=
  .next (s.issue ⟨[], [], false, .own⟩ (eachLane fun _ _ => .done { upd := fun f =>
    { f with status := mergeBits f.status (w32 (2 * rnd.toNat + 16 * nb rat)) 0x1E } }))

/-- The target of a J word from the address of the word or of its reference (spec/04, R98). -/
def Cur.jump (c : Cur) (off : BitVec 20) : Word := c.addr + (off.signExtend 32 <<< 1)

/-- The predicate of a J word, negated by PN. -/
def Jump.taken (o : Jump) (f : Fibre) : Bool := f.predBit o.p != o.neg

def execBr (o : Jump) (s : State) : Res :=
  .next (s.issue ⟨[], [o.p], false, .own⟩ fun _ _ c fs =>
    ⟨fs.map fun f => (f, .done { target := if Jump.taken o f then some (c.jump o.off) else none }), id, id⟩)

def execCall (o : Jump) (s : State) : Res :=
  .next (s.issue ⟨[], [o.p], false, .own⟩ fun _ _ c fs =>
    ⟨fs.map fun f => (f, if Jump.taken o f then
      .done { target := some (c.jump o.off), upd := fun f => { f with link := c.next } } else .done {}), id, id⟩)

def execRet (s : State) : Res :=
  .next (s.issue ⟨[], [], false, .own⟩ (eachLane fun _ f => .done { target := some f.link }))

def execJr (o : RegImm) (s : State) : Res :=
  .next (s.issue ⟨[.dest o.d 1, .source o.a 1 o.fa], [], false, .own⟩ fun _ g c fs =>
    ⟨fs.map fun f =>
      let t := g.word f o.a + (o.i.signExtend 32 <<< 1)
      (f, if t.getLsbD 0 then .fail .misaligned (t.zeroExtend 64)
        else .done { words := [c.next], target := some t }), id, id⟩)

def execNop (s : State) : Res :=
  .next (s.issue ⟨[], [], false, .own⟩ (eachLane fun _ _ => .done {}))

/-- TRAP n: BREAKPOINT with bit 31 set (spec/04, R105). -/
def execTrap (i : BitVec 17) (s : State) : Res :=
  .next (s.issue ⟨[], [], false, .own⟩ (eachLane fun _ _ => .fail .breakpoint (d64 (2 ^ 31 + i.toNat))))

/-- BRK n: stops the block when breakpoint stops are armed, else BREAKPOINT (spec/04, R106; spec/22, R394). In a handler too an
armed BRK stops the block, against R107's words (notes/assumptions/125). -/
def execBrk (i : BitVec 17) (s : State) : Res :=
  .next (s.issue ⟨[], [], false, .own⟩ fun s g c fs =>
    let armed := ((s.ctx? (s.ctxOf g)).map fun x => x.dbg.arm % 2 == 1).getD false
    if armed then
      ⟨fs.map fun f => (f, .done { target := some c.unit, upd := fun f => { f with wait := some (.brk c.next) } }),
       fun s => s.stopBlock g.block (.brk i.toNat) g.recNum c.unit g.core g.slot, id⟩
    else ⟨fs.map fun f => (f, .fail .breakpoint (d64 i.toNat)), id, id⟩)

/-- RTT: with IH = 0 it traps ILLEGAL (spec/02, R49). With IH = 1 it returns, against R107's words (notes/assumptions/125). -/
def execRtt (s : State) : Res :=
  .next (s.issue ⟨[], [], false, .own⟩ fun _ _ c fs =>
    ⟨fs.map fun f => (f, if f.ih then .done { upd := Fibre.returnTrap } else .fail .illegal (d64 c.word)), id, id⟩)

/-- The GUARD prefix: the next instruction is guarded. A second prefix traps ILLEGAL (spec/02, R44). -/
def execGuard (neg : Bool) (p : Fin 8) (s : State) : Res :=
  match s.cur with
  | none => .next s
  | some c =>
    match c.guard with
    | some _ => .next (s.illegalUnit (d64 c.word) c.unit)
    | none => .next { s with cur := some { c with guard := some (neg, p), addr := c.addr + 2 } }

/-- DREF: the entry runs as if it stood at the reference; an entry with bit 0 = 0 traps ILLEGAL (spec/02, R43). -/
def execDref (e : Fin 1024) (s : State) : Res :=
  match s.cur with
  | none => .next s
  | some c =>
    let entry := (((s.group? c.group).bind s.kernelOf).map fun k => k.dict.getD e.val 0).getD 0
    if entry.getLsbD 0 then .next { s with cur := some { c with entry := some entry.toNat } }
    else .next (s.illegalUnit (entry.zeroExtend 64) c.unit)

/-- ILL traps ILLEGAL at decode (spec/03, R71). -/
def execIll (s : State) : Res :=
  match s.cur with
  | none => .next s
  | some c => .next (s.illegalUnit (d64 c.word) c.unit)

end Sys2Proof.Machine
end

