-- ==== Sys2Proof/Machine/Issue.lean ====
section
/-! DEFINITION. Issue slots: active and pending groups, the choice of a batch, idle cycles (spec/08, R174, R175, R187, R188;
spec/09, R206; spec/22, R399, R400). -/
namespace Sys2Proof.Machine

/-! Batches (spec/08, R174, R175). -/

/-- The order of choice among batches: lowest PC, then IH = 0. -/
def Fibre.key (f : Fibre) : Nat := 2 * f.pc.toNat + (if f.ih then 1 else 0)

/-- Fibres at the PC and IH of `f` wait in CWAIT or MACQ, or for the answer of a replay: it has joined their batch, and waits with them
(spec/08, R174; spec/21, R380). -/
def Group.joinsWait (g : Group) (f : Fibre) : Bool :=
  g.fibres.any fun x => x.key == f.key &&
    (x.wait == some .counter || x.wait == some .token || ((x.wait.map Wait.onReplay).getD false && !x.again))

/-- A fibre that does not wait, whose registers have come, whose named barrier has passed its generation, whose HOPEN has seen the
walks of its field end, or whose other wait may have ended. Whether a unit that has not been tried is ready is found by trying it
(notes/assumptions/115). -/
def State.fibreReady (s : State) (g : Group) (f : Fibre) : Bool :=
  match f.wait with
  | none => !g.joinsWait f
  | some (.register cs ps) => g.regsOver cs ps && !g.joinsWait f
  | some (.barrier b) => f.markOf b != some (s.barGen g b)
  | some (.hopen (some n)) => !s.fieldRead (s.ctxOf g) n
  | some w => (w.retries || w.onReplay) && f.again && !g.joinsWait f

/-- Requests of the group's last instruction are still entering full bank queues (spec/10, R216). -/
def State.entering (s : State) (g : Group) : Bool :=
  (s.slotOf g.core g.slot).entering.any fun e => e.1 == g.id && decide (s.clk < e.2)

/-- A group of a block that may issue. -/
def State.mayIssue (s : State) (g : Group) : Bool := !g.ended && ((s.block? g.block).map Block.runs).getD false

/-- A group that issues if a batch of it is ready. -/
def State.issuing (s : State) (g : Group) : Bool := s.mayIssue g && !s.entering g

/-- The ready fibres of a group. -/
def State.readyFibres (s : State) (g : Group) : List Fibre :=
  if s.issuing g then g.fibres.filter (s.fibreReady g) else []

/-- The ready batches of a group, by key. -/
def State.readyKeys (s : State) (g : Group) : List Nat := ((s.readyFibres g).map Fibre.key).eraseDups

def State.hasReady (s : State) (g : Group) : Bool := !(s.readyFibres g).isEmpty

/-- A wait in which a fibre joins a batch at its PC that is put to work. -/
def Wait.joins : Wait → Bool
  | .register _ _ => true
  | w => w.retries

/-- The lanes of a batch: its ready fibres, and those at its PC that wait and try again with it. -/
def State.batchLanes (s : State) (g : Group) (k : Nat) : List (Fin 32) :=
  (g.fibres.filter fun f => f.key == k && (s.fibreReady g f || (f.wait.map Wait.joins).getD false)).map (·.lane)

/-- The batch that R175 picks; one that has just yielded comes last (spec/09, R206). -/
def State.pickKey (s : State) (g : Group) : Option Nat :=
  match (((s.readyFibres g).filter fun f => !g.yielded.contains f.lane).map Fibre.key).min? with
  | some k => some k
  | none => (s.readyKeys g).min?

/-- Since when a batch has been ready. -/
def State.batchSince (s : State) (g : Group) (k : Nat) : Nat :=
  ((((s.readyFibres g).filter fun f => f.key == k).map fun f => f.readySince.getD s.clk).min?).getD s.clk

/-- The batch that has been ready longest, other than one. -/
def State.longestReady (s : State) (g : Group) (but : Nat) : Option Nat :=
  ((s.readyKeys g).filter (· != but)).foldl (fun (b : Option Nat) k => match b with
    | none => some k
    | some j => if s.batchSince g k < s.batchSince g j || (s.batchSince g k == s.batchSince g j && decide (k < j)) then some k else some j) none

/-! Groups of a slot (spec/08, R187, R188). -/

def State.slotGroups (s : State) (core slot : Nat) : List Group :=
  s.groups.filter fun g => g.core == core && g.slot == slot && !g.ended
def State.activeSet (s : State) (core slot : Nat) : List Group := (s.slotGroups core slot).filter (·.active)
def State.pendingSet (s : State) (core slot : Nat) : List Group := (s.slotGroups core slot).filter fun g => !g.active

/-- The oldest of some groups, by entry into their set. -/
def oldestGroup (gs : List Group) : Option Group :=
  gs.foldl (fun (b : Option Group) g => match b with
    | none => some g
    | some h => if g.since < h.since || (g.since == h.since && decide (g.id < h.id)) then some g else some h) none

def Fibre.onRegister (f : Fibre) : Bool := match f.wait with | some (.register _ _) => true | _ => false

/-- The fibres of a group's oldest batch that waits on a register: of several, the one that R175 would pick (spec/08, R188;
notes/assumptions/116). -/
def Group.registerBatch (g : Group) : List Fibre :=
  match ((g.fibres.filter Fibre.onRegister).map Fibre.key).min? with
  | some k => g.fibres.filter fun f => f.key == k && f.onRegister
  | none => []

/-- A group that is swapped out: with no batch ready, that batch waits on a register that a long producer owes (spec/08, R188). It
counts as the oldest (notes/assumptions/116). -/
def State.swaps (s : State) (g : Group) : Bool :=
  g.active && s.issuing g && !s.hasReady g && g.registerBatch.any fun f => s.waitsLong g f.wait

/-- Moves a group between the sets of its slot. -/
def State.setActive (s : State) (gid : Nat) (a : Bool) : State :=
  let clk := s.clk
  s.updGroup gid fun g => { g with active := a, since := clk }

/-- Swaps out groups while the pending set has room. -/
def State.swapOut (s : State) (core slot : Nat) : State :=
  (s.activeSet core slot).foldl (fun s g =>
    if s.swaps g && decide ((s.pendingSet core slot).length < 8) then s.setActive g.id false else s) s

/-- The register that a group waits on is full. -/
def Group.registerFull (g : Group) : Bool :=
  g.registerBatch.all fun f => match f.wait with
    | some (.register cs ps) => g.regsOver cs ps
    | _ => true

/-- The oldest pending group whose register is full. -/
def State.promotable (s : State) (core slot : Nat) : Option Group :=
  oldestGroup ((s.pendingSet core slot).filter Group.registerFull)

/-- Promotes pending groups while the active set has room. -/
def State.promote (s : State) (core slot : Nat) : Nat → State
  | 0 => s
  | n + 1 =>
    match s.promotable core slot with
    | some g => if (s.activeSet core slot).length < 8 then (s.setActive g.id true).promote core slot n else s
    | none => s

/-- The group that the slot issues: the one it issued last while it has a ready batch, but after a YIELD the oldest other; else the
oldest that has one. -/
def State.pickGroup (s : State) (core slot : Nat) : Option Group :=
  let x := s.slotOf core slot
  let ready := (s.activeSet core slot).filter s.hasReady
  let last := ready.find? fun g => x.lastGroup == some g.id
  let others := ready.filter fun g => x.lastGroup != some g.id
  if x.yielded then (match oldestGroup others with | some g => some g | none => last)
  else match last with
    | some g => some g
    | none => oldestGroup others

/-- Notes since when fibres of a slot have been ready. -/
def State.noteReady (s : State) (core slot : Nat) : State :=
  { s with groups := s.groups.map fun g =>
    if g.core == core && g.slot == slot then
      { g with fibres := g.fibres.map fun f =>
        { f with readySince := if s.issuing g && s.fibreReady g f then some (f.readySince.getD s.clk) else none } }
    else g }

/-- The sets of a slot at the start of its cycle. -/
def State.slotSets (s : State) (core slot : Nat) : State :=
  (((s.noteReady core slot).swapOut core slot).promote core slot 8)

/-- A batch is put to work; the run of issues of one batch is counted while another is ready (spec/08, R175). -/
def State.beginBatch (s : State) (g : Group) (k : Nat) : State :=
  let lanes := s.batchLanes g k
  let many := decide (1 < (s.readyKeys g).length)
  let run := if !many then 0 else if g.lastLanes = lanes then g.lastRun + 1 else 1
  let pc := BitVec.ofNat 32 (k / 2)
  let undo : Undo := ⟨g.lastLanes, g.lastRun, g.yielded, (s.slotOf g.core g.slot).yielded⟩
  let s := s.updGroup g.id fun h =>
    { h.updBatch lanes (fun f => { f with again := false }) with lastLanes := lanes, lastRun := run, yielded := [] }
  let s := s.setSlot { s.slotOf g.core g.slot with yielded := false }
  { s with cur := some ⟨g.id, lanes, pc, pc, 0, 0, none, none, some undo⟩ }

/-! Idle cycles (spec/22, R399, R400). -/

/-- The leaf of a group that does not issue: its batch is the one that R175 would pick with every wait ignored. -/
def State.groupLeaf (s : State) (g : Group) : Nat :=
  if !s.mayIssue g then 15 else
  match (g.fibres.map Fibre.key).min? with
  | none => 2
  | some k =>
    let ls := (if s.entering g then [8] else []) ++ (g.fibres.filter fun f => f.key == k).flatMap fun f => ((f.wait.map (s.waitLeaves g)).getD [])
    (leafOrder.find? ls.contains).getD 4

/-- The leaf of a slot that does not issue. -/
def State.idleLeaf (s : State) (core slot : Nat) : Nat :=
  let act := s.activeSet core slot
  match act.find? fun g => (s.slotOf core slot).lastGroup == some g.id with
  | some g => s.groupLeaf g
  | none => match oldestGroup act with | some g => s.groupLeaf g | none => 2

/-! The events. -/

/-- A slot that has not had its cycle in this clk. -/
def State.slotTurn (s : State) (core slot : Nat) : Bool := s.cur.isNone && s.rr.contains (core, slot)
def State.endTurn (s : State) (core slot : Nat) : State := { s with rr := s.rr.filter (· != (core, slot)) }

/-- The pending group that has waited more than 8,192 clk, the oldest first. -/
def State.overdue (s : State) (core slot : Nat) : Option Group :=
  oldestGroup ((s.pendingSet core slot).filter fun g => decide (g.since + 8192 < s.clk))

/-- The group whose last batch has issued 4,096 times while another was ready, and the batch that has waited longest. -/
def State.unfair (s : State) (core slot : Nat) : Option (Group × Nat) :=
  (s.pickGroup core slot).bind fun g =>
    if g.lastRun < 4096 then none else
    (s.pickKey g).bind fun k => if s.batchLanes g k = g.lastLanes then (s.longestReady g k).map fun j => (g, j) else none

/-- SLOT_CYCLE: the slot picks a group and a batch, or counts an idle cycle. -/
def execSlotCycle (core slot : Nat) (s : State) : Res :=
  if !s.slotTurn core slot then .next s else
  let s := s.endTurn core slot |>.slotSets core slot
  match (s.pickGroup core slot).bind fun g => (s.pickKey g).map fun k => (g, k) with
  | some (g, k) => .next (s.beginBatch g k)
  | none => .next (s.countLeaf core slot (s.idleLeaf core slot))

/-- PENDING_PROMOTION: the group takes a free place, or the place of the active group that has gone longest without issuing. -/
def execPendingPromotion (core slot : Nat) (s : State) : Res :=
  match s.overdue core slot with
  | none => .next s
  | some g =>
    let act := s.activeSet core slot
    let out := if act.length < 8 then none else
      act.foldl (fun (b : Option Group) x => match b with
        | none => some x
        | some y => if x.lastIssue < y.lastIssue then some x else some y) none
    let s := match out with
      | some x => s.setActive x.id false
      | none => s
    .next (s.setActive g.id true)

/-- BATCH_FAIRNESS: the batch that has been ready longest issues. -/
def execBatchFairness (core slot : Nat) (s : State) : Res :=
  if !s.slotTurn core slot then .next s else
  match s.unfair core slot with
  | none => .next s
  | some (g, k) => .next ((s.endTurn core slot).beginBatch g k)

/-- The event of a slot whose turn it is. -/
def State.slotEvent (s : State) (core slot : Nat) : Instr :=
  if (s.overdue core slot).isSome then .pendingPromotion core slot
  else if (s.unfair core slot).isSome then .batchFairness core slot
  else .slotCycle core slot

end Sys2Proof.Machine
end

