-- ==== Sys2Proof/Machine/Integer.lean ====
section
/-! DEFINITION. Integer, logic, shift, bit-field, compare, select and move instructions (spec/04, R77 to R93), with the
compact forms of the integer operations (spec/03, R56). -/
namespace Sys2Proof.Machine

/-- A number read as signed at width `w`. -/
def signed (w n : Nat) : Int := if n % 2 ^ w < 2 ^ (w - 1) then (n % 2 ^ w : Nat) else (n % 2 ^ w : Nat) - (2 ^ w : Nat)
/-- An integer modulo 2^w. -/
def wrap (w : Nat) (i : Int) : Nat := (i % (2 ^ w : Nat)).toNat
/-- Bits of a width flag. -/
def bitsOf (wide : Bool) : Nat := if wide then 64 else 32

/-- R format at width `w`: D, A and B. -/
def rrr (o : Rrr) (op : Nat → Nat → Nat → Nat) (s : State) : Res :=
  s.lanes (formRrr (regs o.x) o) fun g f => outWords o.x (op (bitsOf o.x) (g.num f o.x o.a) (g.num f o.x o.b))

/-- R format at 32 bits where X chooses the signedness. -/
def rrr32 (o : Rrr) (op : Bool → Nat → Nat → Nat) (s : State) : Res :=
  s.lanes (formRrr 1 o) fun g f => outWords false (op o.x (g.num f false o.a) (g.num f false o.b))

/-- A shift: D and A at width `w`, B one register (spec/04, R81). -/
def shiftReg (o : Rrr) (op : Nat → Nat → Nat → Nat) (s : State) : Res :=
  s.lanes ⟨[.dest o.d (regs o.x), .source o.a (regs o.x) o.fa, .source o.b 1 o.fb], [], false, .own⟩
    fun g f => outWords o.x (op (bitsOf o.x) (g.num f o.x o.a) (g.num f false o.b))

/-- Table 4.3 of spec/04. -/
def opAdd (w a b : Nat) : Nat := (a + b) % 2 ^ w
def opSub (w a b : Nat) : Nat := (a + 2 ^ w - b) % 2 ^ w
def opMul (w a b : Nat) : Nat := a * b % 2 ^ w
def opAnd (_w a b : Nat) : Nat := Nat.land a b
def opOr (_w a b : Nat) : Nat := Nat.lor a b
def opXor (_w a b : Nat) : Nat := Nat.xor a b
def opAndn (w a b : Nat) : Nat := Nat.land a (2 ^ w - 1 - b)
def opShl (w a b : Nat) : Nat := if b < w then a * 2 ^ b % 2 ^ w else 0
def opShr (w a b : Nat) : Nat := if b < w then a / 2 ^ b else 0
def opSar (w a b : Nat) : Nat :=
  if b < w then wrap w (signed w a / (2 ^ b : Nat)) else if signed w a < 0 then 2 ^ w - 1 else 0
def opMulhi (sg : Bool) (a b : Nat) : Nat :=
  if sg then wrap 32 (signed 32 a * signed 32 b / (2 ^ 32 : Nat)) else a * b / 2 ^ 32
def opMin (sg : Bool) (a b : Nat) : Nat := if sg then (if signed 32 a ≤ signed 32 b then a else b) else (if a ≤ b then a else b)
def opMax (sg : Bool) (a b : Nat) : Nat := if sg then (if signed 32 a ≤ signed 32 b then b else a) else (if a ≤ b then b else a)

def execAdd (o : Rrr) (s : State) : Res := rrr o opAdd s
def execSub (o : Rrr) (s : State) : Res := rrr o opSub s
def execMul (o : Rrr) (s : State) : Res := rrr o opMul s
def execMulhi (o : Rrr) (s : State) : Res := rrr32 o opMulhi s
def execMin (o : Rrr) (s : State) : Res := rrr32 o opMin s
def execMax (o : Rrr) (s : State) : Res := rrr32 o opMax s
def execAnd (o : Rrr) (s : State) : Res := rrr o opAnd s
def execOr (o : Rrr) (s : State) : Res := rrr o opOr s
def execXor (o : Rrr) (s : State) : Res := rrr o opXor s
def execAndn (o : Rrr) (s : State) : Res := rrr o opAndn s
def execShl (o : Rrr) (s : State) : Res := shiftReg o opShl s
def execShr (o : Rrr) (s : State) : Res := shiftReg o opShr s
def execSar (o : Rrr) (s : State) : Res := shiftReg o opSar s

/-- MAD also reads D (spec/04, R81). -/
def execMad (o : Rrr) (s : State) : Res :=
  s.lanes ⟨[.both o.d (regs o.x), .source o.a (regs o.x) o.fa, .source o.b (regs o.x) o.fb], [], false, .own⟩ fun g f =>
    outWords o.x ((g.num f o.x o.a * g.num f o.x o.b + g.num f o.x o.d) % 2 ^ bitsOf o.x)

/-- Quotient, remainder and flags of DIV and REM; truncation toward zero (spec/04, R82). -/
def divRem (sg : Bool) (a b : Nat) : Nat × Nat × BitVec 6 :=
  if b = 0 then (2 ^ 32 - 1, a, flagDZ)
  else if sg then
    let x := signed 32 a
    let y := signed 32 b
    (wrap 32 (x.tdiv y), wrap 32 (x.tmod y), 0)
  else (a / b, a % b, 0)

def execDiv (o : Rrr) (s : State) : Res :=
  .next (s.issue (formRrr 1 o) (longBody (formRrr 1 o) .longArith none fun g f =>
    let r := divRem o.x (g.num f false o.a) (g.num f false o.b)
    { words := [w32 r.1], flags := r.2.2 }))

def execRem (o : Rrr) (s : State) : Res :=
  .next (s.issue (formRrr 1 o) (longBody (formRrr 1 o) .longArith none fun g f =>
    let r := divRem o.x (g.num f false o.a) (g.num f false o.b)
    { words := [w32 r.2.1], flags := r.2.2 }))

/-- An immediate form at 32 bits with the immediate sign-extended (spec/04, R83). -/
def regImm (o : RegImm) (op : Nat → Nat → Nat → Nat) (s : State) : Res :=
  s.lanes ⟨[.dest o.d 1, .source o.a 1 o.fa], [], false, .own⟩ fun g f =>
    outWords false (op 32 (g.num f false o.a) (o.i.signExtend 32).toNat)

def execAddi (o : RegImm) (s : State) : Res := regImm o opAdd s
def execAndi (o : RegImm) (s : State) : Res := regImm o opAnd s
def execOri (o : RegImm) (s : State) : Res := regImm o opOr s
def execXori (o : RegImm) (s : State) : Res := regImm o opXor s

/-- An immediate shift (spec/04, R84). -/
def shiftImm (o : ShiftImm) (op : Nat → Nat → Nat → Nat) (s : State) : Res :=
  s.lanes ⟨[.dest o.d (regs o.wide), .source o.a (regs o.wide) o.fa], [], false, .own⟩ fun g f =>
    outWords o.wide (op (bitsOf o.wide) (g.num f o.wide o.a) o.n.val)

def execShli (o : ShiftImm) (s : State) : Res := shiftImm o opShl s
def execShri (o : ShiftImm) (s : State) : Res := shiftImm o opShr s
def execSari (o : ShiftImm) (s : State) : Res := shiftImm o opSar s

/-- A single-source function at width `w` (spec/04, R85). -/
def unary (o : Rr) (op : Nat → Nat → Nat) (s : State) : Res :=
  s.lanes (formRr o) fun g f => outWords o.x (op (bitsOf o.x) (g.num f o.x o.a))

/-- Zero bits above the highest 1 bit; `w` when all are 0. -/
def opClz (w a : Nat) : Nat := if a = 0 then w else w - 1 - Nat.log2 a
/-- The number of 1 bits among the low `w`. -/
def popcount : Nat → Nat → Nat
  | 0, _ => 0
  | w + 1, a => a % 2 + popcount w (a / 2)
/-- Bit i becomes bit w - 1 - i. -/
def bitrev : Nat → Nat → Nat
  | 0, _ => 0
  | w + 1, a => (a % 2) * 2 ^ w + bitrev w (a / 2)
def opAbs (w a : Nat) : Nat := wrap w (signed w a).natAbs

def execMov (o : Rr) (s : State) : Res := unary o (fun _ a => a) s
def execAbs (o : Rr) (s : State) : Res := unary o opAbs s
def execClz (o : Rr) (s : State) : Res := unary o opClz s
def execPopc (o : Rr) (s : State) : Res := unary o popcount s
def execBrev (o : Rr) (s : State) : Res := unary o bitrev s

/-- Position and length of a bit field from B (spec/04, R86). -/
def fieldOf (w b : Nat) : Nat × Nat :=
  let pos := b % 64
  let len := b / 2 ^ 8 % 128
  (pos, if w ≤ pos then 0 else min len (w - pos))

def opBfx (sg : Bool) (a b : Nat) : Nat :=
  let (pos, len) := fieldOf 32 b
  let x := a / 2 ^ pos % 2 ^ len
  if len = 0 then 0 else if sg then wrap 32 (signed len x) else x

def execBfx (o : Rrr) (s : State) : Res := rrr32 o opBfx s

/-- BFI: `d` with the field replaced by the low bits of `a` (spec/04, R87). -/
def opBfi (w d a b : Nat) : Nat :=
  let (pos, len) := fieldOf w b
  let mask := (2 ^ len - 1) * 2 ^ pos
  Nat.lor (Nat.land d (2 ^ w - 1 - mask)) (Nat.land (a * 2 ^ pos) mask)

def execBfi (o : Rrr) (s : State) : Res :=
  s.lanes ⟨[.both o.d (regs o.x), .source o.a (regs o.x) o.fa, .source o.b 1 o.fb], [], false, .own⟩ fun g f =>
    outWords o.x (opBfi (bitsOf o.x) (g.num f o.x o.d) (g.num f o.x o.a) (g.num f false o.b))

/-- LEA: X = 0 sign-extends B, X = 1 zero-extends it (spec/04, R88). -/
def execLea (o : Rrr) (s : State) : Res :=
  s.lanes ⟨[.dest o.d 2, .source o.a 2 o.fa, .source o.b 1 o.fb], [], false, .own⟩ fun g f =>
    let b := g.word f o.b
    outWords true (opAdd 64 (g.num f true o.a) (if o.x then b.toNat else (b.signExtend 64).toNat))

/-- Integer conditions (spec/03, Table 3.6). -/
def condInt (c w a b : Nat) : Bool :=
  match c with
  | 0 => a == b
  | 1 => a != b
  | 2 => decide (signed w a < signed w b)
  | 3 => decide (signed w b ≤ signed w a)
  | 4 => decide (signed w a ≤ signed w b)
  | 5 => decide (signed w b < signed w a)
  | 6 => decide (a < b)
  | 7 => decide (b ≤ a)
  | 8 => decide (a ≤ b)
  | 9 => decide (b < a)
  | _ => false

def execCmp (o : CmpReg) (s : State) : Res :=
  s.lanePreds ⟨[.source o.a (regs o.x) o.fa, .source o.b (regs o.x) o.fb], [o.p], false, .own⟩ o.p fun g f =>
    condInt o.cond.val (bitsOf o.x) (g.num f o.x o.a) (g.num f o.x o.b)

def execCmpi (o : CmpImm) (s : State) : Res :=
  s.lanePreds ⟨[.source o.a 1 o.fa], [o.p], false, .own⟩ o.p fun g f =>
    condInt o.cond.val 32 (g.num f false o.a) (o.i.signExtend 32).toNat

/-- SEL: both sources block on empty (spec/04, R90). -/
def execSel (o : Select) (s : State) : Res :=
  s.lanes ⟨[.dest o.d 1, .source o.a 1 false, .source o.b 1 false], [o.p], false, .own⟩ fun g f =>
    [if f.predBit o.p then g.word f o.a else g.word f o.b]

def execPlop (o : PredOp) (s : State) : Res :=
  s.lanePreds ⟨[], [o.pa, o.pb, o.pd], false, .own⟩ o.pd fun _ f =>
    bitAt o.tt.val (2 * nb (f.predBit o.pa) + nb (f.predBit o.pb))

def execMovi (i : BitVec 17) (d : Reg) (s : State) : Res :=
  s.lanes ⟨[.dest d 1], [], false, .own⟩ fun _ _ => [i.signExtend 32]

/-- MOVHI reads D (spec/04, R93). -/
def execMovhi (i : BitVec 16) (d : Reg) (s : State) : Res :=
  s.lanes ⟨[.both d 1], [], false, .own⟩ fun g f => [i ++ (g.word f d).truncate 16]

/-- A compact word as the 32-bit word of Table 3.3 (spec/03, R56): D and A from bits 10:6, B from bits 15:11. -/
def Compact.rrr (o : Compact) (x : Bool) : Rrr :=
  ⟨x, false, false, .v (o.b.castLE (by decide)), .v (o.d.castLE (by decide)), .v (o.d.castLE (by decide))⟩

def execAddS32Compact (o : Compact) (s : State) : Res := execAdd (Compact.rrr o false) s
def execSubS32Compact (o : Compact) (s : State) : Res := execSub (Compact.rrr o false) s
def execMulS32Compact (o : Compact) (s : State) : Res := execMul (Compact.rrr o false) s
def execAndCompact (o : Compact) (s : State) : Res := execAnd (Compact.rrr o false) s
def execOrCompact (o : Compact) (s : State) : Res := execOr (Compact.rrr o false) s
def execXorCompact (o : Compact) (s : State) : Res := execXor (Compact.rrr o false) s
def execShlS32Compact (o : Compact) (s : State) : Res := execShl (Compact.rrr o false) s
def execShrN32Compact (o : Compact) (s : State) : Res := execShr (Compact.rrr o false) s
def execSarS32Compact (o : Compact) (s : State) : Res := execSar (Compact.rrr o false) s
def execMinS32Compact (o : Compact) (s : State) : Res := execMin (Compact.rrr o true) s
def execMaxS32Compact (o : Compact) (s : State) : Res := execMax (Compact.rrr o true) s
/-- MOV takes its source from bits 15:11. -/
def execMovCompact (o : Compact) (s : State) : Res :=
  execMov ⟨false, false, .v (o.b.castLE (by decide)), .v (o.d.castLE (by decide))⟩ s

end Sys2Proof.Machine
end

