-- ==== Sys2Proof/Machine/Sfu.lean ====
section
/-! DEFINITION. The binary32 stage of the special-function unit: its special cases, and the bound on every other result
(spec/06, R137, Table 6.6). -/
namespace Sys2Proof.Machine

inductive SfuFn where
  | ex2 | lg2 | sin | cos | rcp | rsq | tanh
  deriving DecidableEq, Repr

def SfuFn.code : SfuFn → Nat
  | .ex2 => 5 | .lg2 => 6 | .sin => 7 | .cos => 8 | .rcp => 9 | .rsq => 10 | .tanh => 11

/-- The special cases; `none` leaves the value to the device's function. -/
def SfuFn.special (fn : SfuFn) : Num → Option (Num × BitVec 6)
  | .nan sig => some (.nan false, if sig then flagNV else 0)
  | .inf s =>
    match fn with
    | .ex2 => some (if s then .fin false 0 1 else .inf false, 0)
    | .lg2 => some (if s then (.nan false, flagNV) else (.inf false, 0))
    | .rsq => some (if s then (.nan false, flagNV) else (.fin false 0 1, 0))
    | .sin => some (.nan false, flagNV)
    | .cos => some (.nan false, flagNV)
    | .rcp => some (.fin s 0 1, 0)
    | .tanh => some (.fin s 1 1, 0)
  | .fin s n q =>
    match fn with
    | .ex2 => if !s && 128 * q ≤ n then some (.inf false, flagOF ||| flagIX)
        else if s && 149 * q < n then some (.fin false 0 1, flagUF ||| flagIX) else none
    | .lg2 => if n = 0 then some (.inf true, flagDZ) else if s then some (.nan false, flagNV) else none
    | .rcp => if n = 0 then some (.inf s, flagDZ) else none
    | .rsq => if n = 0 then some (.inf s, flagDZ) else if s then some (.nan false, flagNV) else none
    | _ => none

/-! Exact values, to more digits than the bound can tell apart. A fixed-point number is an integer over `one`. -/

/-- The sum of `n` terms of a series from term `k`, each computed from the one before. -/
def series (step : Nat → Int → Int) : Nat → Nat → Int → Int
  | 0, _, _ => 0
  | n + 1, k, t => t + series step n (k + 1) (step k t)

/-- e^x. -/
def fxExp (one x : Int) : Int := series (fun k t => t * x / one / (k + 1)) 80 0 one

/-- Σ p·z^k / (2k + 1) from term `k` on: the inverse hyperbolic tangent, or the arc tangent for a negative z. -/
def oddSeries (one z : Int) : Nat → Nat → Int → Int
  | 0, _, _ => 0
  | n + 1, k, p => p / (2 * k + 1) + oddSeries one z n (k + 1) (p * z / one)

def fxAtanh (one z : Int) : Int := oddSeries one (z * z / one) 80 0 z
def fxAtan (one z : Int) : Int := oddSeries one (-(z * z / one)) 80 0 z
def fxLn2 (one : Int) : Int := 2 * fxAtanh one (one / 3)
def fxHalfPi (one : Int) : Int := 8 * fxAtan one (one / 5) - 2 * fxAtan one (one / 239)

def fxSin (one r : Int) : Int := series (fun k t => -(t * r / one * r / one / ((2 * k + 2) * (2 * k + 3)))) 40 0 r
def fxCos (one r : Int) : Int := series (fun k t => -(t * r / one * r / one / ((2 * k + 1) * (2 * k + 2)))) 40 0 one

/-- 2^x, as a fraction. -/
def exp2Frac (x : Int) (one : Int) : Int × Nat :=
  let m := fxExp one (x % one * fxLn2 one / one)
  (m * 2 ^ (x / one).toNat, one.toNat * 2 ^ (-(x / one)).toNat)

/-- The binary logarithm of n/q. -/
def log2Frac (n q : Nat) (one : Int) : Int × Nat :=
  let e := flog2 n q
  let (a, b) := scaleFrac n q e
  (e * one + 2 * fxAtanh one (((a : Int) - b) * one / (a + b)) * one / fxLn2 one, one.toNat)

/-- The sine `q` quarter turns on: argument reduction is exact for every operand that binary32 has. -/
def sinFrac (quarters : Int) (x : Int) (one : Int) : Int × Nat :=
  let h := fxHalfPi one
  let k := (x + h / 2) / h
  let r := x - k * h
  (match (k + quarters) % 4 with
    | 0 => fxSin one r
    | 1 => fxCos one r
    | 2 => -fxSin one r
    | _ => -fxCos one r, one.toNat)

/-- The hyperbolic tangent of a magnitude; beyond 32 it is 1 to the last digit that counts. -/
def tanhFrac (n q : Nat) (one : Int) : Int × Nat :=
  if 32 * q < n then (1, 1) else
  let sq := fun (e : Int) => e * e / one
  let e := sq (sq (sq (sq (sq (sq (fxExp one (n * one / (32 * q))))))))
  (e - one, (e + one).toNat)

/-- The exact value of a function at a finite operand for which Table 6.6 has no case. -/
def SfuFn.exact (fn : SfuFn) (s : Bool) (n q : Nat) : Int × Nat :=
  match fn with
  | .ex2 => exp2Frac (sgn s n * 2 ^ 96 / q) (2 ^ 96)
  | .lg2 => log2Frac n q (2 ^ 96)
  | .sin => sinFrac 0 (sgn s n * 2 ^ 256 / q) (2 ^ 256)
  | .cos => sinFrac 1 (sgn s n * 2 ^ 256 / q) (2 ^ 256)
  | .rcp => (sgn s q, n)
  | .rsq => let r := sqrtFrac 60 q n; (r.1, r.2)
  | .tanh => let r := tanhFrac n q (2 ^ 256); (sgn s r.1.toNat, r.2)

/-- A binary32 code is finite and within 2 units in the last place of a value; of a value beyond the largest finite number the spec
says nothing. -/
def withinTwo (v : Int × Nat) (c : Nat) : Bool :=
  if (2 ^ 24 - 1) * 2 ^ 104 * v.2 < v.1.natAbs then true else
  match Lay.f32.read c with
  | .fin s n q =>
    let e : Int := if v.1 = 0 then -149 else max (flog2 v.1.natAbs v.2) (-126) - 23
    let d := scaleFrac (sgn s n * v.2 - v.1 * q).natAbs (q * v.2) (e + 1)
    decide (d.1 ≤ d.2)
  | _ => false

/-- sfu_f32 where Table 6.6 has no case: the device's own function, within its bound (notes/assumptions/13). -/
def SfuFn.value (fn : SfuFn) (s : Bool) (n q : Nat) : Nat :=
  let v := fn.exact s n q
  let r := (Config.sfu fn.code (w32 (Lay.f32.round .rne (.fin s n q)).1)).toNat
  if withinTwo v r then r else (Lay.f32.round .rne (.ofInt false v.1 v.2)).1

/-- The binary32 stage sfu_f32. -/
def sfuF32 (fn : SfuFn) (a : Num) : Nat × BitVec 6 :=
  match fn.special a, a with
  | some (x, fl), _ => ((Lay.f32.round .rne x).1, fl)
  | none, .fin s n q => (fn.value s n q, 0)
  | none, _ => (Lay.f32.nanCode, 0)

end Sys2Proof.Machine
end

