-- ==== Sys2Proof/Machine/Float.lean ====
section
/-! DEFINITION. Floating, rational and conversion instructions, plane packing, and the compact floating forms (spec/06). -/
namespace Sys2Proof.Machine

/-! Operands (spec/06, R125). -/

/-- The code of an operand in a format; 16-bit formats ignore bits 31:16. -/
def Group.code (g : Group) (f : Fibre) (F : Fmt) (r : Reg) : Nat :=
  match F with
  | .f64 => (g.dword f r).toNat
  | .f32 => (g.word f r).toNat
  | .f16 => (g.word f r).toNat % 65536
  | .bf16 => (g.word f r).toNat % 65536

/-- An operand as an IEEE value. -/
def Group.ieee (g : Group) (f : Fibre) (F : Fmt) (r : Reg) : Num := (layOf F).read (g.code f F r)

/-- The words of a code. -/
def fmtWords (F : Fmt) (c : Nat) : List Word := outWords F.wide c

/-- NV when any operand is a signalling NaN. -/
def snan (l : List Num) : BitVec 6 := if l.any Num.isSnan then flagNV else 0

/-- A binary or fused operation on exact values: the result and its flags. -/
abbrev NumOp := Rnd → Num → Num → Num → Num × BitVec 6

def optNum : Option Num → Num × BitVec 6
  | some x => (x, 0)
  | none => (.nan false, flagNV)

/-- R131: FADD, FSUB, FMUL, FDIV, FMA on values, without the signalling NaN. -/
def numAdd : NumOp := fun rnd a b _ => optNum (a.add? rnd b)
def numSub : NumOp := fun rnd a b _ => optNum (a.add? rnd b.negate)
def numMul : NumOp := fun _ a b _ => optNum (a.mul? b)
def numDiv : NumOp := fun _ a b _ =>
  match a.div b with
  | .ok x => (x, 0)
  | .byZero x => (x, flagDZ)
  | .invalid => (.nan false, flagNV)
/-- 0 × ∞ is invalid whatever the addend. -/
def numFma : NumOp := fun rnd a b c =>
  match a.mul? b with
  | none => (.nan false, flagNV)
  | some p => optNum (p.add? rnd c)
def numMin : NumOp := fun _ a b _ => (a.minOf b, 0)
def numMax : NumOp := fun _ a b _ => (a.maxOf b, 0)
/-- FCPYS: the magnitude of A with the sign of B, of which only the sign bit counts. -/
def signOf (L : Lay) (c : Nat) : Bool := c / L.signBit % 2 == 1

/-- The result of an IEEE operation: the code and every flag. -/
def ieeeOut (F : Fmt) (rnd : Rnd) (ops : List Num) (x : Num × BitVec 6) : Nat × BitVec 6 :=
  let r := (layOf F).round rnd x.1
  (r.1, r.2 ||| x.2 ||| snan ops)

/-- Registers of an operand in a format. -/
def fmtRegs (F : Fmt) : Nat := if F.wide then 2 else 1

/-- The form of a binary operation; FMA also reads D. -/
def formF (F : Fmt) (fma : Bool) (o : Rrr) : Form :=
  ⟨[if fma then .both o.d (fmtRegs F) else .dest o.d (fmtRegs F), .source o.a (fmtRegs F) o.fa, .source o.b (fmtRegs F) o.fb],
    [], false, .own⟩

/-- One lane of an IEEE operation. -/
def ieeeLane (F : Fmt) (fma : Bool) (op : NumOp) (o : Rrr) (g : Group) (f : Fibre) : LaneOut :=
  let a := g.ieee f F o.a
  let b := g.ieee f F o.b
  let c := if fma then g.ieee f F o.d else .fin false 0 1
  let r := ieeeOut F f.rnd [a, b, c] (op f.rnd a b c)
  arithOut f r.2 { words := fmtWords F r.1 }

/-! Rational operations (spec/06, R138, R139). -/

/-- An operand as a rational, with the flags of reading it. -/
def Group.rational (g : Group) (f : Fibre) (wide : Bool) (r : Reg) : Num × BitVec 6 := ratRead (ratW wide) (g.num f wide r)

/-- Special values of Table 5.9: a zero denominator raises QZ in place of DZ. -/
def ratFlags (fl : BitVec 6) (a b : Num) : BitVec 6 :=
  if fl = flagDZ then (if a.isInf then 0 else flagQZ)
  else if fl = flagNV && a.isZero && b.isZero then flagQZ ||| flagNV
  else fl

/-- A rational binary operation whose result is rounded by round_q. -/
def ratOp (op : NumOp) (isDiv wide : Bool) (rnd : Rnd) (a b : Num) : Num × BitVec 6 :=
  if a.isNan || b.isNan then (.nan false, 0) else
  let r := op rnd a b (.fin false 0 1)
  let q := roundQ (ratW wide) rnd r.1
  (q.1, q.2 ||| (if isDiv then ratFlags r.2 a b else r.2))

/-- The long-latency result of a rational operation on A and B. -/
def ratLane (h : Bool → Rnd → Num → Num → Num × BitVec 6) (wide : Bool) (a b : Reg) (g : Group) (f : Fibre) : LongRes :=
  let x := g.rational f wide a
  let y := g.rational f wide b
  let r := h wide f.rnd x.1 y.1
  { words := outWords wide (ratCode (ratW wide) r.1), flags := r.2 ||| x.2 ||| y.2 }

/-- Lanes in rational mode and lanes in IEEE mode each have their own meaning: RAT is sampled by fibre (spec/02, R37). -/
def splitRat (fm : Form) (rat : Group → Fibre → LongRes) (ieee : Group → Fibre → LaneOut) :
    State → Group → Cur → List Fibre → Body :=
  mixedBody fm .rational none Fibre.rat rat fun g _ f => ieee g f

/-- A form that traps in rational mode. -/
def ratTrap (c : Cur) (f : Fibre) (out : LaneOut) : LaneOut :=
  if f.rat then .fail .nvIllegalInRational (d64 c.word) else out

/-- A .F32 or .F64 operation that becomes rational when RAT is 1. -/
def fltRat (o : Rrr) (op : NumOp) (rat : Bool → Rnd → Num → Num → Num × BitVec 6) (s : State) : Res :=
  let F : Fmt := if o.x then .f64 else .f32
  let fm := formF F false o
  .next (s.issue fm (splitRat fm (ratLane rat o.x o.a o.b) (ieeeLane F false op o)))

/-- A .F16 or .BF16 operation. -/
def flt16 (o : Rrr) (fma : Bool) (op : NumOp) (s : State) : Res :=
  let F : Fmt := if o.x then .bf16 else .f16
  .next (s.issue (formF F fma o) (eachLane (ieeeLane F fma op o)))

def execFadd (o : Rrr) (s : State) : Res := fltRat o numAdd (ratOp numAdd false) s
def execFsub (o : Rrr) (s : State) : Res := fltRat o numSub (ratOp numSub false) s
def execFmul (o : Rrr) (s : State) : Res := fltRat o numMul (ratOp numMul false) s
def execFdiv (o : Rrr) (s : State) : Res := fltRat o numDiv (ratOp numDiv true) s
/-- Rational minimum and maximum are written canonical (spec/06, R139). -/
def execFmin (o : Rrr) (s : State) : Res := fltRat o numMin (fun _ _ a b => ((a.minOf b).reduce, 0)) s
def execFmax (o : Rrr) (s : State) : Res := fltRat o numMax (fun _ _ a b => ((a.maxOf b).reduce, 0)) s

def execFma (o : Rrr) (s : State) : Res :=
  let F : Fmt := if o.x then .f64 else .f32
  .next (s.issue (formF F true o) fun _ g c fs => ⟨fs.map fun f => (f, ratTrap c f (ieeeLane F true numFma o g f)), id, id⟩)

def execFcpys (o : Rrr) (s : State) : Res :=
  let F : Fmt := if o.x then .f64 else .f32
  .next (s.issue (formF F false o) fun _ g c fs => ⟨fs.map fun f =>
    let a := g.ieee f F o.a
    let b := g.ieee f F o.b
    let x := a.withSign (signOf (layOf F) (g.code f F o.b))
    (f, ratTrap c f (arithOut f (snan [a, b]) { words := fmtWords F ((layOf F).round f.rnd x).1 })), id, id⟩)

def execFadd16 (o : Rrr) (s : State) : Res := flt16 o false numAdd s
def execFsub16 (o : Rrr) (s : State) : Res := flt16 o false numSub s
def execFmul16 (o : Rrr) (s : State) : Res := flt16 o false numMul s
def execFma16 (o : Rrr) (s : State) : Res := flt16 o true numFma s
def execFmin16 (o : Rrr) (s : State) : Res := flt16 o false numMin s
def execFmax16 (o : Rrr) (s : State) : Res := flt16 o false numMax s

def execFaddF32Compact (o : Compact) (s : State) : Res := execFadd (Compact.rrr o false) s
def execFsubF32Compact (o : Compact) (s : State) : Res := execFsub (Compact.rrr o false) s
def execFmulF32Compact (o : Compact) (s : State) : Res := execFmul (Compact.rrr o false) s
def execFmaxF32Compact (o : Compact) (s : State) : Res := execFmax (Compact.rrr o false) s

/-! Compares (spec/06, R134, R139). -/

/-- NV of a compare: LT, GE, LE and GT raise it for any NaN operand, the others for a signalling one. -/
def cmpFlags (c : Nat) (a b : Num) : BitVec 6 :=
  if (2 ≤ c && c ≤ 5) && (a.isNan || b.isNan) then flagNV else snan [a, b]

def formCmp (F : Fmt) (o : CmpReg) : Form :=
  ⟨[.source o.a (fmtRegs F) o.fa, .source o.b (fmtRegs F) o.fb], [o.p], false, .own⟩

def ieeeCmp (F : Fmt) (o : CmpReg) (g : Group) (f : Fibre) : LaneOut :=
  let a := g.ieee f F o.a
  let b := g.ieee f F o.b
  arithOut f (cmpFlags o.cond.val a b) { pred := some (o.p, condNum o.cond.val a b) }

/-- A rational compare. -/
def ratCmp (o : CmpReg) (g : Group) (f : Fibre) : LongRes :=
  let x := g.rational f o.x o.a
  let y := g.rational f o.x o.b
  { flags := cmpFlags o.cond.val x.1 y.1 ||| x.2 ||| y.2, pred := some (o.p, condNum o.cond.val x.1 y.1) }

/-- TENV of a fibre. -/
def Fibre.tenv (f : Fibre) : Bool := f.enables.getLsbD 4

/-- A rational FCMP that completes later: TENV is 0, and no enabled flag is raised. -/
def cmpSlow (o : CmpReg) (g : Group) (f : Fibre) : Bool := f.rat && !f.tenv && (arithTrap f (ratCmp o g f).flags).isNone

/-- FCMP. A rational FCMP under TENV holds its fibre until it has completed, so it completes at once; one that raises an enabled flag
traps ARITH at the FCMP itself, with PD not written (spec/06, R127, R139; notes/assumptions/12). -/
def execFcmp (o : CmpReg) (s : State) : Res :=
  let F : Fmt := if o.x then .f64 else .f32
  let fm := formCmp F o
  .next (s.issue fm fun s g c fs => mixedBody fm .rational (some o.p) (cmpSlow o g) (ratCmp o) (fun g _ f =>
    if f.rat then arithOut f (ratCmp o g f).flags { pred := (ratCmp o g f).pred } else ieeeCmp F o g f) s g c fs)

def execFcmp16 (o : CmpReg) (s : State) : Res :=
  let F : Fmt := if o.x then .bf16 else .f16
  .next (s.issue (formCmp F o) (eachLane (ieeeCmp F o)))

/-! Unary operations of major 0x31. -/

def formU (F : Fmt) (o : FUnary) : Form := ⟨[.dest o.d (fmtRegs F), .source o.a (fmtRegs F) o.fa], [], false, .own⟩
def Fmt.half : Fmt → Bool
  | .f16 => true
  | .bf16 => true
  | _ => false

/-- A unary operation that traps in rational mode at .F32 and .F64. -/
def unaryTrap (o : FUnary) (h : Lay → Rnd → Num → Num × BitVec 6) (s : State) : Res :=
  .next (s.issue (formU o.fmt o) fun _ g c fs => ⟨fs.map fun f =>
    let a := g.ieee f o.fmt o.a
    let r := ieeeOut o.fmt f.rnd [a] (h (layOf o.fmt) f.rnd a)
    let out := arithOut f r.2 { words := fmtWords o.fmt r.1 }
    (f, if Fmt.half o.fmt then out else ratTrap c f out), id, id⟩)

/-- The square root: a value that rounds as the root does (spec/06, R135). -/
def numSqrt (L : Lay) (_ : Rnd) : Num → Num × BitVec 6
  | .nan _ => (.nan false, 0)
  | .inf s => if s then (.nan false, flagNV) else (.inf false, 0)
  | .fin s n q =>
    if n = 0 then (.fin s 0 1, 0)
    else if s then (.nan false, flagNV)
    else (.fin false (sqrtFrac (L.mb + 1) n q).1 (sqrtFrac (L.mb + 1) n q).2, 0)

/-- An integral value under RND, with IX when it differs. -/
def numRnd (_ : Lay) (rnd : Rnd) : Num → Num × BitVec 6
  | .nan _ => (.nan false, 0)
  | .inf s => (.inf s, 0)
  | .fin s n q => (.fin s (roundNat rnd s n q).1 1, if (roundNat rnd s n q).2 then flagIX else 0)

def execFsqrt (o : FUnary) (s : State) : Res := unaryTrap o numSqrt s
def execFrnd (o : FUnary) (s : State) : Res := unaryTrap o numRnd s

/-- FABS and FNEG: rational at .F32 and .F64 when RAT is 1 (spec/06, R133, R139). -/
def signOp (o : FUnary) (h : Num → Num) (s : State) : Res :=
  let fm := formU o.fmt o
  let ieee := fun (g : Group) (f : Fibre) =>
    let a := g.ieee f o.fmt o.a
    let r := ieeeOut o.fmt f.rnd [a] (h a, 0)
    arithOut f r.2 { words := fmtWords o.fmt r.1 }
  .next (s.issue fm (if Fmt.half o.fmt then eachLane ieee else splitRat fm (fun g f =>
    let x := g.rational f o.fmt.wide o.a
    { words := outWords o.fmt.wide (ratCode (ratW o.fmt.wide) (h x.1).reduce), flags := x.2 }) ieee))

def execFabs (o : FUnary) (s : State) : Res := signOp o (Num.withSign false) s
def execFneg (o : FUnary) (s : State) : Res := signOp o Num.negate s

/-- FCLASS (spec/06, Table 6.5). -/
def classBit (L : Lay) (c : Nat) : Nat :=
  let sub := c / 2 ^ L.mb % 2 ^ L.eb == 0
  match L.read c with
  | .nan true => 8
  | .nan false => 9
  | .inf s => if s then 0 else 7
  | .fin s n _ =>
    if n = 0 then (if s then 3 else 4)
    else if sub then (if s then 2 else 5) else (if s then 1 else 6)

def execFclass (o : FUnary) (s : State) : Res :=
  .next (s.issue ⟨[.dest o.d 1, .source o.a (fmtRegs o.fmt) o.fa], [], false, .own⟩ fun _ g c fs => ⟨fs.map fun f =>
    let out := LaneOut.done { words := [w32 (2 ^ classBit (layOf o.fmt) (g.code f o.fmt o.a))] }
    (f, if Fmt.half o.fmt then out else ratTrap c f out), id, id⟩)

/-! The special-function unit (spec/06, R137, Table 6.6). -/

/-- SFU at .F32 or .F16. -/
def sfuRes (fn : SfuFn) (F : Fmt) (rnd : Rnd) (a : Num) : Nat × BitVec 6 :=
  let r := sfuF32 fn a
  match F with
  | .f16 =>
    let h := Lay.f16.round rnd (Lay.f32.read r.1)
    (h.1, h.2 ||| r.2)
  | _ => r

def sfuOp (fn : SfuFn) (o : FUnary) (s : State) : Res :=
  let fm := formU o.fmt o
  .next (s.issue fm (mixedBody fm .longArith none (fun f => !f.rat || Fmt.half o.fmt) (fun g f =>
      let r := sfuRes fn o.fmt f.rnd (g.ieee f o.fmt o.a)
      { words := fmtWords o.fmt r.1, flags := r.2 })
    fun _ c _ => .fail .nvIllegalInRational (d64 c.word)))

def execSfuEx2 (o : FUnary) (s : State) : Res := sfuOp .ex2 o s
def execSfuLg2 (o : FUnary) (s : State) : Res := sfuOp .lg2 o s
def execSfuSin (o : FUnary) (s : State) : Res := sfuOp .sin o s
def execSfuCos (o : FUnary) (s : State) : Res := sfuOp .cos o s
def execSfuRcp (o : FUnary) (s : State) : Res := sfuOp .rcp o s
def execSfuRsq (o : FUnary) (s : State) : Res := sfuOp .rsq o s
def execSfuTanh (o : FUnary) (s : State) : Res := sfuOp .tanh o s

/-! Rationals taken apart and built (spec/06, R140 to R142). -/

/-- QNUM and QDEN of a value in lowest terms. -/
def qnumOf : Num → Int
  | .nan _ => 0
  | .inf s => if s then -1 else 1
  | .fin s n _ => sgn s n
def qdenOf : Num → Int
  | .nan _ => 0
  | .inf _ => 0
  | .fin _ _ q => q

def qpart (o : FUnary) (h : Num → Int) (s : State) : Res :=
  let w := o.fmt.wide
  let fm := formU o.fmt o
  .next (s.issue fm (longBody fm .rational none fun g f =>
    let x := g.rational f w o.a
    { words := outWords w (wrap (bitsOf w) (h x.1.reduce)), flags := x.2 }))

def execQnum (o : FUnary) (s : State) : Res := qpart o qnumOf s
def execQden (o : FUnary) (s : State) : Res := qpart o qdenOf s

/-- QMAKE of two signed integers. -/
def qmakeRes (wide : Bool) (rnd : Rnd) (a b : Int) : Num × BitVec 6 :=
  if b = 0 then (if a = 0 then (.nan false, flagQZ ||| flagNV) else (.inf (decide (a < 0)), flagQZ))
  else roundQ (ratW wide) rnd (.fin (if a = 0 then decide (b < 0) else decide (a < 0) != decide (b < 0)) a.natAbs b.natAbs)

def execQmake (o : Rrr) (s : State) : Res :=
  let fm := formRrr (regs o.x) o
  .next (s.issue fm (longBody fm .rational none fun g f =>
    let w := bitsOf o.x
    let r := qmakeRes o.x f.rnd (signed w (g.num f o.x o.a)) (signed w (g.num f o.x o.b))
    { words := outWords o.x (ratCode (ratW o.x) r.1), flags := r.2 }))

/-- QLIM: round_q with the denominator bounded. -/
def qlimRes (wide : Bool) (rnd : Rnd) (a : Num) (b : Nat) : Num × BitVec 6 :=
  roundQWith (ratW wide) (fun n q => fitsIn (ratW wide) n q && decide (q ≤ max b 1)) rnd a

def execQlim (o : Rrr) (s : State) : Res :=
  let fm := formRrr (regs o.x) o
  .next (s.issue fm (longBody fm .rational none fun g f =>
    let x := g.rational f o.x o.a
    let r := qlimRes o.x f.rnd x.1 (g.num f o.x o.b)
    { words := outWords o.x (ratCode (ratW o.x) r.1), flags := r.2 ||| x.2 }))

/-! Conversions (spec/06, R143 to R147). -/

/-- The range of an integer format. -/
def IntFmt.range : IntFmt → Int × Int
  | .s32 => (-2 ^ 31, 2 ^ 31 - 1)
  | .n32 => (0, 2 ^ 32 - 1)
  | .s64 => (-2 ^ 63, 2 ^ 63 - 1)
  | .n64 => (0, 2 ^ 64 - 1)

/-- CVTI: an integer and flags. -/
def cvtiRes (I : IntFmt) (rnd : Rnd) (x : Num) : Int × BitVec 6 :=
  let (lo, hi) := IntFmt.range I
  match x with
  | .nan _ => (0, flagNV)
  | .inf s => (if s then lo else hi, flagNV)
  | .fin s n q =>
    let (k, ix) := roundNat rnd s n q
    let y := sgn s k
    if y < lo then (lo, flagNV) else if hi < y then (hi, flagNV) else (y, if ix then flagIX else 0)

def execCvti (o : CvtInt) (s : State) : Res :=
  .next (s.issue ⟨[.dest o.d (regs o.ii.wide), .source o.a (fmtRegs o.ff) o.fa], [], false, .own⟩ fun _ g c fs =>
    ⟨fs.map fun f =>
      let r := cvtiRes o.ii (if o.t then .rtz else f.rnd) (g.ieee f o.ff o.a)
      let out := arithOut f r.2 { words := outWords o.ii.wide (wrap (bitsOf o.ii.wide) r.1) }
      (f, if Fmt.half o.ff then out else ratTrap c f out), id, id⟩)

/-- The integer of a source register. -/
def intOf (I : IntFmt) (v : Nat) : Int :=
  match I with
  | .s32 => signed 32 v
  | .s64 => signed 64 v
  | _ => v

def execCvtf (o : CvtInt) (s : State) : Res :=
  .next (s.issue ⟨[.dest o.d (fmtRegs o.ff), .source o.a (regs o.ii.wide) o.fa], [], false, .own⟩ fun _ g c fs =>
    ⟨fs.map fun f =>
      let r := (layOf o.ff).round f.rnd (.ofInt false (intOf o.ii (g.num f o.ii.wide o.a)) 1)
      let out := arithOut f r.2 { words := fmtWords o.ff r.1 }
      (f, if Fmt.half o.ff then out else ratTrap c f out), id, id⟩)

/-- CVTW in IEEE mode. -/
def cvtwIeee (o : CvtWide) (g : Group) (f : Fibre) : LaneOut :=
  let a := g.ieee f o.src o.a
  let r := ieeeOut o.dst f.rnd [a] (a, 0)
  arithOut f r.2 { words := fmtWords o.dst r.1 }

/-- CVTW with its .F32 and .F64 sides rational (spec/06, R145). -/
def cvtwRat (o : CvtWide) (g : Group) (f : Fibre) : LongRes :=
  let x := if Fmt.half o.src then (g.ieee f o.src o.a, snan [g.ieee f o.src o.a]) else g.rational f o.src.wide o.a
  if Fmt.half o.dst then
    let r := (layOf o.dst).round f.rnd x.1
    { words := fmtWords o.dst r.1, flags := r.2 ||| x.2 }
  else
    let r := roundQ (ratW o.dst.wide) f.rnd x.1
    { words := fmtWords o.dst (ratCode (ratW o.dst.wide) r.1), flags := r.2 ||| x.2 }

def execCvtw (o : CvtWide) (s : State) : Res :=
  let fm : Form := ⟨[.dest o.d (fmtRegs o.dst), .source o.a (fmtRegs o.src) o.fa], [], false, .own⟩
  .next (s.issue fm (if Fmt.half o.src && Fmt.half o.dst then eachLane (cvtwIeee o)
    else splitRat fm (cvtwRat o) (cvtwIeee o)))

def execCvtn (o : CvtNarrow) (s : State) : Res :=
  .next (s.issue ⟨[.dest o.d 1, .source o.a (fmtRegs o.ff) o.fa], [], false, .own⟩ fun _ g c fs => ⟨fs.map fun f =>
    let r := roundNarrow f.rnd o.nn o.sat (g.ieee f o.ff o.a)
    let out := arithOut f r.2 { words := [w32 r.1] }
    (f, if Fmt.half o.ff then out else ratTrap c f out), id, id⟩)

def execCvtx (o : CvtNarrow) (s : State) : Res :=
  .next (s.issue ⟨[.dest o.d (fmtRegs o.ff), .source o.a 1 o.fa], [], false, .own⟩ fun _ g c fs => ⟨fs.map fun f =>
    let out := LaneOut.done { words := fmtWords o.ff ((layOf o.ff).round .rne (narrowRead o.nn (g.word f o.a).toNat)).1 }
    (f, if Fmt.half o.ff then out else ratTrap c f out), id, id⟩)

/-! Plane packing (spec/06, R148). -/

/-- A of a lane among the fibres that act, 0 elsewhere. -/
def laneA (g : Group) (fs : List Fibre) (r : Reg) (l : Nat) : Nat :=
  match fs.find? (fun f => f.lane.val = l) with
  | some f => (g.word f r).toNat
  | none => 0

def formPlane (o : Plane) : Form := ⟨[.dest o.d 1, .source o.a 1 o.fa], [], false, .every⟩

def execPkp (o : Plane) (s : State) : Res :=
  .next (s.issue (formPlane o) fun _ g _ fs =>
    let m := o.w.val + 2
    let blk := packPlanes m fun e => laneA g fs o.a e % 2 ^ m
    ⟨fs.map fun f => (f, .done { words := [if f.lane.val < m then w32 (blk / 2 ^ (32 * f.lane.val)) else 0] }), id, id⟩)

def execUpkp (o : Plane) (s : State) : Res :=
  .next (s.issue (formPlane o) fun _ g _ fs =>
    let m := o.w.val + 2
    let blk := (List.range m).foldl (fun v j => v + laneA g fs o.a j * 2 ^ (32 * j)) 0
    ⟨fs.map fun f => (f, .done { words := [w32 (unpackPlanes m blk f.lane.val)] }), id, id⟩)

end Sys2Proof.Machine
end

