-- ==== Sys2Proof/Machine/History.lean ====
section
/-! DEFINITION. The history and texture instructions: HLD, HLD.F, HLDP, TEX, HSEAL, HOPEN, HFOLD and the completion of a fold
(spec/15, R315 to R323, R327). -/
namespace Sys2Proof.Machine

/-! Headers. -/

/-- The bytes of a header, read as a load of the group, once the capability has passed R158 over them; none when a translation, poison
or an all-bank pseudo-channel puts the read off to the producer (spec/15, R317; spec/21, R378). -/
def State.header (s : State) (g : Group) (f : Fibre) (a : Quad) (operand n : Nat) : AtIssue (Option (List Byte)) :=
  let q := g.quad f a
  match s.block? g.block, s.capCheck (s.ctxOf g) q (g.tagOf f a) operand ⟨[0, 5, 1], [0], .rd, n, false⟩ with
  | none, _ => .trap ⟨.capBounds, 0⟩
  | _, some t => .trap t
  | some b, none =>
    if capBase q % 16 ≠ 0 then .trap ⟨.misaligned, d64 (capBase q)⟩ else
    match s.bounds b q 0 n with
    | .error t => .trap t
    | .ok (va, key) =>
      let e : Option Extent := match key, s.translatePages g f.lane .rd va n (pagesOf va n) with
        | some k, _ => some ⟨va, n, some k, []⟩
        | none, .ok e => some e
        | none, _ => none
      match e with
      | none => .ok none
      | some e =>
        let at_ := (List.range n).map (e.a + ·)
        if s.boarded (e.key e.a) n then .wait .scoreboard
        else if s.redPending g.core g.id s.nextId (e.key e.a) n then .wait .release
        else if at_.any fun v => s.heldByLoft (e.key v) || s.extPoison g e v then .ok none
        else .ok (some (at_.map (s.extByte g e)))

/-- HLD, HLDP and TEX: one producer for the lanes whose checks pass. -/
def historyBody {α : Type} (fm : Form) (p : Fin 8) (check : State → Group → Fibre → Dest → AtIssue α) (work : Word → List α → Work) :
    State → Group → Cur → List Fibre → Body :=
  fun s g c fs =>
    issueBody s g fm fs (if s.acquiring g then some (.producer .memory) else none) none (check s g) fun go t =>
      t.addProducer g.id .history (go.map fun x => (x.1.lane, p)) [] none (work c.unit (go.map (·.2)))

/-! HLD, HLD.F, HLDP (spec/15, R317). -/

/-- Coordinates, depth, channel and field of a fibre, or ILLEGAL. -/
def walkArgs (g : Group) (f : Fibre) (c : Quad) : Except Trap (Int × Int × Nat × Nat × Nat) :=
  match g.words f c.base 4 with
  | [x, y, a, b] =>
    let n := a.toNat % 256
    if a.toNat / 256 % 256 ≠ 0 ∨ a.toNat / 2 ^ 24 ≠ 0 ∨ n = 0 ∨ 64 < n then .error ⟨.illegal, a.zeroExtend 64⟩
    else if b.toNat / 4096 ≠ 0 then .error ⟨.illegal, b.zeroExtend 64⟩
    else .ok (x.toInt, y.toInt, n, a.toNat / 65536 % 256, b.toNat)
  | _ => .error ⟨.illegal, 0⟩

def State.fieldCount (s : State) (g : Group) : Nat := ((s.ctx? (s.ctxOf g)).map (·.histCount)).getD 0

/-- A walk as its instruction leaves it. -/
def HistLane.start (d : Dest) (f : Fibre) (x y : Int) (n field : Nat) (surf : Option Surf) (headless : Bool) : HistLane :=
  { dest := d, lane := f.lane, x := x, y := y, n := n, field := field, surf := surf, headless := headless, pos := (16 * x, 16 * y)
    cur := field, left := n, frame := none, halt := none, reading := [], live := true, ih := f.ih }

def hldCheck (a : Quad) (sub : Nat) (c : Quad) (s : State) (g : Group) (f : Fibre) (d : Dest) : AtIssue HistLane :=
  match walkArgs g f c with
  | .error t => .trap t
  | .ok (x, y, n, chan, field) =>
    if s.fieldCount g ≤ field then .trap (histTrap field 1) else
    let lane := fun (u : Surf) (headless : Bool) => (HistLane.start d f x y n field (some u) headless)
    match s.header g f a (a.field sub) 64 with
    | .trap t => .trap t
    | .wait w => .wait w
    | .replay va => .replay va
    | .ok none => .ok (lane (surfFrom (g.quad f a) (a.field sub) chan []) true)
    | .ok (some b) =>
      match surfCheck (g.quad f a) (a.field sub) chan b with
      | .error t => .trap t
      | .ok u => .ok (lane u false)

def hldpCheck (c : Quad) (s : State) (g : Group) (f : Fibre) (d : Dest) : AtIssue HistLane :=
  match walkArgs g f c with
  | .error t => .trap t
  | .ok (x, y, n, _, field) =>
    if s.fieldCount g ≤ field then .trap (histTrap field 1) else .ok (HistLane.start d f x y n field none false)

def formHld (sub : Nat) (o : HistLoad) : Form := ⟨[.dest o.d 1, .quad o.a sub o.fa, .quad o.c (o.p.val % 4) o.fb], [o.p], false, .own⟩
def formHldp (o : HistPos) : Form := ⟨[.dest o.d 2, .quad o.c (o.p.val % 4) o.fb], [o.p], false, .own⟩

def execHld (o : HistLoad) (s : State) : Res :=
  .next (s.issue (formHld 0 o) (historyBody (formHld 0 o) o.p (hldCheck o.a 0 o.c) (.hist 0 o.p)))
def execHldF (o : HistLoad) (s : State) : Res :=
  .next (s.issue (formHld 1 o) (historyBody (formHld 1 o) o.p (hldCheck o.a 1 o.c) (.hist 1 o.p)))
def execHldp (o : HistPos) (s : State) : Res :=
  .next (s.issue (formHldp o) (historyBody (formHldp o) o.p (hldpCheck o.c) (.hist 2 o.p)))

/-! TEX (spec/15, R327). -/

def texCheck (a c : Quad) (s : State) (g : Group) (f : Fibre) (d : Dest) : AtIssue TexLane :=
  let w := fun (i : Nat) => (g.words f c.base 4).getD i 0
  let lane := fun (t : Texel) (headless : Bool) =>
    (⟨d, f.lane, (w 0).toInt, (w 1).toInt, (w 2).toNat, (w 3).toNat, t, headless⟩ : TexLane)
  match s.header g f a (a.field 0) 304 with
  | .trap t => .trap t
  | .wait w => .wait w
  | .replay va => .replay va
  | .ok none => .ok (lane (texelFrom (g.quad f a) (a.field 0) []) true)
  | .ok (some b) =>
    match texelCheck (g.quad f a) (a.field 0) (w 2).toNat (w 3).toNat b with
    | .error t => .trap t
    | .ok t => .ok (lane t false)

def execTex (o : Texture) (s : State) : Res :=
  let fm : Form := ⟨[.dest o.d.base 4, .quad o.a 0 o.fa, .quad o.c (o.p.val % 4) o.fb], [o.p], false, .own⟩
  .next (s.issue fm (historyBody fm o.p (texCheck o.a o.c) fun _ => .tex o.p))

/-! Descriptors (spec/15, Table 15.1, R319). -/

structure Descr where
  obj : QWord
  tag : Bool
  frame : Nat
  width : Nat
  height : Nat
  cellk : Nat
  parent : Option Nat
  sealCtr : Nat
  ok : Bool
  deriving DecidableEq, Repr

def descrOf (b : List Byte) (tag : Bool) : Descr :=
  let obj : QWord := BitVec.ofNat 128 (hdr b 0 16)
  let par := hdr b 26 2
  let w := hdr b 20 2
  let h := hdr b 22 2
  { obj := obj, tag := tag, frame := hdr b 16 4, width := w, height := h, cellk := hdr b 24 1
    parent := if bitAt par 15 then some (par % 4096) else none, sealCtr := hdr b 32 8
    ok := tag && (capSpace obj == 0 || capSpace obj == 5) && capPerm obj 0 && !capPerm obj 10 && decide (4 * w * h ≤ capLen obj) &&
      capBase obj % 16 == 0 && decide (1 ≤ w) && decide (w ≤ 8192) && decide (1 ≤ h) && decide (h ≤ 8192) && decide (hdr b 24 1 ≤ 4) &&
      hdrZero b 25 1 && par / 4096 % 8 == 0 && hdrZero b 28 4 && hdr b 32 8 % 8 == 0 && hdrZero b 40 24 }

/-- Reads the descriptor of a field (spec/15, R319). -/
def State.readDescr (s : State) (g : Group) (f : Fibre) (n : Nat) : AtIssue Descr :=
  let va := ((s.ctx? (s.ctxOf g)).map (·.histDesc)).getD 0 + 64 * n
  match s.translatePages g f.lane .rd va 64 (pagesOf va 64) with
  | .trap t => .trap ⟨t.cause, d64 va⟩
  | .replay v => .replay v
  | .hold => .wait (.hopen none)
  | .ok e =>
    let keys := (List.range 64).map fun i => e.key (va + i)
    if keys.any s.heldByLoft then .wait (.hopen none)
    else if keys.any s.poisonAt then .trap ⟨.poison, d64 va⟩
    else .ok (descrOf (keys.map s.byteAt) (s.tagAt (e.key va) && !isOutside (e.key va)))

/-- The scope of a field's entries. -/
def State.entryScope (s : State) (g : Group) (d : Descr) : Scope :=
  addrScope 0 (match s.translate g.core (s.ctxOf g) (capBase d.obj) .rd with | .ok k => some k | _ => none)

/-! HSEAL (spec/15, R319). -/

/-- The field latched from its descriptor. -/
def Field.latch (x : Field) (d : Descr) : Field :=
  { x with frame := d.frame, width := d.width, height := d.height, cellk := d.cellk, parent := d.parent, sealCtr := d.sealCtr, entries := capBase d.obj }

/-- Another HOPEN moves the field on: operations on a record follow one another (spec/15, R307). -/
def State.recordBusy (s : State) (ctx n : Nat) (f : Fibre) : Bool := s.opening ctx n && f.wait != some (.hopen (some n))

/-- The seal counter as a CADD.REL of the group reaches it: its key, none for no counter (spec/15, R319; spec/13, R285). -/
def State.sealAt (s : State) (g : Group) (f : Fibre) (va : Nat) : AtIssue (Option Nat) :=
  if va = 0 then .ok none else
  match s.translatePages g f.lane .add va 8 [va / 65536] with
  | .trap t => .trap t
  | .replay v => .replay v
  | .hold => .wait (.hopen none)
  | .ok e => .ok (some (e.key va))

def execHseal (fa : Bool) (a : Reg) (s : State) : Res :=
  .next (s.issue ⟨[.source a 1 fa], [], true, .own⟩ (withOverflow (onceBody fun s g c f =>
    let n := (g.word f a).toNat % 4096
    let ctx := s.ctxOf g
    if s.fieldCount g ≤ n then .trap (histTrap n 1) else
    let d := s.readDescr g f n
    let sc := match d with | .ok d => s.entryScope g d | _ => .module
    if s.acquiring g || !s.released g sc then .wait .release id
    else if s.recordBusy ctx n f then .wait (.hopen none) id
    else if (s.field ctx n).state ≠ 1 then .trap (histTrap n 2)
    else match d with
      | .trap t => .trap t
      | .wait w => .wait w id
      | .replay va => .wait .replay fun t => t.awaitReplay g c.lanes va
      | .ok d =>
        if !d.ok || s.stale ctx d.obj then .trap (histTrap n 3) else
        match s.sealAt g f d.sealCtr with
        | .trap t => .trap t
        | .wait w => .wait w id
        | .replay va => .wait .replay fun t => t.awaitReplay g c.lanes va
        | .ok ctr =>
          if ctr.isSome && (!s.released g (addrScope 3 ctr) || ((ctr.map isOutside).getD false && decide (65535 ≤ g.outack))) then .wait .release id else
          .go {} fun t =>
            let t := (t.hearDeclined g.id c.lanes).sideEffect g
            let t := t.setField ctx { (t.field ctx n).latch d with span := 1, state := 2 }
            match ctr with
            | none => t
            | some k => t.groupAdd g k d.sealCtr 1 true)))

/-! HOPEN (spec/15, R320, R312). -/

/-- Clears fold links when the generation of field `n` has come round to 0. -/
def State.clearFolds (s : State) (ctx n : Nat) : State :=
  match s.ctx? ctx with
  | none => s
  | some c => (c.fields.filter fun f => f.fold.isSome && (f.fold == some n || f.parent == some n)).foldl
      (fun s f => s.setField ctx { f with fold := none }) s

/-- Removes a field from every field cache of the context. -/
def State.uncache (s : State) (ctx n : Nat) : State :=
  { s with fcache := s.fcache.filter fun l => !(l.ctx == ctx && l.field == n) }

/-- The state that HOPEN moves a field to. -/
def reopen (retire : Bool) (state : Nat) : Option Nat :=
  if retire then (if state = 2 ∨ state = 1 then some 0 else none) else if state = 2 ∨ state = 0 then some 1 else none

def execHopen (fa : Bool) (a : Reg) (s : State) : Res :=
  .next (s.issue ⟨[.source a 1 fa], [], true, .own⟩ (onceBody fun s g _ f =>
    let w := (g.word f a).toNat
    let n := w % 4096
    let ctx := s.ctxOf g
    if s.fieldCount g ≤ n then .trap (histTrap n 1)
    else if s.acquiring g then .wait (.producer .memory) id
    else if s.recordBusy ctx n f || s.folds.any (fun x => x.ctx == ctx && (x.s == n || x.n == n || x.o == n)) then .wait (.hopen none) id
    else match reopen (bitAt w 31) (s.field ctx n).state with
      | none => .trap (histTrap n 2)
      | some st =>
        if s.fieldRead ctx n then .wait (.hopen (some n)) id else
        .go {} fun t =>
          let x := t.field ctx n
          let gen := (x.gen + 1) % 65536
          let t := ((t.sideEffect g).uncache ctx n).setField ctx { x with state := st, gen := gen }
          (if gen = 0 then t.clearFolds ctx n else t).wakeAll (· == .hopen none)))

/-! HFOLD (spec/15, R322). -/

/-- The first field in a wrong state, in the order N, O, S. -/
def foldStates (c : Ctx) (s n o : Nat) : Option Nat :=
  if (c.field n).state ≠ 2 then some n else if (c.field o).state ≠ 2 then some o else if (c.field s).state ≠ 1 then some s else none

/-- Reason 4: S's descriptor does not fit. A write through S's ENTRIES that R158 forbids is met later (spec/15, R322;
notes/assumptions/49). -/
def foldBad (c : Ctx) (s n o : Nat) (d : Descr) : Bool :=
  let fn := c.field n
  s == n || s == o || fn.parent != some o || d.width != fn.width || d.height != fn.height || d.cellk != fn.cellk ||
    decide (64 < fn.span + (c.field o).span) || !capPerm d.obj 1 || capSpace d.obj != 0

def execHfold (fb fa : Bool) (b a : Quad) (s : State) : Res :=
  .next (s.issue ⟨[.quad a 0 fa, .quad b 0 fb], [], true, .own⟩ (onceBody fun st g c f =>
    let ws := (g.words f a.base 3).map fun w => w.toNat % 4096
    let s := ws.getD 0 0
    let n := ws.getD 1 0
    let o := ws.getD 2 0
    let ctx := st.ctxOf g
    match ([s, n, o].find? fun x => decide (st.fieldCount g ≤ x)), st.ctx? ctx with
    | some x, _ => .trap (histTrap x 1)
    | none, none => .go {} id
    | none, some k =>
      st.onCounter g c f b fun va key =>
        if [s, n, o].any fun x => st.recordBusy ctx x f then .wait (.hopen none) id else
        match foldStates k s n o with
        | some x => .trap (histTrap x 2)
        | none =>
          match st.readDescr g f s with
          | .trap t => .trap t
          | .wait w => .wait w id
          | .replay v => .wait .replay fun t => t.awaitReplay g c.lanes v
          | .ok d =>
            if foldBad k s n o d then .trap (histTrap s 4) else
            .go {} fun t =>
              let t := t.sideEffect g
              { t with
                folds := t.folds ++ [⟨t.nextId, ctx, s, n, o, (k.field n).gen, (k.field o).gen, (k.field s).gen, d.obj, d.tag, key, va⟩]
                nextId := t.nextId + 1 }))

/-- The entry composed for cell (cx, cy) of N (spec/15, R322). -/
def State.compose (s : State) (ctx who : Nat) (n o : Field) (cx cy : Nat) : Got Motion :=
  (s.entryAt 0 ctx who n cx cy).bind fun a =>
    let none_ : Motion := ⟨0, 0, false, false⟩
    let hard : Motion := ⟨0, 0, true, true⟩
    if !a.v then .ok none_
    else if a.e && decide (2 ≤ n.span) then .ok hard
    else
      let side : Nat := 16 * 2 ^ n.cellk
      let x0 : Int := (side * cx : Nat) + a.dx
      let y0 : Int := (side * cy : Nat) + a.dy
      let x1 := x0 + side - 1
      let y1 := y0 + side - 1
      let wO : Int := (16 * o.width * 2 ^ o.cellk : Nat)
      let hO : Int := (16 * o.height * 2 ^ o.cellk : Nat)
      let cell : Int := (16 * 2 ^ o.cellk : Nat)
      if x1 < 0 ∨ y1 < 0 ∨ wO ≤ x0 ∨ hO ≤ y0 then .ok none_
      else if x0 < 0 ∨ y0 < 0 ∨ wO ≤ x1 ∨ hO ≤ y1 ∨ x0 / cell ≠ x1 / cell ∨ y0 / cell ≠ y1 / cell then .ok hard
      else
        (s.entryAt 0 ctx who o (x0 / cell).toNat (y0 / cell).toNat).bind fun b =>
          if !b.v then .ok none_
          else if b.e && decide (2 ≤ o.span) then .ok hard
          else
            let dx := a.dx + b.dx
            let dy := a.dy + b.dy
            if dx < -8192 ∨ 8191 < dx ∨ dy < -8192 ∨ 8191 < dy then .ok hard else .ok ⟨dx, dy, true, false⟩

/-- Where the fold writes the entry of a cell of S: a store through S's ENTRIES (spec/07, R158). -/
def State.foldWrite (s : State) (x : Fold) (off : Nat) : Got Nat :=
  match s.capCheck x.ctx x.obj x.tag 0 ⟨[0], [1], .wr, 4, true⟩ with
  | some t => .fail t
  | none =>
    let va := capBase x.obj + off
    if capLen x.obj < off + 4 then .fail ⟨.capBounds, d64 va⟩
    else if s.declinedFor x.ctx va (fun r => r.prods.contains x.id) then .fail ⟨.pageFault, d64 va⟩ else
    match s.translate (dieSite 0) x.ctx va .wr with
    | .ok k => if s.heldByLoft k then .hold else .ok k
    | .hold => .hold
    | .replay => .replay va
    | .pageFault => .fail ⟨.pageFault, d64 va⟩
    | .xlatePerm => .fail ⟨.xlatePerm, d64 va⟩

/-- One cell of the fold: the key of S's entry and its value. -/
def State.foldCell (s : State) (x : Fold) (n o : Field) (c : Nat × Nat) : Got (Nat × Motion) :=
  (s.compose x.ctx x.id n o c.1 c.2).bind fun m => (s.foldWrite x (4 * (c.2 * n.width + c.1))).bind fun k => .ok (k, m)

/-- Writes the cells of S in order: the state, and the keys written, or the fault that ends it. -/
def State.foldCells (s : State) (x : Fold) (n o : Field) : List (Nat × Nat) → List Nat → State × Except Trap (List Nat)
  | [], ks => (s, .ok ks)
  | c :: r, ks =>
    match s.foldCell x n o c with
    | .ok (k, m) => (s.sendBytes 0 k (leBytes 4 m.word)).foldCells x n o r (k :: ks)
    | .fail t => (s, .error t)
    | _ => (s, .error ⟨.pageFault, 0⟩)

def cellsOf (f : Field) : List (Nat × Nat) := (List.range f.height).flatMap fun y => (List.range f.width).map fun x => (x, y)

/-- The cells of a fold up to the first that faults: one of them waits for a replay or an all-bank pseudo-channel (spec/21, R379;
spec/19, R365). -/
def State.foldWaits (s : State) (x : Fold) (n o : Field) : List (Nat × Nat) → Option (Got Nat)
  | [] => none
  | c :: r =>
    match s.foldCell x n o c with
    | .ok _ => s.foldWaits x n o r
    | .fail _ => none
    | .replay va => some (.replay va)
    | .hold => some .hold

/-- HFOLD_COMPLETE. -/
def execHfoldComplete (foldId : Nat) (s : State) : Res :=
  match s.folds.find? (fun x => x.id = foldId) with
  | none => .next s
  | some x =>
    let n := s.field x.ctx x.n
    let o := s.field x.ctx x.o
    match s.foldWaits x n o (cellsOf n) with
    | some (.replay va) => .next (s.addReplay 0 x.ctx va [x.id] [])
    | some _ => .next s
    | none =>
    let gone := fun (s : State) => ({ s.hearEngine x.id with folds := s.folds.filter fun y => y.id != foldId } : State).wakeAll (· == .hopen none)
    match s.foldCells x n o (cellsOf n) [] with
    | (s, .error t) => .next (gone { s.notePage x.ctx t with errlog := (s.notePage x.ctx t).errlog ++ [.fold x.ctx x.s] })
    | (s, .ok ks) =>
      let sf := s.field x.ctx x.s
      let s := s.setField x.ctx { sf with
        frame := n.frame, width := n.width, height := n.height, cellk := n.cellk, parent := o.parent, entries := capBase x.obj
        span := n.span + o.span, state := 2 }
      let s := s.setField x.ctx { s.field x.ctx x.n with fold := some x.s, fgn := x.genN, fgo := x.genO, fgs := x.genS }
      .next (gone ((s.putAdd 0 x.ctr x.ctrVa x.ctx (4 * n.width * n.height) none ((ks.map (· / 128)).eraseDups)).settleWaiters))

end Sys2Proof.Machine
end

