-- ==== Sys2Proof/Machine/Graphics.lean ====
section
/-! DEFINITION. TRI and the rasteriser, TRACE, HALO (spec/17, R339 to R348). -/
namespace Sys2Proof.Machine

/-- A record that a fibre reads at the instruction: all its checks and its bytes, in program order, with the tags of its granules. -/
def State.readRecord (s : State) (g : Group) (f : Fibre) (a : Quad) (spaces perms : List Nat) (off : Int) (n align : Nat) :
    AtIssue (List Byte × List Bool) :=
  let q := g.quad f a
  let at_ : Int := capBase q + off
  let mis : Option Trap := if at_ % (align : Int) ≠ 0 then some ⟨.misaligned, BitVec.ofInt 64 at_⟩ else none
  match s.extent g f.lane ⟨spaces, perms, .rd, n, false⟩ q (g.tagOf f a) (a.field 0) off n mis with
  | .trap t => .trap t
  | .hold => .wait .held
  | .replay va => .replay va
  | .ok e =>
    match s.readWait g e [(e.a, n)] with
    | some w => .wait w
    | none =>
      match (List.range n).find? fun i => s.extPoison g e (e.a + i) with
      | some i => .trap ⟨.poison, d64 (e.a + i)⟩
      | none => .ok ((List.range n).map fun i => s.extByte g e (e.a + i), (List.range (n / 16)).map fun i =>
          !isOutside (e.key (e.a + 16 * i)) && s.seenTag g.core g.id s.nextId (s.ctxOf g) (e.virt (e.a + 16 * i)) (e.key (e.a + 16 * i)))

/-! TRI (spec/17, R342, R343). -/

/-- An exact fraction with a positive denominator. -/
structure Frac where
  n : Int
  d : Nat
  deriving DecidableEq, Repr

def Frac.ofNum : Num → Option Frac
  | .fin s n q => some ⟨sgn s n, q⟩
  | _ => none

/-- The exact quotient of a clip coordinate by w > 0; none when it is no finite number. -/
def clipDiv (a w : Num) : Option Frac :=
  match Frac.ofNum a, w with
  | some x, .fin _ m r => if m = 0 then none else some ⟨x.n * r, x.d * m⟩
  | some _, .inf _ => some ⟨0, 1⟩
  | _, _ => none

/-- The nearest integer, ties to even. -/
def rneInt (n : Int) (d : Nat) : Int :=
  let m := (roundNat .rne (decide (n < 0)) n.natAbs d).1
  if n < 0 then -(m : Int) else m

/-- A vertex on the screen: X and Y in 1/256 pixel, and the depth as a binary32 code. -/
structure ScreenVtx where
  x : Int
  y : Int
  d : Nat
  deriving DecidableEq, Repr

/-- One vertex, when nothing rejects it. -/
def screenVtx (W H : Nat) (x y z w : Num) : Option ScreenVtx :=
  if w.neg || w.isZero || w.isNan then none else
  match clipDiv x w, clipDiv y w, clipDiv z w with
  | some a, some b, some c =>
    if c.n < 0 ∨ (c.d : Int) < c.n then none else
    let X := rneInt ((a.n + a.d) * (W * 128 : Nat)) a.d
    let Y := rneInt (((b.d : Int) - b.n) * (H * 128 : Nat)) b.d
    if 2 ^ 31 ≤ X.natAbs ∨ 2 ^ 31 ≤ Y.natAbs then none
    else some ⟨X, Y, (Lay.f32.round .rne (.ofInt false c.n c.d)).1⟩
  | _, _, _ => none

/-- The vertices of a record. -/
def triVtx (b : List Byte) (W H : Nat) : Option (ScreenVtx × ScreenVtx × ScreenVtx) :=
  let num := fun (i : Nat) => Lay.f64.read (hdr b i 8)
  let v := fun (i : Nat) => screenVtx W H (num (32 * i)) (num (32 * i + 8)) (num (32 * i + 16)) (num (32 * i + 24))
  match v 0, v 1, v 2 with
  | some a, some b, some c => some (a, b, c)
  | _, _, _ => none

def area2 (a b c : ScreenVtx) : Int := (b.x - a.x) * (c.y - a.y) - (c.x - a.x) * (b.y - a.y)

/-- An edge function, and whether it lets a pixel centre in. -/
def edgeFn (a b : ScreenVtx) (cx cy : Int) : Int := (b.x - a.x) * (cy - a.y) - (b.y - a.y) * (cx - a.x)
def edgeIn (a b : ScreenVtx) (e : Int) : Bool :=
  decide (0 < e) || (e == 0 && (decide (b.y < a.y) || (b.y == a.y && decide (a.x < b.x))))

/-- The depth of a pixel: the weighted depths, rounded once into binary32. -/
def pixelDepth (a b c : ScreenVtx) (e12 e20 e01 A2 : Int) : Nat :=
  let t := [(e12, a.d), (e20, b.d), (e01, c.d)].foldl (fun (s : Int × Nat) x => match Lay.f32.read x.2 with
    | .fin sg n q => (s.1 * q + x.1 * sgn sg n * s.2, s.2 * q)
    | _ => s) (0, 1)
  (Lay.f32.round .rne (.ofInt false t.1 (t.2 * A2.toNat))).1

/-- The visibility values that a triangle of positive area writes: pixel number and value. -/
def rasterise (a b c : ScreenVtx) (x0 y0 prim : Nat) : List (Nat × Nat) :=
  let A2 := area2 a b c
  (List.range 4096).filterMap fun i =>
    let cx : Int := (256 * (x0 + i % 64) + 128 : Nat)
    let cy : Int := (256 * (y0 + i / 64) + 128 : Nat)
    let e01 := edgeFn a b cx cy
    let e12 := edgeFn b c cx cy
    let e20 := edgeFn c a cx cy
    if edgeIn a b e01 && edgeIn b c e12 && edgeIn c a e20 then
      some (i, ((0x3F800000 + 2 ^ 32 - pixelDepth a b c e12 e20 e01 A2) % 2 ^ 32) * 2 ^ 32 + prim)
    else none

/-- What TRI finds for one record: the predicate, and the pixels it writes (spec/17, R342). -/
def triResult (g : Group) (b : List Byte) : Bool × List (Nat × Nat) :=
  let W := g.vpsize.toNat % 65536
  let H := g.vpsize.toNat / 65536
  if W = 0 ∨ H = 0 then (false, []) else
  match triVtx b W H with
  | none => (false, [])
  | some (p, q, r) =>
    let A2 := area2 p q r
    if A2 = 0 then (false, [])
    else if A2.natAbs ≤ 131072 * g.rasthresh.toNat then (true, [])
    else
      let x0 := g.visorg.toNat % 65536
      let y0 := g.visorg.toNat / 65536
      (false, if A2 < 0 then rasterise p r q x0 y0 (hdr b 96 4) else rasterise p q r x0 y0 (hdr b 96 4))

/-- The scratchpad that a group reaches by offset: that of its block; a task group has none (spec/08, R191). -/
def Group.scratchLen (g : Group) (b : Block) : Nat := if g.task.isSome then 0 else b.scratchLen

/-- The checks and the result of one fibre. -/
def State.triCheck (s : State) (g : Group) (o : CtrTest) (f : Fibre) : AtIssue (Bool × List AtomLane) :=
  match s.block? g.block with
  | none => .trap ⟨.capBounds, 0⟩
  | some b =>
    match s.readRecord g f o.a [0, 5, 1] [0] (g.word f o.b).toNat 112 16 with
    | .trap t => .trap t
    | .wait w => .wait w
    | .replay va => .replay va
    | .ok (rec0, _) =>
      let tile := g.vistile.toNat % 2 ^ 19
      if g.scratchLen b < tile + 32768 then .trap ⟨.capBounds, g.vistile.zeroExtend 64⟩
      else
        let r := triResult g rec0
        .ok (r.1, r.2.map fun x => ⟨f.lane, scratchKey b.core (b.scratchBase + tile + 8 * x.1), 0, x.2, 0⟩)

def execTri (o : CtrTest) (s : State) : Res :=
  .next (s.issue ⟨[.quad o.a 0 o.fa, .source o.b 1 o.fb], [o.p], false, .own⟩ fun s g _ fs =>
    let lanes := fs.map fun f => (f, s.triCheck g o f)
    let keys := lanes.flatMap fun x => match x.2 with | .ok (_, ws) => ws.map (·.key) | _ => []
    let wait : Option Wait :=
      if lanes.any (fun x => match x.2 with | .replay _ => true | _ => false) then some .replay else
      firstWait ((lanes.filterMap fun x => x.2.wait?) ++ List.flatten [
        if keys.any (fun k => g.mloopHolds k 8) then [.matrix] else [],
        if keys.any (fun k => s.boarded k 8) then [.scoreboard] else []])
    let note := fun (t : State) =>
      (lanes.filterMap fun x => x.2.trap?).foldl (fun t x => t.notePage (s.ctxOf g) x) (t.hearDeclined g.id (fs.map (·.lane)))
    { outs := lanes.map fun x => (x.1, match x.2 with
        | .trap t => .trap t 0
        | _ => match wait with | some w => .wait w | none => .done {})
      effect := fun t =>
        let t := note t
        let go := lanes.filterMap fun x => match x.2 with | .ok v => some (x.1, v) | _ => none
        if go.isEmpty then t else
        (t.enterBanks g (go.flatMap fun x => x.2.2.map (·.key)) 8).addProducer g.id .memory (go.map fun x => (x.1.lane, o.p)) [] none
          (.tri o.p (go.map fun x => (x.1.lane, x.2.1)) (go.flatMap fun x => x.2.2))
      onWait := fun t => lanes.foldl (fun t x => match x.2 with | .replay va => t.awaitReplay g [x.1.lane] va | _ => t) (note t) })

/-! TRACE (spec/17, R345, R346). -/

/-- A capability of a record that lets its holder load. -/
def State.goodCap (s : State) (ctx : Nat) (q : QWord) (tag : Bool) (spaces perms : List Nat) : Bool :=
  (s.capCheck ctx q tag 0 ⟨spaces, perms, .rd, 1, false⟩).isNone

def quadOf (b : List Byte) (i : Nat) : QWord := BitVec.ofNat 128 (hdr b i 16)

/-- A ray record that R346 accepts. -/
def rayOk (b : List Byte) : Bool :=
  let o := (List.range 3).map fun i => Lay.f64.read (hdr b (8 * i) 8)
  let d := (List.range 3).map fun i => Lay.f32.read (hdr b (24 + 4 * i) 4)
  let tmin := Lay.f32.read (hdr b 36 4)
  let tmax := Lay.f32.read (hdr b 40 4)
  !((o ++ d ++ [tmin, tmax]).any Num.isNan) && !(d.all Num.isZero) && !(tmin.lt (.fin false 0 1)) && !(tmax.lt tmin) &&
    decide (hdr b 44 1 ≤ 15) && hdrZero b 45 3 && hdrZero b 52 12

def State.traceCheck (s : State) (g : Group) (o : TwoQuads) (f : Fibre) (d : Dest) : AtIssue RayLane :=
  match s.readRecord g f o.a [0, 5, 1] [0] (g.word f o.d).toNat 64 16 with
  | .trap t => .trap t
  | .wait w => .wait w
  | .replay va => .replay va
  | .ok (ray, _) =>
    match s.readRecord g f o.b [0, 5] [0, 2] 0 64 16 with
    | .trap t => .trap t
    | .wait w => .wait w
    | .replay va => .replay va
    | .ok (sc, tags) =>
      let ctx := s.ctxOf g
      let tag := fun (i : Nat) => tags.getD i false
      if !(s.goodCap ctx (quadOf sc 0) (tag 0) [0, 5] [0] && s.goodCap ctx (quadOf sc 16) (tag 1) [0, 5] [0] &&
          s.goodCap ctx (quadOf sc 32) (tag 2) [0, 1, 2, 5] [0, 2] && hdrZero sc 60 4) then .trap (histTrap 0 5)
      else if !rayOk ray then .trap (histTrap 0 7)
      else .ok ⟨d, f.lane, ray, o.b.field 0, quadOf sc 0, quadOf sc 16, quadOf sc 32, hdr sc 48 4, hdr sc 52 4⟩

def execTrace (o : TwoQuads) (s : State) : Res :=
  let fm : Form := ⟨[.both o.d 1, .quad o.a 0 o.fa, .quad o.b 0 o.fb], [], false, .own⟩
  .next (s.issue fm fun s g _ fs =>
    issueBody s g fm fs none none (s.traceCheck g o) fun go t =>
      (t.sideEffect g).addProducer g.id .memory [] [] none (.trace (go.map (·.2))))

/-- A number read through a capability by an engine of a die; beyond its length it is a CAP_BOUNDS (spec/17, R341, R346). -/
def State.capNum (s : State) (die ctx who : Nat) (q : QWord) (off n : Nat) : Got Nat :=
  if capLen q < off + n then .fail ⟨.capBounds, d64 (capBase q + off)⟩ else s.engineNum die ctx who (capBase q + off) n

/-- Some numbers of one size in a row. -/
def State.capNums (s : State) (die ctx who : Nat) (q : QWord) (off n count : Nat) : Got (List Nat) :=
  gotAll (fun i => s.capNum die ctx who q (off + n * i) n) (List.range count)

/-- The tag of a granule that an engine reads. -/
def State.engineTag (s : State) (die ctx va : Nat) : Bool :=
  match s.translate (dieSite die) ctx va .rd with
  | .ok k => s.tagAt k && !isOutside k
  | _ => false

/-- Exact coordinates of a vertex: ORIGIN + q × 2^QEXP (spec/17, R332). -/
def vtxCoord (origin : Nat) (qexp : Int) (q : Int) : Int × Nat :=
  match Lay.f64.read origin with
  | .fin s n d =>
    if 0 ≤ qexp then (sgn s n + q * (2 ^ qexp.toNat : Nat) * d, d) else (sgn s n * (2 ^ (-qexp).toNat : Nat) + q * d, d * 2 ^ (-qexp).toNat)
  | _ => (0, 0)

/-- The triangles of a geometry block, each as nine exact coordinates. -/
def State.geometry (s : State) (die ctx who : Nat) (geom : QWord) (origin : List Nat) : Got (List (List (Int × Nat))) :=
  (s.capNums die ctx who geom 0 1 3).bind fun h =>
    let qexp := signedOf 8 (h.getD 0 0)
    let nv := h.getD 1 0 + 1
    let nt := h.getD 2 0 + 1
    (s.capNums die ctx who geom 16 2 (4 * nv)).bind fun vs =>
      (s.capNums die ctx who geom (16 + 8 * nv) 1 (4 * nt)).bind fun ts =>
        .ok ((List.range nt).map fun j => (List.range 3).flatMap fun k =>
          let v := ts.getD (4 * j + k) 0
          (List.range 3).map fun x => vtxCoord (origin.getD x 0) qexp (signedOf 16 (vs.getD (4 * v + x) 0)))

/-- The triangles of geometry index `i`: that of the cluster which the output record names. -/
def State.sceneTris (s : State) (die ctx who : Nat) (l : RayLane) (i : Nat) : Got (List (List (Int × Nat))) :=
  (s.capNum die ctx who l.recs (64 * i) 4).bind fun c =>
    (s.capNum die ctx who l.graph 8 8).bind fun cloff =>
      (s.capNums die ctx who l.graph (cloff + 64 * c) 8 3).bind fun origin =>
        (s.capNums die ctx who l.graph (cloff + 64 * c + 48) 8 2).bind fun gq =>
          let geom : QWord := BitVec.ofNat 128 (gq.getD 0 0 + 2 ^ 64 * gq.getD 1 0)
          match s.capCheck ctx geom (s.engineTag die ctx (capBase l.graph + cloff + 64 * c + 48)) l.operand ⟨[0], [0], .rd, 1, false⟩ with
          | some t => .fail t
          | none => s.geometry die ctx who geom origin

/-- A hit: t, u, v, geometry index, triangle index. -/
structure RayHit where
  t : Word
  u : Word
  v : Word
  geo : Nat
  tri : Nat
  deriving DecidableEq, Repr

/-- A point at which a ray meets a closed triangle within [TMIN, TMAX]: t as a fraction, whether the point counts as inside, and the hit
it would give. -/
structure Meet where
  tn : Int
  td : Int
  inner : Bool
  hit : RayHit
  deriving DecidableEq, Repr

def cross3 (a b : List Int) : List Int :=
  let x := fun (i j : Nat) => a.getD i 0 * b.getD j 0 - a.getD j 0 * b.getD i 0
  [x 1 2, x 2 0, x 0 1]
def dot3 (a b : List Int) : Int := ((a.zip b).map fun x => x.1 * x.2).foldl (· + ·) 0
def sub3 (a b : List Int) : List Int := (a.zip b).map fun x => x.1 - x.2

/-- A binary number as a fraction; an infinity has denominator 0. -/
def fracOf : Num → Int × Nat
  | .fin s n q => (sgn s n, q)
  | .inf s => (sgn s 1, 0)
  | .nan _ => (0, 0)

/-- Where a ray in the plane of a triangle crosses its edges: t as fractions with a positive denominator. `n` is the plane's normal. -/
def edgeCuts (o d n : List Int) (vs : List (List Int)) : List (Int × Int) :=
  (List.range 3).filterMap fun i =>
    let a := vs.getD i []
    let e := sub3 (vs.getD ((i + 1) % 3) []) a
    let w := cross3 n e
    let den := dot3 d w
    let s : Int := if den < 0 then -1 else 1
    let tn := s * -(dot3 (sub3 o a) w)
    let td := s * den
    let along := dot3 (sub3 o a) e * td + tn * dot3 d e
    if den = 0 ∨ along < 0 ∨ dot3 e e * td < along then none else some (tn, td)

/-- The reported t of a hit: the fixed function's, kept within [TMIN, TMAX]. -/
def keepT (lo hi t : Word) : Word :=
  let x := Lay.f32.read t.toNat
  if x.isNan || x.lt (Lay.f32.read lo.toNat) then lo else if (Lay.f32.read hi.toNat).lt x then hi else t

/-- The exact intersection of a ray with a triangle, from either side (spec/17, R346; notes/assumptions/103). Denominators are powers
of 2. A ray in the plane of the triangle meets its edges. A ray with an infinite component has no exact geometry: the fixed function
alone decides. -/
def meetOf (ray : List Byte) (geo tri : Nat) (vs : List (Int × Nat)) : List Meet :=
  let r := ((List.range 3).map fun i => fracOf (Lay.f64.read (hdr ray (8 * i) 8))) ++
    (List.range 3).map fun i => fracOf (Lay.f32.read (hdr ray (24 + 4 * i) 4))
  let tmin := hdr ray 36 4
  let tmax := hdr ray 40 4
  let (t, u, v) := Config.rayHit vs r
  let t := keepT (w32 tmin) (w32 tmax) t
  let hit : RayHit := ⟨t, u, v, geo, tri⟩
  let edge := Config.rayEdge vs r
  if r.any (·.2 == 0) then
    (if edge then [⟨(fracOf (Lay.f32.read t.toNat)).1, (fracOf (Lay.f32.read t.toNat)).2, true, hit⟩] else []) else
  let unit := ((vs ++ r).map (·.2)).foldl max 1
  let at_ := fun (l : List (Int × Nat)) => (l.take 3).map fun x => x.1 * ((unit / x.2 : Nat) : Int)
  let e1 := sub3 (at_ (vs.drop 3)) (at_ vs)
  let e2 := sub3 (at_ (vs.drop 6)) (at_ vs)
  let d := at_ (r.drop 3)
  let p := cross3 d e2
  let o := sub3 (at_ r) (at_ vs)
  let q := cross3 o e1
  let n := cross3 e1 e2
  let det := dot3 e1 p
  let s : Int := if det < 0 then -1 else 1
  let un := s * dot3 o p
  let vn := s * dot3 d q
  let tn := s * dot3 e2 q
  let td := s * det
  let lo := fracOf (Lay.f32.read tmin)
  let hi := fracOf (Lay.f32.read tmax)
  let within := fun (x : Int × Int) => decide (lo.1 * x.2 ≤ x.1 * lo.2) && decide (x.1 * hi.2 ≤ hi.1 * x.2)
  if td = 0 then
    (if dot3 o n = 0 then (edgeCuts (at_ r) d n [at_ vs, at_ (vs.drop 3), at_ (vs.drop 6)]).filter within else []).map fun x => ⟨x.1, x.2, edge, hit⟩
  else if un < 0 ∨ vn < 0 ∨ td < un + vn ∨ within (tn, td) = false then []
  else [⟨tn, td, decide (0 < un) && decide (0 < vn) && decide (un + vn < td) || edge, hit⟩]

/-- The hits among the points where a ray meets triangles. At one point on edges alone, at least one of several triangles is hit: the
test is watertight. -/
def hitsOf (ms : List Meet) : List Meet :=
  ms.zipIdx.filterMap fun (m, i) =>
    let peers := ms.zipIdx.filter fun x => x.1.tn * m.td == m.tn * x.1.td
    if m.inner || (decide (2 ≤ peers.length) && !(peers.any (·.1.inner)) && (peers.head?.map (·.2)) == some i) then some m else none

/-- The nearer of two: the one with the lesser exact t; at equal t the lower geometry index, then the lower triangle index, which come
first. -/
def Meet.nearer (a : Option Meet) (b : Meet) : Option Meet :=
  match a with
  | some x => if b.tn * x.td < x.tn * b.td then some b else some x
  | none => some b

/-- The hit that a trace reports. -/
def State.traceHit (s : State) (die ctx who : Nat) (l : RayLane) : Got (Option RayHit) :=
  (gotAll (fun i => (s.sceneTris die ctx who l i).bind fun ts => .ok (ts.zipIdx.flatMap fun x => meetOf l.ray i x.2 x.1))
    (List.range (capLen l.recs / 64))).bind fun ms => .ok (((hitsOf ms.flatten).foldl Meet.nearer none).map (·.hit))

/-- Shader record `i`: none when it is null, else its queue capability and ARG. Its faults are those of its access. -/
def State.shader (s : State) (g : Group) (who : Nat) (l : RayLane) (i : Nat) : Got (Option (QWord × Nat)) :=
  let u : MemUse := ⟨[0, 1, 2, 5], [0, 2], .rd, 1, false⟩
  let num := fun (off n : Nat) => s.groupNum g who u l.sbt l.operand ((32 * i + off : Nat) : Int) n
  if capLen l.sbt / 32 ≤ i then .ok none else
  (s.groupKey g who u l.sbt l.operand ((32 * i : Nat) : Int) 16).bind fun (_, k, va) =>
    (num 0 8).bind fun lo => (num 8 8).bind fun hi => (num 16 4).bind fun arg =>
      .ok (if !isOutside k && s.seenTag g.core g.id who (s.ctxOf g) va k then some (BitVec.ofNat 128 (lo + 2 ^ 64 * hi), arg) else none)

/-- The outcome of a trace: the status, and the record to push with its queue (spec/17, R346). -/
def State.traceLane (s : State) (g : Group) (who : Nat) (l : RayLane) : Got (Word × Option (QueueRef × List Byte)) :=
  let die := dieOf g.core
  let ctx := s.ctxOf g
  (s.traceHit die ctx who l).bind fun h => match h with
    | none => .ok (0, none)
    | some h =>
      let i := l.hgbase + h.geo * l.stride + hdr l.ray 44 1
      (s.shader g who l i).bind fun r0 =>
        let mis := r0.isNone
        (if mis then s.shader g who l 0 else .ok r0).bind fun r => match r with
          | none => .ok (if mis then 7 else 5, none)
          | some (cap, arg) =>
            match s.capCheck ctx cap true l.operand ⟨[6], [1], .any, 1, false⟩, s.queue? ctx (capBase cap) with
            | some t, _ => .fail t
            | none, none => .fail ⟨.capBounds, d64 (capBase cap)⟩
            | none, some q =>
              let st : Nat := 1 + 2 * nb mis
              .ok (w32 st, some (q, [hdr l.ray 48 4, arg, h.geo, h.tri, h.t.toNat, h.u.toNat, h.v.toNat, st].flatMap (leBytes 4) ++
                List.replicate 32 0))

/-! HALO (spec/17, R347, R348). -/

/-- The descriptor of a HALO. -/
structure HaloArgs where
  frame : Nat
  W : Nat
  H : Nat
  pitch : Nat
  es : Nat
  h : Nat
  mask : Nat
  deriving DecidableEq, Repr

def haloArgs (ws : List Word) : HaloArgs :=
  let n := fun (i : Nat) => (ws.getD i 0).toNat
  ⟨n 0, n 1 % 65536, n 1 / 65536, n 2, n 3 % 256, n 3 / 256 % 256, n 3 / 65536 % 16⟩

/-- The register of a descriptor that is not allowed. -/
def HaloArgs.bad (a : HaloArgs) (ws : List Word) : Option Word :=
  if 2 ^ 20 ≤ (ws.getD 3 0).toNat || !([1, 2, 4, 8].contains a.es) || a.h = 0 || 8 < a.h then some (ws.getD 3 0)
  else if a.W = 0 || a.H = 0 || a.W < a.h || a.H < a.h then some (ws.getD 1 0)
  else if a.pitch < (a.W + 2 * a.h) * a.es || a.pitch % a.es != 0 then some (ws.getD 2 0)
  else if a.frame % a.es != 0 then some (ws.getD 0 0)
  else none

/-- Bytes of the frame. -/
def HaloArgs.size (a : HaloArgs) : Nat := (a.H + 2 * a.h - 1) * a.pitch + (a.W + 2 * a.h) * a.es

/-- Source and destination elements of a strip, row by row (spec/17, Table 17.7). -/
def HaloArgs.strip (a : HaloArgs) (dir : Nat) : List ((Nat × Nat) × (Nat × Nat)) :=
  let tall := dir < 2
  let rows := if tall then a.h else a.H
  let cols := if tall then a.W else a.h
  let (sr, sc) := match dir with | 0 => (a.h, a.h) | 1 => (a.H, a.h) | 2 => (a.h, a.h) | _ => (a.h, a.W)
  let (dr, dc) := match dir with | 0 => (a.H + a.h, a.h) | 1 => (0, a.h) | 2 => (a.h, a.W + a.h) | _ => (a.h, 0)
  (List.range rows).flatMap fun r => (List.range cols).map fun c => ((sr + r, sc + c), (dr + r, dc + c))

def HaloArgs.bytes (a : HaloArgs) (base : Nat) (core : Nat) (cells : List (Nat × Nat)) : List Nat :=
  cells.flatMap fun x => (List.range a.es).map fun i => scratchKey core (base + a.frame + x.1 * a.pitch + x.2 * a.es + i)

/-- Directions with a neighbour: direction and rank. -/
def haloDirs (mask : Nat) (ranks : List Word) : List (Nat × Nat) :=
  (List.range 4).filterMap fun d => if bitAt mask d && ranks.getD d 0 != 0xFFFFFFFF then some (d, (ranks.getD d 0).toNat) else none

/-- The counter of a receiver. -/
def State.haloCounter (s : State) (g : Group) (f : Fibre) (b : Block) (q : Quad) (rank : Nat) : Access :=
  match s.capCheck (s.ctxOf g) (g.quad f q) (g.tagOf f q) (q.field 0) .counter with
  | some t => .trap t
  | none =>
    match s.place b (g.quad f q) (8 * rank : Nat) 8 with
    | .error t => .trap t
    | .ok x =>
      if s.declinedFor (s.ctxOf g) x.1 (fun r => r.fibres.contains (g.id, f.lane)) then .trap ⟨.pageFault, d64 x.1⟩ else
      match s.translate g.core (s.ctxOf g) x.1 .add with
      | .ok k => .ok x.1 (some k)
      | .hold => .hold
      | .pageFault => .trap ⟨.pageFault, d64 x.1⟩
      | .xlatePerm => .trap ⟨.xlatePerm, d64 x.1⟩
      | .replay => .replay x.1

/-- The block of a rank, when its allocation holds the frame. -/
def State.haloTarget (s : State) (b : Block) (a : HaloArgs) (rank : Nat) : Except Trap Block :=
  match s.blocks.find? (fun x => x.sheaf = b.sheaf ∧ x.rank = rank) with
  | some t => if t.scratchLen < a.frame + a.size then .error ⟨.capBounds, d64 (rank * 2 ^ 19 + a.frame)⟩ else .ok t
  | none => .error ⟨.capBounds, d64 (rank * 2 ^ 19 + a.frame)⟩

/-- Destination bytes of the strip in a direction, at the block that receives it. -/
def HaloArgs.dsts (a : HaloArgs) (t : Block) (dir : Nat) : List Nat := a.bytes t.scratchBase t.core ((a.strip dir).map (·.2))

/-- The one scoreboard entry that a HALO takes in a receiver's core, over all strips that it sends there. -/
def HaloArgs.board (a : HaloArgs) (strips : List (Nat × Block × Nat × Nat)) (core : Nat) : Option (Nat × Nat × Nat) :=
  let ks := strips.flatMap fun (dir, t, _, _) => if t.core = core then a.dsts t dir else []
  some (core, scratchOff ((ks.min?).getD 0), scratchOff ((ks.max?).getD 0) + 1)

/-- The strips of an accepted HALO. -/
def State.sendStrips (s : State) (g : Group) (c : Cur) (b : Block) (a : HaloArgs) (unit : Nat) (all : List (Nat × Block × Nat × Nat)) :
    List (Nat × Block × Nat × Nat) → State
  | [] => s
  | (dir, t, va, key) :: r =>
    let cells := a.strip dir
    let x : Copy :=
      { id := s.nextId, unit := unit, group := g.id, num := g.recNum, block := b.id, core := g.core, ctx := s.ctxOf g, pc := c.unit, strip := true
        srcs := (a.bytes b.scratchBase b.core (cells.map (·.1))).map some, dsts := a.dsts t dir, dstVa := [], fence := 0
        ctr := key, ctrVa := va, amount := cells.length * a.es, read := [], wrote := [], watched := [], board := a.board all t.core, gone := none }
    ({ s with copies := s.copies ++ [x], nextId := s.nextId + 1 } : State).sendStrips g c b a unit all r

def execHalo (o : ThreeQuads) (s : State) : Res :=
  .next (s.issue ⟨[.quad o.d 0 false, .quad o.a 0 o.fa, .quad o.b 0 o.fb], [], true, .own⟩ (onceBody fun s g c f =>
    match s.block? g.block with
    | none => .go {} id
    | some b =>
      let ws := g.words f o.a.base 4
      let a := haloArgs ws
      match a.bad ws with
      | some w => .trap ⟨.illegal, w.zeroExtend 64⟩
      | none =>
        let dirs := haloDirs a.mask (g.words f o.b.base 4)
        let ctrs := dirs.map fun d => s.haloCounter g f b o.d d.2
        match ctrs.find? fun x => (match x with | .ok _ _ => false | _ => true) with
        | some (.trap t) => .trap t
        | some (.replay va) => .wait .replay fun t => t.awaitReplay g c.lanes va
        | some .hold => .wait .held id
        | _ =>
          if g.scratchLen b < a.frame + a.size then .trap ⟨.capBounds, d64 a.frame⟩ else
          let targets := dirs.map fun d => s.haloTarget b a d.2
          match targets.findSome? fun x => (match x with | .error t => some t | .ok _ => none) with
          | some t => .trap t
          | none =>
            let strips := (dirs.zip (targets.zip ctrs)).filterMap fun x => match x.2 with
              | (.ok t, .ok va (some k)) => some (x.1.1, t, va, k)
              | _ => none
            let full := strips.any fun x => decide (32 ≤ (s.boardUnits x.2.1.core).length)
            if full then .wait .scoreboard id else
            match s.slotRoom g.core with
            | some w => .wait w id
            | none => .go {} fun t =>
              let t := strips.foldl (fun t x => t.noteOperand g c x.2.2.1) t
              let unit := t.nextId
              let t := (t.sideEffect g).sendStrips g c b a unit strips strips
              let clk := t.clk
              t.updBlock b.id fun b => { b with copyLog := b.copyLog ++
                [⟨unit, ws, g.words f o.b.base 4, capBase (g.quad f o.d), g.recNum, c.unit, if strips.isEmpty then some clk else none⟩] }))

/-- HALO_STRIP_COMPLETE. -/
def execHaloStripComplete (copyId : Nat) (s : State) : Res :=
  match s.copies.find? (fun c => c.id = copyId ∧ c.strip = true) with
  | none => .next s
  | some c => if s.copyReady c then .next (s.finishCopy c) else .next s

end Sys2Proof.Machine
end

