-- ==== Sys2Proof/Machine/Gleaner.lean ====
section
/-! DEFINITION. CUTSEL and Gleaner: the checks of a request, the selection of a cut, the pages and results it writes
(spec/17, R331 to R338, R341). -/
namespace Sys2Proof.Machine

/-! Checks at the instruction (spec/17, R341). -/

/-- A header that keeps R331. -/
def graphOk (b : List Byte) : Bool :=
  let ncl := hdr b 0 4
  let ngr := hdr b 4 4
  decide (1 ≤ ncl) && decide (ncl ≤ 2 ^ 24) && decide (1 ≤ ngr) && decide (ngr ≤ ncl) && hdr b 8 8 % 64 == 0 && hdr b 16 8 % 4 == 0 &&
    hdrZero b 24 40

/-- A queue that OUT requires: a QUEUE capability with ST over a queue of the context. -/
def State.viewQueue (s : State) (ctx : Nat) (q : QWord) (tag : Bool) : Bool :=
  s.goodCap ctx q tag [6] [1] && (s.queue? ctx (capBase q)).isSome

/-- A view that keeps R333. -/
def State.viewOk (s : State) (ctx : Nat) (b : List Byte) (tags : List Bool) : Bool :=
  let out := hdr b 52 1
  let pos := fun (i : Nat) => (Num.fin false 0 1).lt (Lay.f64.read (hdr b i 8))
  pos 24 && pos 32 && decide (out < 4) && hdrZero b 53 11 && hdrZero b 124 4 &&
    (!bitAt out 0 || s.viewQueue ctx (quadOf b 64) (tags.getD 4 false)) &&
    (!bitAt out 1 || s.viewQueue ctx (quadOf b 80) (tags.getD 5 false)) &&
    (let q := quadOf b 96
     !tags.getD 6 false || (capSpace q == 3 && capPerm q 6 && !capPerm q 10))

/-- The graph's address scope. -/
def State.graphScope (s : State) (g : Group) (va : Nat) : Scope :=
  addrScope 0 (match s.translate g.core (s.ctxOf g) va .rd with | .ok k => some k | _ => none)

/-- The view is written too. -/
def State.viewWrite (s : State) (g : Group) (va : Nat) : Option Trap :=
  match s.translate g.core (s.ctxOf g) va .wr with
  | .xlatePerm => some ⟨.xlatePerm, d64 va⟩
  | _ => none

def execCutsel (o : ThreeQuads) (s : State) : Res :=
  .next (s.issue ⟨[.quad o.d 0 false, .quad o.a 0 o.fa, .quad o.b 0 o.fb], [], true, .own⟩
    (withOverflow (onceBody fun s g c f =>
      s.onCounter g c f o.d fun va key =>
        match s.readRecord g f o.a [0, 5] [0] 0 64 64 with
        | .trap t => .trap t
        | .wait w => .wait w id
        | .replay v => .wait .replay fun t => t.awaitReplay g c.lanes v
        | .ok (hb, _) =>
          match s.readRecord g f o.b [0] [0, 1, 2] 0 128 128 with
          | .trap t => .trap t
          | .wait w => .wait w id
          | .replay v => .wait .replay fun t => t.awaitReplay g c.lanes v
          | .ok (vb, tags) =>
            let ctx := s.ctxOf g
            let graph := g.quad f o.a
            let view := capBase (g.quad f o.b)
            match s.viewWrite g view with
            | some t => .trap t
            | none =>
              if !(graphOk hb && s.viewOk ctx vb tags) then .trap (histTrap 0 5)
              else if !s.released g (s.graphScope g (capBase graph)) then .wait .release id
              else .go {} fun t =>
                let t := t.sideEffect g
                { t with
                  cuts := t.cuts ++ [⟨t.nextId, dieOf g.core, ctx, graph, hb, view, vb,
                    tags.getD 6 false && !s.stale ctx (quadOf vb 96), key, va, none⟩]
                  nextId := t.nextId + 1 })))

/-! The graph (spec/17, R331, R332). -/

/-- One cluster record that keeps Table 17.1. -/
structure Cluster where
  origin : List Nat
  radius : Nat
  own : Nat
  par : Nat
  group : Nat
  pgroup : Nat
  flags : Nat
  geom : QWord
  tag : Bool
  deriving DecidableEq, Repr

def Cluster.resident (c : Cluster) : Bool := bitAt c.flags 0
/-- No parent group. -/
def Cluster.root (c : Cluster) : Bool := c.pgroup == 0xFFFFFFFF

/-- A record that breaks the graph. -/
def badGraph : Trap := histTrap 0 5

/-- An error value or radius that a record may hold. -/
def errOk (inf : Bool) (w : Nat) : Bool :=
  match Lay.f32.read w with
  | .fin _ n _ => n == 0 || decide (w < 2 ^ 31)
  | .inf sg => inf && !sg
  | .nan _ => false

/-- The record of cluster `c`, read by its aligned 8-byte units. -/
def State.clusterAt (s : State) (x : Cut) (firsts : List Nat) (c : Nat) : Got Cluster :=
  let off := hdr x.header 8 8 + 64 * c
  (s.capNums x.die x.ctx x.id x.graph off 8 8).bind fun u =>
    let w := fun (i : Nat) => u.getD (i / 2) 0 / 2 ^ (32 * (i % 2)) % 2 ^ 32
    let r : Cluster := ⟨[u.getD 0 0, u.getD 1 0, u.getD 2 0], w 6, w 7, w 8, w 9, w 10, w 11,
      BitVec.ofNat 128 (u.getD 6 0 + 2 ^ 64 * u.getD 7 0), s.engineTag x.die x.ctx (capBase x.graph + off + 48)⟩
    let ngr := hdr x.header 4 4
    let ok := errOk false r.radius && errOk false r.own && errOk true r.par && decide (r.group < ngr) &&
      decide (firsts.getD r.group 0 ≤ c) && decide (c < firsts.getD (r.group + 1) 0) && (r.root || decide (r.pgroup < ngr)) &&
      r.flags / 2 % 128 == 0 && !bitAt r.flags 15 && decide (r.flags < 2 ^ 24) &&
      (!r.tag || s.goodCap x.ctx r.geom true [0] [0])
    if ok then .ok r else .fail badGraph

/-- The group-first array. -/
def State.firstsOf (s : State) (x : Cut) : Got (List Nat) :=
  let ngr := hdr x.header 4 4
  (s.capNums x.die x.ctx x.id x.graph (hdr x.header 16 8) 4 (ngr + 1)).bind fun l =>
    if l.head? = some 0 ∧ l.getLast? = some (hdr x.header 0 4) ∧ (l.zip (l.drop 1)).all (fun p => decide (p.1 < p.2)) then .ok l
    else .fail badGraph

/-- The graph as read. -/
structure Graph where
  firsts : List Nat
  clusters : List Cluster
  deriving DecidableEq, Repr

def Graph.cluster? (g : Graph) (c : Nat) : Option Cluster := g.clusters[c]?
/-- The parent group of a group, which its first cluster names. -/
def Graph.parent (g : Graph) (n : Nat) : Option Nat :=
  ((g.firsts[n]?).bind g.cluster?).bind fun c => if c.root then none else some c.pgroup
/-- The groups above a parent, nearest first, over at most `fuel` steps; none when no root is reached. -/
def Graph.chain (g : Graph) : Nat → Option Nat → Option (List Nat)
  | _, none => some []
  | 0, some _ => none
  | fuel + 1, some n => (g.chain fuel (g.parent n)).map (n :: ·)
def Graph.above (g : Graph) (c : Cluster) : Option (List Nat) := g.chain g.firsts.length (if c.root then none else some c.pgroup)

def State.graphOf (s : State) (x : Cut) : Got Graph :=
  (s.firstsOf x).bind fun firsts =>
    (gotAll (s.clusterAt x firsts) (List.range (hdr x.header 0 4))).bind fun cs =>
      let g : Graph := ⟨firsts, cs⟩
      if cs.all fun c => ((g.chain (hdr x.header 4 4) (if c.root then none else some c.pgroup)).isSome) then .ok g else .fail badGraph

/-! Projected error (spec/17, R334). -/

/-- A binary64 result rounded by RNE; an invalid operation gives a NaN. -/
def f64Of : Option Num → Num
  | some x => Lay.f64.read (Lay.f64.round .rne x).1
  | none => .nan false
def f64Sub (a b : Num) : Num := f64Of (a.add? .rne b.negate)
def f64Div (a b : Num) : Num :=
  match a.div b with
  | .ok x => f64Of (some x)
  | .byZero x => x
  | .invalid => .nan false

/-- What selection takes from a view. -/
structure ViewArgs where
  cam : List Num
  scale : Num
  near : Num
  thresh : Num

def viewArgs (b : List Byte) : ViewArgs :=
  let n := fun (i : Nat) => Lay.f64.read (hdr b i 8)
  ⟨[n 0, n 8, n 16], n 24, n 32, n 40⟩

def ViewArgs.error (v : ViewArgs) (err : Num) (origin : List Nat) (radius : Nat) : Num :=
  match err with
  | .inf _ => .inf false
  | _ =>
    let sq := fun (i : Nat) =>
      let d := f64Sub (Lay.f64.read (origin.getD i 0)) (v.cam.getD i (.nan false))
      f64Of (d.mul? d)
    let s := f64Of ((sq 0).add? .rne (sq 1))
    let s := f64Of (s.add? .rne (sq 2))
    let d := f64Of (some (numSqrt Lay.f64 .rne s).1)
    let m := (f64Sub d (Lay.f32.read radius)).maxOf v.near
    f64Div (f64Of (err.mul? v.scale)) m

/-! Selection and residency (spec/17, R335, R337). -/

def Graph.selects (g : Graph) (v : ViewArgs) (c : Cluster) : Bool :=
  let own := v.error (Lay.f32.read c.own) c.origin c.radius
  !own.isNan && !v.thresh.isNan && !v.thresh.lt own &&
  (c.root ||
    match (g.firsts[c.pgroup]?).bind g.cluster? with
    | some p => v.thresh.lt (v.error (Lay.f32.read c.par) p.origin p.radius)
    | none => false)

/-- The clusters of a group. -/
def Graph.members (g : Graph) (n : Nat) : List Nat :=
  let a := g.firsts.getD n 0
  (List.range (g.firsts.getD (n + 1) 0 - a)).map (a + ·)
def Graph.fullyResident (g : Graph) (n : Nat) : Bool :=
  (g.members n).all fun c => ((g.cluster? c).map Cluster.resident).getD false

/-- What is emitted: clusters with FALLBACK in ascending order, the count of ancestor groups, the geometry to fetch. -/
structure CutSet where
  emitted : List (Nat × Bool)
  fallbacks : Nat
  fetch : List QWord
  deriving DecidableEq, Repr

def Graph.cut (g : Graph) (v : ViewArgs) : CutSet :=
  let all := g.clusters.zipIdx
  let chosen := all.filter fun x => g.selects v x.1
  let missing := ((chosen.map (·.1.group)).eraseDups).filter fun n => !g.fullyResident n
  let ancestors := (missing.filterMap fun n =>
    ((g.chain g.firsts.length (g.parent n)).getD []).find? g.fullyResident).eraseDups
  let kept := chosen.filter fun x =>
    !missing.contains x.1.group && !(((g.above x.1).getD []).any ancestors.contains)
  let back := ancestors.flatMap g.members
  { emitted := all.filterMap fun x =>
      if back.contains x.2 then some (x.2, true) else if kept.contains x then some (x.2, false) else none
    fallbacks := ancestors.length
    fetch := (missing.flatMap g.members).filterMap fun c => (g.cluster? c).bind fun x =>
      if !x.resident && x.tag then some x.geom else none }

/-! Output (spec/17, R338). -/

def Graph.outRecord (g : Graph) (b : List Byte) (e : Nat × Bool) : List Byte :=
  match g.cluster? e.1 with
  | none => List.replicate 64 0
  | some c =>
    let v := viewArgs b
    leBytes 4 e.1 ++ leBytes 4 c.group ++ leBytes 4 (hdr b 48 4) ++ leBytes 4 (c.flags / 2 * 2 + nb e.2) ++
    ((List.range 3).flatMap fun i => leBytes 8 (match (Lay.f64.read (c.origin.getD i 0)).add? .rne (v.cam.getD i (.nan false)).negate with
      | some x => (Lay.f64.round .rne x).1
      | none => Lay.f64.infCode + 2 ^ 51)) ++ List.replicate 24 0

/-- Pages of 32 records. -/
def pagesOfRecords : Nat → List (List Byte) → List (List (List Byte))
  | 0, _ => []
  | _, [] => []
  | n + 1, l => l.take 32 :: pagesOfRecords n (l.drop 32)

/-- The plan of a request and the fetches that it hands to Granary. -/
def State.cutPlan (s : State) (x : Cut) : Got (CutPlan × List QWord) :=
  (s.graphOf x).bind fun g =>
    let cs := g.cut (viewArgs x.viewBytes)
    let recs := cs.emitted.map (g.outRecord x.viewBytes)
    let out := hdr x.viewBytes 52 1
    let queues := (if bitAt out 0 then [capBase (quadOf x.viewBytes 64)] else []) ++ (if bitAt out 1 then [capBase (quadOf x.viewBytes 80)] else [])
    .ok (⟨(pagesOfRecords recs.length recs).flatMap fun p => queues.map fun q => (q, p), some (cs.emitted.length, cs.fallbacks)⟩,
      if x.fetches then cs.fetch else [])

def State.setPlan (s : State) (id : Nat) (p : CutPlan) : State :=
  { s with cuts := s.cuts.map fun (c : Cut) => if c.id = id then { c with plan := some p } else c }

/-- Adds fetches for Granary. -/
def State.askFetches (s : State) (x : Cut) : List QWord → State
  | [] => s
  | q :: r => ({ s with fetches := s.fetches ++ [⟨s.nextId, x.die, x.ctx, q, capBase (quadOf x.viewBytes 96)⟩], nextId := s.nextId + 1 } : State).askFetches x r

/-- Takes the pages ahead of which no page of the same queue stands, the first that has room. -/
def State.pageReady (s : State) (ctx : Nat) : List Nat → List (Nat × List (List Byte)) → Option (QueueRef × List (List Byte))
  | _, [] => none
  | seen, (h, p) :: r =>
    if seen.contains h then s.pageReady ctx seen r else
    match s.queue? ctx h with
    | some q => if p.length ≤ s.qRoom ctx 0 q then some (q, p) else s.pageReady ctx (h :: seen) r
    | none => s.pageReady ctx (h :: seen) r

/-- The request has pushed its pages: it writes the results and adds to its counter. -/
def State.finishCut (s : State) (x : Cut) (p : CutPlan) : State :=
  let num := fun (s : State) (off v : Nat) =>
    match s.keysOf (dieSite x.die) x.ctx (x.view + off) 4 .wr with
    | some ks => s.sendKeys x.die ks (leBytes 4 v)
    | none => s
  let s := match p.result with
    | some (n, f) => num (num (num s 112 n) 116 f) 120 0
    | none => num s 120 1
  let lines := match s.keysOf (dieSite x.die) x.ctx (x.view + 112) 16 .wr with
    | some ks => (ks.map (· / 128)).eraseDups
    | none => []
  ({ s with cuts := s.cuts.filter fun c => c.id != x.id }.putAdd x.die x.ctr x.ctrVa x.ctx 16 none lines).settleWaiters

/-- GLEANER_REQUEST: a die's Gleaner reads the graph of its first request, pushes one of its pages, or ends it. -/
def execGleanerRequest (die : Nat) (s : State) : Res :=
  match s.cuts.find? (fun c => c.die = die) with
  | none => .next s
  | some x =>
    match x.plan with
    | none =>
      let broken := fun (s : State) =>
        ({ s with errlog := s.errlog ++ [.cut x.ctx x.view] } : State).setPlan x.id ⟨[], none⟩
      match s.cutPlan x with
      | .ok (p, qs) => .next ((s.setPlan x.id p).askFetches x qs)
      | .fail _ => .next (broken (s.hearEngine x.id))
      | .replay va => .next (s.addReplay x.die x.ctx va [x.id] [])
      | .hold => .next s
    | some p =>
      match p.pages with
      | [] => .next (s.finishCut x p)
      | l =>
        match s.pageReady x.ctx [] l with
        | none => .next s
        | some (q, page) =>
          .next ((s.pushRecords x.ctx 0 q page).setPlan x.id { p with pages := l.erase (q.handle, page) })

end Sys2Proof.Machine
end

