-- ==== Sys2Proof/Machine/Kv.lean ====
section
/-! DEFINITION. KVHASH and its SHA-256, the key-value instructions and the table agent (spec/19, R351 to R361). -/
namespace Sys2Proof.Machine

/-! SHA-256 (spec/19, R351; FIPS 180-4). -/

def shaK : List Word := [
  0x428A2F98, 0x71374491, 0xB5C0FBCF, 0xE9B5DBA5, 0x3956C25B, 0x59F111F1, 0x923F82A4, 0xAB1C5ED5,
  0xD807AA98, 0x12835B01, 0x243185BE, 0x550C7DC3, 0x72BE5D74, 0x80DEB1FE, 0x9BDC06A7, 0xC19BF174] ++ [
  0xE49B69C1, 0xEFBE4786, 0x0FC19DC6, 0x240CA1CC, 0x2DE92C6F, 0x4A7484AA, 0x5CB0A9DC, 0x76F988DA,
  0x983E5152, 0xA831C66D, 0xB00327C8, 0xBF597FC7, 0xC6E00BF3, 0xD5A79147, 0x06CA6351, 0x14292967] ++ [
  0x27B70A85, 0x2E1B2138, 0x4D2C6DFC, 0x53380D13, 0x650A7354, 0x766A0ABB, 0x81C2C92E, 0x92722C85,
  0xA2BFE8A1, 0xA81A664B, 0xC24B8B70, 0xC76C51A3, 0xD192E819, 0xD6990624, 0xF40E3585, 0x106AA070] ++ [
  0x19A4C116, 0x1E376C08, 0x2748774C, 0x34B0BCB5, 0x391C0CB3, 0x4ED8AA4A, 0x5B9CCA4F, 0x682E6FF3,
  0x748F82EE, 0x78A5636F, 0x84C87814, 0x8CC70208, 0x90BEFFFA, 0xA4506CEB, 0xBEF9A3F7, 0xC67178F2]

def shaInit : List Word :=
  [0x6A09E667, 0xBB67AE85, 0x3C6EF372, 0xA54FF53A, 0x510E527F, 0x9B05688C, 0x1F83D9AB, 0x5BE0CD19]

def rotr (x : Word) (n : Nat) : Word := (x >>> n) ||| (x <<< (32 - n))

/-- The message schedule: words from index 16 on, over the words so far. -/
def shaExtend : Nat → List Word → List Word
  | 0, w => w
  | n + 1, w =>
    let i := w.length
    let a := w.getD (i - 15) 0
    let b := w.getD (i - 2) 0
    let s0 := rotr a 7 ^^^ rotr a 18 ^^^ (a >>> 3)
    let s1 := rotr b 17 ^^^ rotr b 19 ^^^ (b >>> 10)
    shaExtend n (w ++ [w.getD (i - 16) 0 + s0 + w.getD (i - 7) 0 + s1])

def shaRound (v : List Word) (kw : Word × Word) : List Word :=
  match v with
  | [a, b, c, d, e, f, g, h] =>
    let t1 := h + (rotr e 6 ^^^ rotr e 11 ^^^ rotr e 25) + ((e &&& f) ^^^ (~~~e &&& g)) + kw.1 + kw.2
    let t2 := (rotr a 2 ^^^ rotr a 13 ^^^ rotr a 22) + ((a &&& b) ^^^ (a &&& c) ^^^ (b &&& c))
    [t1 + t2, a, b, c, d + t1, e, f, g]
  | _ => v

/-- One block of sixteen big-endian words. -/
def shaBlock (h : List Word) (m : List Word) : List Word :=
  let v := (shaK.zip (shaExtend 48 m)).foldl shaRound h
  (h.zip v).map fun x => x.1 + x.2

/-- Big-endian words of bytes. -/
def beWords (n : Nat) (bs : List Byte) : List Word :=
  (List.range n).map fun i => w32 (leNat ((List.range 4).map fun j => bs.getD (4 * i + 3 - j) 0))

/-- SHA-256 of a message of at most 119 bytes: two blocks, or one up to 55 bytes. -/
def sha256 (msg : List Byte) : List Byte :=
  let bits := 8 * msg.length
  let blocks := if msg.length ≤ 55 then 1 else 2
  let body := msg ++ [0x80] ++ List.replicate (64 * blocks - msg.length - 9) 0 ++ (leBytes 8 bits).reverse
  let h := shaBlock shaInit (beWords 16 (body.take 64))
  let h := if blocks = 1 then h else shaBlock h (beWords 16 (body.drop 64))
  h.flatMap fun w => (leBytes 4 w.toNat).reverse

/-! KVHASH (spec/19, R351). -/

/-- The message of a digest: the previous digest, the model id, the tokens. -/
def kvMessage (prev : List Word) (g : Group) (toks : List Word) : List Byte :=
  (prev ++ [g.kvmodel, g.kvmodelh] ++ toks).flatMap fun w => leBytes 4 w.toNat

def execKvhash (o : KvHash) (s : State) : Res :=
  .next (s.issue ⟨[.dest o.d.base 4, .quad o.a 0 o.fa, .source o.b 1 o.fb], [], true, .every⟩ fun s g c fs =>
    onceBody (fun _ g _ f =>
      let toks := (List.finRange 32).filterMap fun l => if l.val < 16 then (fs.find? fun x => x.lane = l).map (g.word · o.b) else none
      if toks.length < 16 then .trap ⟨.illegal, (laneMask (fs.map (·.lane))).zeroExtend 64⟩
      else
        let d := sha256 (kvMessage (g.words f o.a.base 4) g toks)
        .go { words := (List.range 4).map fun i => w32 (leNat ((d.drop (4 * i)).take 4)) } id) s g c fs)

/-! The instructions (spec/19, R353, R358 to R361). -/

/-- The checks of a handle: R158 as 64 bytes at offset 0, but SEALED must be 1. -/
def State.handleAt (s : State) (g : Group) (f : Fibre) (a : Quad) (sub perm : Nat) : Except Trap Nat :=
  let q := g.quad f a
  let v := capVal (a.field sub) q
  match s.block? g.block with
  | none => .error ⟨.capBounds, 0⟩
  | some b =>
    if !g.tagOf f a then .error ⟨.capTag, v⟩
    else if s.stale (s.ctxOf g) q then .error ⟨.capStale, v⟩
    else if capSpace q != 0 || !capPerm q 10 || !capPerm q perm then .error ⟨.capPerm, v⟩
    else (s.place b q 0 64).map (·.1)

/-- A request of one fibre: its table and what it asks. -/
structure KvAsk where
  base : Nat
  op : KvOp
  deriving DecidableEq, Repr

/-- The requester id of a lane; a group's position is its place among the groups of its slot (spec/19, R356;
notes/assumptions/57). -/
def State.requester (s : State) (g : Group) (l : Fin 32) : Nat :=
  let pos := (s.groups.filter fun x => x.core == g.core && x.slot == g.slot).findIdx (·.id == g.id)
  g.core % 4096 * 2 ^ 11 + g.slot % 4 * 2 ^ 9 + pos % 16 * 2 ^ 5 + l.val

/-- The requests of one instruction, in lane order, which arrive together at the clk `at_`. -/
def State.sendKv (s : State) (g : Group) (at_ : Nat) : List (Dest × KvAsk) → State
  | [] => s
  | (d, k) :: r =>
    let x : KvReq := ⟨s.nextId, k.base, s.ctxOf g, g.id, d, g.kvver.toNat, k.op, at_, s.requester g d.lane, none⟩
    ({ s with kvops := s.kvops ++ [x], nextId := s.nextId + 1 } : State).sendKv g at_ r

/-- How long requests are on their way to an agent is free. -/
def State.arrivalClk (s : State) : Nat := s.clk + Config.freeNat (s.tick * 2 ^ 64 + 2 ^ 62) % 4096

/-- A KV instruction: a release and an acquire at MODULE scope (spec/19, R356). -/
def kvBody (fm : Form) (effects : Bool) (check : State → Group → Fibre → AtIssue KvAsk) : State → Group → Cur → List Fibre → Body :=
  withOverflow fun s g _ fs =>
    issueBody s g fm fs (if s.acquiring g then some (.producer .memory) else none)
      (if s.released g .module then none else some .release)
      (fun f d => match check s g f with
        | .ok k => .ok (d, k) | .trap t => .trap t | .wait w => .wait w | .replay va => .replay va) fun go t =>
        let first := t.nextId
        let t := (if effects then t.sideEffect g else t).sendKv g t.arrivalClk (go.map (·.2))
        t.addProducer g.id .memory [] [] (some .module) (.kv ((List.range go.length).map (first + ·)))

/-- A check that needs the handle only. -/
def kvAsk (a : Quad) (sub perm : Nat) (op : Group → Fibre → KvOp) (s : State) (g : Group) (f : Fibre) : AtIssue KvAsk :=
  match s.handleAt g f a sub perm with
  | .error t => .trap t
  | .ok base => .ok ⟨base, op g f⟩

def formLook (sub : Nat) (o : TwoQuads) : Form := ⟨[.dest o.d 2, .quad o.a sub o.fa, .quad o.b 0 o.fb], [], false, .own⟩
/-- D is a pair; its first register is read too. -/
def formLookD (sub : Nat) (o : TwoQuads) : Form :=
  ⟨[.dest o.d 2, .source o.d 1 false, .quad o.a sub o.fa, .quad o.b 0 o.fb], [], false, .own⟩

def execKvlookLook (o : TwoQuads) (s : State) : Res :=
  .next (s.issue (formLook 0 o) (kvBody (formLook 0 o) false (kvAsk o.a 0 0 fun g f => .look (g.quad f o.b) false)))
def execKvlookTake (o : TwoQuads) (s : State) : Res :=
  .next (s.issue (formLook 1 o) (kvBody (formLook 1 o) true (kvAsk o.a 1 0 fun g f => .look (g.quad f o.b) true)))
def execKvlookPub (o : TwoQuads) (s : State) : Res :=
  .next (s.issue (formLookD 2 o) (kvBody (formLookD 2 o) true (kvAsk o.a 2 1 fun g f => .pub (g.quad f o.b) (g.word f o.d).toNat)))

def MemUse.token (n : Nat) : MemUse := ⟨[0, 1], [0], .rd, n, false⟩

/-- TOKBYTES, which the header gives, then the token's checks of R158. The agent reads its bytes, and a fault of them or of the header
marks the destination (spec/19, R360; spec/21, R378). -/
def kvappCheck (o : TwoQuads) (s : State) (g : Group) (f : Fibre) : AtIssue KvAsk :=
  match s.handleAt g f o.a 0 1 with
  | .error t => .trap t
  | .ok base =>
    let cap := g.quad f o.b
    let ask := fun (at_ : Option (Nat × Option Nat × Nat)) => (.ok ⟨base, .app (g.word f o.d).toNat cap at_⟩ : AtIssue KvAsk)
    match s.block? g.block, s.capCheck (s.ctxOf g) cap (g.tagOf f o.b) (o.b.field 0) (.token 16) with
    | none, _ => .trap ⟨.capBounds, 0⟩
    | _, some t => .trap t
    | some b, none =>
      match s.engineNum (dieOf g.core) (s.ctxOf g) 0 (base + 8) 4 with
      | .ok n =>
        match s.place b cap 0 (n / 16) with
        | .error t => .trap t
        | .ok (a, k) => ask (some (a, k, n / 16))
      | _ => ask none

def execKvapp (o : TwoQuads) (s : State) : Res :=
  .next (s.issue (formLookD 0 o) (kvBody (formLookD 0 o) true (kvappCheck o)))

def formRel (sub : Nat) (o : QuadReg) : Form := ⟨[.dest o.d 1, .quad o.a sub o.fa, .source o.b 1 o.fb], [], false, .own⟩
def execKvrelDrop (o : QuadReg) (s : State) : Res :=
  .next (s.issue (formRel 0 o) (kvBody (formRel 0 o) true (kvAsk o.a 0 1 fun g f => .drop (g.word f o.b).toNat)))
def execKvrelKill (o : TwoQuads) (s : State) : Res :=
  let fm : Form := ⟨[.dest o.d 1, .quad o.a 1 o.fa, .quad o.b 0 o.fb], [], false, .own⟩
  .next (s.issue fm (kvBody fm true (kvAsk o.a 1 1 fun g f => .kill (g.quad f o.b))))
def execKvrelStep (o : QuadReg) (s : State) : Res :=
  .next (s.issue (formRel 2 o) (kvBody (formRel 2 o) true (kvAsk o.a 2 1 fun g f => .step (g.word f o.b).toNat)))
def execKvrelUnpin (o : QuadReg) (s : State) : Res :=
  .next (s.issue (formRel 3 o) (kvBody (formRel 3 o) true (kvAsk o.a 3 1 fun g f => .unpin (g.word f o.b).toNat)))

/-! The table (spec/19, Tables 19.2 to 19.4). -/

/-- Where an agent works: the die that translates for it, the context, the address of the header, the request. -/
structure Table where
  die : Nat
  ctx : Nat
  base : Nat
  who : Nat
  deriving DecidableEq, Repr

def Table.rd (t : Table) (s : State) (off n : Nat) : Got Nat := s.engineNum t.die t.ctx t.who (t.base + off) n
def Table.wr (t : Table) (off n v : Nat) (s : State) : Got State :=
  if s.declinedFor t.ctx (t.base + off) (fun r => r.prods.contains t.who) then .fail ⟨.pageFault, d64 (t.base + off)⟩ else
  match s.translate (dieSite t.die) t.ctx (t.base + off) .wr with
  | .hold => .hold
  | .ok k => if s.heldByLoft k then .hold else .ok (s.sendBytes t.die k (leBytes n v))
  | .replay => .replay (t.base + off)
  | .pageFault => .fail ⟨.pageFault, d64 (t.base + off)⟩
  | .xlatePerm => .fail ⟨.xlatePerm, d64 (t.base + off)⟩

/-- Runs changes in order over a list. -/
def gotFold {α : Type} (f : State → α → Got State) : State → List α → Got State
  | s, [] => .ok s
  | s, x :: r => (f s x).bind fun s => gotFold f s r

/-- Bytes of the table, one by one. -/
def Table.bytes (t : Table) (s : State) (off n : Nat) : Got (List Byte) :=
  (gotAll (fun i => t.rd s (off + i) 1) (List.range n)).bind fun l => .ok (l.map (BitVec.ofNat 8))
/-- Granules that `n` bytes of a write cover whole lose their poison (spec/10, R229). -/
def Table.heal (t : Table) (off n : Nat) (s : State) : State :=
  (List.range n).foldl (fun s i =>
    if (t.base + off + i) % 16 != 0 || decide (n < i + 16) then s else
    match s.translate (dieSite t.die) t.ctx (t.base + off + i) .wr with
    | .ok k => if s.reaches t.die k then s.setPoison k false else s
    | _ => s) s

def Table.put (t : Table) (off : Nat) (bs : List Byte) (s : State) : Got State :=
  (gotFold (fun s x => t.wr (off + x.2) 1 x.1.toNat s) s bs.zipIdx).bind fun s => .ok (t.heal off bs.length s)

/-- What a header gives. -/
structure KvHead where
  logb : Nat
  nblk : Nat
  size : Nat
  cur : Nat
  oldest : Nat
  free : Nat
  buck : Nat
  info : Nat
  pool : Nat
  vref : Nat
  deriving DecidableEq, Repr

def Table.head (t : Table) (s : State) : Got KvHead :=
  (gotAll (fun x => t.rd s x.1 x.2) [(0, 1), (4, 4), (8, 4), (12, 4), (16, 4), (20, 4), (24, 8), (32, 8), (40, 8), (48, 8)]).bind fun l =>
    let f := fun (i : Nat) => l.getD i 0
    .ok ⟨f 0, f 1, f 2, f 3, f 4, f 5, f 6, f 7, f 8, f 9⟩

/-- No block. -/
def noBlock : Nat := 0xFFFFFFFF

/-- A slot of a bucket. -/
structure KvEntry where
  off : Nat
  digest : Nat
  block : Nat
  born : Nat
  died : Nat
  deriving DecidableEq, Repr

/-- Visible in a version (spec/19, R355). -/
def KvEntry.visible (e : KvEntry) (v : Nat) : Bool := e.block != noBlock && decide (e.born ≤ v) && decide (v < e.died)

def Table.bucket (t : Table) (s : State) (h : KvHead) (k : Nat) : Got (List KvEntry) :=
  gotAll (fun i =>
    let off := h.buck + 256 * k + 32 * i
    (gotAll (fun x => t.rd s (off + x.1) x.2) [(0, 8), (8, 8), (16, 4), (20, 4), (24, 4)]).bind fun l =>
      .ok ⟨off, l.getD 0 0 + 2 ^ 64 * l.getD 1 0, l.getD 2 0, l.getD 3 0, l.getD 4 0⟩) (List.range 8)

/-- The bucket of a digest. -/
def KvHead.bucketOf (h : KvHead) (d : QWord) : Nat := d.toNat % 2 ^ h.logb
def findEntry (es : List KvEntry) (d : QWord) (v : Nat) : Option KvEntry := es.find? fun e => e.digest == d.toNat && e.visible v

/-- Metadata of a block. -/
structure KvMeta where
  refs : Nat
  fill : Nat
  flags : Nat
  crc : Nat
  next : Nat
  deriving DecidableEq, Repr

def KvMeta.free (m : KvMeta) : Bool := bitAt m.flags 1
def Table.info (t : Table) (s : State) (h : KvHead) (b : Nat) : Got KvMeta :=
  (gotAll (fun x => t.rd s (h.info + 16 * b + x.1) x.2) [(0, 2), (2, 1), (3, 1), (4, 4), (8, 4)]).bind fun l =>
    .ok ⟨l.getD 0 0, l.getD 1 0, l.getD 2 0, l.getD 3 0, l.getD 4 0⟩
def Table.setRefs (t : Table) (h : KvHead) (b v : Nat) : State → Got State := t.wr (h.info + 16 * b) 2 v

/-- A block that exists and is not free. -/
def Table.live (t : Table) (s : State) (h : KvHead) (b : Nat) : Got (Option KvMeta) :=
  if h.nblk ≤ b then .ok none else (t.info s h b).bind fun m => .ok (if m.free then none else some m)

/-- Allocates the first free block: data zero, FILL 0, REFS 1, FLAGS 0 (spec/19, R354). -/
def Table.alloc (t : Table) (h : KvHead) (s : State) : Got (Option (Nat × State)) :=
  (t.rd s 20 4).bind fun b =>
    if b = noBlock then .ok none else
    (t.info s h b).bind fun m =>
      (t.wr 20 4 m.next s).bind fun s =>
        (t.wr (h.info + 16 * b) 4 1 s).bind fun s =>
          (t.put (h.pool + b * h.size) (List.replicate h.size 0) s).bind fun s => .ok (some (b, s))

/-- Takes one reference from a block; at 0 it becomes free (spec/19, R355). -/
def Table.unref (t : Table) (h : KvHead) (b : Nat) (s : State) : Got State :=
  (t.info s h b).bind fun m =>
    let refs := m.refs - 1
    (t.setRefs h b refs s).bind fun s =>
      if refs ≠ 0 then .ok s else
      (t.rd s 20 4).bind fun first =>
        (t.wr (h.info + 16 * b + 3) 1 (Nat.lor m.flags 2) s).bind fun s =>
          (t.wr (h.info + 16 * b + 8) 4 first s).bind fun s => t.wr 20 4 b s

/-- Frees every entry that has died for all versions that can be reached (spec/19, R355). -/
def Table.expire (t : Table) (h : KvHead) (oldest : Nat) (s : State) : Got State :=
  gotFold (fun s k => (t.bucket s h k).bind fun es =>
    gotFold (fun s e => (t.wr (e.off + 16) 4 noBlock s).bind fun s => t.unref h e.block s) s
      (es.filter fun e => e.block != noBlock && decide (e.died ≤ oldest))) s (List.range (2 ^ h.logb))

/-! The agent's operations (spec/19, Table 19.6, R359 to R361). -/

abbrev KvRes := Got (State × List Word)

def kvMiss : Nat := 0xFFFFFFFF
def kvRefsat : Nat := 0xFFFFFFFE
def kvBucketFull : Nat := 0xFFFFFFFD
def kvNotFull : Nat := 0xFFFFFFFC
def kvBadVer : Nat := 0xFFFFFFFB
def kvBadBlock : Nat := 0xFFFFFFFA
def kvBlockFull : Nat := 0xFFFFFFF9
def kvPoisoned : Nat := 0xFFFFFFF8
def kvNoSpace : Nat := 0xFFFFFFF7
def kvWindow : Nat := 0xFFFFFFF6

/-- A status in D and 0 in D+1. -/
def kvStatus (s : State) (v : Nat) : KvRes := .ok (s, [w32 v, 0])
/-- A block in D and its CRC in D+1. -/
def Table.answer (t : Table) (h : KvHead) (b : Nat) (s : State) : KvRes := (t.info s h b).bind fun m => .ok (s, [w32 b, w32 m.crc])

def Table.look (t : Table) (h : KvHead) (kvver : Nat) (d : QWord) (take : Bool) (s : State) : KvRes :=
  if kvver < h.oldest ∨ h.cur < kvver then kvStatus s kvBadVer else
  (t.bucket s h (h.bucketOf d)).bind fun es =>
    match findEntry es d kvver with
    | none => kvStatus s kvMiss
    | some e =>
      if !take then t.answer h e.block s else
      (t.info s h e.block).bind fun m =>
        if m.refs = 65535 then kvStatus s kvRefsat
        else (t.setRefs h e.block (m.refs + 1) s).bind fun s => t.answer h e.block s

def Table.pub (t : Table) (h : KvHead) (d : QWord) (b : Nat) (s : State) : KvRes :=
  (t.live s h b).bind fun m => match m with
    | none => kvStatus s kvBadBlock
    | some m =>
      if m.fill < 16 then kvStatus s kvNotFull else
      (t.bucket s h (h.bucketOf d)).bind fun es =>
        match findEntry es d (h.cur + 1), es.find? (fun e => e.block = noBlock) with
        | some e, _ => t.answer h e.block s
        | none, none => kvStatus s kvBucketFull
        | none, some e =>
          if m.refs = 65535 then kvStatus s kvRefsat else
          (t.put e.off (leBytes 16 d.toNat ++ leBytes 4 b ++ leBytes 4 (h.cur + 1) ++ leBytes 4 0xFFFFFFFF) s).bind fun s =>
            (t.setRefs h b (m.refs + 1) s).bind fun s => t.answer h b s

/-- A status of KVAPP; the rule gives D+1 no value then, so it is free (notes/assumptions/2). -/
def kvappStatus (s : State) (v : Nat) : KvRes := .ok (s, [w32 v, w32 (Config.freeNat (s.tick * 2 ^ 64 + 2 ^ 59))])

/-- Writes the token into the next slot of a block and renews its CRC. -/
def Table.append (t : Table) (h : KvHead) (b fill : Nat) (tok : List Byte) (s : State) : KvRes :=
  (t.put (h.pool + b * h.size + fill * (h.size / 16)) tok s).bind fun s =>
    (t.wr (h.info + 16 * b + 2) 1 (fill + 1) s).bind fun s =>
      (t.bytes s (h.pool + b * h.size) h.size).bind fun data =>
        (t.wr (h.info + 16 * b + 4) 4 (crc32c data) s).bind fun s => t.answer h b s

def Table.app (t : Table) (h : KvHead) (b : Nat) (tok : List Byte) (s : State) : KvRes :=
  if b = noBlock then
    (t.alloc h s).bind fun x => match x with
      | none => kvappStatus s kvNoSpace
      | some (n, s) => t.append h n 0 tok s
  else
    (t.live s h b).bind fun m => match m with
      | none => kvappStatus s kvBadBlock
      | some m =>
        if bitAt m.flags 0 then kvappStatus s kvPoisoned
        else if m.fill = 16 then kvappStatus s kvBlockFull
        else if m.refs ≤ 1 then t.append h b m.fill tok s
        else
          (t.alloc h s).bind fun x => match x with
            | none => kvappStatus s kvNoSpace
            | some (n, s) =>
              (t.bytes s (h.pool + b * h.size) h.size).bind fun data =>
                (t.put (h.pool + n * h.size) data s).bind fun s =>
                  (t.setRefs h b (m.refs - 1) s).bind fun s => t.append h n m.fill tok s

def Table.drop (t : Table) (h : KvHead) (b : Nat) (s : State) : KvRes :=
  (t.live s h b).bind fun m => match m with
    | none => .ok (s, [w32 kvBadBlock])
    | some _ => (t.unref h b s).bind fun s => .ok (s, [0])

def Table.kill (t : Table) (h : KvHead) (d : QWord) (s : State) : KvRes :=
  (t.bucket s h (h.bucketOf d)).bind fun es =>
    match findEntry es d (h.cur + 1) with
    | none => .ok (s, [w32 kvMiss])
    | some e => (t.wr (e.off + 24) 4 (h.cur + 1) s).bind fun s => .ok (s, [0])

def Table.step (t : Table) (h : KvHead) (k : Nat) (s : State) : KvRes :=
  if k = 0 ∨ 65535 < k then .ok (s, [w32 kvBadVer])
  else if h.cur + 1 - h.oldest = 64 then .ok (s, [w32 kvWindow])
  else
    (t.wr 12 4 (h.cur + 1) s).bind fun s =>
      (t.wr (h.vref + 4 * ((h.cur + 1) % 64)) 4 k s).bind fun s => .ok (s, [w32 (h.cur + 1)])

/-- OLDEST moves up over versions without references, over at most `fuel` versions. -/
def Table.advance (t : Table) (h : KvHead) (s : State) : Nat → Nat → Got Nat
  | 0, o => .ok o
  | fuel + 1, o =>
    if h.cur ≤ o then .ok o else
    (t.rd s (h.vref + 4 * (o % 64)) 4).bind fun r => if r = 0 then t.advance h s fuel (o + 1) else .ok o

def Table.unpin (t : Table) (h : KvHead) (v : Nat) (s : State) : KvRes :=
  if v < h.oldest ∨ h.cur < v then .ok (s, [w32 kvBadVer]) else
  let at_ := h.vref + 4 * (v % 64)
  (t.rd s at_ 4).bind fun r =>
    if r = 0 then .ok (s, [w32 kvBadVer]) else
    (t.wr at_ 4 (r - 1) s).bind fun s =>
      (t.advance h s (h.cur - h.oldest) h.oldest).bind fun o =>
        (t.wr 16 4 o s).bind fun s => (if o = h.oldest then .ok s else t.expire h o s).bind fun s => .ok (s, [0])

/-- One byte of a token as its group sees it. -/
def State.tokenByte (s : State) (r : KvReq) (core : Nat) (va : Nat) (key : Option Nat) : Got Byte :=
  let read := fun (k : Nat) (v : Option Nat) =>
    if s.boarded k 1 || s.redPending core r.group r.id k 1 || s.heldByLoft k then (.hold : Got Byte)
    else if s.seenPoison core r.group r.id r.ctx v k then .fail ⟨.poison, d64 va⟩
    else .ok (s.seenByte core r.group r.id r.ctx v k)
  match key with
  | some k => read k none
  | none =>
    if s.declinedFor r.ctx va (fun x => x.prods.contains r.id) then .fail ⟨.pageFault, d64 va⟩ else
    match s.translate core r.ctx va .rd with
    | .ok k => read k (some va)
    | .hold => .hold
    | .replay => .replay va
    | .pageFault => .fail ⟨.pageFault, d64 va⟩
    | .xlatePerm => .fail ⟨.xlatePerm, d64 va⟩

/-- The bytes of a token. -/
def State.tokenBytes (s : State) (r : KvReq) (va : Nat) (key : Option Nat) (n : Nat) : Got (List Byte) :=
  let core := ((s.group? r.group).map (·.core)).getD 0
  gotAll (fun i => s.tokenByte r core (va + i) (key.map (· + i))) (List.range n)

/-- Where the token lies, checked now when it could not be checked at the instruction (notes/assumptions/101). -/
def Table.token (t : Table) (r : KvReq) (s : State) (cap : QWord) : Option (Nat × Option Nat × Nat) → Got (Nat × Option Nat × Nat)
  | some x => .ok x
  | none =>
    (t.rd s 8 4).bind fun n =>
      match (s.group? r.group).bind fun g => s.block? g.block with
      | none => .fail ⟨.capBounds, 0⟩
      | some b =>
        match s.place b cap 0 (n / 16) with
        | .error e => .fail e
        | .ok (a, k) => .ok (a, k, n / 16)

/-- One operation. -/
def Table.run (t : Table) (r : KvReq) (s : State) : KvRes :=
  (t.head s).bind fun h => match r.op with
    | .look d take => t.look h r.kvver d take s
    | .pub d b => t.pub h d b s
    | .app b cap at_ => (t.token r s cap at_).bind fun x => (s.tokenBytes r x.1 x.2.1 x.2.2).bind fun tok => t.app h b tok s
    | .drop b => t.drop h b s
    | .kill d => t.kill h d s
    | .step k => t.step h k s
    | .unpin v => t.unpin h v s

/-- Records the answer of a request. -/
def State.answerKv (s : State) (r : KvReq) (ws : List Word) (mark : Option Trap) : State :=
  { s with kvops := s.kvops.map fun (x : KvReq) => if x.id = r.id then { x with answer := some ⟨r.dest, ws, false, false, mark, 0, none⟩ } else x }

/-- Two requests name one table. -/
def State.sameTable (s : State) (q r : KvReq) : Bool :=
  (q.ctx == r.ctx && q.table == r.table) ||
  match s.lookup (dieSite 0) q.ctx q.table, s.lookup (dieSite 0) r.ctx r.table with
  | .leaf a, .leaf b => a.key q.table == b.key r.table
  | _, _ => false

/-- A request that its agent takes before another: it arrives earlier, or in the same clk with a lower requester id. One that waits
for a replay arrives with it (spec/19, R356; spec/21, R379). -/
def State.kvBefore (s : State) (q r : KvReq) : Bool :=
  q.id != r.id && q.answer.isNone && s.sameTable q r && !(s.replays.any fun x => !x.declined && x.prods.contains q.id) &&
    (decide (q.clk < r.clk) || (q.clk == r.clk && decide (q.req < r.req)))

/-- A request that its agent may take: the clk of its arrival is over, so that all that arrive in it are there. -/
def State.kvReady (s : State) (r : KvReq) : Bool :=
  r.answer.isNone && decide (r.clk < s.clk) && !(s.replays.any fun x => !x.declined && x.prods.contains r.id) && !(s.kvops.any (s.kvBefore · r))

/-- KV_AGENT_OPERATION: the agent applies a request. -/
def execKvAgentOperation (reqId : Nat) (s : State) : Res :=
  match s.kvops.find? (fun r => r.id = reqId) with
  | none => .next s
  | some r =>
    if !s.kvReady r then .next s else
    let die := dieOf (((s.group? r.group).map (·.core)).getD 0)
    match (⟨die, r.ctx, r.table, r.id⟩ : Table).run r s with
    | .ok (t, ws) => .next ((t.hearEngine r.id).answerKv r ws none)
    | .fail t => .next ((s.hearEngine r.id).answerKv r [] (some t))
    | .replay va => .next (s.addReplay die r.ctx va [r.id] [])
    | .hold => .next s

end Sys2Proof.Machine
end

