-- ==== Sys2Proof/Machine/Matrix.lean ====
section
/-! DEFINITION. The matrix engine: tile control registers, tiles, quadrants and their tokens, steps, MLOOP (spec/11). -/
namespace Sys2Proof.Machine

/-! Tiles (spec/11, R230 to R232). -/

def Group.tc (g : Group) (t : Nat) : Word := g.tcs.getD t 0
def tcV (tc : Word) : Bool := tc.getLsbD 0
def tcFmt (tc : Word) : Nat := tc.toNat / 2 ^ 28

def Group.tile (g : Group) (t : Nat) : Tile := g.tiles.getD t ⟨[], false⟩

/-- A list without its trailing zeros. -/
def trimBytes : List Byte → List Byte
  | [] => []
  | b :: r => let t := trimBytes r; if t.isEmpty && b = 0 then [] else b :: t
def trimWords : List Word → List Word
  | [] => []
  | b :: r => let t := trimWords r; if t.isEmpty && b = 0 then [] else b :: t

def Group.setTile (g : Group) (t : Nat) (bs : List Byte) (poison : Bool) : Group :=
  { g with tiles := g.tiles.set t ⟨trimBytes bs, poison⟩ }
/-- The first bytes of a tile take `bs`; the others stay. -/
def Group.fillTile (g : Group) (t : Nat) (bs : List Byte) (poison : Bool) : Group :=
  g.setTile t (bs ++ (g.tile t).bytes.drop bs.length) poison

/-- Container j of row i of bytes in the layout of a tc (spec/11, R231). -/
def container (tc : Word) (byte : Nat → Byte) (i j : Nat) : Nat :=
  let w := tcCw tc
  let at_ := i * tcPitch tc + j * w / 8
  if w = 4 then (byte at_).toNat / 2 ^ (4 * (j % 2)) % 16
  else leNat ((List.range (w / 8)).map fun k => byte (at_ + k))

def tileByte (t : Tile) (i : Nat) : Byte := t.bytes.getD i 0

/-- Container widths that a format allows (spec/11, Table 11.2). -/
def cwAllowed (fmt w : Nat) : Bool :=
  if fmt ≤ 1 then w == 16 else if fmt ≤ 5 then w == 8 else if fmt = 6 then w == 4 else if fmt = 7 then w == 8
  else if fmt ≤ 10 then w == 4 || w == 8 else if fmt ≤ 14 then w == 8 else true

/-- Rate class: 0 H, 1 E, 2 Q, 3 X, 4 none. -/
def rateClass (fmt : Nat) : Nat :=
  if fmt ≤ 1 then 0 else if fmt ≤ 5 then 1 else if fmt = 6 then 2 else if fmt ≤ 14 then 3 else 4
def kMax (fmt : Nat) : Nat := if fmt ≤ 1 then 32 else if fmt ≤ 5 then 64 else if fmt = 6 then 128 else 32
/-- F of an MMAX operand: 0 for S8, m - 1 for BFPm (spec/11, R245). -/
def fracBits (fmt : Nat) : Nat := if fmt = 7 then 0 else fmt - 7

/-- The exact value of a container under a format. -/
def elemNum (fmt c : Nat) : Num :=
  match fmt with
  | 0 => Lay.f16.read (c % 65536)
  | 1 => Lay.bf16.read (c % 65536)
  | 2 => narrowRead .e4m3 c
  | 3 => narrowRead .e5m2 c
  | 4 => narrowRead .e3m2 c
  | 5 => narrowRead .e2m3 c
  | _ => narrowRead .e2m1 c

/-! TILE_CONFIG (spec/11, R241). -/

/-- The lowest reason, then the lowest field, as TRAPVAL. -/
def tileConfig : List (Nat × Nat) → Option Trap
  | [] => none
  | l => some ⟨.tileConfig, d64 ((l.map fun x => x.1 * 256 + x.2).foldl min (2 ^ 20))⟩

/-- Reason 1: at or above `.tiles`, or V = 0. -/
def Group.tileBad (g : Group) (t : Nat) : List (Nat × Nat) := if g.tilesN ≤ t || !tcV (g.tc t) then [(1, t)] else []
def Group.tileOut (g : Group) (t : Nat) : List (Nat × Nat) := if g.tilesN ≤ t then [(1, t)] else []

/-- A TCFG value that is invalid (spec/11, R240). -/
def tcInvalid (v : Word) : Bool :=
  v &&& 0x020080FE != 0 || !cwAllowed (tcFmt v) (tcCw v) || decide (4096 < tcSize v)

def formOnce (ops : List Operand) : Form := ⟨ops, [], true, .own⟩
def scalarOps (s : Fin 7) (n : Nat) : List Operand := [.source (.s (Fin.ofNat 32 (4 * s.val))) n false]

def execTcfg (r : Reg) (t : Fin 16) (s : State) : Res :=
  .next (s.issue (formOnce [.source r 1 false]) (onceBody fun _ g _ f =>
    let v := g.word f r
    match tileConfig (g.tileOut t.val ++ (if tcInvalid v then [(2, t.val)] else [])) with
    | some x => .trap x
    | none => .go {} fun s => s.updGroup g.id fun g => { g with tcs := g.tcs.set t.val (v ||| 1) }))

def execTcrd (r : Reg) (t : Fin 16) (s : State) : Res :=
  .next (s.issue (formOnce [.dest r 1]) (onceBody fun _ g _ _ =>
    match tileConfig (g.tileOut t.val) with
    | some x => .trap x
    | none => .go { words := [g.tc t.val] } id))

/-- A quadrant of the mask is used by the group's running MLOOP (spec/11, R234). -/
def Group.mloopTouches (g : Group) (m : Nat) : Bool := (g.mloop.map fun l => Nat.land l.mask.val m != 0).getD false

/-- The tile or the quadrants that an unfinished TLD or ACLD writes. -/
def Work.fills (w : Work) (ts : List (Fin 16)) (m : Nat) : Bool :=
  match w with
  | .ext (.tile t _ _ _) _ => ts.contains t
  | .ext (.quad q) _ => bitAt m q.val
  | _ => false

/-- A matrix instruction of the group that uses tiles `ts` and the quadrants of mask `m` is not ready until the earlier ones have
finished with them (spec/11, R234). -/
def State.matrixBusy (s : State) (g : Group) (ts : List (Fin 16)) (m : Nat) : Bool :=
  g.mloopTouches m || s.producers.any fun p => p.group == g.id && p.work.fills ts m

/-- A matrix instruction acts once for its batch, when the tiles and quadrants that it uses are free (spec/11, R233, R234). -/
def matrixBody (ts : List (Fin 16)) (m : Nat) (h : State → Group → Cur → Fibre → Once) : State → Group → Cur → List Fibre → Body :=
  onceBody fun s g c f => if s.matrixBusy g ts m then .wait .matrix id else h s g c f

def execTzero (t : Fin 16) (s : State) : Res :=
  .next (s.issue (formOnce []) (matrixBody [t] 0 fun _ g _ _ =>
    match tileConfig (g.tileBad t.val) with
    | some x => .trap x
    | none => .go {} fun s => s.updGroup g.id fun g => g.setTile t.val [] false))

/-! Quadrants and tokens (spec/11, R235 to R237). -/

def Core.lackMask (c : Core) (gid m : Nat) : Nat :=
  ((maskQuads m).map fun q => nb ((c.quad q).holder != some gid) * 2 ^ q.val).foldl (· + ·) 0

/-- MATRIX_TOKEN with reason and mask. -/
def tokenTrap (reason mask : Nat) : Trap := ⟨.matrixToken, d64 (16 * reason + mask)⟩
def tokenCheck (c : Core) (gid m : Nat) : Option Trap :=
  if c.lackMask gid m = 0 then none else some (tokenTrap 0 (c.lackMask gid m))

/-- Order of waiters: earlier clk, then lower slot, then older group (spec/11, R237). -/
def State.waitsBefore (s : State) (a b : Macq) : Bool :=
  let k := fun (m : Macq) => match s.group? m.group with | some g => (m.since, g.slot, g.since, g.id) | none => (m.since, 0, 0, 0)
  decide ((k a).1 < (k b).1) || ((k a).1 == (k b).1 && (decide ((k a).2.1 < (k b).2.1) || ((k a).2.1 == (k b).2.1 &&
    (decide ((k a).2.2.1 < (k b).2.2.1) || ((k a).2.2.1 == (k b).2.2.1 && decide ((k a).2.2.2 < (k b).2.2.2))))))

def Core.free (c : Core) (m : Nat) : Bool := (maskQuads m).all fun q => (c.quad q).holder.isNone
def Core.give (c : Core) (gid m : Nat) : Core :=
  (maskQuads m).foldl (fun c q => c.setQuad q { c.quad q with holder := some gid }) c
/-- A group has taken tokens: its other MACQs that wait are tried again, and trap (spec/11, R237). -/
def State.dropMacqs (s : State) (core gid : Nat) : State :=
  let stale := (s.core core).macqs.filter fun w => !w.granted && w.group == gid
  if stale.isEmpty then s else
  let s := s.updCore core fun k => { k with macqs := k.macqs.filter fun w => w.granted || w.group != gid }
  stale.foldl (fun s w => s.wakeLanes gid w.lanes .token) s

/-- A batch waits in the queue of its core; fibres that join a batch already there wait with it (spec/08, R174). -/
def Core.queueMacq (k : Core) (w : Macq) : Core :=
  let old := fun (x : Macq) => !x.granted && x.group == w.group && x.mask == w.mask && x.lanes.all w.lanes.contains
  { k with macqs :=
      if k.macqs.any old then k.macqs.map fun x => if old x then { x with lanes := w.lanes } else x
      else k.macqs ++ [w] }

def execMacq (m : Fin 16) (s : State) : Res :=
  .next (s.issue (formOnce []) fun s g c fs =>
    let core := s.core g.core
    onceBody (fun s g _ _ =>
      let mine := fun (w : Macq) => w.granted && w.group == g.id && w.lanes.all c.lanes.contains
      if core.macqs.any mine then
        .go {} fun t => t.updCore g.core fun k => { k with macqs := k.macqs.filter fun w => !mine w }
      else if core.heldMask g.id != 0 then .trap (tokenTrap 1 (core.heldMask g.id))
      else if core.free m.val && !(core.macqs.any fun w => !w.granted && Nat.land w.mask.val m.val != 0) then
        .go {} fun t => (t.updCore g.core (·.give g.id m.val)).dropMacqs g.core g.id
      else .wait .token fun t => t.updCore g.core fun k => k.queueMacq ⟨g.id, fs.map (·.lane), m, s.clk, false⟩) s g c fs)

/-- The first waiter in order whose tokens are free and that no earlier waiter hinders. -/
def State.grantable (s : State) (c : Core) : Option Macq :=
  c.macqs.find? fun w => !w.granted && c.free w.mask.val && c.heldMask w.group == 0 &&
    !(c.macqs.any fun x => !x.granted && s.waitsBefore x w && Nat.land x.mask.val w.mask.val != 0)

def execMacqGrant (core : Nat) (s : State) : Res :=
  let c := s.core core
  match s.grantable c with
  | none => .next s
  | some w =>
    let s := s.setCore { c.give w.group w.mask.val with
      macqs := c.macqs.map fun (x : Macq) => if x = w then { x with granted := true } else x }
    .next ((s.dropMacqs core w.group).wakeLanes w.group w.lanes .token)

def execMrel (m : Fin 16) (s : State) : Res :=
  .next (s.issue (formOnce []) (onceBody fun s g _ _ =>
    let c := s.core g.core
    if c.lackMask g.id m.val != 0 then .trap (tokenTrap 2 (c.lackMask g.id m.val))
    else if s.matrixBusy g [] m.val then .wait .matrix id
    else .go {} fun t => t.updCore g.core (·.takeBack m.val)))

def execAcz (m : Fin 16) (s : State) : Res :=
  .next (s.issue (formOnce []) (matrixBody [] m.val fun s g _ _ =>
    match tokenCheck (s.core g.core) g.id m.val with
    | some t => .trap t
    | none =>
      .go {} fun t => t.updCore g.core fun c =>
        (maskQuads m.val).foldl (fun c q => c.setQuad q { c.quad q with mode := .zero, elems := [], poison := false }) c))

/-! Moving tiles (spec/11, R242, R243). -/

/-- Bytes of one row in memory: raw containers, or planar blocks of width m. -/
def rowBytes (tc : Word) (m : Nat) : Nat := if m = 0 then tcCols tc * tcCw tc / 8 else tcCols tc / 32 * (4 * m)

/-- Shape errors of TLD and TST (spec/11, R242). -/
def moveErr (tc : Word) (m t : Nat) : List (Nat × Nat) :=
  if (m = 0 && tcCols tc * tcCw tc % 8 != 0) || (m != 0 && (decide (tcCw tc < m) || tcCols tc % 32 != 0)) then [(4, t)] else []

/-- The width of a code: 0 raw, else code + 1. -/
def planarWidth (w : Fin 8) : Nat := if w.val = 0 then 0 else w.val + 1

/-- Bytes of one tile row, with padding, from a memory row (spec/11, R242). -/
def widenRow (tc : Word) (m : Nat) (sx : Bool) (mem : Nat → Byte) : List Byte :=
  let w := tcCw tc
  let pitch := tcPitch tc
  if m = 0 then (List.range pitch).map fun i => if i < rowBytes tc 0 then mem i else 0
  else
    let elem := fun (j : Nat) =>
      let blk := leNat ((List.range (4 * m)).map fun i => mem (j / 32 * (4 * m) + i))
      let e := unpackPlanes m blk (j % 32)
      if sx then wrap w (signed m e) else e
    leBytes pitch ((List.range (tcCols tc)).foldl (fun v j => v + elem j * 2 ^ (w * j)) 0)

/-- The memory row of a tile row. -/
def narrowRow (tc : Word) (m i : Nat) (byte : Nat → Byte) : List Byte :=
  if m = 0 then (List.range (rowBytes tc 0)).map fun k => byte (i * tcPitch tc + k)
  else (List.range (tcCols tc / 32)).flatMap fun b =>
    leBytes (4 * m) (packPlanes m fun e => container tc byte i (32 * b + e) % 2 ^ m)

/-- Offset and stride from S + 4 and S + 5. -/
def strideOf (g : Group) (f : Fibre) (sq : Fin 7) : Nat × Nat :=
  ((g.word f (.s (Fin.ofNat 32 (4 * sq.val + 4)))).toNat, (g.word f (.s (Fin.ofNat 32 (4 * sq.val + 5)))).toNat)

/-- The capability of S and its field value. -/
def scalarQuad (sq : Fin 7) : Quad := .s (Fin.ofNat 8 sq.val)

/-- The extent of rows (spec/11, R243). -/
def State.rowExtent (s : State) (g : Group) (f : Fibre) (u : MemUse) (sq : Fin 7) (rows bytes : Nat) : Reach :=
  let q := g.quad f (scalarQuad sq)
  let (o, d) := strideOf g f sq
  let a0 := capBase q + o
  let mis := if a0 % 16 != 0 then some ⟨.misaligned, d64 a0⟩ else if d % 16 != 0 then some ⟨.misaligned, d64 (a0 + d)⟩ else none
  s.extent g f.lane u q (g.tagOf f (scalarQuad sq)) ((scalarQuad sq).field 0) o ((rows - 1) * d + bytes) mis

def MemUse.tld : MemUse := .load 16
def MemUse.tst : MemUse := .st 16

/-- A matrix move through memory: after its own causes, the extent, watches, then `more`, then waits, then the effect. -/
def State.moveBody (s : State) (g : Group) (c : Cur) (f : Fibre) (u : MemUse) (sq : Fin 7) (rows bytes : Nat) (own : Option Trap)
    (poison : Option Trap) (eff : Extent → State → State) : Once :=
  match own with
  | some t => .trap t
  | none =>
    match s.rowExtent g f u sq rows bytes with
    | .trap t => .trap t
    | .hold => .wait .held id
    | .replay va => .wait .replay fun t => t.awaitReplay g c.lanes va
    | .ok e =>
      let space := capSpace (g.quad f (scalarQuad sq))
      let hit := s.extWatch g f u space e
      match hit.bind fun h => if h.2.action = 3 then some (watchTrap h.1 e.a) else none with
      | some t => .trap t
      | none =>
        match poison with
        | some t => .trap t
        | none =>
          let d := (strideOf g f sq).2
          let parts := (List.range rows).map fun i => (e.a + i * d, bytes)
          match (if u.store then s.writeWait g e parts else s.extWait g e parts) with
          | some w => .wait w id
          | none => .go {} fun t =>
            let t := t.hearDeclined g.id c.lanes
            let t := t.noteExtent g e
            let t := if u.store && space != 1 then t.updBlock g.block fun b => { b with sidefx := true } else t
            let t := eff e t
            let t := t.enterWords g (parts.flatMap fun r => bankWords (e.key r.1) r.2)
            t.noteWatches g c { u with size := e.n } [(f, space, e.a)]

/-- The bytes of rows of an extent. -/
def Extent.rowBytes (e : Extent) (rows n d : Nat) : List ExtByte :=
  (List.range rows).flatMap fun i => (List.range n).map fun k => ⟨e.key (e.a + i * d + k), e.virt (e.a + i * d + k), none⟩

/-- TLD and ACLD leave a load of the group behind, which reads memory and writes its tile or quadrant when it completes
(spec/12, R272). -/
def State.addExt (s : State) (g : Group) (dst : ExtDest) (bs : List ExtByte) : State :=
  s.addProducer g.id .memory [] [] none (.ext dst bs)

def execTld (sq : Fin 7) (t : Fin 16) (sx : Bool) (w : Fin 8) (s : State) : Res :=
  .next (s.issue (formOnce (scalarOps sq 6)) (matrixBody [t] 0 fun s g c f =>
    let tc := g.tc t.val
    let m := planarWidth w
    s.moveBody g c f .tld sq (tcRows tc) (rowBytes tc m) (tileConfig (g.tileBad t.val ++ moveErr tc m t.val)) none fun e x =>
      x.addExt g (.tile t tc m sx) (e.rowBytes (tcRows tc) (rowBytes tc m) (strideOf g f sq).2)))

def execTst (sq : Fin 7) (t : Fin 16) (w : Fin 8) (s : State) : Res :=
  .next (s.issue (formOnce (scalarOps sq 6)) (matrixBody [t] 0 fun s g c f =>
    let tc := g.tc t.val
    let m := planarWidth w
    let tile := g.tile t.val
    s.moveBody g c f .tst sq (tcRows tc) (rowBytes tc m) (tileConfig (g.tileBad t.val ++ moveErr tc m t.val))
      (if tile.poison then some ⟨.poison, d64 t.val⟩ else none) fun e x =>
      let d := (strideOf g f sq).2
      x.queueRows g e ((List.range (tcRows tc)).map fun i => (e.a + i * d, narrowRow tc m i (tileByte tile)))))

/-! Moving quadrants (spec/11, R252 to R254). -/

def quadElem (q : Quadrant) (i j : Nat) : Word := q.elems.getD (64 * i + j) 0
def quadField (q : Fin 4) : Nat := 0x10 + q.val
def quadPoison (q : Fin 4) (x : Quadrant) : Option Trap := if x.poison then some ⟨.poison, d64 (quadField q)⟩ else none

def execAcld (sq : Fin 7) (q : Fin 4) (s : State) : Res :=
  .next (s.issue (formOnce (scalarOps sq 6)) (matrixBody [] (2 ^ q.val) fun s g c f =>
    s.moveBody g c f .tld sq 64 256 (tokenCheck (s.core g.core) g.id (2 ^ q.val)) none fun e x =>
      x.addExt g (.quad q) (e.rowBytes 64 256 (strideOf g f sq).2)))

/-- What a completed TLD or ACLD writes, from its bytes in order. -/
def State.fillExt (s : State) (g : Group) (dst : ExtDest) (bs : List (Byte × Bool)) : State :=
  let byte := fun (i : Nat) => (bs.getD i (0, false)).1
  let bad := bs.any (·.2)
  match dst with
  | .tile t tc m sx =>
    let n := rowBytes tc m
    let row := fun i => widenRow tc m sx fun k => byte (i * n + k)
    s.updGroup g.id fun g => g.fillTile t.val ((List.range (tcRows tc)).flatMap row) bad
  | .quad q =>
    let els := (List.range 4096).map fun i => w32 (leNat ((List.range 4).map fun k => byte (4 * i + k)))
    s.updCore g.core fun c => c.setQuad q { c.quad q with mode := .fp32, elems := trimWords els, poison := bad }

/-- The bytes of one element under an ACST format. -/
def acstBytes (fmt : Nat) (v : Word) : List Byte :=
  match fmt with
  | 0 => leBytes 4 v.toNat
  | 1 => leBytes 2 (Lay.f16.round .rne (Lay.f32.read v.toNat)).1
  | _ => leBytes 2 (Lay.bf16.round .rne (Lay.f32.read v.toNat)).1

def QMode.isInt : QMode → Bool
  | .int _ => true
  | _ => false

def execAcst (sq : Fin 7) (fm : Fin 3) (q : Fin 4) (s : State) : Res :=
  .next (s.issue (formOnce (scalarOps sq 6)) (matrixBody [] (2 ^ q.val) fun s g c f =>
    let x := (s.core g.core).quad q
    let own := match tileConfig (if fm.val != 0 && x.mode.isInt then [(5, quadField q)] else []) with
      | some t => some t
      | none => tokenCheck (s.core g.core) g.id (2 ^ q.val)
    s.moveBody g c f .tst sq 64 (if fm.val = 0 then 256 else 128) own (quadPoison q x) fun e t =>
      let d := (strideOf g f sq).2
      t.queueRows g e ((List.range 64).map fun i => (e.a + i * d, (List.range 64).flatMap fun j => acstBytes fm.val (quadElem x i j)))))

/-- ACRD is a long-latency producer whose values are bound at issue (spec/11, R254). -/
def execAcrd (d : Reg) (row : Fin 128) (cb : Fin 4) (s : State) : Res :=
  let fm : Form := ⟨[.dest d 1], [], false, .own⟩
  let q : Fin 4 := Fin.ofNat 4 (2 * (row.val / 64) + cb.val / 2)
  .next (s.issue fm fun s g c fs =>
    let x := (s.core g.core).quad q
    if s.matrixBusy g [] (2 ^ q.val) then { outs := fs.map fun f => (f, .wait .matrix) } else
    match tokenCheck (s.core g.core) g.id (2 ^ q.val), quadPoison q x with
    | some t, _ => { outs := fs.map fun f => (f, .trap t 0) }
    | none, some t => { outs := fs.map fun f => (f, .trap t 0) }
    | none, none =>
      longBody fm .longArith none
        (fun _ f => { words := [quadElem x (row.val % 64) (32 * (cb.val % 2) + f.lane.val)] }) s g c fs)

/-! Steps (spec/11, R245, R246). -/

/-- Sum of two fractions over powers of two. -/
def addDyadic (x y : Int × Nat) : Int × Nat :=
  if x.2 ≤ y.2 then (x.1 * (y.2 / x.2 : Nat) + y.1, y.2) else (x.1 + y.1 * (x.2 / y.2 : Nat), x.2)

/-- sum_f32 of exact terms (spec/11, R246). The prior value is one of them in the tests of infinities too (notes/assumptions/128). -/
def sumF32 (terms : List Num) : Word :=
  if terms.any Num.isNan || (terms.any (fun t => t.isInf && t.neg) && terms.any (fun t => t.isInf && !t.neg)) then 0x7FC00000
  else match terms.find? Num.isInf with
    | some t => w32 (Lay.f32.round .rne t).1
    | none =>
      let r := terms.foldl (fun acc t => match t with | .fin s n q => addDyadic acc (sgn s n, q) | _ => acc) ((0 : Int), 1)
      w32 (Lay.f32.round .rne (.ofInt false r.1 r.2)).1

/-- An exact product; 0 × ∞ is NaN. -/
def prodNum (a b : Num) : Num := (a.mul? b).getD (.nan false)

/-- Value of a quadrant element in FP32 or ZERO mode. -/
def elemF32 (w : Word) : Num := Lay.f32.read w.toNat

/-- Shapes of a step: rows M, K and N (spec/11, R245). -/
def stepM (ta : Word) : Nat := tcRows ta
def stepKA (ta : Word) : Nat := tcCols ta
def stepKB (tb : Word) (t : Bool) : Nat := if t then tcCols tb else tcRows tb
def stepN (tb : Word) (t : Bool) : Nat := if t then tcRows tb else tcCols tb

/-- TILE_CONFIG reasons 3 and 4 of a step from tiles ta and tb. -/
def stepErr (int : Bool) (ta tb : Nat) (tcA tcB : Word) (t : Bool) : List (Nat × Nat) :=
  let ok := fun (tc : Word) => if int then rateClass (tcFmt tc) == 3 else decide (rateClass (tcFmt tc) ≤ 2)
  (if !ok tcA then [(3, ta)] else []) ++ (if !ok tcB then [(3, tb)] else []) ++
  (if ok tcA && ok tcB && rateClass (tcFmt tcA) != rateClass (tcFmt tcB) then [(3, min ta tb)] else []) ++
  (if 64 < stepM tcA || kMax (tcFmt tcA) < stepKA tcA then [(4, ta)] else []) ++
  (if 64 < stepN tcB t then [(4, tb)] else []) ++
  (if stepKA tcA != stepKB tcB t then [(4, min ta tb)] else [])

/-- Reason 5: the mode of the quadrant does not fit. -/
def modeErr (int : Bool) (q : Fin 4) (mode : QMode) (fab : Nat) : List (Nat × Nat) :=
  match mode with
  | .zero => []
  | .fp32 => if int then [(5, quadField q)] else []
  | .int f => if !int || f != fab then [(5, quadField q)] else []

/-- Whether a format belongs to MMAX. -/
def isXClass (tc : Word) : Bool := rateClass (tcFmt tc) == 3
def stepF (tcA tcB : Word) : Nat := fracBits (tcFmt tcA) + fracBits (tcFmt tcB)

/-- One step into a quadrant whose mode fits. -/
def stepQuad (int : Bool) (tcA tcB : Word) (t : Bool) (byteA byteB : Nat → Byte) (x : Quadrant) : Quadrant :=
  let a := fun i k => container tcA byteA i k
  let b := fun k j => if t then container tcB byteB j k else container tcB byteB k j
  let ks := List.range (stepKA tcA)
  let old := fun i j => if x.mode = .zero then (0 : Word) else quadElem x i j
  let new := fun i j =>
    if int then
      w32 (wrap 32 (signed 32 (old i j).toNat + (ks.map fun k => signed (tcCw tcA) (a i k) * signed (tcCw tcB) (b k j)).foldl (· + ·) 0))
    else sumF32 (elemF32 (old i j) :: ks.map fun k => prodNum (elemNum (tcFmt tcA) (a i k)) (elemNum (tcFmt tcB) (b k j)))
  let els := (List.range 64).flatMap fun i => (List.range 64).map fun j =>
    if i < stepM tcA && j < stepN tcB t then new i j else old i j
  { x with mode := if int then .int (stepF tcA tcB) else .fp32, elems := trimWords els }

/-! MSCA (spec/11, R247). -/

/-- x * 2^e. -/
def scaleNum (x : Num) (e : Int) : Num :=
  match x with
  | .fin s n q => if 0 ≤ e then .fin s (n * 2 ^ e.toNat) q else .fin s n (q * 2 ^ (-e).toNat)
  | y => y

/-- Element i of a RAW tile of bytes in row-major order. -/
def rawElem (tc : Word) (t : Tile) (i : Nat) : Nat := container tc (tileByte t) (i / tcCols tc) (i % tcCols tc)

def mscaElem (mode : QMode) (src dst : Word) (ea eb : Nat) : Word :=
  if ea = 0xFF || eb = 0xFF then 0x7FC00000 else
  let x : Num := match mode with
    | .int f => .ofInt false (signed 32 src.toNat) (2 ^ f)
    | .fp32 => elemF32 src
    | .zero => .fin false 0 1
  sumF32 [elemF32 dst, scaleNum x (((ea : Int) - 127) + ((eb : Int) - 127))]

def execMsca (qd : Fin 4) (qs : Fin 4) (ta : Fin 16) (tb : Fin 16) (s : State) : Res :=
  .next (s.issue (formOnce []) (matrixBody [ta, tb] (Nat.lor (2 ^ qd.val) (2 ^ qs.val)) fun s g _ _ =>
    let c := s.core g.core
    let d := c.quad qd
    let x := c.quad qs
    let one := fun (t : Nat) =>
      g.tileBad t ++ (if tcFmt (g.tc t) != 15 || tcCw (g.tc t) != 8 then [(3, t)] else []) ++
      (if tcRows (g.tc t) * tcCols (g.tc t) < 64 then [(4, t)] else [])
    let errs := one ta.val ++ one tb.val ++ (if qd = qs || d.mode.isInt then [(5, quadField qd)] else [])
    match tileConfig errs with
    | some t => .trap t
    | none =>
      match tokenCheck c g.id (Nat.lor (2 ^ qd.val) (2 ^ qs.val)) with
      | some t => .trap t
      | none =>
        let poisoned := (if (g.tile ta.val).poison then [ta.val] else []) ++ (if (g.tile tb.val).poison then [tb.val] else []) ++
          (if d.poison then [quadField qd] else []) ++ (if x.poison then [quadField qs] else [])
        match poisoned with
        | p :: r => .trap ⟨.poison, d64 (r.foldl min p)⟩
        | [] =>
          let els := (List.range 64).flatMap fun i => (List.range 64).map fun j =>
            mscaElem x.mode (quadElem x i j) (quadElem d i j) (rawElem (g.tc ta.val) (g.tile ta.val) i) (rawElem (g.tc tb.val) (g.tile tb.val) j)
          .go {} fun t => t.updCore g.core fun c => c.setQuad qd { d with mode := .fp32, elems := trimWords els }))

/-! MLOOP (spec/11, R249 to R251). -/

/-- Registers S, S + 4, and S + 8 to S + 10 of MLOOP. -/
def mloopReg (sq : Fin 6) (i : Nat) : Reg := .s (Fin.ofNat 32 (4 * sq.val + i))

/-- The checks of one extent of MLOOP and the key of its first byte (spec/07, R158; spec/11, R249). A start that is no multiple of 16 traps
MISALIGNED (notes/assumptions/129). -/
def State.mloopExtent (s : State) (g : Group) (f : Fibre) (q : Quad) (o : Nat) (size ksteps : Nat) : Except Trap Nat :=
  let cap := g.quad f q
  match s.block? g.block, s.capCheck (s.ctxOf g) cap (g.tagOf f q) (q.field 0) ⟨[1, 2], [0], .rd, 16, false⟩ with
  | none, _ => .error ⟨.capBounds, 0⟩
  | _, some t => .error t
  | some b, none =>
    if (capBase cap + o) % 16 != 0 then .error ⟨.misaligned, d64 (capBase cap + o)⟩
    else match s.bounds b cap o (2 * ksteps * size) with
      | .error t => .error t
      | .ok (_, k) => .ok (k.getD 0)

/-- TILE_CONFIG reasons 3 and 4 of MLOOP, whose steps are MMA or MMAX by the class: two tiles of classes that different
instructions accept name the lower (spec/11, R245, R249). -/
def mloopErr (ta tb : Nat) (tcA tcB : Word) : List (Nat × Nat) :=
  let a := rateClass (tcFmt tcA)
  let b := rateClass (tcFmt tcB)
  if (a == 3 && decide (b ≤ 2)) || (decide (a ≤ 2) && b == 3) then [(3, min ta tb)]
  else stepErr (isXClass tcA || isXClass tcB) ta tb tcA tcB false

def execMloop (sq : Fin 6) (m : Fin 16) (ta : Fin 16) (tb : Fin 16) (s : State) : Res :=
  .next (s.issue (formOnce [.source (mloopReg sq 0) 11 false]) (matrixBody [] m.val fun s g c0 f =>
    let tcA := g.tc ta.val
    let tcB := g.tc tb.val
    let int := isXClass tcA || isXClass tcB
    let c := s.core g.core
    let qa : Quad := .s (Fin.ofNat 8 sq.val)
    let qb : Quad := .s (Fin.ofNat 8 (sq.val + 1))
    let w := (g.word f (mloopReg sq 10)).toNat
    let ksteps := w % 65536
    let spaces := [capSpace (g.quad f qa), capSpace (g.quad f qb)]
    let errs := g.tileBad ta.val ++ g.tileBad tb.val ++ mloopErr ta.val tb.val tcA tcB ++
      (maskQuads m.val).flatMap (fun q => modeErr int q (c.quad q).mode (stepF tcA tcB)) ++
      (if ksteps = 0 || 65536 ≤ w || spaces.any (fun x => x != 1 && x != 2) then [(6, min ta.val tb.val)] else [])
    match tileConfig errs with
    | some t => .trap t
    | none =>
      match tokenCheck c g.id m.val with
      | some t => .trap t
      | none =>
        match s.mloopExtent g f qa (g.word f (mloopReg sq 8)).toNat (tcSize tcA) ksteps,
          s.mloopExtent g f qb (g.word f (mloopReg sq 9)).toNat (tcSize tcB) ksteps with
        | .error t, _ => .trap t
        | .ok _, .error t => .trap t
        | .ok ka, .ok kb =>
          match (maskQuads m.val).filter fun q => (c.quad q).poison with
          | q :: _ => .trap ⟨.poison, d64 (quadField q)⟩
          | [] =>
            if g.mloop.isSome then .wait .matrix id
            else if s.acquiring g || s.producers.any (fun p => p.group == g.id && p.work.isAccess) then .wait (.producer .memory) id
            else .go {} fun t =>
              { t with nextId := t.nextId + 1 }.updGroup g.id fun g =>
                { g with mloop := some ⟨t.nextId, t.tick, tcA, tcB, ka, kb, ksteps, m, 0, c0.unit, []⟩ }))

/-- The quadrant of an MLOOP's next step, and where its two tiles lie (spec/11, R249). -/
def MLoop.next (l : MLoop) : Option (Fin 4 × Nat × Nat) :=
  let qs := maskQuads l.mask.val
  let k := l.done / qs.length
  (qs[l.done % qs.length]?).map fun q => (q, l.keyA + (2 * k + q.val / 2) * tcSize l.tcA, l.keyB + (2 * k + q.val % 2) * tcSize l.tcB)

/-- Whether the next step of a group's MLOOP may run: no copy under way covers its tiles, the reductions of the group before it have
left, and no reduction is pending there. -/
def State.mloopReady (s : State) (g : Group) (l : MLoop) : Bool :=
  match l.next with
  | none => false
  | some (_, a, b) =>
    !s.redQueued g.id l.id && s.afterAdds g l.id a (tcSize l.tcA) && s.afterAdds g l.id b (tcSize l.tcB) &&
    !s.boardHolds g l.id a (tcSize l.tcA) false && !s.boardHolds g l.id b (tcSize l.tcB) false

/-- A byte of a step's tile, with its poison. -/
def State.loopByte (s : State) (g : Group) (l : MLoop) (k : Nat) : Byte × Bool :=
  match l.early.find? fun x => x.1 = k with
  | some x => x.2
  | none => (s.seenByte g.core g.id l.id (s.ctxOf g) none k, s.seenPoison g.core g.id l.id (s.ctxOf g) none k)

/-- An MLOOP reads one aligned 8-byte unit of its next step's tiles, which `n` picks, before the others (spec/12, R266). -/
def State.loopUnit (s : State) (g : Group) (l : MLoop) (n : Nat) : State :=
  match l.next with
  | none => s
  | some (_, a, b) =>
    let i := n % ((tcSize l.tcA + tcSize l.tcB) / 8)
    let k := if 8 * i < tcSize l.tcA then a + 8 * i else b + (8 * i - tcSize l.tcA)
    if !s.mloopReady g l || l.early.any (fun x => x.1 == k) then s else
    let now := (List.range 8).map fun j => (k + j, s.loopByte g l (k + j))
    s.updGroup g.id fun g => { g with mloop := some { l with early := l.early ++ now } }

/-- The next step of a group's MLOOP. Step reads follow the earlier accesses of the group. -/
def State.mloopStep (s : State) (g : Group) : State :=
    match g.mloop with
    | none => s
    | some l =>
      match l.next with
      | none => s
      | some (q, a, b) =>
        let read := fun (base i : Nat) => (s.loopByte g l (base + i)).1
        let bad := fun (base n : Nat) => (List.range (n / 16)).any fun i => (s.loopByte g l (base + 16 * i)).2 || (s.loopByte g l (base + 16 * i + 8)).2
        let x := (s.core g.core).quad q
        let y := stepQuad (isXClass l.tcA) l.tcA l.tcB false (read a) (read b) x
        let y := { y with poison := x.poison || bad a (tcSize l.tcA) || bad b (tcSize l.tcB) }
        let s := (s.fillBanks g.core g.slot (bankWords a (tcSize l.tcA) ++ bankWords b (tcSize l.tcB))).1
        let s := s.updCore g.core fun c => c.setQuad q y
        let last := l.done + 1 == l.ksteps * (maskQuads l.mask.val).length
        let now := s.tick
        let s := s.updGroup g.id fun g => { g with mloop := if last then none else some { l with done := l.done + 1, since := now, early := [] } }
        if last then (s.wakeAll Wait.retries).reap g.id else s

/-- The MLOOPs of a core whose next step may run, the one that has waited longest first. A save waits for no further step
(spec/21, R386). -/
def State.readySteps (s : State) (core : Nat) : List Group :=
  let key := fun (g : Group) => (g.mloop.map (·.since)).getD 0
  let put := fun (l : List Group) (g : Group) => l.takeWhile (fun x => decide (key x ≤ key g)) ++ [g] ++ l.dropWhile fun x => decide (key x ≤ key g)
  (s.groups.filter fun g => g.core == core && !(((s.block? g.block).map Block.leaves).getD false) &&
    (g.mloop.map (s.mloopReady g)).getD false).foldl put []

/-- Every step that other groups of the core have waiting runs once, the oldest first (spec/11, R234). -/
def State.olderSteps (s : State) (g : Group) : State :=
  ((s.readySteps g.core).filter fun h => h.id != g.id).foldl (fun s h => match s.group? h.id with | some h => s.mloopStep h | none => s) s

/-- MLOOP_STEP: the engine of the core runs the oldest step that waits. -/
def execMloopStep (group : Nat) (s : State) : Res :=
  match s.group? group with
  | none => .next s
  | some g =>
    match s.readySteps g.core with
    | h :: _ => if h.id = g.id then .next (s.mloopStep g) else .next s
    | [] => .next s

/-! MMA and MMAX (spec/11, R245). -/

/-- MMA and MMAX. Among several poisoned tiles and quadrants POISON names the lowest (notes/assumptions/99), and a trap leaves the
destination unpoisoned (notes/assumptions/130). The engine first runs the
steps of other groups' MLOOPs that wait already (spec/11, R234). -/
def mmaOp (int : Bool) (o : MatStep) (s : State) : Res :=
  .next (s.issue (formOnce []) (matrixBody [o.ta, o.tb] (2 ^ o.q.val) fun s g _ _ =>
    let tcA := g.tc o.ta.val
    let tcB := g.tc o.tb.val
    let c := s.core g.core
    let x0 := c.quad o.q
    let x := if o.z then { x0 with mode := .zero, elems := [], poison := false } else x0
    let bad := g.tileBad o.ta.val ++ g.tileBad o.tb.val
    match tileConfig (bad ++ stepErr int o.ta.val o.tb.val tcA tcB o.t ++ modeErr int o.q x.mode (stepF tcA tcB)) with
    | some t => .trap t
    | none =>
      match tokenCheck c g.id (2 ^ o.q.val) with
      | some t => .trap t
      | none =>
        let poisoned := (if (g.tile o.ta.val).poison then [o.ta.val] else []) ++ (if (g.tile o.tb.val).poison then [o.tb.val] else []) ++
          (if x.poison then [quadField o.q] else [])
        match poisoned with
        | p :: r => .trap ⟨.poison, d64 (r.foldl min p)⟩
        | [] =>
          .go {} fun t => (t.olderSteps g).updCore g.core fun c =>
            c.setQuad o.q (stepQuad int tcA tcB o.t (tileByte (g.tile o.ta.val)) (tileByte (g.tile o.tb.val)) x)))

def execMma (o : MatStep) (s : State) : Res := mmaOp false o s
def execMmax (o : MatStep) (s : State) : Res := mmaOp true o s

end Sys2Proof.Machine
end

