-- ==== Sys2Proof/Machine/Producers.lean ====
section
/-! DEFINITION. How long-latency producers complete, stores are performed, walks end and replays are answered (spec/02, R33 to
R35; spec/07, R173; spec/10, R225, R227; spec/12, R259, R263 to R267; spec/21, R379, R380). -/
namespace Sys2Proof.Machine

/-! Which producers may complete. -/

/-- One range of bytes that a producer touches: its key in scratchpad, or its virtual address. -/
structure Touch where
  key : Option Nat
  va : Nat
  n : Nat
  deriving DecidableEq, Repr

def Touch.meets (a b : Touch) : Bool :=
  let cut := fun (x y : Nat) => decide (x < y + b.n) && decide (y < x + a.n)
  match a.key, b.key with
  | some x, some y => cut x y
  | none, none => cut a.va b.va
  | _, _ => false

/-- The ranges of a load or an atomic; none for accesses that an engine finds on its way. -/
def Work.touches : Work → Option (List Touch)
  | .load size _ _ ls => some (ls.map fun l => ⟨l.key, l.va, size⟩)
  | .atomic _ size ls => some (ls.map fun l => if isScratch l.2.key then ⟨some l.2.key, 0, size⟩ else ⟨none, l.2.va, size⟩)
  | _ => none

def Work.meets (a b : Work) : Bool :=
  match a.touches, b.touches with
  | some x, some y => x.any fun i => y.any i.meets
  | _, _ => true

/-- A replay that a producer waits for. -/
def State.replayed (s : State) (id : Nat) : Bool := s.replays.any fun r => !r.declined && r.prods.contains id

/-- Earlier loads, atomics, reductions and MLOOP reads of the group keep their order before an access, but for one that waits on a
replay and touches other bytes, and a walk that a save will abandon (spec/12, R264, R272; spec/21, R380; notes/assumptions/14). -/
def State.inOrder (s : State) (p : Producer) : Bool :=
  !p.work.isAccess ||
  ((s.producers.all fun q =>
    q.group != p.group || !q.work.isAccess || decide (p.id ≤ q.id) || (s.replayed q.id && !q.work.meets p.work) || s.setAside q) &&
  !s.mloopBefore p.group p.id &&
  !(s.stores.any fun q => q.group == p.group && !q.left && decide (q.id < p.id) && match q.work with | .red _ _ _ => true | _ => false))

/-- What an access to memory waits for before it acts at its bytes: earlier stores of its group, and stores of its core that have
left (spec/12, R264, R265). -/
def State.afterStores (s : State) (g : Group) (id key n : Nat) : Bool :=
  s.stores.all fun p =>
    !((p.group == g.id && decide (p.id < id)) || (p.left && p.core == g.core && !p.afar)) ||
    ((p.left || p.group != g.id) && !(p.work.keys.any fun k => decide (key ≤ k) && decide (k < key + n)))

/-- Whether a request of one's own core has entered its bank queue by now: a free choice. -/
def State.entered (s : State) (id : Nat) : Bool := Config.freeBit (s.tick * 2 ^ 64 + 2 ^ 62 + id)

/-- An access may read `n` bytes at a key: after the group's own adds and reductions there, in the order of its bank, past the range
scoreboard, with no all-bank pseudo-channel holding it. -/
def State.mayRead (s : State) (g : Group) (id key n : Nat) : Bool :=
  s.afterAdds g id key n && !s.heldByLoft key && !s.boardHolds g id key n (s.entered id) &&
  (!isScratch key || s.bankClear g id ((List.range n).map (key + ·)) true)

/-! Loads (spec/07, R162, R165). -/

/-- A loaded value in registers: a byte or a half-word is extended. -/
def loadWords (size : Nat) (signed : Bool) (bs : List Byte) : List Word :=
  let v := leNat bs
  if size = 1 then [if signed then (BitVec.ofNat 8 v).signExtend 32 else w32 v]
  else if size = 2 then [if signed then (BitVec.ofNat 16 v).signExtend 32 else w32 v]
  else (List.range (size / 4)).map fun i => w32 (v / 2 ^ (32 * i))

/-- A lane of a load whose translation has been found. -/
def State.loadLane (s : State) (g : Group) (p : Producer) (size : Nat) (signed cap : Bool) (l : LoadLane) (k : Nat) : Got LaneVal :=
  if !s.mayRead g p.id k size then .hold else
  let ctx := s.ctxOf g
  let va := if l.key.isSome then none else some l.va
  if s.seenPoison g.core g.id p.id ctx va k then .ok ⟨l.dest, [], false, false, some ⟨.poison, d64 l.va⟩, 0, none⟩
  else
    let bs := (List.range size).map fun i => s.seenByte g.core g.id p.id ctx va (k + i)
    .ok ⟨l.dest, loadWords size signed bs, cap && l.ldcap && !isOutside k && s.seenTag g.core g.id p.id ctx va k, false, none, 0, none⟩

/-- A lane's fault, delivered to its destination. -/
def LaneVal.faulted (d : Dest) (t : Trap) : LaneVal := ⟨d, [], false, false, some t, 0, none⟩

def State.loadVal (s : State) (g : Group) (p : Producer) (size : Nat) (signed cap : Bool) (l : LoadLane) : Got LaneVal :=
  match l.key with
  | some k => s.loadLane g p size signed cap l k
  | none =>
    if s.declinedFor (s.ctxOf g) l.va (fun r => r.prods.contains p.id) then .ok (.faulted l.dest ⟨.pageFault, d64 l.va⟩) else
    match s.translate g.core (s.ctxOf g) l.va .rd with
    | .ok k => s.loadLane g p size signed cap l k
    | .pageFault => .ok (.faulted l.dest ⟨.pageFault, d64 l.va⟩)
    | .xlatePerm => .ok (.faulted l.dest ⟨.xlatePerm, d64 l.va⟩)
    | .replay => .replay l.va
    | .hold => .hold

/-- Whether a walk is under way for a page of the lanes. -/
def State.walking (s : State) (die ctx : Nat) (ls : List LoadLane) : Bool :=
  ls.any fun l => l.key.isNone && s.walks.any fun w => w.die == die && w.ctx == ctx && w.page == l.va / 65536

/-- The lines that a virtual load brings into the L1, and its translations into their caches (spec/10, R220, R227). -/
def State.fillLanes (s : State) (g : Group) (ls : List LoadLane) : State :=
  let ctx := s.ctxOf g
  ls.foldl (fun s l => match l.key, s.translate g.core ctx l.va .rd with
    | none, .ok k =>
      let s := s.noteWalk g.core ctx l.va
      if isPeer k then s else
      match s.l1At g.core ctx l.va k with
      | some x => s.l1Use x
      | none => s.l1Fill (s.freshLine g.core ctx l.va k l.constant)
    | _, _ => s) s

/-! Results. -/

/-- What a producer gives when it can complete: its lanes' results, and what else it does. -/
abbrev Done := Got (List LaneVal × (State → State))

/-- One lane of an atomic at memory: its old value, or POISON; over a link that is down it is a PAGE_FAULT (spec/24, R427). -/
def atomDone (s : State) (core ctx : Nat) (op : AtomOp) (size : Nat) (x : Dest × AtomLane) : LaneVal × State :=
  if !s.reaches (dieOf core) x.2.key then (.faulted x.1 ⟨.pageFault, d64 x.2.va⟩, s) else
  let r := s.atomLane core ctx op size x.2
  (if s.poisonAt x.2.key then .faulted x.1 ⟨.poison, d64 x.2.va⟩
   else ⟨x.1, outWords (size == 8) r.1, false, false, none, 0, none⟩, r.2)

/-- Lanes of an atomic in order. -/
def atomAll (core ctx : Nat) (op : AtomOp) (size : Nat) : State → List (Dest × AtomLane) → List LaneVal × State
  | s, [] => ([], s)
  | s, x :: r =>
    let (v, s) := atomDone s core ctx op size x
    let (vs, s) := atomAll core ctx op size s r
    (v :: vs, s)

/-- An atomic may act at its addresses: it comes after the group's releases by CADD too. -/
def State.mayAct (s : State) (g : Group) (id n : Nat) (keys : List Nat) : Bool :=
  !s.relPending g.id id && keys.all fun k => s.afterStores g id k n && s.afterAdds g id k n && !s.heldByLoft k && !s.boardHolds g id k n (s.entered id) &&
    (!isScratch k || s.bankClear g id ((List.range n).map (k + ·)) false)

/-- Records that a TRACE pushes have room, and the group's earlier accesses are performed (spec/13, R292). -/
def State.traceRoom (s : State) (g : Group) (p : Producer) (recs : List (QueueRef × List Byte)) : Bool :=
  recs.isEmpty ||
  (!(s.stores.any fun x => x.group == g.id && decide (x.id < p.id)) &&
    recs.all fun q => decide ((recs.filter fun r => r.1.handle == q.1.handle).length ≤ s.qRoom (s.ctxOf g) g.block q.1))

/-- The result of one traced ray, with its record. -/
def State.traceVal (s : State) (g : Group) (p : Producer) (l : RayLane) : Got (LaneVal × Option (QueueRef × List Byte)) :=
  match s.traceLane g p.id l with
  | .ok (w, r) => .ok (⟨l.dest, [w], false, false, none, 0, none⟩, r)
  | .fail t => .ok (.faulted l.dest t, none)
  | .replay va => .replay va
  | .hold => .hold

/-- A byte of a TLD or ACLD once it is bound. -/
def State.bound (s : State) (g : Group) (id : Nat) (b : ExtByte) : Byte × Bool :=
  b.val.getD (s.seenByte g.core g.id id (s.ctxOf g) b.va b.key, s.seenPoison g.core g.id id (s.ctxOf g) b.va b.key)

/-- A TLD or ACLD binds one aligned 8-byte unit that it reads whole, or one other byte, which `n` picks, before its other bytes (spec/12,
R266). -/
def State.bindUnit (s : State) (g : Group) (p : Producer) (n : Nat) : State :=
  match p.work with
  | .ext dst bs =>
    let free := bs.filter (·.val.isNone)
    match free[n % free.length]? with
    | none => s
    | some b =>
      let whole := decide (((bs.filter fun x => x.key / 8 == b.key / 8).map (·.key)).eraseDups.length = 8)
      let unit := fun (x : ExtByte) => if whole then x.key / 8 == b.key / 8 else x.key == b.key
      if (free.filter unit).any fun x => !s.mayRead g p.id x.key 1 then s else
      let bind := fun (x : ExtByte) => if unit x && x.val.isNone then { x with val := some (s.bound g p.id x) } else x
      { s with producers := s.producers.map fun (q : Producer) => if q.id = p.id then { q with work := .ext dst (bs.map bind) } else q }
  | _ => s

/-- What a producer gives (spec/02, R34, R35). -/
def State.produce (s : State) (g : Group) (p : Producer) : Done :=
  match p.work with
  | .ready vs => .ok (vs, id)
  | .load size sg cap ls =>
    if s.walking (dieOf g.core) (s.ctxOf g) ls then .hold else
    (gotAll (s.loadVal g p size sg cap) ls).bind fun vs => .ok (vs, fun t => t.fillLanes g ls)
  | .atomic op size ls =>
    if !s.mayAct g p.id size (ls.map (·.2.key)) then .hold else
    .ok ((atomAll g.core (s.ctxOf g) op size s ls).1, fun t => (atomAll g.core (t.ctxOf g) op size t ls).2)
  | .hist form q _ ls => (gotAll (s.histLane g p.id form q) ls).bind fun vs => .ok (vs, id)
  | .tex q ls => (gotAll (s.texLane g p.id q) ls).bind fun vs => .ok (vs, id)
  | .trace ls =>
    (gotAll (s.traceVal g p) ls).bind fun rs =>
      let recs := rs.filterMap (·.2)
      if !s.traceRoom g p recs then .hold else
      .ok (rs.map (·.1), fun t => recs.foldl (fun t r => t.pushRecords (t.ctxOf g) g.block r.1 [r.2]) t)
  | .tri q res ws =>
    if !s.mayAct g p.id 8 (ws.map (·.key)) || ws.any (fun w => s.boarded w.key 8) then .hold else
    .ok (res.map fun x => ⟨.none x.1, [], false, false, none, 0, some (q, x.2)⟩, fun t =>
      ws.foldl (fun t w => (t.atomLane g.core (t.ctxOf g) .maxS 8 w).2) t)
  | .kv ids =>
    let mine := s.kvops.filter fun r => ids.contains r.id
    if mine.any fun r => r.answer.isNone then .hold else
    .ok (mine.filterMap (·.answer), fun t => { t with kvops := t.kvops.filter fun r => !ids.contains r.id })
  | .cread ctr ds =>
    if !s.afterAdds g p.id ctr 8 || s.heldByLoft ctr then .hold else
    .ok (ds.map fun d => ⟨d, outWords true (s.counterVal ctr), false, false, none, 0, none⟩, id)
  | .ctest ctr target q ls =>
    if !s.afterAdds g p.id ctr 8 || s.heldByLoft ctr then .hold else
    let yes := decide (target ≤ s.counterVal ctr)
    .ok (ls.map fun l => ⟨.none l, [], false, false, none, 0, some (q, yes)⟩, fun t => if yes then t.acquireSets g.core (t.ctxOf g) ctr else t)
  | .ext dst bs =>
    if bs.any (fun b => b.val.isNone && !s.mayRead g p.id b.key 1) then .hold else
    .ok ([], fun t => t.fillExt g dst (bs.map (s.bound g p.id)))

/-- Some lanes of a producer have their results before the others: `rest` is what it still has to do. -/
def State.setEarly (s : State) (id : Nat) (rest : Work) (vs : List LaneVal) : State :=
  { s with producers := s.producers.map fun (q : Producer) => if q.id = id then { q with work := rest, early := q.early ++ vs } else q }

/-- One request of a load, an atomic or a walk, which `n` picks, is done before the others: its lanes have their results. Requests of one
instruction to different addresses are independent (spec/09, R210; spec/10, R216; spec/15, R314). -/
def State.bindPart (s : State) (g : Group) (p : Producer) (n : Nat) : State :=
  match p.work with
  | .load size sg cap ls =>
    match ls[n % ls.length]? with
    | none => s
    | some l =>
      let mine := fun (x : LoadLane) => x == l || match x.key, l.key with | some a, some b => oneRequest a b | _, _ => false
      if s.walking (dieOf g.core) (s.ctxOf g) (ls.filter mine) then s else
      match gotAll (s.loadVal g p size sg cap) (ls.filter mine) with
      | .ok vs => (s.fillLanes g (ls.filter mine)).setEarly p.id (.load size sg cap (ls.filter fun x => !mine x)) vs
      | _ => s
  | .atomic op size ls =>
    match ls[n % ls.length]? with
    | none => s
    | some l =>
      let mine := fun (x : Dest × AtomLane) => oneRequest x.2.key l.2.key
      if !s.mayAct g p.id size ((ls.filter mine).map (·.2.key)) then s else
      let r := atomAll g.core (s.ctxOf g) op size s (ls.filter mine)
      r.2.setEarly p.id (.atomic op size (ls.filter fun x => !mine x)) r.1
  | .hist form q pc ls =>
    match ls[n % ls.length]? with
    | none => s
    | some l =>
      match l.over, s.histLane g p.id form q l with
      | true, .ok v => s.setEarly p.id (.hist form q pc (ls.filter (· != l))) [v]
      | _, _ => s
  | .ext _ _ => s.bindUnit g p n
  | _ => s

/-- Delivers one lane's result: registers full or marked faulted, its flags, and its predicate while the fibre that issued it has not
exited (spec/09, R202). -/
def Group.receive (g : Group) (p : Producer) (v : LaneVal) : Group :=
  let g := match v.mark with
    | some t => g.markDest v.dest t
    | none => g.deliver v.dest v.words v.tag v.poison
  g.updFibre v.dest.lane fun f =>
    let f := if p.flagLanes.contains f.lane then { f with flags := f.flags ||| v.flags } else f
    match v.pred with
    | some (q, b) => if p.preds.contains (f.lane, q) then f.setPred q b else f
    | none => f

/-- The predicates of a producer are no longer awaited. -/
def Group.freePreds (g : Group) (p : Producer) : Group :=
  p.preds.foldl (fun g q => g.updFibre q.1 fun f => { f with predBusy := f.predBusy &&& ~~~((1 : BitVec 8) <<< q.2.val) }) g

/-- The producer has completed: it delivers what it has had early, and the rest. -/
def State.finish (s : State) (g : Group) (p : Producer) (rest : List LaneVal) : State :=
  let vals := p.early ++ rest
  let s := { s.hearEngine p.id with producers := s.producers.filter fun q => q.id != p.id }
  let s := (s.updGroup g.id fun h => vals.foldl (fun h v => h.receive p v) (h.freePreds p)).wakeGroup g.id Wait.retries
  let s := (vals.filterMap (·.mark)).foldl (fun s t => s.notePage (s.ctxOf g) t) s
  let s := match p.acq with
    | some sc => s.acquire g.core (s.ctxOf g) sc
    | none => s
  (s.wakeAll (· == .release)).reap g.id

/-- A producer that may complete does so. -/
def State.complete? (s : State) (g : Group) (prodId : Nat) : Res :=
  match s.producers.find? (fun p => p.id = prodId) with
  | none => .next s
  | some p =>
    match s.produce g p with
    | .ok (vs, eff) => .next ((eff s).finish g p vs)
    | .replay va => .next (s.addReplay (dieOf g.core) (s.ctxOf g) va [p.id] [])
    | .fail _ => .next s
    | .hold => .next s

/-- PRODUCER_COMPLETE: walks of an HLD go on as far as they can before it; their reads of entries are no loads of the group, and keep no
order (spec/15, R313). -/
def execProducerComplete (prodId : Nat) (s : State) : Res :=
  match s.producers.find? (fun p => p.id = prodId) with
  | none => .next s
  | some p =>
    match s.group? p.group with
    | none => .next { s with producers := s.producers.filter fun q => q.id != prodId }
    | some g =>
      if s.replayed p.id then .next s else
      let t := s.walkLanes g p none
      if t.inOrder p then t.complete? g prodId else .next t

/-! Stores (spec/12, R259, R264). -/

/-- A store to the scratchpad of its own core takes effect as it enters the bank queues. -/
def PStore.ownBanks (p : PStore) : Bool := p.work.keys.all fun k => isScratch k && scratchCore k == p.core

/-- The next thing that happens to a store: it leaves its queue, or it is performed at its home. -/
def State.stepStore (s : State) (p : PStore) : State :=
  if !p.left then
    (if !s.mayLeave p then s
     else if p.ownBanks then if !s.boardClear p then s else (s.performStore p).reap p.group
     else (s.leave p).wakeAll (· == .release))
  else if s.mayPerform p then (s.performStore p).reap p.group else s

/-- STORE_PERFORMED. -/
def execStorePerformed (storeId : Nat) (s : State) : Res :=
  match s.stores.find? (fun p => p.id = storeId) with
  | none => .next s
  | some p => .next (s.stepStore p)

/-- Writes and adds of a group to tier 2 and tier 3 that are not yet performed. -/
def State.outbound (s : State) (gid : Nat) : Nat :=
  (s.stores.filter fun p => p.group == gid && p.outside).length +
  (s.adds.filter fun a => a.owner == some gid && a.lines.isEmpty && isOutside a.ctr).length +
  ((s.producers.filter fun p => p.group == gid).map fun p => match p.work with
    | .atomic _ _ ls => (ls.filter fun l => isOutside l.2.key).length
    | _ => 0).foldl (· + ·) 0

/-- OUTACK_ACKNOWLEDGE: one acknowledgement of a performed access returns (spec/12, R267). -/
def execOutackAcknowledge (group : Nat) (s : State) : Res :=
  match s.group? group with
  | none => .next s
  | some g =>
    if s.outbound group < g.outack then
      .next ((s.updGroup group fun h => { h with outack := h.outack - 1 }).wakeAll (· == .release))
    else .next s

/-! Walks and replays. -/

/-- The loads that a page's walk was for. -/
def State.walkers (s : State) (die ctx page : Nat) : List Nat :=
  (s.producers.filter fun p => match p.work, s.group? p.group with
    | .load _ _ _ ls, some g => dieOf g.core == die && s.ctxOf g == ctx && ls.any fun l => l.key.isNone && l.va / 65536 == page
    | _, _ => false).map (·.id)

/-- One of a die's 128 walkers has taken the walk (spec/10, R227). -/
def State.walkStarted (s : State) (w : Walk) : Bool :=
  ((s.walks.filter fun x => x.die == w.die).take 128).contains w

/-- PAGE_WALK. -/
def execPageWalk (walkId : Nat) (s : State) : Res :=
  match s.walks.find? (fun w => w.id = walkId) with
  | none => .next s
  | some w =>
    if !s.walkStarted w then .next s else
    let gone := fun (s : State) => ({ s with walks := s.walks.filter fun x => x.id != walkId } : State)
    let va := w.page * 65536
    match s.walk w.ctx va with
    | .replayable =>
      let t := s.addReplay w.die w.ctx va (s.walkers w.die w.ctx w.page) []
      if t.replays.any (fun r => r.die == w.die && r.ctx == w.ctx && r.page == w.page && !r.declined) then .next (gone t) else .next s
    | _ => .next (gone (s.noteWalk w.site w.ctx va))

/-- The driver has written tables that map the page. -/
def State.mapped (s : State) (r : Replay) : Bool := s.walk r.ctx (r.page * 65536) != .replayable

/-- The fibres of an entry, and those that found no free entry, try their instruction again (spec/21, R379). -/
def State.wakeReplay (s : State) (r : Replay) : State :=
  let tries := fun (gid : Nat) (f : Fibre) => match f.wait with
    | some w => w.onReplay && (r.fibres.contains (gid, f.lane) || !(s.replays.any fun x => x.fibres.contains (gid, f.lane)))
    | none => false
  { s with groups := s.groups.map fun (g : Group) =>
    ({ g with fibres := g.fibres.map fun (f : Fibre) => if tries g.id f then { f with again := true } else f } : Group) }

/-- REPLAY_MAPPED: the driver has mapped the page and invalidated the caches; every access that waited is replayed, and a
request to a table agent arrives with it. -/
def execReplayMapped (replayId : Nat) (s : State) : Res :=
  match s.replays.find? (fun r => r.id = replayId) with
  | none => .next s
  | some r =>
    if r.declined || !s.mapped r then .next s
    else
      let kvops := s.kvops.map fun (k : KvReq) => if r.prods.contains k.id then { k with clk := s.clk } else k
      .next (({ s.dropXlats r.ctx with replays := s.replays.filter fun x => x.id != replayId, kvops := kvops } : State).wakeReplay r)

/-- REPLAY_DECLINED: every access that waits becomes fatal. -/
def execReplayDeclined (replayId : Nat) (s : State) : Res :=
  match s.replays.find? (fun r => r.id = replayId) with
  | none => .next s
  | some r =>
    if r.declined then .next s else
    let keep := { s with replays := s.replays.flatMap fun (x : Replay) =>
      if x.id != replayId then [x] else if x.prods.isEmpty && x.fibres.isEmpty then [] else [{ x with declined := true }] }
    .next (keep.wakeReplay r)

end Sys2Proof.Machine
end

