-- ==== Sys2Proof/Machine/Preempt.lean ====
section
/-! DEFINITION. Pre-emption: quantum, method, flush, save, resume, and the context switch of a cluster (spec/21, R381 to R392). -/
namespace Sys2Proof.Machine

/-- A resident context has sheaves that wait for a place. -/
def State.hasWork (s : State) (ctx : Nat) : Bool :=
  ((s.ctx? ctx).map (·.resident)).getD false && s.pending.any fun p => (s.grid? p.grid).any fun g => g.ctx == ctx

/-- Blocks that a pre-emption of a cluster covers: those with a group on it, and the other blocks of their sheaves. -/
def State.preemptSet (s : State) (cluster : Nat) : List Block :=
  let here := s.blocks.filter fun b => clusterOf b.core == cluster || s.groups.any fun g => g.block == b.id && clusterOf g.core == cluster
  s.blocks.filter fun b => here.any fun x => x.sheaf == b.sheaf

/-! Requests (spec/21, R381, R383). -/

def Control.quantumClk (c : Control) : Nat := if c.quantum = 0 then 2800000 else c.quantum
def Control.budgetClk (c : Control) : Nat := if c.drainbudget = 0 then 100000 else c.drainbudget
def Control.threshold (c : Control) : Nat := if c.predrain = 0 then 96 else c.predrain
def State.controlOf (s : State) (ctx : Nat) : Control := ((s.ctx? ctx).map (·.control)).getD ⟨0, 0, 0, 0, 0, 0, 0⟩

def State.hold? (s : State) (cluster : Nat) : Option Hold := s.held.find? fun h => h.cluster = cluster
def State.updHold (s : State) (cluster : Nat) (f : Hold → Hold) : State :=
  { s with held := s.held.map fun h => if h.cluster = cluster then f h else h }

/-- A resident context has a sheaf that a cluster could take once it is empty, with at most three others that the context holds on
the die (spec/08, R186). -/
def State.couldTake (s : State) (cluster ctx : Nat) : Bool :=
  let die := clusterDie cluster
  ((s.ctx? ctx).map (·.resident)).getD false && s.pending.any fun p => (p.die.isNone || p.die == some die) &&
    match s.needsOf p with
    | some (c, needs) => c == ctx && (sublistsTo 3 (s.clustersOn ctx die)).any fun cls =>
        (assignCores (fun _ => 0) needs
          ((coresOf cluster).map (fun k => (⟨k, ⟨0, 0, 0, 0, 0, 0⟩, []⟩ : CoreUse)) ++ (cls.flatMap coresOf).map s.coreUse)).isSome
    | none => false

/-- The quantum of a cluster's context has run out while another context has work that the cluster could take. -/
def State.quantumOut (s : State) (h : Hold) : Bool :=
  !h.preempt && decide (h.since + (s.controlOf h.ctx).quantumClk ≤ s.clk) && s.ctxs.any fun c => c.num != h.ctx && s.couldTake h.cluster c.num

/-- QUANTUM_EXPIRY. -/
def execQuantumExpiry (cluster : Nat) (s : State) : Res :=
  match s.hold? cluster with
  | none => .next s
  | some h => if s.quantumOut h then .next (s.updHold cluster fun h => { h with preempt := true }) else .next s

/-- The first row of Table 21.4 whose condition holds; a stopped block is saved (spec/21, R383; spec/22, R394). -/
def State.method (s : State) (b : Block) : Leave :=
  let k := s.kernel? b.ctx b.kernel
  let e := (k.map (·.expect)).getD 0
  let alone := ((s.sheaf? b.sheaf).map (·.count)).getD 1 == 1
  if b.mode = .stopped ∨ b.ended = true then .saves
  else if e ≠ 0 ∧ (s.controlOf b.ctx).threshold * e ≤ b.issues * 128 then .drains s.clk
  else if (k.map (·.idempotent)).getD false && !b.sidefx && alone then .flushes
  else .saves

/-- PREEMPT_REQUEST: each block of the set takes its method. -/
def execPreemptRequest (cluster : Nat) (s : State) : Res :=
  match s.hold? cluster with
  | none => .next s
  | some h =>
    if !h.preempt || h.assigned then .next s else
    let ids := (s.preemptSet cluster).map (·.id)
    let blocks := s.blocks.map fun b => if ids.contains b.id && b.leave == .stays then { b with leave := s.method b } else b
    .next ({ s with blocks := blocks }.updHold cluster fun h => { h with assigned := true })

/-- A drain has used its budget; a faulting block goes on ending. -/
def State.drainOut (s : State) (b : Block) : Bool :=
  match b.leave with
  | .drains t => !b.isFaulting && decide (t + (s.controlOf b.ctx).budgetClk ≤ s.clk)
  | _ => false

/-- DRAIN_BUDGET_EXPIRY: the block is saved. -/
def execDrainBudgetExpiry (block : Nat) (s : State) : Res :=
  match s.block? block with
  | none => .next s
  | some b => if s.drainOut b then .next (s.updBlock block fun b => { b with leave := .saves }) else .next s

/-- Copies and strips that a block has accepted and that have not completed, their adds included (spec/13, R282). -/
def State.hasCopies (s : State) (bid : Nat) : Bool := s.copies.any (fun c => c.block == bid) || s.adds.any fun a => a.copyOf == some bid

/-! Flush and restart (spec/21, R385). -/

/-- The block is discarded, and its sheaf waits ahead of unplaced ones from its launch state. -/
def State.flushBlock (s : State) (b : Block) : State :=
  let gone := (s.groupsOf b.id).map (·.id)
  let s := { s with stores := s.stores.filter fun p => !gone.contains p.group }
  let s := (s.dropGroups b.id false).dropTasks b.id
  match s.sheaf? b.sheaf with
  | none => s.removeBlock b
  | some sh =>
    let size := ((s.kernel? b.ctx b.kernel).map Grid.sheafSize).getD 1
    let s : State := { s.takeOff b with
      sheaves := s.sheaves.filter fun x => x.id != sh.id
      pending := s.pending ++ [⟨sh.grid, sh.first / size, 1, none, sh.id, true, min 255 (b.restarts + 1), [b.resumes], false, sh.id⟩] }
    s.wakeAll (· == Wait.queue)

/-- FLUSH: once the copies of the block have completed. A block that has stopped since its method was chosen is saved (spec/22,
R394). -/
def execFlush (block : Nat) (s : State) : Res :=
  match s.block? block with
  | none => .next s
  | some b =>
    if b.leave == .flushes && b.mode == .stopped then .next (s.updBlock block fun b => { b with leave := .saves })
    else if b.leave == .flushes && !b.isFaulting && !s.hasCopies block then .next (s.flushBlock b) else .next s

/-! Save (spec/21, R386, R387). -/

/-- A producer whose walks have all delivered or wait on an OPEN field, and one of them waits (spec/15, R324). -/
def State.onOpen (s : State) (p : Producer) : Bool :=
  match p.work, s.group? p.group with
  | .hist form q _ ls, some g =>
    ls.any (s.waitsOpen (s.ctxOf g)) && ls.all fun l => s.waitsOpen (s.ctxOf g) l ||
      match s.histLane g p.id form q l with | .ok _ => true | _ => false
  | _, _ => false

/-- What a save waits for. A block that has ended is saved after those of its sheaf that run. -/
def State.mayBeSaved (s : State) (b : Block) : Bool :=
  let gs := s.groupsOf b.id
  let ids := gs.map (·.id)
  !b.isFaulting && !s.hasCopies b.id &&
  !(s.producers.any fun p => ids.contains p.group && !s.onOpen p) &&
  !(s.replays.any fun r => !r.declined && r.fibres.any fun x => ids.contains x.1) &&
  !(s.stores.any fun p => ids.contains p.group) && (gs.all fun g => g.outack == 0) &&
  !(b.ended && s.blocks.any fun x => x.sheaf == b.sheaf && !x.ended)

/-- A fibre whose HLD or HLDP is abandoned will issue it again: its PC is at the instruction, or its EPC when it has trapped since
(spec/21, Table 21.5; notes/assumptions/104). -/
def Fibre.abandon (f : Fibre) (p : Fin 8) (pc : Word) (l : HistLane) : Fibre :=
  let f := { f with wait := none, predBusy := f.predBusy &&& ~~~((1 : BitVec 8) <<< p.val) }
  if f.ih && !l.ih then { f with epc := pc } else { f with pc := pc }

/-- The walks of a producer that wait on an OPEN field are abandoned; the others deliver. -/
def State.abandonWalks (s : State) (id : Nat) : State :=
  match (s.producers.find? fun p => p.id = id).bind fun p => (s.group? p.group).map fun g => (p, g) with
  | some (p, g) =>
    match p.work with
    | .hist form q pc ls =>
      let on := ls.filter (s.waitsOpen (s.ctxOf g))
      let rest := ls.filter fun l => !s.waitsOpen (s.ctxOf g) l
      let s := s.updGroup g.id fun g => on.foldl (fun g l => if l.live then g.updFibre l.lane fun f => f.abandon q pc l else g) g
      let p := { p with work := .hist form q pc rest, preds := p.preds.filter fun x => !(on.any fun l => l.live && l.lane == x.1) }
      match (gotAll (s.histLane g p.id form q) rest : Got (List LaneVal)) with
      | .ok vs => s.finish g p vs
      | _ => s
    | _ => s
  | none => s

/-- Waits that a saved fibre keeps; the instruction of any other is issued again (spec/21, Table 21.5). -/
def Wait.kept : Wait → Bool
  | .reconv _ _ => true
  | .barrier _ => true
  | .lser => true
  | .brk _ => true
  | _ => false

def Fibre.saved (f : Fibre) : Fibre :=
  { f with wait := match f.wait with | some w => if w.kept then some w else none | none => none
           again := false, clkLatch := none, readySince := none }

/-- The saved state of a block. `size` is the size of its image. -/
def State.imageOf (s : State) (b : Block) (off size : Nat) : Saved :=
  let gs := s.groupsOf b.id
  let ids := gs.map (·.id)
  let lo := scratchKey b.core b.scratchBase
  let inside := fun (k : Nat) => decide (lo ≤ k) && decide (k < lo + b.scratchLen)
  let gran := fun (g : Nat) => inside (16 * g)
  { block := b
    groups := gs.map fun (g : Group) => ({ g with fibres := g.fibres.map Fibre.saved } : Group)
    quads := (coresOf (clusterOf b.core)).flatMap fun core => (List.finRange 4).filterMap fun q =>
      let x := (s.core core).quad q
      if (x.holder.map ids.contains).getD false then some (4 * ((core + 8 - b.core % 8) % 8) + q.val, x) else none
    bytes := (s.mem.filter fun c => inside c.1).map fun c => (c.1 - lo, c.2)
    tags := (s.tags.filter gran).map fun g => 16 * g - lo
    poison := (s.poison.filter gran).map fun g => 16 * g - lo
    off := off, size := size }

/-- The sections of an image by type, in type order (spec/21, Table 21.7). -/
def Saved.sections (x : Saved) : List Nat :=
  List.replicate x.groups.length 1 ++ List.replicate (x.groups.filter fun g => g.tilesN != 0).length 2 ++
  List.replicate (nb (!x.quads.isEmpty)) 3 ++ [4] ++ List.replicate (nb (x.groups.any fun g => g.mloop.isSome)) 5 ++
  List.replicate (nb (x.block.scratchLen != 0)) 6

/-- Type, offset and size of each section, the first at `off`. The spec gives the sections' contents and no size
(notes/assumptions/66). -/
def sectionRows (tick : Nat) : Nat → List Nat → List (Nat × Nat × Nat)
  | _, [] => []
  | off, t :: r =>
    let n := Config.freeNat (tick * 2 ^ 64 + r.length)
    (t, off, n) :: sectionRows tick (off + (n + 63) / 64 * 64) r

/-- The table of sections stands after the header; every section is 64-byte aligned. -/
def State.imageRows (s : State) (x : Saved) : List (Nat × Nat × Nat) :=
  sectionRows s.tick ((64 + 16 * x.sections.length + 63) / 64 * 64) x.sections
def imageSize (rows : List (Nat × Nat × Nat)) : Nat := rows.foldl (fun m r => max m (r.2.1 + (r.2.2 + 63) / 64 * 64)) 64

/-- The header and the section table of an image (spec/21, R387, Table 21.6). -/
def State.imageHeader (s : State) (x : Saved) : List Byte :=
  let b := x.block
  let k := s.kernel? b.ctx b.kernel
  let loop := x.groups.any fun g => g.mloop.isSome
  let count := ((s.sheaf? b.sheaf).map (·.count)).getD 1
  [0x42, 0x49, 0x4D, 0x47] ++ leBytes 2 1 ++ leBytes 2 x.groups.length ++ leBytes 4 b.x ++ leBytes 4 b.yz.toNat ++ leBytes 4 (s.gridSeqOf b) ++
  leBytes 2 ((count - 1) % 32 * 256 + b.rank) ++ leBytes 6 b.issues ++
  [BitVec.ofNat 8 (nb b.sidefx + 2 * nb ((k.map (·.idempotent)).getD false) + 4 * nb loop), 0, 0, 0] ++
  leBytes 4 b.scratchLen ++ leBytes 4 x.sections.length ++ leBytes 2 (min b.resumes 65535) ++ List.replicate 22 0 ++
  (s.imageRows x).flatMap fun r => leBytes 4 r.1 ++ leBytes 4 r.2.1 ++ leBytes 4 r.2.2 ++ leBytes 4 0

/-- Deque records of the block move to the overflow queue of its sheaf, oldest first. -/
def State.moveTasks (s : State) (b : Block) : State :=
  let recs := s.cores.flatMap fun (c : Core) => (c.deque.filter fun r => r.block == b.id).reverse
  let s : State := { s with cores := s.cores.map fun (c : Core) => { c with deque := c.deque.filter fun r => r.block != b.id } }
  s.updSheaf b.sheaf fun sh => { sh with overflow := sh.overflow ++ recs }

/-- A MACQ that has been granted and has not issued gives its tokens back (spec/21, Table 21.5). -/
def State.dropGrants (s : State) (b : Block) : State :=
  let ids := (s.groupsOf b.id).map (·.id)
  { s with cores := s.cores.map fun c =>
    (c.macqs.filter fun m => m.granted && ids.contains m.group).foldl (fun c m => c.takeBack m.mask.val) c }

/-- Writes the image and frees what the block held; without room in SAVEAREA the block ends with KIND 3, or is gone when it had ended
(spec/21, R390). Of several walks of a fibre that are abandoned the first gives its PC. The bytes of
the sections are free (notes/assumptions/66). -/
def State.saveBlock (s : State) (b : Block) : State :=
  let c := s.controlOf b.ctx
  let off := (((s.ctx? b.ctx).map (·.saved)).getD []).foldl (fun m x => max m (x.off + x.size)) 0
  let mine := (s.producers.filter fun p => (s.groupsOf b.id).any fun g => g.id == p.group).map (·.id)
  let t := (mine.reverse.foldl State.abandonWalks s).dropGrants b
  let size := imageSize (t.imageRows (t.imageOf b off 0))
  if c.savelen < off + size then
    if b.ended then ((s.dropGroups b.id true).takeOff b).settleSheaf b.sheaf else
    let bale := s.balesArmed b.ctx
    let f := FaultInfo.kind3 b.core s.clk 4
    s.updBlock b.id (·.setFault f bale)
  else
    let s := t.moveTasks b
    let x := s.imageOf b off size
    let head := s.imageHeader x
    let s := s.writeVirt b.ctx (c.savearea + off)
      (head ++ (List.range (size - head.length)).map fun i => Config.freeByte (s.tick * 2 ^ 64 + i))
    let s := s.updCtx b.ctx fun c => { c with saved := c.saved ++ [x] }
    ((s.dropGroups b.id true).takeOff b).settleSheaf b.sheaf

/-- SAVE. -/
def execSave (block : Nat) (s : State) : Res :=
  match s.block? block with
  | none => .next s
  | some b => if b.leave == .saves && s.mayBeSaved b then .next (s.saveBlock b) else .next s

/-! Resume (spec/21, R388). -/

/-- Clears a range of scratchpad with its tags and poison. -/
def State.clearKeys (s : State) (lo n : Nat) : State :=
  let inside := fun (k : Nat) => decide (lo ≤ k) && decide (k < lo + n)
  { s with
    mem := s.mem.filter fun c => !inside c.1
    tags := s.tags.filter fun g => !inside (16 * g)
    poison := s.poison.filter fun g => !inside (16 * g) }

/-- The core of a cluster that lies `n` cores on from another, around the cluster. -/
def coreOn (core n : Nat) : Nat := core / 8 * 8 + (core + n) % 8

/-- Where a scratchpad key of a saved sheaf lies after its blocks have found their places. -/
def moveKey (l : List (Saved × Nat × Nat)) (k : Nat) : Nat :=
  match l.find? fun x => scratchCore k == x.1.block.core && decide (x.1.block.scratchBase ≤ scratchOff k) &&
      decide (scratchOff k < x.1.block.scratchBase + x.1.block.scratchLen) with
  | some (x, core, base) => scratchKey core (base + (scratchOff k - x.block.scratchBase))
  | none => k

/-- A saved group comes back on a core; a task group on the core that lay as far from its block's (spec/08, R190; notes/assumptions/118). -/
def State.resumeGroup (s : State) (l : List (Saved × Nat × Nat)) (old home : Nat) (g : Group) : State :=
  let core := coreOn home (g.core + 8 - old % 8)
  let slot := s.freeSlot core
  s.enterGroup { g with
    core := core, slot := slot, active := s.activeRoom core slot, since := s.clk, lastIssue := s.clk
    mloop := g.mloop.map fun m => { m with keyA := moveKey l m.keyA, keyB := moveKey l m.keyB, early := [] } }

/-- One block of a saved sheaf comes back at its place. -/
def State.resumeBlock (s : State) (l : List (Saved × Nat × Nat)) (x : Saved) (core base : Nat) : State :=
  let b := { x.block with core := core, scratchBase := base, resumes := min 65535 (x.block.resumes + 1), leave := .stays }
  let lo := scratchKey core base
  let s := s.clearKeys lo b.scratchLen
  let s := x.bytes.foldl (fun (s : State) c => { s with mem := memSet s.mem (lo + c.1) c.2 }) s
  let s := x.tags.foldl (fun s o => s.setTag (lo + o) true) s
  let s := x.poison.foldl (fun s o => s.setPoison (lo + o) true) s
  let s := x.quads.foldl (fun s q => s.updCore (coreOn core (q.1 / 4)) fun c => c.setQuad (Fin.ofNat 4 q.1) q.2) s
  let s := { s with blocks := s.blocks ++ [b] }
  let s := x.groups.foldl (fun s g => s.resumeGroup l x.block.core core g) s
  s.acquire core b.ctx .module

/-- All saved blocks of a sheaf come back in one step. -/
def State.resumeSheaf (s : State) (die : Nat) (p : Pending) (places : List (Nat × Nat)) : State :=
  match s.grid? p.grid with
  | none => s
  | some g =>
    let l := (s.savedOf g.ctx p.sheaf).zip places
    let s := (s.takeSheaf p).updSheaf p.sheaf fun sh => { sh with die := die }
    let s := s.updCtx g.ctx fun c => { c with saved := c.saved.filter fun x => x.block.sheaf != p.sheaf }
    l.foldl (fun s x => s.resumeBlock l x.1 x.2.1 x.2.2) s

/-- The quadrants that come back on other cores than their block's are free there (notes/assumptions/118). -/
def State.tokensFree (s : State) (l : List (Saved × Nat × Nat)) : Bool :=
  l.all fun x => x.1.quads.all fun q => ((s.core (coreOn x.2.1 (q.1 / 4))).quad (Fin.ofNat 4 q.1)).holder.isNone

/-- The die that places the sheaf of a saved block next. -/
def State.resumeDie (s : State) (block : Nat) : Option (Nat × Pending × List (Nat × Nat)) :=
  (List.range 16).findSome? fun d => (s.nextSheaf d).bind fun (p, places) =>
    match s.grid? p.grid with
    | some g =>
      if p.saved && (s.savedOf g.ctx p.sheaf).any (fun x => x.block.id == block) && s.tokensFree ((s.savedOf g.ctx p.sheaf).zip places)
      then some (d, p, places) else none
    | none => none

/-- BLOCK_RESUME. -/
def execBlockResume (block : Nat) (s : State) : Res :=
  match s.resumeDie block with
  | some (d, p, places) => .next (s.resumeSheaf d p places)
  | none => .next s

/-! Context switch (spec/21, R391, R392). -/

def clusterExists (cl : Nat) : Bool := coreExists (8 * cl)

/-- A core of the cluster has drained its store queues, bank queues and streamer, and nothing stands on it. -/
def State.clusterEmpty (s : State) (cl : Nat) : Bool :=
  !(s.blocks.any fun b => clusterOf b.core == cl) && !(s.groups.any fun g => clusterOf g.core == cl) &&
  !(s.stores.any fun p => clusterOf p.core == cl) && !(s.copies.any fun c => clusterOf c.core == cl)

/-- Contexts that a cluster may pass to: those with work, when the cluster is free, or pre-empted and left, or idle. -/
def State.incoming (s : State) (cl : Nat) : List Nat :=
  let able := (s.ctxs.filter fun c => s.hasWork c.num).map (·.num)
  match s.hold? cl with
  | none => able
  | some h => if h.preempt then able else if s.hasWork h.ctx then [] else able.filter (· != h.ctx)

/-- A cluster can pass now. -/
def State.switchable (s : State) (cl : Nat) : Bool :=
  clusterExists cl && s.clusterEmpty cl &&
  match s.hold? cl with
  | none => !(s.incoming cl).isEmpty
  | some h =>
    if h.preempt then h.assigned && !(s.blocks.any fun b => b.ctx == h.ctx && b.leave != .stays) else !(s.incoming cl).isEmpty

/-- Every core of a cluster is cleared, and loaded for its new context. -/
def State.clearCluster (s : State) (cl : Nat) : State :=
  let s := (coresOf cl).foldl (fun s c => s.clearKeys (scratchKey c 0) (2 ^ 19)) s
  let s := { s with slots := s.slots.map fun (x : Slot) => if clusterOf x.core = cl then
    { x with lastGroup := none, yielded := false, issued := none, banks := [], entering := [] } else x }
  (coresOf cl).foldl (fun s c => s.setCore { Core.fresh c with nextTick := s.clk }) s

/-- Sheaves whose die has no cluster of their context any more wait for a die again. -/
def State.undispatch (s : State) : State :=
  let at_ := fun (p : Pending) => ((s.grid? p.grid).map fun g => (s.diesOf g.ctx).map (·.1)).getD []
  { s with pending := s.pending.map fun p => match p.die with
    | some d => if (at_ p).contains d then p else { p with die := none }
    | none => p }

/-- CONTEXT_SWITCH: the cluster passes to a context with work, or is free when there is none. -/
def execContextSwitch (cluster : Nat) (s : State) : Res :=
  if !s.switchable cluster then .next s else
  let able := s.incoming cluster
  let s := { s with held := s.held.filter fun h => h.cluster != cluster }
  let s := s.clearCluster cluster
  let s := match able[Config.freeNat (s.tick * 2 ^ 64) % able.length]? with
    | some c => { s with held := s.held ++ [(⟨cluster, c, s.clk, false, false⟩ : Hold)] }
    | none => s
  .next (s.undispatch.dispatch)

end Sys2Proof.Machine
end

