-- ==== Sys2Proof/Machine/Debug.lean ====
section
/-! DEFINITION. Bales and samples (spec/22, R401 to R404; spec/23, R405 to R407). -/
namespace Sys2Proof.Machine

/-! The sections of a bale (spec/23, Table 23.1). -/

/-- One section: its type, its group, its bytes. -/
structure BalePart where
  ty : Nat
  group : Nat
  bytes : List Byte
  deriving DecidableEq, Repr

/-- The fibre of a lane. -/
def Group.laneFibre (g : Group) (l : Nat) : Option Fibre := g.fibres.find? fun f => f.lane.val = l

/-- A 32-bit number of one bit per lane. -/
def laneBits (g : Group) (p : Fibre → Bool) : List Byte :=
  leBytes 4 (((g.fibres.filter p).map fun f => 2 ^ f.lane.val).foldl (· + ·) 0)

/-- A number of one bit per element. -/
def maskOf (l : List Bool) : Nat := (l.zipIdx.map fun x => if x.1 then 2 ^ x.2 else 0).foldl (· + ·) 0

def RegCell.cause (c : RegCell) : Byte := BitVec.ofNat 8 ((c.mark.map fun t => t.cause.code).getD 0)

/-- Registers of a group. -/
def Group.regSection (g : Group) : List Byte :=
  let rs := List.range g.regsN
  let lanes := List.range 32
  let v := fun (l r : Nat) => (g.laneFibre l).map fun f => cellAt f.vregs r
  let perReg := fun (p : RegCell → Bool) => rs.flatMap fun r => laneBits g fun f => p (cellAt f.vregs r)
  let perS := fun (p : RegCell → Bool) => leBytes 4 (maskOf (g.sregs.map p))
  (rs.flatMap fun r => lanes.flatMap fun l => leBytes 4 (((v l r).map fun c => c.val.toNat).getD 0)) ++
  (g.sregs.flatMap fun c => leBytes 4 c.val.toNat) ++
  perReg (·.full) ++ perS (·.full) ++ perReg (·.mark.isSome) ++ perS (·.mark.isSome) ++
  (rs.flatMap fun r => lanes.map fun l => ((v l r).map RegCell.cause).getD 0) ++ g.sregs.map RegCell.cause ++
  ((List.range (g.regsN / 4)).flatMap fun q => laneBits g fun f => boolAt f.vtags q) ++ leBytes 4 (maskOf g.stags) ++
  perReg (·.poison) ++ perS (·.poison)

/-- WAIT of a batch. -/
def waitCode : Option Wait → Nat
  | none => 0
  | some (.register [] _) => 6
  | some (.register _ _) => 1
  | some (.barrier _) => 2
  | some (.reconv _ _) => 3
  | some .counter => 4
  | some .queue => 4
  | some .lser => 5
  | some _ => 6

/-- Batches of a group: PC, IH, WAIT, in this order. -/
def Group.batchKeys (g : Group) : List Nat :=
  ((g.fibres.map fun f => f.key * 8 + waitCode f.wait).eraseDups).mergeSort (· ≤ ·)

def Group.batchBytes (g : Group) (k : Nat) : List Byte :=
  leBytes 4 (k / 16) ++ leBytes 4 (k / 8 % 2 + 256 * (k % 8)) ++ laneBits g (fun f => f.key * 8 + waitCode f.wait == k) ++ List.replicate 4 0

/-- Predicates and status of a fibre: 128 bytes. -/
def Fibre.statusBytes (f : Fibre) : List Byte :=
  ([f.pred.zeroExtend 32 ||| 1, f.status, f.flags.zeroExtend 32, f.epc, f.cause, f.trapval, f.trapvalh, f.estatus, f.ereg, f.link].flatMap
    fun w => leBytes 4 w.toNat) ++
  ((List.finRange 16).flatMap fun b => leBytes 4 (((f.markOf (.blk b)).map fun m => 2 ^ 31 + m.toNat).getD 0)) ++
  leBytes 4 (nb f.turn) ++ List.replicate 20 0

def Group.statusSection (g : Group) : List Byte :=
  let ks := (g.batchKeys).take 32
  leBytes 4 ks.length ++ List.replicate 60 0 ++ ks.flatMap g.batchBytes ++ List.replicate (16 * (32 - ks.length)) 0 ++
  (List.range 32).flatMap fun l => ((g.laneFibre l).map Fibre.statusBytes).getD (List.replicate 128 0)

/-- The scratchpad allocation with its tag and poison maps. -/
def State.scratchSection (s : State) (b : Block) : List Byte :=
  let lo := scratchKey b.core b.scratchBase
  let map := fun (p : Nat → Bool) => (List.range (b.scratchLen / 128)).map fun i =>
    BitVec.ofNat 8 (maskOf ((List.range 8).map fun j => p (lo + 16 * (8 * i + j))))
  s.bytesAt lo b.scratchLen ++ map s.tagAt ++ map s.poisonAt

/-- Tiles of a group. -/
def Group.tileSection (g : Group) : List Byte :=
  let tcs := (List.range 16).flatMap fun t => leBytes 4 (g.tcs.getD t 0).toNat
  tcs ++ (g.tiles.flatMap fun t => (List.range 4096).map fun i => t.bytes.getD i 0) ++ leBytes 4 (maskOf (g.tiles.map (·.poison)))

def QMode.code : QMode → Nat
  | .zero => 0
  | .fp32 => 1
  | .int _ => 2
def QMode.frac : QMode → Nat
  | .int f => f
  | _ => 0

/-- Quadrants that a block's groups hold: number, holder's number, quadrant. -/
def State.heldQuads (s : State) (b : Block) : List (Nat × Nat × Quadrant) :=
  (b.core :: (s.groups.filter fun g => g.block == b.id).map (·.core)).eraseDups.flatMap fun core => (List.finRange 4).filterMap fun q =>
    let x := (s.core core).quad q
    (x.holder.bind fun h => (s.groups.find? fun g => g.id = h ∧ g.block = b.id)).map fun g => (q.val, g.recNum, x)

def quadBytes (x : Nat × Nat × Quadrant) : List Byte :=
  [BitVec.ofNat 8 x.1, BitVec.ofNat 8 x.2.1, BitVec.ofNat 8 x.2.2.mode.code, BitVec.ofNat 8 x.2.2.mode.frac, BitVec.ofNat 8 (nb x.2.2.poison)] ++
  List.replicate 59 0 ++ (List.range 4096).flatMap fun i => leBytes 4 (x.2.2.elems.getD i 0).toNat

def Barrier.bytes (b : Barrier) : List Byte :=
  leBytes 4 b.member.toNat ++ leBytes 4 b.arrived.toNat ++ leBytes 2 b.gen.toNat ++ List.replicate 6 0

def CopyLog.bytes (l : CopyLog) : List Byte :=
  ((List.range 16).flatMap fun i => leBytes 4 (if i = 15 then 0 else (l.desc.getD i 0).toNat)) ++
  ((List.range 4).flatMap fun i => leBytes 4 (l.coords.getD i 0).toNat) ++ leBytes 8 l.ctr ++
  [BitVec.ofNat 8 l.group, 0, 0, 0] ++ leBytes 4 l.pc.toNat ++ leBytes 8 (l.done.getD 0) ++ List.replicate 24 0

/-- The sections of a block's bale, in order of type and then group (spec/23, R406). -/
def State.baleSections (s : State) (b : Block) : List BalePart :=
  let gs := (s.groups.filter fun g => g.block == b.id).mergeSort fun x y => decide (x.recNum ≤ y.recNum)
  let quads := s.heldQuads b
  let sbs := ((s.sheaf? b.sheaf).map (·.bars)).getD []
  (gs.map fun g => ⟨1, g.recNum, g.regSection⟩) ++ (gs.map fun g => ⟨2, g.recNum, g.statusSection⟩) ++
  (if b.scratchLen = 0 then [] else [⟨3, 0xFF, s.scratchSection b⟩]) ++
  ((gs.filter fun g => g.tilesN != 0).map fun g => ⟨4, g.recNum, g.tileSection⟩) ++
  (if quads.isEmpty then [] else [⟨5, 0xFF, quads.flatMap quadBytes⟩]) ++
  [⟨6, 0xFF, (((List.range 16).map fun i => barAt b.bars i) ++ (List.range 8).map fun i => barAt sbs i).flatMap Barrier.bytes⟩] ++
  (if b.copyLog.isEmpty then [] else [⟨7, 0xFF, b.copyLog.flatMap CopyLog.bytes⟩])

/-! Writing (spec/22, R402 to R404). -/

def round64 (n : Nat) : Nat := (n + 63) / 64 * 64

/-- Offsets of sections from a first one. -/
def offsetsFrom : Nat → List BalePart → List (BalePart × Nat)
  | _, [] => []
  | o, x :: r => (x, o) :: offsetsFrom (round64 (o + x.bytes.length)) r

/-- What the writer has met: the first nested fault and how many, whether the slot was too small, whether a section is truncated. -/
structure BaleNotes where
  nested : Option (Cause × Nat)
  count : Nat
  small : Bool
  cut : Bool
  deriving DecidableEq, Repr

/-- The first byte of a range that the writer cannot write, and why. -/
def State.firstBad (s : State) (ctx va : Nat) (n : Nat) : Option (Nat × Cause) :=
  (List.range n).findSome? fun i =>
    match s.translate (dieSite 0) ctx (va + i) .wr with
    | .ok _ => none
    | .xlatePerm => some (i, .xlatePerm)
    | _ => some (i, .pageFault)

/-- Writes one section: its table entry, and what the writer has met by then. -/
def State.writeSection (s : State) (ctx slot size : Nat) (n : BaleNotes) (x : BalePart) (off : Nat) : State × BaleNotes × List Byte :=
  let len := x.bytes.length
  let room := min len (size - off)
  let (kept, n) := match s.firstBad ctx (slot + off) room with
    | some (i, c) => (i, { n with nested := n.nested.orElse fun _ => some (c, slot + off + i), count := n.count + 1 })
    | none => (room, n)
  let n := if room < len then { n with small := true } else n
  let cut := decide (kept < len)
  (s.writeVirt ctx (slot + off) (x.bytes.take kept), { n with cut := n.cut || cut },
    leBytes 2 x.ty ++ [BitVec.ofNat 8 x.group, BitVec.ofNat 8 (nb cut)] ++ leBytes 4 off ++ leBytes 4 len ++ leBytes 4 kept)

def State.writeSections (s : State) (ctx slot size : Nat) (n : BaleNotes) : List (BalePart × Nat) → State × BaleNotes × List Byte
  | [] => (s, n, [])
  | (x, off) :: r =>
    let (s, n, e) := s.writeSection ctx slot size n x off
    let (s, n, es) := s.writeSections ctx slot size n r
    (s, n, e ++ es)

/-- The header (spec/22, Table 22.5). -/
def State.baleHeader (s : State) (c : Ctx) (b : Block) (sections size : Nat) (n : BaleNotes) : List Byte :=
  let f : Option FaultInfo := match b.mode with | .faulting f => some f | _ => none
  [0x42, 0x41, 0x4C, 0x45] ++ leBytes 2 1 ++ leBytes 2 sections ++ leBytes 4 c.num ++ leBytes 4 b.x ++ leBytes 4 b.yz.toNat ++
  leBytes 4 (s.gridSeqOf b) ++ leBytes 4 b.phase.toNat ++
  [BitVec.ofNat 8 (((f.bind (·.cause)).map Cause.code).getD 0), BitVec.ofNat 8 ((n.nested.map fun x => x.1.code).getD 0),
    BitVec.ofNat 8 ((f.map (·.group)).getD 0xFF), BitVec.ofNat 8 (nb n.cut + 2 * nb n.small)] ++
  leBytes 8 ((f.map (·.val.toNat)).getD 0) ++ leBytes 8 ((n.nested.map (·.2)).getD 0) ++ leBytes 4 n.count ++ leBytes 4 c.baleSeq ++
  leBytes 4 size ++ List.replicate 4 0

/-- The order of bales in a sheaf: the block that faulted itself, then by rank. -/
def Block.baleBefore (b x : Block) : Bool :=
  let own := fun (y : Block) => match y.mode with | .faulting f => f.kind != 3 | _ => false
  if own b == own x then decide (b.rank < x.rank) else own b

/-- Writes a bale of a block: sections, then the table, then the header; with an unreachable page under the header or the table
there is no bale. The flags are those of the block's fault record. -/
def State.writeParts (s : State) (b : Block) (xs : List BalePart) : State × Nat :=
  match s.ctx? b.ctx with
  | none => (s, 0)
  | some c =>
    let slot := c.dbg.dump + (if c.dbg.dumpslots = 0 then 0 else c.baleSeq % c.dbg.dumpslots) * c.dbg.dumpslot
    let start := round64 (64 + 16 * xs.length)
    let placed := offsetsFrom start xs
    let last := (placed.map fun x => x.2 + x.1.bytes.length).foldl max start
    let (s, n, table) := s.writeSections b.ctx slot c.dbg.dumpslot ⟨none, 0, false, false⟩ placed
    let reach := (s.firstBad b.ctx slot (64 + 16 * xs.length)).isNone
    let s := if reach then (s.writeVirt b.ctx (slot + 64) table).writeVirt b.ctx slot (s.baleHeader c b xs.length (last - start) n) else s
    (s.updCtx b.ctx fun c => { c with baleSeq := c.baleSeq + 1 }, nb reach + 2 * nb n.cut)

/-- The bale of a block on a core. -/
def State.writeBale (s : State) (b : Block) : State :=
  let r := s.writeParts b (s.baleSections b)
  r.1.updBlock b.id fun b => { b with baleDone := true, baleWanted := b.isFaulting, baleFlags := r.2 }

/-- The sections of a saved block: as they would be on a core of its own. -/
def State.savedSections (s : State) (x : Saved) : List BalePart :=
  let t := ({ s with blocks := [], groups := [] } : State).resumeBlock [] x 4096 0
  match t.blocks with
  | b :: _ => t.baleSections b
  | [] => []

/-- The bale of a saved block that ends with its sheaf (spec/21, R376). -/
def State.writeSavedBale (s : State) (x : Saved) : State :=
  let r := s.writeParts x.block (s.savedSections x)
  r.1.updCtx x.block.ctx fun c => { c with saved := c.saved.map fun y => if y.block.id = x.block.id then
    { y with block := { y.block with baleDone := true, baleFlags := r.2 } } else y }

/-- Accesses and copies that a bale waits for (spec/23, R405; for a DUMP command spec/22, R402). -/
def State.baleSettled (s : State) (b : Block) : Bool :=
  let ids := (s.groups.filter fun g => g.block == b.id).map (·.id)
  !s.hasCopies b.id &&
  (!b.isFaulting || (!(s.producers.any fun p => ids.contains p.group) && !(s.stores.any fun p => ids.contains p.group && !p.left)))

/-- Bales of a faulting sheaf are written after the faulting block's, in order of rank, those of saved blocks among them
(spec/21, R376). -/
def State.baleTurn (s : State) (b : Block) : Bool :=
  let others := (s.blocks.filter fun x => x.isFaulting) ++ (s.savedOf b.ctx b.sheaf).map (·.block)
  others.all fun x => x.id == b.id || x.sheaf != b.sheaf || !x.baleWanted || x.baleDone || b.baleBefore x

/-- An all-bank pseudo-channel holds the walk of a page of the bale's slot: the writer waits (spec/19, R365). -/
def State.slotHeld (s : State) (ctx : Nat) : Bool :=
  match s.ctx? ctx with
  | none => false
  | some c =>
    let lo := c.dbg.dump + (if c.dbg.dumpslots = 0 then 0 else c.baleSeq % c.dbg.dumpslots) * c.dbg.dumpslot
    (List.range (c.dbg.dumpslot / 65536 + 2)).any fun i => s.translate (dieSite 0) ctx (lo + 65536 * i) .wr == .hold

/-- A block's bale can be written. -/
def State.baleReady (s : State) (b : Block) : Bool :=
  b.dumps && s.baleSettled b && (!b.isFaulting || s.baleTurn b) && !s.slotHeld b.ctx

/-- Saved blocks of sheaves that end whose bale can be written. -/
def State.savedBales (s : State) : List Saved :=
  s.ctxs.flatMap fun c => c.saved.filter fun x => x.block.dumps && s.baleTurn x.block && !s.slotHeld c.num

/-- BALE_WRITE. The writer first stops a block that a RESUME has let run since its DUMP was accepted (spec/22, R402). -/
def execBaleWrite (block : Nat) (s : State) : Res :=
  match s.block? block with
  | none => match s.savedBales.find? (fun x => x.block.id = block) with
    | some x => .next (s.writeSavedBale x)
    | none => .next s
  | some b =>
    if !b.dumps then .next s
    else if !b.isFaulting && b.mode != .stopped then .next (s.stopBlock block .command 0xFF 0 b.core 0)
    else if s.baleReady b then .next (s.writeBale b) else .next s

/-! Samples (spec/22, R401). -/

/-- The step of a core's LFSR. -/
def lfsrStep (l : Word) : Word := (l >>> 1) ^^^ (if l.getLsbD 0 then 0x80200003 else 0)

/-- The debug record of the context that holds a core. -/
def State.debugOf (s : State) (core : Nat) : Option (Nat × DebugRec) :=
  (s.held.find? fun h => h.cluster = clusterOf core).bind fun h => (s.ctx? h.ctx).map fun c => (h.ctx, c.dbg)

/-- A core whose sampling interval has expired; the sampled slot has had its cycle in this clk. -/
def State.sampleDue (s : State) (core : Nat) : Bool :=
  match s.debugOf core with
  | some (_, d) =>
    let k := s.core core
    d.samplebase != 0 && decide (k.nextTick ≤ s.clk) && !(s.rr.contains (core, k.tickNo % 4))
  | none => false

/-- The tail of a SAMPLE record: the slot's oldest active group that did not issue, with its leaf (spec/22, Table 22.3). -/
def State.sampleTail (s : State) (core slot : Nat) : Nat × List Byte :=
  let idle := (s.activeSet core slot).filter fun g => !((s.slotOf core slot).lastGroup == some g.id && g.lastIssue == s.clk)
  match oldestGroup idle with
  | none => (2, [])
  | some g =>
    match s.block? g.block with
    | none => (2, [])
    | some b =>
      let pc := ((g.fibres.map Fibre.key).min?).getD 0 / 2
      (s.groupLeaf g, [BitVec.ofNat 8 g.recNum, 0, 0, 0] ++ leBytes 4 b.x ++ leBytes 4 b.yz.toNat ++ leBytes 4 b.phase.toNat ++ leBytes 4 pc)

/-- The SAMPLE record. -/
def State.sampleBytes (s : State) (core slot : Nat) : List Byte :=
  let (leaf, tail) := s.sampleTail core slot
  let tailBytes := tail ++ List.replicate (28 - tail.length) 0
  let place := leBytes 4 (core % 4096 + 4096 * slot)
  let b8 := fun (n : Nat) => (BitVec.ofNat 8 n : Byte)
  match (s.slotOf core slot).issued with
  | some i =>
    if i.clk = s.clk then
      [5, 0, b8 i.num, b8 leaf] ++ leBytes 4 i.x ++ leBytes 4 i.yz.toNat ++ leBytes 4 i.phase.toNat ++ leBytes 4 i.pc.toNat ++
        leBytes 4 i.grid ++ leBytes 8 s.clk ++ tailBytes ++ place
    else [5, 8, 0xFF, b8 leaf] ++ List.replicate 20 0 ++ leBytes 8 s.clk ++ tailBytes ++ place
  | none => [5, 8, 0xFF, b8 leaf] ++ List.replicate 20 0 ++ leBytes 8 s.clk ++ tailBytes ++ place

/-- SAMPLE_TICK. -/
def execSampleTick (core : Nat) (s : State) : Res :=
  if !s.sampleDue core then .next s else
  match s.debugOf core with
  | none => .next s
  | some (ctx, d) =>
    let k := s.core core
    let l := lfsrStep k.lfsr
    let gap := d.samplebase + l.toNat % 2 ^ d.jitter
    let bytes := s.sampleBytes core (k.tickNo % 4)
    .next ((s.setCore { k with lfsr := l, nextTick := s.clk + gap, tickNo := k.tickNo + 1 }).traceRec ctx bytes)

end Sys2Proof.Machine
end

