-- ==== Sys2Proof/Machine/HostIf.lean ====
section
/-! DEFINITION. The command interface, ownership and the journal, host and peer accesses, links, heat, storage errors
(spec/24, R417 to R428; spec/10, R228). -/
namespace Sys2Proof.Machine

/-! Command records (spec/24, Table 24.2). -/

/-- `n` bytes of a record from byte `i`, as a number. -/
def recField (r : CmdRecord) (i n : Nat) : Nat := (r.extractLsb' (8 * i) (8 * n)).toNat
/-- The context that a record names. -/
def recCtx (r : CmdRecord) : Nat := recField r 4 4
def recNonce (r : CmdRecord) : DWord := r.extractLsb' 64 64
def recBytes (r : CmdRecord) : List Byte := (List.range 64).map fun i => r.extractLsb' (8 * i) 8
/-- The interface fills byte 1 with the sender's id (spec/24, R421). -/
def withMaster (r : CmdRecord) (m : Fin 4) : CmdRecord :=
  (r &&& ~~~((0xFF00 : Nat) : CmdRecord)) ||| ((m.val * 256 : Nat) : CmdRecord)

def Status.code : Status → Nat
  | .ok => 0 | .pending => 1 | .notOwner => 2 | .busy => 3 | .badArg => 4 | .illegal => 5 | .exhausted => 6

/-! The journal (spec/24, R424). -/

/-- The 64 MiB of reserved memory that hold the journal (notes/assumptions/20). -/
def journalBase : Nat := 2 ^ 37 - 2 ^ 26

/-- The bytes of a journal entry (spec/24, Table 24.3). -/
def OpenCmd.entry (o : OpenCmd) (st : Status) (done : Nat) : List Byte :=
  leBytes 8 o.seq ++ [BitVec.ofNat 8 o.master.val, o.record.truncate 8] ++ leBytes 2 st.code ++ leBytes 4 (recCtx o.record) ++
  (sha256 (recBytes o.record)).take 16 ++ leBytes 8 o.accepted ++ leBytes 8 done ++ List.replicate 16 0

def State.journal (s : State) (o : OpenCmd) (st : Status) (done : Nat) : State :=
  s.putBytes (journalBase + 64 * (o.seq % 1048576)) (o.entry st done)

/-- Accepts a record: its sequence number, its journal entry, and for a record of the owner the life of the ownership. -/
def State.accept (s : State) (m : Fin 4) (r : CmdRecord) : State :=
  let o : OpenCmd := ⟨s.jseq, m, withMaster r m, s.clk⟩
  let s := { s with jseq := s.jseq + 1, openCmds := s.openCmds ++ [o] }
  let s := if s.owner = some m then { s with lastCmd := s.clk } else s
  let clk := s.clk
  let s := { s with window := s.window.map fun (x : Nat × List Claim) => (x.1, x.2.map fun (c : Claim) => if c.master = m then { c with last := clk } else c) }
  s.journal o .pending 0

/-- An accepted command completes. -/
def State.complete (s : State) (o : OpenCmd) (st : Status) : State :=
  ({ s with openCmds := s.openCmds.filter fun x => x.seq != o.seq } : State).journal o st s.clk

def State.reply (s : State) (m : Fin 4) (nonce : DWord) (st : Status) (data : List Byte) : State :=
  { s with replies := s.replies ++ [.command m nonce st data] }

/-- What a command does once it is accepted. -/
inductive CmdOut where
  | refuse (st : Status)
  | done (s : State) (data : List Byte)
  /-- It is accepted, and completes later. -/
  | later (s : State)

/-- The head of the inbox, when it is a record of this command. -/
def State.headCmd (s : State) (i : Instr) : Option (Fin 4 × CmdRecord) :=
  match s.inbox with
  | .command m r :: _ => if commandOf r = some i then some (m, r) else none
  | _ => none

/-- Commands that a module runs whose firmware has not verified (spec/24, R425). -/
def bootCmd (i : Instr) : Bool := i == .claim || i == .read || i == .fwload

/-- Takes the command at the head: the checks that come before it, its acceptance, its effect, its reply (spec/24, R422, R424). -/
def runCommand (i : Instr) (ownerOnly named : Bool) (act : Fin 4 → CmdRecord → State → CmdOut) (s : State) : Res :=
  match s.headCmd i with
  | none => .next s
  | some (m, r) =>
    let s := s.popInput
    let say := fun (st : Status) => s.reply m (recNonce r) st []
    if !s.fwOk && !bootCmd i then .next (say .illegal)
    else if ownerOnly && s.owner != some m then .next (say .notOwner)
    else if named && (decide (65535 < recCtx r) || (i != .ctxset && (s.ctx? (recCtx r)).isNone)) then .next (say .badArg)
    else
      let o : OpenCmd := ⟨s.jseq, m, withMaster r m, s.clk⟩
      match act m r (s.accept m r) with
      | .refuse st => .next (say st)
      | .done t data => .next ((t.complete o .ok).reply m (recNonce r) .ok data)
      | .later t => .next (t.reply m (recNonce r) .pending [])

/-! Ownership (spec/24, R422). -/

/-- 10 ms and 100 ms at 1.4 GHz. -/
def windowClk : Nat := 14000000
def lapseClk : Nat := 140000000

def execClaim (s : State) : Res :=
  runCommand .claim false false (fun m r s =>
    if s.owner.isSome then .refuse .busy else
    let c : Claim := ⟨m, recField r 2 1, recNonce r, s.clk⟩
    .later { s with window := match s.window with
      | some (t, cs) => some (t, cs ++ [c])
      | none => some (s.clk, [c]) }) s

/-- The best claim: the lowest priority value, then the lower master. -/
def bestClaim (cs : List Claim) : Option Claim :=
  cs.foldl (fun (b : Option Claim) c => match b with
    | none => some c
    | some d => if c.priority < d.priority || (c.priority == d.priority && decide (c.master < d.master)) then some c else some d) none

def State.windowDue (s : State) : Bool := match s.window with | some (t, _) => decide (t + windowClk ≤ s.clk) | none => false

/-- ELECTION_WINDOW_CLOSE: the winner is told to every claimant with its own nonce. Its ownership counts from its last accepted
command. -/
def execElectionWindowClose (s : State) : Res :=
  match s.window with
  | none => .next s
  | some (_, cs) =>
    if !s.windowDue then .next s else
    match bestClaim cs with
    | none => .next { s with window := none }
    | some w =>
      let s : State := { s with window := none, owner := some w.master, lastCmd := w.last }
      let s : State := { s with replies := s.replies ++ cs.map fun (c : Claim) => Reply.election c.master c.nonce w.master }
      .next ((s.openCmds.filter fun (o : OpenCmd) => commandOf o.record = some .claim).foldl (fun s o => s.complete o .ok) s)

def State.lapseDue (s : State) : Bool := s.owner.isSome && decide (s.lastCmd + lapseClk ≤ s.clk)

/-- OWNERSHIP_LAPSE. -/
def execOwnershipLapse (s : State) : Res := if s.lapseDue then .next { s with owner := none } else .next s

def execHeartbeat (s : State) : Res := runCommand .heartbeat true false (fun _ _ s => .done s []) s

def execHandover (s : State) : Res :=
  runCommand .handover true false (fun _ r s =>
    let n := recField r 2 1
    if h : n < 4 then .done { s with owner := some ⟨n, h⟩, lastCmd := s.clk } [] else .refuse .badArg) s

def execRelease (s : State) : Res := runCommand .release true false (fun _ _ s => .done { s with owner := none } []) s

/-! Launches and contexts. -/

/-- LAUNCH: the record enters the context's root queue (spec/13, R298). -/
def execLaunch (s : State) : Res :=
  runCommand .launch true true (fun m r s =>
    if 3 < recField r 40 1 then .refuse .badArg
    else match s.enterRoot (recCtx r) (withMaster r m) with
      | some s => .done s []
      | none => .refuse .busy) s

def State.holdsCluster (s : State) (ctx : Nat) : Bool := s.held.any fun h => h.ctx == ctx

/-- A context as it is before anything is loaded into it. -/
def Ctx.fresh (n : Nat) (resident : Bool) : Ctx where
  num := n
  resident := resident
  root := 0
  gens := List.replicate 7 0
  codeBase := 0
  kernels := []
  histDesc := 0
  histStates := 0
  histCount := 0
  fields := []
  control := ⟨0, 0, 0, 0, 0, 0, 0⟩
  dbg := ⟨0, 0, 0, 0, 0, 0, 0, 0, []⟩
  flogSeq := 0
  traceSeq := 0
  baleSeq := 0
  gridSeq := 0
  lofts := []
  queues := []
  rootq := []
  saved := []
  memory := []

/-- The context control record, from its bytes at an offset of the command record (spec/21, Table 21.8). -/
def controlOfRec (r : CmdRecord) : Control :=
  let f := fun (i n : Nat) => recField r (16 + i) n
  ⟨f 0 4, f 4 1, f 8 4, f 12 8, f 20 8, f 28 8, f 36 4⟩

/-- The debug control record in device memory (spec/22, Table 22.1). -/
def State.debugAt (s : State) (pa : Nat) : DebugRec :=
  let f := fun (i n : Nat) => s.numAt (pa + i) n
  ⟨f 0 8, f 8 4, f 12 4, f 16 1, f 17 1, f 24 8, f 32 4, f 36 4, (List.range 4).map fun w =>
    let a := f (64 + 16 * w) 8
    ⟨a % 2 ^ 56, f (72 + 16 * w) 8, bitAt a 56, bitAt a 57, bitAt a 58, a / 2 ^ 60 % 4⟩⟩

/-- CTXSET: byte 2 says what is written (notes/assumptions/21). -/
def execCtxset (s : State) : Res :=
  runCommand .ctxset true true (fun _ r s =>
    let n := recCtx r
    if s.holdsCluster n then .refuse .busy else
    let resident := decide ((s.ctxs.filter (·.resident)).length < 4096)
    let s := if (s.ctx? n).isSome then s else { s with ctxs := s.ctxs ++ [Ctx.fresh n resident] }
    match recField r 2 1 with
    | 0 => .done (s.updCtx n fun c => { c with control := controlOfRec r }) []
    | 1 => let d := s.debugAt (recField r 16 8); .done (s.updCtx n fun c => { c with dbg := d }) []
    | 2 => .done (s.updCtx n fun c => { c with root := recField r 16 8 }) []
    | 3 => .done (s.updCtx n fun c => { c with gens := (List.range 7).map fun i => recField r (16 + 2 * i) 2 % 4096 }) []
    | 4 =>
      if 4096 < recField r 32 4 then .refuse .badArg
      else .done ((s.updCtx n fun c =>
        { c with histDesc := recField r 16 8, histStates := recField r 24 8, histCount := recField r 32 4 }).writeFields n) []
    | _ => .refuse .badArg) s

/-- INVAL: the context's translations are gone (spec/10, R227). -/
def execInval (s : State) : Res := runCommand .inval true true (fun _ r s => .done (s.dropXlats (recCtx r)) []) s

/-! REVOKE (spec/24, R423). -/

/-- A capability of a space and a generation. -/
def capIs (space gen : Nat) (q : QWord) : Bool := capSpace q == space && capGen q == gen

/-- The quad of sixteen bytes of a list of offset and byte. -/
def quadIn (bytes : List (Nat × Byte)) (off : Nat) : QWord :=
  BitVec.ofNat 128 (leNat ((List.range 16).map fun i => ((bytes.find? fun c => c.1 = off + i).map (·.2)).getD 0))

/-- Tags of registers that hold such a capability are cleared. -/
def clearQuads (bad : QWord → Bool) (regs : List RegCell) (tags : List Bool) : List Bool :=
  tags.zipIdx.map fun x => x.1 && !bad (BitVec.ofNat 128 (((List.range 4).map fun i => (cellAt regs (4 * x.2 + i)).val.toNat * 2 ^ (32 * i)).foldl (· + ·) 0))

/-- A saved image loses its tags of a space and generation. -/
def Saved.revoke (bad : QWord → Bool) (x : Saved) : Saved :=
  { x with
    groups := x.groups.map fun (g : Group) => ({ g with
      stags := clearQuads bad g.sregs g.stags
      fibres := g.fibres.map fun (f : Fibre) => ({ f with vtags := clearQuads bad f.vregs f.vtags } : Fibre) } : Group)
    block := { x.block with caps := x.block.caps.map fun c => (c.1, c.2 && !bad c.1) }
    tags := x.tags.filter fun o => !bad (quadIn x.bytes o) }

/-- The tags that the sweep clears in lines of the context. -/
def L1Line.revoke (bad : QWord → Bool) (l : L1Line) : L1Line :=
  { l with tags := l.tags.zipIdx.map fun x => x.1 && !bad (BitVec.ofNat 128 (leNat ((l.bytes.drop (16 * x.2)).take 16))) }

def execRevoke (s : State) : Res :=
  runCommand .revoke true true (fun _ r s =>
    let n := recCtx r
    let sp := recField r 2 1
    if 6 < sp then .refuse .badArg
    else if s.holdsCluster n then .refuse .busy
    else
      let gen := (s.curGen n sp + 1) % 4096
      let bad := capIs sp gen
      let mine := fun (k : Nat) => ((s.ctx? n).map fun c => c.memory.any fun m => decide (m.1 ≤ k) && decide (k < m.1 + m.2)).getD false
      let tags := s.tags.filter fun g => !(mine (16 * g) && bad (BitVec.ofNat 128 (s.numAt (16 * g) 16)))
      let s := { s with tags := tags, l1 := s.l1.map fun (l : L1Line) => if l.ctx = n then l.revoke bad else l }
      .done (s.updCtx n fun c => { c with gens := c.gens.set sp gen, saved := c.saved.map (Saved.revoke bad) }) []) s

/-- PREEMPT: completes when no cluster of the context is being pre-empted. -/
def execPreempt (s : State) : Res :=
  runCommand .preempt true true (fun _ r s =>
    if s.holdsCluster (recCtx r) then
      .later { s with held := s.held.map fun h => if h.ctx = recCtx r then { h with preempt := true } else h }
    else .done s []) s

/-! Debug commands (spec/22, R394, R395, R402). -/

/-- The block that a record names: BLKX in bytes 19:16, BLKYZ in bytes 23:20. -/
def State.namedBlock (s : State) (r : CmdRecord) : Option Block :=
  s.blocks.find? fun b => b.ctx == recCtx r && b.x == recField r 16 4 && b.yz.toNat == recField r 20 4 && !b.ended

/-- A wait is over that has ended while the block was stopped: the counter's target has been met, the tokens have been granted. -/
def State.waitOver (s : State) (g : Group) (f : Fibre) : Wait → Bool
  | .counter => !(s.waiters.any fun w => w.group == g.id && w.lanes.contains f.lane && !w.woken)
  | .token => !((s.core g.core).macqs.any fun w => w.group == g.id && w.lanes.contains f.lane && !w.granted)
  | _ => false

/-- A stopped block goes on: fibres at an armed BRK go on after it, waits end that have been met, and the list of copies starts
anew. -/
def State.letRun (s : State) (bid : Nat) (m : Mode) : State :=
  let s := s.updBlock bid fun b => { b with mode := m, copyLog := [] }
  let go := fun (g : Group) (f : Fibre) => match f.wait with
    | some (.brk a) => { f with wait := none, pc := a }
    | some w => if s.waitOver g f w then { f with wait := none } else f
    | none => f
  { s with groups := s.groups.map fun g => if g.block = bid then { g with fibres := g.fibres.map (go g) } else g }

def execStop (s : State) : Res :=
  runCommand .stop true true (fun _ r s =>
    match s.namedBlock r with
    | none => .refuse .badArg
    | some b => .done (s.stopBlock b.id .command 0xFF 0 b.core 0) []) s

def execStep (s : State) : Res :=
  runCommand .step true true (fun _ r s =>
    match s.namedBlock r with
    | none => .refuse .badArg
    | some b =>
      let n := recField r 24 1
      let bar := barAt b.bars n
      if b.mode ≠ .stopped ∨ 16 ≤ n ∨ bar.member = 0 then .refuse .badArg
      else .done (s.letRun b.id (.stepping (Fin.ofNat 16 n) bar.gen)) []) s

def execResume (s : State) : Res :=
  runCommand .resume true true (fun _ r s =>
    match s.namedBlock r with
    | none => .refuse .badArg
    | some b => if b.mode = .stopped then .done (s.letRun b.id .running) [] else .done s []) s

/-- DUMP: completes when the bale has been written. -/
def execDump (s : State) : Res :=
  runCommand .dump true true (fun _ r s =>
    match s.namedBlock r with
    | none => .refuse .badArg
    | some b =>
      if b.mode ≠ .stopped then .refuse .badArg
      else .later (s.updBlock b.id fun b => { b with baleWanted := true, baleDone := false })) s

/-- An accepted command has nothing more to wait for. A claim waits for its window. -/
def State.cmdOver (s : State) (o : OpenCmd) : Bool :=
  match commandOf o.record with
  | some .preempt => !(s.held.any fun h => h.ctx == recCtx o.record && h.preempt)
  | some .dump => !(s.blocks.any fun b => b.ctx == recCtx o.record && b.x == recField o.record 16 4 && b.yz.toNat == recField o.record 20 4 &&
      b.baleWanted && !b.isFaulting)
  | _ => false

/-- Completes the commands that are over. -/
def State.settleCmds (s : State) : State :=
  (s.openCmds.filter s.cmdOver).foldl (fun s o => (s.complete o .ok).reply o.master (recNonce o.record) .ok []) s

/-! READ, ATTEST, FWLOAD (spec/24, R422, R425, R426). -/

/-- The sixteen counters of a core, each the sum of its four slots (spec/22, R399). -/
def State.coreLeaves (s : State) (core : Nat) : List Byte :=
  (List.range 16).flatMap fun i => leBytes 8 (((List.range 4).map fun k => (s.slotOf core k).leaves.getD i 0).foldl (· + ·) 0)

/-- What READ returns: byte 2 selects, bytes 23:16 are an offset, bytes 31:24 a core (notes/assumptions/22). -/
def State.readOut (s : State) (r : CmdRecord) : Option (List Byte) :=
  let off := recField r 16 8
  match recField r 2 1 with
  | 0 => some ((List.range 32).map fun i => s.byteAt (journalBase + (off + i) % 2 ^ 26))
  | 1 => some ((List.range 32).map fun i => Config.freeByte (s.tick * 2 ^ 64 + off + i))
  | 2 => (s.ctx? (recCtx r)).bind fun c =>
      (s.keysOf (dieSite 0) c.num (c.control.flog + off) 32 .any).map fun ks => ks.map s.byteAt
  | 3 => if coreExists (recField r 24 8) then some (((s.coreLeaves (recField r 24 8)).drop off).take 32) else none
  | _ => none

def execRead (s : State) : Res :=
  runCommand .read false false (fun _ r s => match s.readOut r with
    | some bs => .done s (bs ++ List.replicate (32 - bs.length) 0)
    | none => .refuse .badArg) s

/-- The report: the challenge, the measurements, the journal's SEQ. A kernel object is measured over its sections together
(notes/assumptions/123). -/
def State.report (s : State) (r : CmdRecord) : List Byte :=
  (recBytes r).drop 16 |>.take 32 |>.append (leBytes 32 (Config.measure s.firmware).toNat) |>.append
    ((s.ctxs.filter (·.resident)).flatMap fun c => c.kernels.flatMap fun k => sha256 k.sections.flatten) |>.append
    (leBytes 8 (s.jseq - 1))

def execAttest (s : State) : Res :=
  runCommand .attest false false (fun _ r s =>
    if 2 ^ 20 ≤ s.keysUsed then .refuse .exhausted
    else .done { s with keysUsed := s.keysUsed + 1 } (s.report r ++ Config.attestSign s.keysUsed (s.report r))) s

/-- FWLOAD: the image, which bytes 23:16 name, is installed when it verifies; it runs after the next reset. -/
def execFwload (s : State) : Res :=
  runCommand .fwload true false (fun _ r s =>
    let n := recField r 16 8
    if Config.firmwareOk n then .done { s with staged := some n } [] else .refuse .badArg) s

/-- MODULE_RESET: the boot ROM verifies the staged firmware, or the one that ran; the rest is as after reset. -/
def execModuleReset (s : State) : Res :=
  match s.inbox with
  | .reset :: _ =>
    let fw := s.staged.getD s.firmware
    .next { State.reset with
      firmware := fw, fwOk := Config.firmwareOk fw, keysUsed := s.keysUsed, tick := s.tick, nextId := s.nextId, inbox := s.inbox.tail }
  | _ => .next s

/-! Host accesses (spec/24, R420). -/

/-- The die that serves a host access: that of its UCIe module (spec/24, R420). -/
def HostAccess.die (x : HostAccess) : Nat := if x.far then 8 else 0

/-- The keys of a host access; none when it gets an error response, as over a bridge that is down. -/
def State.hostKeys (s : State) (x : HostAccess) (n : Nat) (need : Need) : Option (List Nat) :=
  let ks : Option (List Nat) := match x.addr with
  | .virt ctx va => if ((s.ctx? ctx).map (·.resident)).getD false then s.keysOf (dieSite x.die) ctx va n need else none
  | .phys m pa => if s.owner = some m && decide (pa + n ≤ 2 ^ 52) then some ((List.range n).map (pa + ·)) else none
  ks.filter fun ks => ks.all (s.reaches x.die)

def HostAccess.at_ (x : HostAccess) : Nat := match x.addr with | .virt _ va => va | .phys _ pa => pa

/-- An access to a virtual range has to wait: an all-bank pseudo-channel holds its walk or its bytes (spec/19, R365). -/
def State.virtHeld (s : State) (site ctx va n : Nat) (need : Need) : Bool :=
  (List.range n).any fun i => match s.translate site ctx (va + i) need with
    | .hold => true
    | .ok k => s.heldByLoft k
    | _ => false

def State.hostFail (s : State) (x : HostAccess) (n : Nat) : State :=
  let s := match x.addr with | .virt ctx va => s.noteRange ctx va n | .phys _ _ => s
  { s with replies := s.replies ++ [.hostError], errlog := s.errlog ++ [.host x.at_] }

/-- A host access waits for an all-bank pseudo-channel. -/
def State.hostHeld (s : State) (x : HostAccess) (n : Nat) (need : Need) : Bool :=
  match x.addr with
  | .virt ctx va => ((s.ctx? ctx).map (·.resident)).getD false && s.virtHeld (dieSite x.die) ctx va n need
  | .phys _ pa => (List.range n).any fun i => s.heldByLoft (pa + i)

/-- HOST_READ: a read of poisoned data carries a poison response. -/
def execHostRead (s : State) : Res :=
  match s.inbox with
  | .hostRead x :: _ =>
    let t := s.popInput
    if s.hostHeld x x.len .rd then .next s else
    match s.hostKeys x x.len .rd with
    | none => .next (t.hostFail x x.len)
    | some ks =>
      let bad := ks.any s.poisonAt
      let t := { t with replies := t.replies ++ [.hostRead (ks.map s.byteAt) bad] }
      .next (if bad then { t with errlog := t.errlog ++ [.poisonRead x.at_] } else t)
  | _ => .next s

/-- HOST_WRITE: acknowledged once its home slice has performed it. -/
def execHostWrite (s : State) : Res :=
  match s.inbox with
  | .hostWrite x :: _ =>
    let t := s.popInput
    if s.hostHeld x x.data.length .wr then .next s else
    match s.hostKeys x x.data.length .wr with
    | none => .next (t.hostFail x x.data.length)
    | some ks =>
      let t := (t.setKeys ks x.data).settleWaiters
      .next { t with replies := t.replies ++ [.hostDone] }
  | _ => .next s

/-! Peer accesses (spec/24, R417, R418). -/

def PeerOp.size : PeerOp → Nat
  | .read n => n
  | .write bs => bs.length
  | .atom _ n _ _ => n
  | .counterAdd _ => 8

def Window.allows (w : Window) : PeerOp → Bool
  | .read _ => w.ld
  | .write _ => w.st
  | .atom _ _ _ _ => w.atom
  | .counterAdd _ => w.ctr

/-- The window that an access lies in with the permission it needs. -/
def State.windowFor (s : State) (x : PeerAccess) : Option Window :=
  s.windows.find? fun w => w.port == x.port && decide (w.base ≤ x.addr) && decide (x.addr + x.op.size ≤ w.base + w.len) && w.allows x.op

def PeerOp.need : PeerOp → Need
  | .read _ => .rd
  | .write _ => .wr
  | .atom _ _ _ _ => .wr
  | .counterAdd _ => .add

/-- What an inbound access returns: its data, and whether they are poisoned (spec/10, R229). -/
def State.peerData (s : State) (x : PeerAccess) (ks : List Nat) : List Byte × Bool :=
  match x.op with
  | .read _ => (ks.map s.byteAt, ks.any s.poisonAt)
  | .atom _ n _ _ => (leBytes n (leNat (ks.map s.byteAt)), ks.any s.poisonAt)
  | _ => ([], false)

/-- Performs an access at its home, an add among the others of its counter (spec/13, R283). -/
def State.peerAct (s : State) (w : Window) (x : PeerAccess) (ks : List Nat) : State :=
  match x.op with
  | .read _ => s
  | .write bs => (s.setKeys ks bs).settleWaiters
  | .atom op n d e => (s.setKeys ks (leBytes n (op.fn (8 * n) (leNat (ks.map s.byteAt)) d.toNat e.toNat))).settleWaiters
  | .counterAdd d => s.applyAdd ⟨0, ks.headD 0, x.addr, w.ctx, d.toNat, none, [], none, 0, false, 0⟩

/-- Where the accesses of a port are translated: at the die that serves it. -/
def PeerAccess.die (x : PeerAccess) : Nat := Config.portDie x.port.val % 16

/-- SUBRY_INBOUND: the access is acknowledged once it has been performed. -/
def execSubryInbound (s : State) : Res :=
  match s.inbox with
  | .peer x :: _ =>
    let t := s.popInput
    let fail : State := { t with replies := t.replies ++ [.peer x.port [] false true], errlog := t.errlog ++ [.peer x.port x.addr] }
    match s.windowFor x with
    | none => .next fail
    | some w =>
      if s.virtHeld (dieSite x.die) w.ctx x.addr x.op.size x.op.need then .next s else
      match (s.keysOf (dieSite x.die) w.ctx x.addr x.op.size x.op.need).filter fun ks => ks.all (s.reaches x.die) with
      | none => .next (fail.noteRange w.ctx x.addr x.op.size)
      | some ks =>
        let d := t.peerData x ks
        let t := t.peerAct w x ks
        .next { t with replies := t.replies ++ [.peer x.port d.1 d.2 false] }
  | _ => .next s

/-! Links, heat, storage errors (spec/24, R427, R428; spec/10, R228). -/

/-- FLIT_REPLAY: the replay is counted. -/
def execFlitReplay (s : State) : Res :=
  match s.inbox with
  | .flitReplay l :: _ => let t := s.popInput; .next { t with errlog := t.errlog ++ [.flitReplay l] }
  | _ => .next s

/-- LINK_DOWN: accesses that need the link complete as PAGE_FAULT on loads and as error acknowledgements on writes. -/
def execLinkDown (s : State) : Res :=
  match s.inbox with
  | .linkDown l :: _ =>
    let t := s.popInput
    .next { t with down := if t.down.contains l then t.down else t.down ++ [l], errlog := t.errlog ++ [.linkDown l] }
  | _ => .next s

/-- Readings at which the control processor pre-empts every context. -/
def Sensors.hot (x : Sensors) : Bool := decide (45 < x.inlet) || x.dies.any fun t => decide (110 < t)

/-- THERMAL. -/
def execThermal (s : State) : Res :=
  match s.inbox with
  | .thermal x :: _ =>
    let t := s.popInput
    if x.hot then
      .next { t with held := t.held.map fun h => { h with preempt := true }
                     replies := if t.owner.isSome then t.replies ++ [.thermal] else t.replies }
    else .next t
  | _ => .next s

/-- THERMAL_POWER_DOWN: a die at 120 degrees. -/
def execThermalPowerDown (s : State) : Res :=
  match s.inbox with
  | .thermal x :: _ =>
    if x.dies.any (fun t => decide (120 ≤ t)) then .next { s.popInput with powered := false } else .next s
  | _ => .next s

def poisonCell (l : List RegCell) (i : Nat) : List RegCell := l.set i { cellAt l i with poison := true }

/-- What an uncorrectable error marks poisoned. -/
def State.markPoison (s : State) (x : StorageError) : State :=
  match x with
  | .corrected _ => s
  | .memory pa => s.setPoison pa true
  | .scratch core off => s.setPoison (scratchKey core off) true
  | .register g l r => s.updGroup g fun g => g.updFibre l fun f => if r < f.vregs.length then { f with vregs := poisonCell f.vregs r } else f
  | .scalar g r => s.updGroup g fun g => { g with sregs := poisonCell g.sregs r.val }
  | .tile g t => s.updGroup g fun g => { g with tiles := match g.tiles[t.val]? with
      | some x => g.tiles.set t.val { x with poison := true }
      | none => g.tiles }
  | .l1 core ctx va => { s with l1 := s.l1.map fun (l : L1Line) => if l.core = core ∧ l.ctx = ctx ∧ l.va = va / 128 * 128 then
      { l with poison := l.poison.set (va % 128 / 16) true } else l }
  | .quadrant core q => s.updCore core fun c => c.setQuad q { c.quad q with poison := true }

/-- ECC_ERROR. -/
def execEccError (s : State) : Res :=
  match s.inbox with
  | .storage x :: _ =>
    let t := s.popInput
    let note : ErrRec := match x with | .corrected u => .corrected u | y => .uncorrected y
    .next (({ t with errlog := t.errlog ++ [note] } : State).markPoison x)
  | _ => .next s

end Sys2Proof.Machine
end

