-- ==== Sys2Proof/Machine/Lanes.lean ====
section
/-! DEFINITION. Instructions that read other lanes: shuffle, vote, match, scan and reduce (spec/09, R196 to R200; spec/05, R124). -/
namespace Sys2Proof.Machine

/-- SHFL: the value of the lane that B names, when it is in the batch (spec/09, R197). -/
def execShfl (o : Rrr) (s : State) : Res :=
  .next (s.issue ⟨[.dest o.d (regs o.x), .source o.a (regs o.x) o.fa, .source o.b 1 o.fb], [], false, .named o.b⟩ fun _ g _ fs =>
    { outs := fs.map fun f =>
        let src := (fs.find? fun x => x.lane.val = (g.word f o.b).toNat).getD f
        (f, .done { words := outWords o.x (g.num src o.x o.a) }) })

/-- The mask of batch lanes in which a predicate holds. -/
def ballot (p : Fin 8) (fs : List Fibre) : Word := laneMask ((fs.filter fun f => f.predBit p).map (·.lane))

def vote (p : Fin 8) (d : Reg) (h : List Fibre → Word) (s : State) : Res :=
  .next (s.issue ⟨[.dest d 1], [p], false, .own⟩ fun _ _ _ fs => { outs := fs.map fun f => (f, .done { words := [h fs] }) })

def execVoteBallot (p : Fin 8) (d : Reg) (s : State) : Res := vote p d (ballot p) s
def execVoteAny (p : Fin 8) (d : Reg) (s : State) : Res := vote p d (fun fs => w32 (nb (fs.any (·.predBit p)))) s
def execVoteAll (p : Fin 8) (d : Reg) (s : State) : Res := vote p d (fun fs => w32 (nb (fs.all (·.predBit p)))) s

def execMatchLanes (o : Rr) (s : State) : Res :=
  .next (s.issue ⟨[.dest o.d 1, .source o.a (regs o.x) o.fa], [], false, .every⟩ fun _ g _ fs =>
    { outs := fs.map fun f =>
        (f, .done { words := [laneMask ((fs.filter fun x => g.num x o.x o.a == g.num f o.x o.a).map (·.lane))] }) })

/-! The fixed tree (spec/05, R124). -/

/-- A combining step on codes, with the flags it raises. -/
abbrev Combine := Nat → Nat → Nat × BitVec 6

/-- One level of the tree; a node with one child passes it on. -/
def treeLevel (op : Combine) : List (Option Nat) → List (Option Nat) × BitVec 6
  | a :: b :: r =>
    let (rest, fl) := treeLevel op r
    match a, b with
    | some x, some y => (some (op x y).1 :: rest, fl ||| (op x y).2)
    | some x, none => (some x :: rest, fl)
    | none, y => (y :: rest, fl)
  | l => (l, 0)

/-- The tree over 32 lanes: five levels. -/
def treeOf (op : Combine) (vals : List (Option Nat)) : Option Nat × BitVec 6 :=
  let r := (List.range 5).foldl (fun (acc : List (Option Nat) × BitVec 6) _ =>
    let (l, fl) := treeLevel op acc.1
    (l, acc.2 ||| fl)) (vals, 0)
  ((r.1.head?).join, r.2)

/-- Width and kind of a type code: 64-bit, signed, floating (spec/09, Table 9.3). -/
def scanWide (ty : Nat) : Bool := ty == 2 || ty == 3 || ty == 5
def scanFloat (ty : Nat) : Bool := ty == 4 || ty == 5

/-- Integer steps. -/
def scanInt (op ty : Nat) : Combine := fun a b =>
  let w := if scanWide ty then 64 else 32
  let sg := ty == 0 || ty == 2
  let le := if sg then decide (signed w a ≤ signed w b) else decide (a ≤ b)
  (match op with
   | 0 => opAdd w a b
   | 1 => if le then a else b
   | 2 => if le then b else a
   | 3 => Nat.land a b
   | 4 => Nat.lor a b
   | _ => Nat.xor a b, 0)

/-- Floating steps at .F32 and .F64, IEEE or rational. -/
def scanFlt (op : Nat) (wide rat : Bool) (rnd : Rnd) : Combine := fun a b =>
  let L : Lay := if wide then .f64 else .f32
  let F : Fmt := if wide then .f64 else .f32
  if rat then
    let W := ratW wide
    let x := ratRead W a
    let y := ratRead W b
    let r := match op with
      | 6 => ratOp numAdd false wide rnd x.1 y.1
      | 7 => ((x.1.minOf y.1).reduce, 0)
      | _ => ((x.1.maxOf y.1).reduce, 0)
    (ratCode W r.1, r.2 ||| x.2 ||| y.2)
  else
    let x := L.read a
    let y := L.read b
    let r := match op with
      | 6 => numAdd rnd x y x
      | 7 => numMin rnd x y x
      | _ => numMax rnd x y x
    ieeeOut F rnd [x, y] r

/-- The step of a SCAN or REDG under the modes of its lowest lane (spec/09, R200). -/
def scanStep (o : Scan) (lead : Fibre) : Combine :=
  if scanFloat o.ty.val then scanFlt o.op.val (scanWide o.ty.val) lead.rat lead.rnd else scanInt o.op.val o.ty.val

/-- A lane's value as the tree takes it in: every result is canonical, so a NaN becomes the canonical one and a rational its
canonical form, and the operand's own flags are raised (spec/05, R109, R118; notes/assumptions/94). -/
def scanLeaf (o : Scan) (lead : Fibre) (v : Nat) : Nat × BitVec 6 :=
  let wide := scanWide o.ty.val
  if !scanFloat o.ty.val then (v, 0)
  else if lead.rat then
    let x := ratRead (ratW wide) v
    (ratCode (ratW wide) x.1.reduce, x.2)
  else
    let L : Lay := if wide then .f64 else .f32
    match L.read v with
    | .nan q => (L.nanCode, snan [.nan q])
    | _ => (v, 0)

/-- The values of the batch by lane, up to lane `upto`. -/
def laneVals (g : Group) (fs : List Fibre) (o : Scan) (lead : Fibre) (upto : Nat) : List (Option (Nat × BitVec 6)) :=
  (List.range 32).map fun l => if upto < l then none else
    (fs.find? fun f => f.lane.val = l).map fun f => scanLeaf o lead (g.num f (scanWide o.ty.val) o.a)

/-- The combination of some lanes, with the flags of its operands and of its steps. -/
def scanTree (o : Scan) (lead : Fibre) (vals : List (Option (Nat × BitVec 6))) : Option Nat × BitVec 6 :=
  let r := treeOf (scanStep o lead) (vals.map fun v => v.map (·.1))
  (r.1, vals.foldl (fun fl v => fl ||| (v.map (·.2)).getD 0) r.2)

/-- SCAN and REDG. In rational mode they are long-latency producers; an enabled flag marks every destination faulted. -/
def scanBody (fm : Form) (o : Scan) (redg : Bool) : State → Group → Cur → List Fibre → Body :=
  fun _ g _ fs =>
    match fs with
    | [] => { outs := [] }
    | lead :: _ =>
      let wide := scanWide o.ty.val
      let res := fun (f : Fibre) => scanTree o lead (laneVals g fs o lead (if redg then 31 else f.lane.val))
      let all := fs.foldl (fun fl f => fl ||| (res f).2) 0
      let mark := arithTrap lead all
      let words := fun (f : Fibre) => outWords wide ((res f).1.getD 0)
      if scanFloat o.ty.val && lead.rat then
        { outs := fs.map fun f => (f, .done { pend := true })
          effect := fun t => t.addProducer g.id .rational [] (fs.map (·.lane)) none
            (.ready ((fm.dests (some lead.lane) fs).map fun fd => ⟨fd.2, words fd.1, false, false, mark, (res fd.1).2, none⟩)) }
      else { outs := fs.map fun f => (f, .done { words := words f, mark := mark, flags := (res f).2 }) }

def formScan (o : Scan) (x : Cross) : Form :=
  let n := if scanWide o.ty.val then 2 else 1
  ⟨[.dest o.d n, .source o.a n o.fa], [], false, x⟩

def execScan (o : Scan) (s : State) : Res := .next (s.issue (formScan o .upTo) (scanBody (formScan o .upTo) o false))
def execRedg (o : Scan) (s : State) : Res := .next (s.issue (formScan o .every) (scanBody (formScan o .every) o true))

end Sys2Proof.Machine
end

