-- ==== Sys2Proof/Machine/Lofts.lean ====
section
/-! DEFINITION. LOFT, the commands of the lofts, LMERGE (spec/19, R364 to R370). -/
namespace Sys2Proof.Machine

/-! Command words (spec/19, Table 19.9). -/

def cmdOp (c : DWord) : Nat := c.toNat / 2 ^ 60
/-- Bits `lo` up to `lo + n - 1`. -/
def cmdFld (c : DWord) (lo n : Nat) : Nat := c.toNat / 2 ^ lo % 2 ^ n

/-- An opcode of Table 19.9, its zero fields 0, and for ATTN an NVC up to 4. -/
def cmdOk (c : DWord) : Bool :=
  match cmdOp c with
  | 2 => cmdFld c 0 46 == 0
  | 3 => cmdFld c 0 44 == 0
  | 4 => cmdFld c 0 47 == 0
  | 5 => cmdFld c 0 55 == 0
  | 6 => decide (cmdFld c 9 3 ≤ 4)
  | op => decide (op ≤ 7) && cmdFld c 0 60 == 0

/-! LOFT (spec/19, R369). -/

/-- Whether a context holds a loft. -/
def State.holdsLoft (s : State) (ctx n : Nat) : Bool := ((s.ctx? ctx).map fun c => c.lofts.contains n).getD false

/-- The checks of one fibre in order: its number, its context, the counter, the word. -/
def State.loftCheck (s : State) (g : Group) (f : Fibre) (o : QuadReg) : Access :=
  let n := (g.word f o.d).toNat
  if 2048 ≤ n then .trap ⟨.illegal, d64 n⟩
  else if !s.holdsLoft (s.ctxOf g) n then .trap ⟨.capPerm, d64 (n + 2 ^ 32 * 0xFFFFFFFF)⟩
  else
    match s.counterAt g f o.a with
    | .trap t => .trap t
    | .replay va => .replay va
    | .hold => .hold
    | .ok va k => if cmdOk (g.dword f o.b) then .ok va k else .trap ⟨.illegal, g.dword f o.b⟩

def execLoft (o : QuadReg) (s : State) : Res :=
  .next (s.issue ⟨[.source o.d 1 false, .quad o.a 0 o.fa, .source o.b 2 o.fb], [], false, .own⟩
    (withOverflow fun s g _ fs =>
      let lanes := fs.map fun f => (f, s.loftCheck g f o)
      let wait : Option Wait :=
        if lanes.any (fun x => match x.2 with | .replay _ => true | _ => false) then some .replay else
        firstWait (List.flatten [
          if lanes.any (fun x => match x.2 with | .hold => true | _ => false) then [.held] else [],
          if s.released g .module then [] else [.release],
          if s.acquiring g then [.producer .memory] else []])
      let note := fun (t : State) =>
        (lanes.filterMap fun x => match x.2 with | .trap t => some t | _ => none).foldl (fun t x => t.notePage (s.ctxOf g) x)
          (t.hearDeclined g.id (fs.map (·.lane)))
      { outs := lanes.map fun x => (x.1, match x.2 with
          | .trap t => .trap t 0
          | _ => match wait with | some w => .wait w | none => .done {})
        effect := fun t =>
          let t := note t
          let go := lanes.filterMap fun x => match x.2 with | .ok va (some k) => some (x.1, va, k) | _ => none
          if go.isEmpty then t else
          let t := go.foldl (fun t x => t.noteXlat g 0 x.2.1) (t.sideEffect g)
          { t with loftq := t.loftq ++ go.map fun x => ⟨(g.word x.1 o.d).toNat, t.ctxOf g, g.dword x.1 o.b, x.2.2, x.2.1⟩ }
        onWait := fun t => lanes.foldl (fun t x => match x.2 with | .replay va => t.awaitReplay g [x.1.lane] va | _ => t) (note t) }))

/-! Columns of a bank row (spec/19, R364, R365). -/

/-- The halves of a column, as the loft reads the bank. -/
def State.loftColumn (s : State) (loft row bank col : Nat) : List (BitVec 16) :=
  let a := loftAddr loft row col bank 0
  (List.range 16).map fun i => BitVec.ofNat 16 ((memGet s.mem (a + 2 * i)).toNat + 256 * (memGet s.mem (a + 2 * i + 1)).toNat)

/-- Whether a granule of a column is poisoned. -/
def State.loftPoison (s : State) (loft row bank col : Nat) : Bool := s.poisonIn (loftAddr loft row col bank 0) 32

/-- The home slice drops a line, even a dirty one. -/
def State.dropLine (s : State) (line : Nat) : State :=
  let gone := (s.dirty.filter fun c => c.1 / 128 == line).map fun c => c.1 / 16
  { s with
    dirty := s.dirty.filter (fun c => c.1 / 128 != line)
    tags := s.tags.filter (fun g => !gone.contains g)
    dropped := if s.dropped.contains line then s.dropped else line :: s.dropped }

/-- The loft writes eight words to a column. -/
def State.loftWrite (s : State) (loft row bank col : Nat) (ws : List Word) : State :=
  let a := loftAddr loft row col bank 0
  (s.dropLine (a / 128)).setBytes a (ws.flatMap fun w => leBytes 4 w.toNat)

/-- The lines that a command wrote. -/
def loftLines (loft row : Nat) (cells : List (Nat × Nat)) : List Nat :=
  (cells.map fun x => loftAddr loft row x.2 x.1 0 / 128).eraseDups

/-! Arithmetic of the lofts (spec/19, R367). -/

def f32Of : Option Num → Num
  | some x => Lay.f32.read (Lay.f32.round .rne x).1
  | none => .nan false
def f32Add (a b : Num) : Num := f32Of (a.add? .rne b)
def f32Sub (a b : Num) : Num := f32Of (a.add? .rne b.negate)
def f32Mul (a b : Num) : Num := f32Of (a.mul? b)
def f32Code (x : Num) : Word := w32 (Lay.f32.round .rne x).1

/-- The loft's exponential. -/
def lexp (y : Num) : Num :=
  match y with
  | .nan _ => .nan false
  | .inf true => .fin false 0 1
  | _ => if y.isZero then .fin false 1 1 else Lay.f32.read (sfuF32 .ex2 (f32Mul y (Lay.f32.read 0x3FB8AA3B))).1

/-- A triple: maximum, sum, accumulator elements, status. -/
structure Triple where
  m : Num
  s : Num
  acc : List Num
  st : Bool
  deriving DecidableEq, Repr

def Triple.bad (n : Nat) : Triple := ⟨.inf true, .fin false 0 1, List.replicate n (.fin false 0 1), true⟩

/-- merge of two triples. -/
def Triple.merge (a b : Triple) : Triple :=
  if a.st || b.st then .bad a.acc.length else
  let m : Num := if a.m.isNan || b.m.isNan then .nan false else a.m.maxOf b.m
  let one : Num := .fin false 1 1
  let low := a.m == .inf true && b.m == .inf true
  let x := if low then one else lexp (f32Sub a.m m)
  let y := if low then one else lexp (f32Sub b.m m)
  let mix := fun (p q : Num) => f32Add (f32Mul p x) (f32Mul q y)
  ⟨m, mix a.s b.s, (a.acc.zip b.acc).map fun p => mix p.1 p.2, false⟩

/-! Commands (spec/19, R366). -/

/-- A change of a loft's lanes by number. -/
def Loft.mapLanes (l : Loft) (f : Nat → LoftLane → LoftLane) : Loft := { l with lanes := l.lanes.zipIdx.map fun x => f x.2 x.1 }

/-- The first command of a loft, when it has this opcode. -/
def State.loftHead (s : State) (n op : Nat) : Option LoftCmd :=
  match s.loftq.find? (fun c => c.loft = n) with
  | some c => if cmdOp c.cmd = op then some c else none
  | none => none

/-- The command leaves and adds to its counter. -/
def State.loftDone (s : State) (c : LoftCmd) (amount : Nat) (lines : List Nat) : State :=
  ({ s with loftq := s.loftq.erase c }.putAdd (c.loft / 128) c.ctr c.ctrVa c.ctx amount none lines).settleWaiters

/-- A command that its loft's mode or row cannot run. -/
def State.loftFail (s : State) (c : LoftCmd) : State :=
  ({ s with errlog := s.errlog ++ [.loft c.loft c.cmd] } : State).loftDone c (2 ^ 32) []

/-- Runs the head command of a loft. -/
def loftRun (n op : Nat) (run : LoftCmd → Loft → State → State) (s : State) : Res :=
  match s.loftHead n op with
  | none => .next s
  | some c => .next (run c (s.loft n) s)

/-- A command that needs AB mode. -/
def loftAb (n op : Nat) (run : LoftCmd → Loft → State → State) (s : State) : Res :=
  loftRun n op (fun c l s => if l.allBank then run c l s else s.loftFail c) s

/-- A command that needs an open row too. -/
def loftOpen (n op : Nat) (run : LoftCmd → Loft → Nat → State → State) (s : State) : Res :=
  loftAb n op (fun c l s => match l.row with | some r => run c l r s | none => s.loftFail c) s

/-- MODE.AB: in SB mode no line of the pseudo-channel is dirty over its memory. -/
def execModeAb (loft : Nat) (s : State) : Res :=
  loftRun loft 0 (fun c l s => (s.setLoft { l with allBank := true, lines := s.tick }).loftDone c 1 []) s

/-- Writes back the dirty lines of a pseudo-channel. -/
def State.writeBack (s : State) (loft : Nat) : State :=
  let mine := fun (c : Host.Cell) => isDevice c.1 && loftOf c.1 == loft
  { s with
    mem := (s.dirty.filter mine).foldl (fun m c => memSet m c.1 c.2) s.mem
    dirty := s.dirty.filter (fun c => !mine c)
    dropped := s.dropped.filter fun l => loftOf (l * 128) != loft }

/-- Engine writes that were held over a pseudo-channel are performed in order. -/
def State.performLate (s : State) (loft : Nat) : State :=
  let mine := fun (c : Host.Cell) => loftOf c.1 == loft
  (s.late.filter mine).foldl (fun s c => s.setByte c.1 c.2) { s with late := s.late.filter fun c => !mine c }

/-- MODE.SB: the row closes, and held accesses go on. -/
def execModeSb (loft : Nat) (s : State) : Res :=
  loftRun loft 1 (fun c l s =>
    ((((s.setLoft { l with allBank := false, row := none }).writeBack loft).performLate loft).loftDone c 1 []).wakeAll Wait.retries) s

def execBcast (loft : Nat) (s : State) : Res :=
  loftOpen loft 2 (fun c l row s =>
    let v := cmdFld c.cmd 56 4
    let sb := cmdFld c.cmd 52 4
    let own := cmdFld c.cmd 51 1 == 1
    let col := cmdFld c.cmd 46 5
    (s.setLoft (l.mapLanes fun k x => { x with regs := x.regs.set v (s.loftColumn loft row (if own then k else sb) col) })).loftDone c 1 []) s

def execAct (loft : Nat) (s : State) : Res :=
  loftAb loft 3 (fun c l s => (s.setLoft { l with row := some (cmdFld c.cmd 44 16) }).loftDone c 1 []) s

/-- The products of two vectors of binary16. -/
def halfProducts (a b : List (BitVec 16)) : List Num :=
  (a.zip b).map fun x => prodNum (Lay.f16.read x.1.toNat) (Lay.f16.read x.2.toNat)

def execMac (loft : Nat) (s : State) : Res :=
  loftOpen loft 4 (fun c l row s =>
    let col := cmdFld c.cmd 55 5
    let v := cmdFld c.cmd 51 4
    let a := cmdFld c.cmd 48 3
    let z := cmdFld c.cmd 47 1 == 1
    (s.setLoft (l.mapLanes fun k x =>
      let old : Num := if z then .fin false 0 1 else Lay.f32.read (x.accs.getD a 0).toNat
      { x with accs := x.accs.set a (sumF32 (old :: halfProducts (s.loftColumn loft row k col) (x.regs.getD v []))) })).loftDone c 1 []) s

def execRdacc (loft : Nat) (s : State) : Res :=
  loftOpen loft 5 (fun c l row s =>
    let col := cmdFld c.cmd 55 5
    (l.lanes.zipIdx.foldl (fun s x => s.loftWrite loft row x.2 col x.1.accs) s).loftDone c 1
      (loftLines loft row ((List.range 16).map fun k => (k, col)))) s

def execClr (loft : Nat) (s : State) : Res :=
  loftRun loft 7 (fun c l s => (s.setLoft (l.mapLanes fun _ _ => .fresh)).loftDone c 1 []) s

/-! ATTN (spec/19, R368). -/

/-- The fields of a sweep. -/
structure Sweep where
  loft : Nat
  rk : Nat
  rv : Nat
  rr : Nat
  nv : Nat
  n : Nat
  deriving DecidableEq, Repr

def sweepOf (loft : Nat) (c : DWord) : Sweep :=
  ⟨loft, cmdFld c 44 16, cmdFld c 28 16, cmdFld c 12 16, 2 ^ cmdFld c 9 3, cmdFld c 0 9 + 1⟩

/-- Row and first column of slot `j` from a row. -/
def Sweep.slot (w : Sweep) (r j : Nat) : Nat × Nat := ((r + j / (32 / w.nv)) % 65536, j % (32 / w.nv) * w.nv)

/-- The elements of a slot in a bank. -/
def State.slotVec (s : State) (w : Sweep) (r bank j : Nat) : List (BitVec 16) :=
  let p := w.slot r j
  (List.range w.nv).flatMap fun i => s.loftColumn w.loft p.1 bank (p.2 + i)
def State.slotPoison (s : State) (w : Sweep) (r bank j : Nat) : Bool :=
  let p := w.slot r j
  (List.range w.nv).any fun i => s.loftPoison w.loft p.1 bank (p.2 + i)

/-- One lane's sweep from slot `j` over the slots that remain: its triple and the slots scored. -/
def State.sweepLane (s : State) (w : Sweep) (bank : Nat) (q : List (BitVec 16)) : Nat → Nat → Triple × Nat → Triple × Nat
  | 0, _, x => x
  | k + 1, j, (t, n) =>
    let key := s.slotVec w w.rk bank j
    let t := { t with st := t.st || s.slotPoison w w.rk bank j }
    if key.head? = some 0xFC00 then s.sweepLane w bank q k (j + 1) (t, n) else
    let x := Lay.f32.read (sumF32 (.fin false 0 1 :: halfProducts q key)).toNat
    let m := t.m.maxOf x
    let a := lexp (f32Sub t.m m)
    let b := lexp (f32Sub x m)
    let val := (s.slotVec w w.rv bank j).map fun h => Lay.f16.read h.toNat
    let acc := (t.acc.zip val).map fun p => f32Add (f32Mul p.1 a) (f32Mul b p.2)
    s.sweepLane w bank q k (j + 1)
      (⟨m, f32Add (f32Mul t.s a) b, acc, t.st || s.slotPoison w w.rv bank j⟩, n + 1)

/-- The sweep of every lane. -/
def State.sweepAll (s : State) (w : Sweep) (l : Loft) : List (Triple × Nat) :=
  l.lanes.zipIdx.map fun x =>
    s.sweepLane w x.2 ((x.1.regs.take w.nv).flatten) w.n 0 (⟨.inf true, .fin false 0 1, List.replicate (16 * w.nv) (.fin false 0 1), false⟩, 0)

/-- What a lane's sweep store holds after a sweep. -/
def LoftLane.keep (x : LoftLane) (t : Triple) : LoftLane :=
  let ws := f32Code t.m :: f32Code t.s :: t.acc.map f32Code
  { x with sweep := ws ++ x.sweep.drop ws.length }

/-- The words written: every one a binary32 (spec/19, R368). -/
def sweepWords (ts : List (Triple × Nat)) : List Word :=
  let t := match ts with | [] => Triple.bad 0 | x :: r => r.foldl (fun (a : Triple) (y : Triple × Nat) => a.merge y.1) x.1
  let n := (ts.map (·.2)).foldl (· + ·) 0
  f32Code t.m :: f32Code t.s :: f32Code (.fin false (nb t.st) 1) :: f32Code (.fin false n 1) :: t.acc.map f32Code

/-- Words in units of eight, the last filled with 0. -/
def unitsOf : Nat → List Word → List (List Word)
  | 0, _ => []
  | _, [] => []
  | n + 1, l => (l.take 8 ++ List.replicate (8 - l.length) 0) :: unitsOf n (l.drop 8)

def execAttn (loft : Nat) (s : State) : Res :=
  loftAb loft 6 (fun c l s =>
    let w := sweepOf loft c.cmd
    let ts := s.sweepAll w l
    let ws := sweepWords ts
    let units := (unitsOf ws.length ws).zipIdx
    let kept := l.mapLanes fun k x => match ts[k]? with | some t => x.keep t.1 | none => x
    let s := s.setLoft { kept with row := some w.rr }
    (units.foldl (fun s u => s.loftWrite loft w.rr (u.2 % 16) (u.2 / 16) u.1) s).loftDone c 1
      (loftLines loft w.rr (units.map fun u => (u.2 % 16, u.2 / 16)))) s

/-! LMERGE (spec/19, R370). -/

/-- The triple of a quad. -/
def tripleOf (ws : List Word) : Triple :=
  let n := fun (i : Nat) => Lay.f32.read (ws.getD i 0).toNat
  ⟨n 0, n 1, [n 2], bitAt (ws.getD 3 0).toNat 0⟩

def Triple.words (t : Triple) : List Word := [f32Code t.m, f32Code t.s, f32Code (t.acc.getD 0 (.fin false 0 1)), w32 (nb t.st)]

def execLmerge (o : ThreeQuads) (s : State) : Res :=
  let fm : Form := ⟨[.dest o.d.base 4, .quad o.a 0 o.fa, .quad o.b 0 o.fb], [], false, .own⟩
  .next (s.issue fm fun _ g _ fs =>
    { outs := fs.map fun f => (f, .done { pend := true })
      effect := fun t => if fs.isEmpty then t else
        t.addProducer g.id .memory [] [] none (.ready ((fm.dests ((fs.map (·.lane)).head?) fs).map fun x =>
          ⟨x.2, ((tripleOf (g.words x.1 o.a.base 4)).merge (tripleOf (g.words x.1 o.b.base 4))).words, false, false, none, 0, none⟩)) })

end Sys2Proof.Machine
end

