-- ==== Sys2Proof/Machine/Dispatch.lean ====
section
/-! DEFINITION. The meaning of every operation and event: one arm per constructor, each one call of its meaning. -/
namespace Sys2Proof.Machine

def exec (i : Instr) (s : State) : Host.Outcome State Fault Refusal :=
  match i with
  | .add o => Sys2Proof.Machine.execAdd o s
  | .sub o => Sys2Proof.Machine.execSub o s
  | .mul o => Sys2Proof.Machine.execMul o s
  | .mulhi o => Sys2Proof.Machine.execMulhi o s
  | .mad o => Sys2Proof.Machine.execMad o s
  | .div o => Sys2Proof.Machine.execDiv o s
  | .rem o => Sys2Proof.Machine.execRem o s
  | .min o => Sys2Proof.Machine.execMin o s
  | .max o => Sys2Proof.Machine.execMax o s
  | .and o => Sys2Proof.Machine.execAnd o s
  | .or o => Sys2Proof.Machine.execOr o s
  | .xor o => Sys2Proof.Machine.execXor o s
  | .andn o => Sys2Proof.Machine.execAndn o s
  | .shl o => Sys2Proof.Machine.execShl o s
  | .shr o => Sys2Proof.Machine.execShr o s
  | .sar o => Sys2Proof.Machine.execSar o s
  | .shli o => Sys2Proof.Machine.execShli o s
  | .shri o => Sys2Proof.Machine.execShri o s
  | .sari o => Sys2Proof.Machine.execSari o s
  | .mov o => Sys2Proof.Machine.execMov o s
  | .abs o => Sys2Proof.Machine.execAbs o s
  | .clz o => Sys2Proof.Machine.execClz o s
  | .popc o => Sys2Proof.Machine.execPopc o s
  | .brev o => Sys2Proof.Machine.execBrev o s
  | .bfx o => Sys2Proof.Machine.execBfx o s
  | .bfi o => Sys2Proof.Machine.execBfi o s
  | .lea o => Sys2Proof.Machine.execLea o s
  | .cmp o => Sys2Proof.Machine.execCmp o s
  | .cmpi o => Sys2Proof.Machine.execCmpi o s
  | .sel o => Sys2Proof.Machine.execSel o s
  | .plop o => Sys2Proof.Machine.execPlop o s
  | .movi imm d => Sys2Proof.Machine.execMovi imm d s
  | .movhi imm d => Sys2Proof.Machine.execMovhi imm d s
  | .rdsr n d => Sys2Proof.Machine.execRdsr n d s
  | .wrsr n fa a => Sys2Proof.Machine.execWrsr n fa a s
  | .modeSet rat rnd => Sys2Proof.Machine.execModeSet rat rnd s
  | .addi o => Sys2Proof.Machine.execAddi o s
  | .andi o => Sys2Proof.Machine.execAndi o s
  | .ori o => Sys2Proof.Machine.execOri o s
  | .xori o => Sys2Proof.Machine.execXori o s
  | .br o => Sys2Proof.Machine.execBr o s
  | .call o => Sys2Proof.Machine.execCall o s
  | .ret => Sys2Proof.Machine.execRet s
  | .jr o => Sys2Proof.Machine.execJr o s
  | .nop => Sys2Proof.Machine.execNop s
  | .trap imm => Sys2Proof.Machine.execTrap imm s
  | .rtt => Sys2Proof.Machine.execRtt s
  | .brk imm => Sys2Proof.Machine.execBrk imm s
  | .guard neg p => Sys2Proof.Machine.execGuard neg p s
  | .dref e => Sys2Proof.Machine.execDref e s
  | .addS32Compact o => Sys2Proof.Machine.execAddS32Compact o s
  | .subS32Compact o => Sys2Proof.Machine.execSubS32Compact o s
  | .mulS32Compact o => Sys2Proof.Machine.execMulS32Compact o s
  | .andCompact o => Sys2Proof.Machine.execAndCompact o s
  | .orCompact o => Sys2Proof.Machine.execOrCompact o s
  | .xorCompact o => Sys2Proof.Machine.execXorCompact o s
  | .shlS32Compact o => Sys2Proof.Machine.execShlS32Compact o s
  | .shrN32Compact o => Sys2Proof.Machine.execShrN32Compact o s
  | .sarS32Compact o => Sys2Proof.Machine.execSarS32Compact o s
  | .minS32Compact o => Sys2Proof.Machine.execMinS32Compact o s
  | .maxS32Compact o => Sys2Proof.Machine.execMaxS32Compact o s
  | .movCompact o => Sys2Proof.Machine.execMovCompact o s
  | .faddF32Compact o => Sys2Proof.Machine.execFaddF32Compact o s
  | .fsubF32Compact o => Sys2Proof.Machine.execFsubF32Compact o s
  | .fmulF32Compact o => Sys2Proof.Machine.execFmulF32Compact o s
  | .fmaxF32Compact o => Sys2Proof.Machine.execFmaxF32Compact o s
  | .fadd o => Sys2Proof.Machine.execFadd o s
  | .fsub o => Sys2Proof.Machine.execFsub o s
  | .fmul o => Sys2Proof.Machine.execFmul o s
  | .fma o => Sys2Proof.Machine.execFma o s
  | .fdiv o => Sys2Proof.Machine.execFdiv o s
  | .fmin o => Sys2Proof.Machine.execFmin o s
  | .fmax o => Sys2Proof.Machine.execFmax o s
  | .fcpys o => Sys2Proof.Machine.execFcpys o s
  | .fcmp o => Sys2Proof.Machine.execFcmp o s
  | .fsqrt o => Sys2Proof.Machine.execFsqrt o s
  | .fabs o => Sys2Proof.Machine.execFabs o s
  | .fneg o => Sys2Proof.Machine.execFneg o s
  | .fclass o => Sys2Proof.Machine.execFclass o s
  | .frnd o => Sys2Proof.Machine.execFrnd o s
  | .sfuEx2 o => Sys2Proof.Machine.execSfuEx2 o s
  | .sfuLg2 o => Sys2Proof.Machine.execSfuLg2 o s
  | .sfuSin o => Sys2Proof.Machine.execSfuSin o s
  | .sfuCos o => Sys2Proof.Machine.execSfuCos o s
  | .sfuRcp o => Sys2Proof.Machine.execSfuRcp o s
  | .sfuRsq o => Sys2Proof.Machine.execSfuRsq o s
  | .sfuTanh o => Sys2Proof.Machine.execSfuTanh o s
  | .qnum o => Sys2Proof.Machine.execQnum o s
  | .qden o => Sys2Proof.Machine.execQden o s
  | .cvti o => Sys2Proof.Machine.execCvti o s
  | .cvtf o => Sys2Proof.Machine.execCvtf o s
  | .cvtw o => Sys2Proof.Machine.execCvtw o s
  | .cvtn o => Sys2Proof.Machine.execCvtn o s
  | .cvtx o => Sys2Proof.Machine.execCvtx o s
  | .pkp o => Sys2Proof.Machine.execPkp o s
  | .upkp o => Sys2Proof.Machine.execUpkp o s
  | .qmake o => Sys2Proof.Machine.execQmake o s
  | .qlim o => Sys2Proof.Machine.execQlim o s
  | .fadd16 o => Sys2Proof.Machine.execFadd16 o s
  | .fsub16 o => Sys2Proof.Machine.execFsub16 o s
  | .fmul16 o => Sys2Proof.Machine.execFmul16 o s
  | .fma16 o => Sys2Proof.Machine.execFma16 o s
  | .fmin16 o => Sys2Proof.Machine.execFmin16 o s
  | .fmax16 o => Sys2Proof.Machine.execFmax16 o s
  | .fcmp16 o => Sys2Proof.Machine.execFcmp16 o s
  | .ld o => Sys2Proof.Machine.execLd o s
  | .ldS o => Sys2Proof.Machine.execLdS o s
  | .ldx o => Sys2Proof.Machine.execLdx o s
  | .ldxS o => Sys2Proof.Machine.execLdxS o s
  | .st o => Sys2Proof.Machine.execSt o s
  | .stx o => Sys2Proof.Machine.execStx o s
  | .ldAcq o => Sys2Proof.Machine.execLdAcq o s
  | .stRel o => Sys2Proof.Machine.execStRel o s
  | .ldc o => Sys2Proof.Machine.execLdc o s
  | .stc o => Sys2Proof.Machine.execStc o s
  | .cder o => Sys2Proof.Machine.execCder o s
  | .cperm o => Sys2Proof.Machine.execCperm o s
  | .cget f fa a d => Sys2Proof.Machine.execCget f fa a d s
  | .ctag fa a d => Sys2Proof.Machine.execCtag fa a d s
  | .cseal fa a d => Sys2Proof.Machine.execCseal fa a d s
  | .prefL1 o => Sys2Proof.Machine.execPrefL1 o s
  | .prefL2 o => Sys2Proof.Machine.execPrefL2 o s
  | .l1inv o => Sys2Proof.Machine.execL1inv o s
  | .shfl o => Sys2Proof.Machine.execShfl o s
  | .voteBallot p d => Sys2Proof.Machine.execVoteBallot p d s
  | .voteAny p d => Sys2Proof.Machine.execVoteAny p d s
  | .voteAll p d => Sys2Proof.Machine.execVoteAll p d s
  | .matchLanes o => Sys2Proof.Machine.execMatchLanes o s
  | .scan o => Sys2Proof.Machine.execScan o s
  | .redg o => Sys2Proof.Machine.execRedg o s
  | .spawn o => Sys2Proof.Machine.execSpawn o s
  | .fork o => Sys2Proof.Machine.execFork o s
  | .fexit => Sys2Proof.Machine.execFexit s
  | .reconv => Sys2Proof.Machine.execReconv s
  | .yield => Sys2Proof.Machine.execYield s
  | .lser => Sys2Proof.Machine.execLser s
  | .lsend => Sys2Proof.Machine.execLsend s
  | .fence sc => Sys2Proof.Machine.execFence sc s
  | .win n => Sys2Proof.Machine.execWin n s
  | .bara ord b => Sys2Proof.Machine.execBara ord b s
  | .barw ord b => Sys2Proof.Machine.execBarw ord b s
  | .barm b fa a => Sys2Proof.Machine.execBarm b fa a s
  | .atomAdd ord o => Sys2Proof.Machine.execAtomAdd ord o s
  | .atomMinS ord o => Sys2Proof.Machine.execAtomMinS ord o s
  | .atomMinN ord o => Sys2Proof.Machine.execAtomMinN ord o s
  | .atomMaxS ord o => Sys2Proof.Machine.execAtomMaxS ord o s
  | .atomMaxN ord o => Sys2Proof.Machine.execAtomMaxN ord o s
  | .atomAnd ord o => Sys2Proof.Machine.execAtomAnd ord o s
  | .atomOr ord o => Sys2Proof.Machine.execAtomOr ord o s
  | .atomXor ord o => Sys2Proof.Machine.execAtomXor ord o s
  | .atomXchg ord o => Sys2Proof.Machine.execAtomXchg ord o s
  | .atomCas ord o => Sys2Proof.Machine.execAtomCas ord o s
  | .redAdd o => Sys2Proof.Machine.execRedAdd o s
  | .redMinS o => Sys2Proof.Machine.execRedMinS o s
  | .redMinN o => Sys2Proof.Machine.execRedMinN o s
  | .redMaxS o => Sys2Proof.Machine.execRedMaxS o s
  | .redMaxN o => Sys2Proof.Machine.execRedMaxN o s
  | .redAnd o => Sys2Proof.Machine.execRedAnd o s
  | .redOr o => Sys2Proof.Machine.execRedOr o s
  | .redXor o => Sys2Proof.Machine.execRedXor o s
  | .tcfg sr t => Sys2Proof.Machine.execTcfg sr t s
  | .tcrd sr t => Sys2Proof.Machine.execTcrd sr t s
  | .tld sr t sx w => Sys2Proof.Machine.execTld sr t sx w s
  | .tst sr t w => Sys2Proof.Machine.execTst sr t w s
  | .tzero t => Sys2Proof.Machine.execTzero t s
  | .macq m => Sys2Proof.Machine.execMacq m s
  | .mrel m => Sys2Proof.Machine.execMrel m s
  | .macqGrant core => Sys2Proof.Machine.execMacqGrant core s
  | .mma o => Sys2Proof.Machine.execMma o s
  | .mmax o => Sys2Proof.Machine.execMmax o s
  | .msca qd qs ta tb => Sys2Proof.Machine.execMsca qd qs ta tb s
  | .mloop sr m ta tb => Sys2Proof.Machine.execMloop sr m ta tb s
  | .mloopStep group => Sys2Proof.Machine.execMloopStep group s
  | .acld sr q => Sys2Proof.Machine.execAcld sr q s
  | .acst sr f q => Sys2Proof.Machine.execAcst sr f q s
  | .acrd d row cb => Sys2Proof.Machine.execAcrd d row cb s
  | .acz m => Sys2Proof.Machine.execAcz m s
  | .copy o => Sys2Proof.Machine.execCopy o s
  | .copyg o => Sys2Proof.Machine.execCopyg o s
  | .copyComplete copyId => Sys2Proof.Machine.execCopyComplete copyId s
  | .cfence => Sys2Proof.Machine.execCfence s
  | .cadd o => Sys2Proof.Machine.execCadd o s
  | .cwait o => Sys2Proof.Machine.execCwait o s
  | .ctest o => Sys2Proof.Machine.execCtest o s
  | .cread fa a d => Sys2Proof.Machine.execCread fa a d s
  | .cbind o => Sys2Proof.Machine.execCbind o s
  | .qpush o => Sys2Proof.Machine.execQpush o s
  | .qres o => Sys2Proof.Machine.execQres o s
  | .qdone fa a => Sys2Proof.Machine.execQdone fa a s
  | .mark imm => Sys2Proof.Machine.execMark imm s
  | .ttbind fb fa b a => Sys2Proof.Machine.execTtbind fb fa b a s
  | .hld o => Sys2Proof.Machine.execHld o s
  | .hldF o => Sys2Proof.Machine.execHldF o s
  | .hldp o => Sys2Proof.Machine.execHldp o s
  | .hfold fb fa b a => Sys2Proof.Machine.execHfold fb fa b a s
  | .hfoldComplete foldId => Sys2Proof.Machine.execHfoldComplete foldId s
  | .hseal fa a => Sys2Proof.Machine.execHseal fa a s
  | .hopen fa a => Sys2Proof.Machine.execHopen fa a s
  | .tex o => Sys2Proof.Machine.execTex o s
  | .tri o => Sys2Proof.Machine.execTri o s
  | .cutsel o => Sys2Proof.Machine.execCutsel o s
  | .gleanerRequest die => Sys2Proof.Machine.execGleanerRequest die s
  | .trace o => Sys2Proof.Machine.execTrace o s
  | .halo o => Sys2Proof.Machine.execHalo o s
  | .haloStripComplete copyId => Sys2Proof.Machine.execHaloStripComplete copyId s
  | .kvhash o => Sys2Proof.Machine.execKvhash o s
  | .kvlookLook o => Sys2Proof.Machine.execKvlookLook o s
  | .kvlookTake o => Sys2Proof.Machine.execKvlookTake o s
  | .kvlookPub o => Sys2Proof.Machine.execKvlookPub o s
  | .kvapp o => Sys2Proof.Machine.execKvapp o s
  | .kvrelDrop o => Sys2Proof.Machine.execKvrelDrop o s
  | .kvrelKill o => Sys2Proof.Machine.execKvrelKill o s
  | .kvrelStep o => Sys2Proof.Machine.execKvrelStep o s
  | .kvrelUnpin o => Sys2Proof.Machine.execKvrelUnpin o s
  | .kvAgentOperation reqId => Sys2Proof.Machine.execKvAgentOperation reqId s
  | .loft o => Sys2Proof.Machine.execLoft o s
  | .lmerge o => Sys2Proof.Machine.execLmerge o s
  | .ill => Sys2Proof.Machine.execIll s
  | .modeAb loft => Sys2Proof.Machine.execModeAb loft s
  | .modeSb loft => Sys2Proof.Machine.execModeSb loft s
  | .bcast loft => Sys2Proof.Machine.execBcast loft s
  | .act loft => Sys2Proof.Machine.execAct loft s
  | .mac loft => Sys2Proof.Machine.execMac loft s
  | .rdacc loft => Sys2Proof.Machine.execRdacc loft s
  | .attn loft => Sys2Proof.Machine.execAttn loft s
  | .clr loft => Sys2Proof.Machine.execClr loft s
  | .producerComplete prodId => Sys2Proof.Machine.execProducerComplete prodId s
  | .pageWalk walkId => Sys2Proof.Machine.execPageWalk walkId s
  | .replayMapped replayId => Sys2Proof.Machine.execReplayMapped replayId s
  | .replayDeclined replayId => Sys2Proof.Machine.execReplayDeclined replayId s
  | .outackAcknowledge group => Sys2Proof.Machine.execOutackAcknowledge group s
  | .counterAdd addId => Sys2Proof.Machine.execCounterAdd addId s
  | .cwaitWake waitId => Sys2Proof.Machine.execCwaitWake waitId s
  | .cwaitResend waitId => Sys2Proof.Machine.execCwaitResend waitId s
  | .coalesceTimerExpiry ctx queue => Sys2Proof.Machine.execCoalesceTimerExpiry ctx queue s
  | .queueFire die => Sys2Proof.Machine.execQueueFire die s
  | .sheafPlace die => Sys2Proof.Machine.execSheafPlace die s
  | .taskTake core => Sys2Proof.Machine.execTaskTake core s
  | .blockEnd block => Sys2Proof.Machine.execBlockEnd block s
  | .slotCycle core slot => Sys2Proof.Machine.execSlotCycle core slot s
  | .pendingPromotion core slot => Sys2Proof.Machine.execPendingPromotion core slot s
  | .batchFairness core slot => Sys2Proof.Machine.execBatchFairness core slot s
  | .granaryEntryStart grid entry => Sys2Proof.Machine.execGranaryEntryStart grid entry s
  | .granaryEntryComplete grid entry => Sys2Proof.Machine.execGranaryEntryComplete grid entry s
  | .quantumExpiry cluster => Sys2Proof.Machine.execQuantumExpiry cluster s
  | .preemptRequest cluster => Sys2Proof.Machine.execPreemptRequest cluster s
  | .drainBudgetExpiry block => Sys2Proof.Machine.execDrainBudgetExpiry block s
  | .flush block => Sys2Proof.Machine.execFlush block s
  | .save block => Sys2Proof.Machine.execSave block s
  | .blockResume block => Sys2Proof.Machine.execBlockResume block s
  | .contextSwitch cluster => Sys2Proof.Machine.execContextSwitch cluster s
  | .baleWrite block => Sys2Proof.Machine.execBaleWrite block s
  | .sampleTick core => Sys2Proof.Machine.execSampleTick core s
  | .claim => Sys2Proof.Machine.execClaim s
  | .electionWindowClose => Sys2Proof.Machine.execElectionWindowClose s
  | .ownershipLapse => Sys2Proof.Machine.execOwnershipLapse s
  | .heartbeat => Sys2Proof.Machine.execHeartbeat s
  | .handover => Sys2Proof.Machine.execHandover s
  | .release => Sys2Proof.Machine.execRelease s
  | .launch => Sys2Proof.Machine.execLaunch s
  | .ctxset => Sys2Proof.Machine.execCtxset s
  | .inval => Sys2Proof.Machine.execInval s
  | .revoke => Sys2Proof.Machine.execRevoke s
  | .preempt => Sys2Proof.Machine.execPreempt s
  | .stop => Sys2Proof.Machine.execStop s
  | .step => Sys2Proof.Machine.execStep s
  | .resume => Sys2Proof.Machine.execResume s
  | .dump => Sys2Proof.Machine.execDump s
  | .read => Sys2Proof.Machine.execRead s
  | .attest => Sys2Proof.Machine.execAttest s
  | .fwload => Sys2Proof.Machine.execFwload s
  | .moduleReset => Sys2Proof.Machine.execModuleReset s
  | .hostRead => Sys2Proof.Machine.execHostRead s
  | .hostWrite => Sys2Proof.Machine.execHostWrite s
  | .subryInbound => Sys2Proof.Machine.execSubryInbound s
  | .flitReplay => Sys2Proof.Machine.execFlitReplay s
  | .linkDown => Sys2Proof.Machine.execLinkDown s
  | .thermal => Sys2Proof.Machine.execThermal s
  | .thermalPowerDown => Sys2Proof.Machine.execThermalPowerDown s
  | .storePerformed storeId => Sys2Proof.Machine.execStorePerformed storeId s
  | .eccError => Sys2Proof.Machine.execEccError s

end Sys2Proof.Machine
end

