-- ==== Sys2Proof/Machine/Events.lean ====
section
/-! DEFINITION. Which input or event comes next when no unit is at work (spec/00, R2). -/
namespace Sys2Proof.Machine

/-! Inputs. -/

/-- An access from outside that an all-bank pseudo-channel holds waits; the module goes on (spec/19, R365). -/
def State.inputHeld (s : State) (x : Input) : Bool :=
  match x with
  | .hostRead a => s.hostHeld a a.len .rd
  | .hostWrite a => s.hostHeld a a.data.length .wr
  | .peer a => match s.windowFor a with
    | some w => s.virtHeld (dieSite a.die) w.ctx a.addr a.op.size a.op.need
    | none => false
  | _ => false

/-- The input that is acted on next: its event, or none for a record that names no command. -/
def State.nextInput (s : State) : Option (Option Instr) :=
  match s.inbox with
  | [] => none
  | x :: _ => if s.inputHeld x then none else some x.event

/-! Events of the module's own. -/

/-- Events that happen in the clk in which they fall due. -/
def State.dueEvents (s : State) : List Instr :=
  List.flatten [
    if s.windowDue then [Instr.electionWindowClose] else [],
    if s.lapseDue then [Instr.ownershipLapse] else [],
    (s.ctxs.flatMap fun c => (c.queues.filter s.timerDue).map fun q => Instr.coalesceTimerExpiry c.num q.handle),
    ((s.blocks.filter s.drainOut).map fun b => Instr.drainBudgetExpiry b.id),
    ((s.held.flatMap fun h => (coresOf h.cluster).filter s.sampleDue).map Instr.sampleTick)]

/-- The command at the head of each loft. -/
def State.loftEvents (s : State) : List Instr :=
  ((s.loftq.map (·.loft)).eraseDups).filterMap fun n =>
    (s.loftq.find? fun c => c.loft = n).map fun c =>
      match cmdOp c.cmd with
      | 0 => .modeAb n | 1 => .modeSb n | 2 => .bcast n | 3 => .act n | 4 => .mac n | 5 => .rdacc n | 6 => .attn n | _ => .clr n

/-- Accesses and engines under way. -/
def State.engineEvents (s : State) : List Instr :=
  List.flatten [
    s.producers.map (fun p => Instr.producerComplete p.id),
    s.stores.map (fun p => Instr.storePerformed p.id),
    s.copies.map (fun c => if c.strip then Instr.haloStripComplete c.id else Instr.copyComplete c.id),
    s.adds.map (fun a => Instr.counterAdd a.id),
    (s.waiters.filter fun w => w.met && !w.woken).map (fun w => Instr.cwaitWake w.id),
    (s.waiters.filter fun w => w.resends s.clk).map (fun w => Instr.cwaitResend w.id),
    s.walks.map (fun w => Instr.pageWalk w.id),
    (s.replays.filter fun r => !r.declined).flatMap (fun r => [Instr.replayMapped r.id, Instr.replayDeclined r.id]),
    (s.groups.filter fun g => decide (s.outbound g.id < g.outack)).map (fun g => Instr.outackAcknowledge g.id),
    ((s.groups.filter fun g => g.mloop.isSome).filter fun g => ((s.readySteps g.core).head?.map (·.id)) == some g.id).map (fun g => Instr.mloopStep g.id),
    s.folds.map (fun x => Instr.hfoldComplete x.id),
    ((s.cuts.map (·.die)).eraseDups).map Instr.gleanerRequest,
    (s.kvops.filter s.kvReady).map (fun r => Instr.kvAgentOperation r.id),
    (s.cores.filter fun c => (s.grantable c).isSome).map (fun c => Instr.macqGrant c.id),
    s.loftEvents,
    s.fetches.map (fun x => Instr.granaryEntryComplete x.id 0)]

/-- Timetable entries that may start or finish. -/
def State.granaryEvents (s : State) : List Instr :=
  s.grids.flatMap fun g =>
    ((s.nextEntry g).map fun e => Instr.granaryEntryStart g.id e).toList ++
    match g.table with
    | some t => (t.entries.zipIdx.filter fun e => e.1.state == .running).map fun e => Instr.granaryEntryComplete g.id e.2
    | none => []

/-- Cores of the clusters that contexts hold. -/
def State.heldCores (s : State) : List Nat := s.held.flatMap fun h => coresOf h.cluster

/-- What happens to work as a whole: queues, placement, tasks, blocks, pre-emption, switches. -/
def State.workEvents (s : State) : List Instr :=
  List.flatten [
    ((List.range 16).filter fun d => (s.canFire d).isSome).map Instr.queueFire,
    ((List.range 16).filter fun d => match s.nextSheaf d with | some (p, _) => !p.saved | none => false).map Instr.sheafPlace,
    (s.heldCores.filter s.mayTake).map Instr.taskTake,
    (s.blocks.filter s.blockOver).map (fun b => Instr.blockEnd b.id),
    (s.blocks.filter fun b => s.baleReady b || (b.dumps && !b.isFaulting && b.mode != .stopped)).map (fun b => Instr.baleWrite b.id),
    s.savedBales.map (fun x => Instr.baleWrite x.block.id),
    (s.blocks.filter fun b => b.leave == .flushes && !b.isFaulting && !s.hasCopies b.id).map (fun b => Instr.flush b.id),
    (s.blocks.filter fun b => b.leave == .saves && s.mayBeSaved b).map (fun b => Instr.save b.id),
    (s.ctxs.flatMap fun c => c.saved.filterMap fun x => if (s.resumeDie x.block.id).isSome then some (Instr.blockResume x.block.id) else none),
    (s.held.filter s.quantumOut).map (fun h => Instr.quantumExpiry h.cluster),
    (s.held.filter fun h => h.preempt && !h.assigned).map (fun h => Instr.preemptRequest h.cluster),
    ((List.range 512).filter s.switchable).map Instr.contextSwitch]

/-- Slots whose turn it is. -/
def State.slotEvents (s : State) : List Instr := s.rr.map fun x => s.slotEvent x.1 x.2

/-- Everything that may happen next. -/
def State.events (s : State) : List Instr :=
  s.dueEvents ++ s.slotEvents ++ s.engineEvents ++ s.granaryEvents ++ s.workEvents

/-- A clk may pass once every slot has had its cycle and nothing is due. -/
def State.clkMayPass (s : State) : Bool := s.rr.isEmpty && s.dueEvents.isEmpty

/-- Slots that have a cycle in a clk: those that have counted something, and those with a resident group. Any other counts NO_GROUP. -/
def State.liveSlots (s : State) : List (Nat × Nat) :=
  (s.slots.map (fun x => (x.core, x.slot)) ++ s.groups.map fun g => (g.core, g.slot)).eraseDups

/-- A clk passes: every slot and every queue manager has a cycle again, and commands that are over complete. -/
def State.passClk (s : State) : State :=
  let s := { s with clk := s.clk + 1, fired := [] }
  let s := { s with rr := s.liveSlots }
  s.settleCmds

/-- What goes on in parts and has no event of its own: a copy writes one unit, a TLD or ACLD binds one, and so does the next step of an MLOOP
(spec/12, R266, R271); a request of a load or an atomic is served (spec/09, R210; spec/10, R216); a walk takes one turn (spec/15, R311); and a
clk passes. `n` picks the part. -/
def State.drifts (s : State) (n : Nat) : List State :=
  (s.copies.filter s.copyReady).map (s.copyUnit · n) ++
  (s.producers.filterMap fun p => (s.group? p.group).bind fun g =>
    if s.replayed p.id then none else
    match p.work, s.inOrder p with
    | .hist _ _ _ _, o => some (if o && Config.freeBit (s.tick * 2 ^ 64 + 2 ^ 56 + p.id) then s.bindPart g p n else s.walkLanes g p (some n))
    | .load _ _ _ _, true => some (s.bindPart g p n)
    | .atomic _ _ _, true => some (s.bindPart g p n)
    | .ext _ _, true => some (s.bindPart g p n)
    | _, _ => none) ++
  (s.groups.filterMap fun g => g.mloop.map fun m => s.loopUnit g m n) ++
  if s.clkMayPass then [s.passClk] else []

/-- One such part, which a free choice picks. -/
def State.drift (s : State) : State :=
  let n := Config.freeNat (s.tick * 2 ^ 64 + 2 ^ 57)
  let l := s.drifts (n / 2 ^ 64)
  (l[n % l.length]?).getD s

/-- The event that a free choice picks; none when a part goes on or a clk passes. The manual fixes no order among them
(spec/00, R2). -/
def State.nextEvent (s : State) : Option Instr :=
  let es := s.events
  es[Config.choose s.tick % (es.length + (if (s.drifts 0).isEmpty then 0 else 1))]?

end Sys2Proof.Machine
end

