-- ==== Sys2Proof/Machine/Step.lean ====
section
/-! DEFINITION. One step of the module, and the state in which a given instruction is the next to run. -/
namespace Sys2Proof.Machine

/-- One step of a powered module: the unit at work, else the first input that can be acted on, else an event of the module's
own, or a part of what goes on without one. -/
def stepOn (s : State) : Host.Outcome State Fault Refusal :=
  match s.cur with
  | some c => s.stepUnit c exec
  | none =>
    let s := s.orderInbox
    match s.nextInput with
    | some (some i) => exec i s
    | some none => .next s.refuseInput
    | none =>
      match s.nextEvent with
      | some i => exec i s
      | none => .next s.drift

/-- One step. Every step takes the next free values; without power nothing runs (spec/24, R428; notes/assumptions/2). -/
def step (s : State) : Host.Outcome State Fault Refusal :=
  if s.powered then stepOn s.tickOn else .fault .poweredDown

/-- The context, the kernel and the group of `withFetchWord`. -/
def fetchCtx (n : Nat) : Ctx where
  num := n
  resident := true
  root := 0x100000
  gens := List.replicate 7 0
  codeBase := 0x10000
  kernels := [⟨0, 0, 256, [0], 0, 512, 1, 0, false, 0, [], [], []⟩]
  histDesc := 0
  histStates := 0
  histCount := 0
  fields := []
  control := ⟨0, 0, 0, 0, 0, 0, 0⟩
  dbg := ⟨0, 0, 0, 0, 0, 0, 0, 0, []⟩
  flogSeq := 0
  traceSeq := 0
  baleSeq := 0
  gridSeq := 1
  lofts := []
  queues := []
  rootq := []
  saved := []
  memory := []

/-- Lane 0 right after a launch with `.regs 256` (spec/02, R46). -/
def fetchFibre : Fibre := .start 0 0 256 0

def fetchGroup (id block : Nat) : Group where
  id := id
  block := block
  index := 0
  core := 0
  slot := 0
  task := none
  stage := 0
  regsN := 256
  fibres := [fetchFibre]
  sregs := List.replicate 32 (.of 0)
  stags := List.replicate 8 false
  tilesN := 0
  tcs := []
  tiles := []
  rasthresh := 64
  vistile := 0
  visorg := 0
  vpsize := 0
  kvmodel := 0
  kvmodelh := 0
  kvver := 0
  ovf := none
  outack := 0
  lser := none
  mloop := none
  fence := 0
  lastLanes := []
  lastRun := 0
  yielded := []
  active := true
  since := 0
  lastIssue := 0
  nextAset := 1
  ended := false

def fetchBlock (id ctx sheaf : Nat) : Block where
  id := id
  ctx := ctx
  sheaf := sheaf
  rank := 0
  core := 0
  x := 0
  y := 0
  z := 0
  kernel := 0
  scratchBase := 0
  scratchLen := 512
  priority := 0
  bars := List.replicate 16 ⟨1, 0, 0, none⟩
  phase := 0
  issues := 0
  sidefx := false
  resumes := 0
  restarts := 0
  mode := .running
  baleWanted := false
  baleDone := false
  baleFlags := 0
  records := none
  reserved := []
  copyLog := []
  leave := .stays
  ended := false
  caps := []

/-- `s` with an instruction of bits `w` in code memory, in a context whose first 16 GiB map to device memory, and one fibre
of a launched block about to issue it (notes/assumptions/5). -/
def State.withFetchWord (s : State) (nbits w : Nat) : State :=
  let v := w % 2 ^ nbits
  let c := (s.ctxs.map (·.num)).foldl (fun a b => max a (b + 1)) 0
  let i := s.nextId
  let s := ((s.setNum 0x10000 4 v).setNum 0x100000 8 0x200001).setNum 0x200000 8 0x1F
  { s with
    nextId := i + 4
    ctxs := fetchCtx c :: s.ctxs
    grids := ⟨i, c, 0, 0, 1, 1, 1, 0, 0, 0, none, none, 0, none⟩ :: s.grids
    sheaves := ⟨i + 1, i, 0, 0, 1, List.replicate 8 ⟨1, 0, 0, none⟩, []⟩ :: s.sheaves
    blocks := fetchBlock (i + 2) c (i + 1) :: s.blocks
    groups := fetchGroup (i + 3) (i + 2) :: s.groups
    cur := some ⟨i + 3, [0], 0, 0, 0, 0, none, none, none⟩ }

end Sys2Proof.Machine
end

