-- ==== Sys2Proof/Safety.lean ====
section
/-! DEFINITION. The terms in which claims speak: a run that never stops, the shape that every step keeps, a unit that is about
to act, and what an issue leaves behind. -/
namespace Sys2Proof.Machine

/-- A run of `k` steps that never stops. -/
def SafeRun (k : Nat) (s : State) : Prop := ∃ t, Sys2Proof.core.run k s = .next t

/-! Shape of groups. -/

/-- Lanes are distinct, and every register file has its length (spec/02, R29 to R32). -/
abbrev Group.Shaped (g : Group) : Prop :=
  (g.fibres.map (·.lane)).Nodup ∧ g.sregs.length = 32 ∧ g.stags.length = 8 ∧
  ∀ f ∈ g.fibres, f.vregs.length = g.regsN ∧ f.vtags.length = (g.regsN + 3) / 4

/-- RND of STATUS holds one of the five modes, and the reserved bits read 0 (spec/02, R36, R37). -/
abbrev Fibre.StatusOk (f : Fibre) : Prop := f.status &&& ~~~statusFields = 0 ∧ rndOk f.status = true

/-! A unit about to act. -/

/-- An operand is readable: its registers are full and carry no faulted mark, and no source is poisoned. -/
abbrev Operand.Readable (o : Operand) (g : Group) (f : Fibre) : Prop :=
  ∀ r ∈ o.cells g f, r.full = true ∧ r.mark = none ∧ (o.src = true → r.poison = false)

/-- Every operand of a form is readable in a fibre, and no predicate of the form is owed by a producer. -/
abbrev Form.Readable (fm : Form) (g : Group) (f : Fibre) : Prop :=
  (∀ o ∈ fm.ops, o.Readable g f) ∧ ∀ p ∈ fm.preds, p.val ≠ 0 → f.predBusy.getLsbD p.val = false

/-- The unit at work is `c`, of group `g`; `fs` are the fibres of its batch whose guard holds. No guard is owed by a producer,
and every register of the form lies in the allocation (spec/02, R29, R44). -/
abbrev Batch (s : State) (c : Cur) (g : Group) (fs : List Fibre) (fm : Form) : Prop :=
  s.cur = some c ∧ s.group? c.group = some g ∧ g.Shaped ∧ fs = (g.batch c.lanes).filter c.holds ∧ fs ≠ [] ∧
  (∀ f ∈ g.batch c.lanes, c.guardBusy f = false ∧ ∀ o ∈ fm.ops, o.inRange g f = true)

/-- The unit acts in every fibre of `fs`: its operands are readable there. -/
abbrev Acting (s : State) (c : Cur) (g : Group) (fs : List Fibre) (fm : Form) : Prop :=
  Batch s c g fs fm ∧ ∀ f ∈ fs, fm.Readable g f

/-- The destination of a form and its predicates alone. -/
abbrev Form.written (fm : Form) : Form := { fm with ops := fm.ops.filter (·.dst) }

/-- The unit acts once for the batch: the operands of `f`, its lowest fibre, are readable, and D of every fibre may be written
(spec/08, R178; spec/13, R280). -/
abbrev ActingOnce (s : State) (c : Cur) (g : Group) (f : Fibre) (fs : List Fibre) (fm : Form) : Prop :=
  Batch s c g (f :: fs) fm ∧ fm.Readable g f ∧ ∀ x ∈ fs, fm.written.Readable g x

/-! What an issue leaves behind. -/

/-- A fibre that has completed a unit and goes on at `pc`. -/
def Fibre.goesOn (f : Fibre) (pc : Word) : Fibre := { f with pc := pc, wait := none, watchOnce := false }

/-- A fibre whose destination `d` has taken the words of a result. -/
def Fibre.writeReg (f : Fibre) (d : Reg) (ws : List Word) : Fibre :=
  match d with
  | .v n => f.writeV (f.phys n.val) ws
  | _ => f

/-- A group whose scalar destination `d` has taken the words of a result. -/
def Group.writeScalar (g : Group) (d : Reg) (ws : List Word) : Group :=
  match d with
  | .s n => g.writeS n.val ws
  | _ => g

/-- The issue count of the block of `g` has gone up (spec/21, R382). -/
def State.issuedBlocks (s : State) (g : Group) : List Block :=
  s.blocks.map fun b => if b.id = g.block then { b with issues := min (b.issues + 1) (2 ^ 48 - 1) } else b

/-- A unit of `g` has issued in `t`. The fibres `fs` are now as `post` says, those of the batch whose guard is off have moved to
the next unit and are otherwise unchanged, and a fibre of another lane is unchanged unless it waited at a RECONV that is
now done. The rest of the group is as `h` says. Every other group and issue slot is unchanged, and all other state is that
of `e` (spec/02, R44; spec/08, R175 to R177). -/
abbrev Retired (s e t : State) (c : Cur) (g h : Group) (fs : List Fibre) (post : Fibre → Fibre) : Prop :=
  (∃ g', t.group? g.id = some g' ∧
    g' = { h with fibres := g'.fibres, lastIssue := s.clk, nextAset := g'.nextAset } ∧
    (∀ f ∈ fs, g'.fibre? f.lane = some (post f)) ∧
    (∀ f ∈ g.batch c.lanes, f ∉ fs → g'.fibre? f.lane = some (f.goesOn c.next)) ∧
    (∀ f ∈ g.fibres, c.lanes.contains f.lane = false →
      (f.atReconv = none → g'.fibre? f.lane = some f) ∧
      ∃ f', g'.fibre? f.lane = some f' ∧ f' = { f with pc := f'.pc, wait := f'.wait, aset := f'.aset })) ∧
  (∀ id, id ≠ g.id → t.group? id = e.group? id) ∧
  (∀ core slot, ¬(core = g.core ∧ slot = g.slot) → t.slotOf core slot = e.slotOf core slot) ∧
  t = { e with cur := none, groups := t.groups, slots := t.slots, blocks := t.blocks } ∧
  t.blocks = e.issuedBlocks g

/-- `i` acts and completes: a fixed-latency operation whose result in fibre `f` is `ws f`, written to `d`, or to the scalar
register `d` from the lowest fibre that acts (spec/02, R30). Nothing else changes. -/
abbrev Gives (i : Instr) (s : State) (c : Cur) (g : Group) (fs : List Fibre) (d : Reg) (ws : Fibre → List Word) : Prop :=
  ∃ t, exec i s = .next t ∧
    Retired s s t c g ((fs.head?.map fun f => g.writeScalar d (ws f)).getD g) fs fun f => (f.writeReg d (ws f)).goesOn c.next

/-- `i` acts and completes: the acting fibres are as `post` says, the group as `h`, everything else as in `e`. -/
abbrev Does (i : Instr) (s e : State) (c : Cur) (g h : Group) (fs : List Fibre) (post : Fibre → Fibre) : Prop :=
  ∃ t, exec i s = .next t ∧ Retired s e t c g h fs post

/-- `i` acts and completes: it changes each acting fibre as `post` says and nothing else. -/
abbrev Changes (i : Instr) (s : State) (c : Cur) (g : Group) (fs : List Fibre) (post : Fibre → Fibre) : Prop :=
  ∃ t, exec i s = .next t ∧ Retired s s t c g g fs post


/-- A fibre whose destination `d` of `n` registers has been marked empty. -/
def Fibre.emptyReg (f : Fibre) (d : Reg) (n : Nat) : Fibre :=
  match d with
  | .v k => f.emptyV (f.phys k.val) n
  | _ => f

/-- A group whose scalar destination `d` of `n` registers has been marked empty. -/
def Group.emptyScalar (g : Group) (d : Reg) (n : Nat) : Group :=
  match d with
  | .s k => g.emptyS k.val n
  | _ => g

/-- Where a long-latency producer delivers the result of fibre `f`: a scalar destination takes the lowest lane's only
(spec/02, R30). -/
def Fibre.destFor (f : Fibre) (d : Reg) (n : Nat) (fs : List Fibre) : Dest :=
  match d with
  | .v k => .vec f.lane (f.phys k.val) n
  | .s k => if (fs.head?.map (·.lane)) = some f.lane then .sca f.lane k.val n else .none f.lane
  | _ => .none f.lane

/-- What a fibre saves and becomes when it takes a trap at the unit `unit` with a handler (spec/02, R47; spec/08, R177): `h` is
HANDLER, `p` the number of the sub-group that parks, `e` the register of a deferred trap, else 127 (spec/02, R35). -/
def Fibre.trapped (f : Fibre) (unit h : Word) (p : Nat) (t : Trap) (fl : BitVec 6) (e : Nat := 127) : Fibre :=
  { f with
    estatus := f.status
    epc := unit
    cause := BitVec.ofNat 32 t.cause.code
    trapval := t.val.extractLsb' 0 32
    trapvalh := t.val.extractLsb' 32 32
    ereg := BitVec.ofNat 32 e
    status := (f.status ||| 1) &&& ~~~0x3F00
    flags := f.flags ||| fl
    pc := h - 1
    wait := none
    watchOnce := false
    watchUnit := if t.cause = .watch then some unit else none
    parked := some p
    rejoin := none }

/-- `i` traps in each fibre `f` of `fs` with `tr f`, the flags `fl f` raised and EREG `e`: every one of them saves its state and enters
the handler, in one parked sub-group. The rest of the batch goes on to the next unit. No register, predicate or memory
changes (spec/02, R38, R47; spec/08, R177). -/
abbrev Traps (i : Instr) (s : State) (c : Cur) (g : Group) (fs : List Fibre) (tr : Fibre → Trap) (fl : Fibre → BitVec 6)
    (e : Nat := 127) : Prop :=
  (∀ f ∈ fs, f.ih = false) → (s.handlerOf g).getLsbD 0 = true →
  ∃ t, exec i s = .next t ∧
    (∃ g', t.group? g.id = some g' ∧
      g' = { g with fibres := g'.fibres, lastIssue := s.clk, nextAset := g'.nextAset } ∧
      (∀ f ∈ fs, g'.fibre? f.lane = some (f.trapped c.unit (s.handlerOf g) s.nextId (tr f) (fl f) e)) ∧
      (∀ f ∈ g.batch c.lanes, f ∉ fs →
        g'.fibre? f.lane = some { f.goesOn c.next with splits := s.nextId :: f.splits }) ∧
      (∀ f ∈ g.fibres, c.lanes.contains f.lane = false →
        (f.atReconv = none → g'.fibre? f.lane = some f) ∧
        ∃ f', g'.fibre? f.lane = some f' ∧ f' = { f with pc := f'.pc, wait := f'.wait, aset := f'.aset })) ∧
    (∀ id, id ≠ g.id → t.group? id = s.group? id) ∧
    (∀ core slot, ¬(core = g.core ∧ slot = g.slot) → t.slotOf core slot = s.slotOf core slot) ∧
    t = { s with cur := none, nextId := s.nextId + 1, groups := t.groups, slots := t.slots, blocks := s.issuedBlocks g }

/-- A fixed-latency instruction that raises the flags `fl f` in each fibre, one of them enabled there, traps ARITH: it writes no
destination, and FLAGS takes the flags (spec/02, R38). -/
abbrev TrapsArith (i : Instr) (s : State) (c : Cur) (g : Group) (fs : List Fibre) (fl : Fibre → BitVec 6) : Prop :=
  (∀ f ∈ fs, fl f &&& f.enables ≠ 0) → Traps i s c g fs (fun f => ⟨.arith, (fl f).zeroExtend 64⟩) fl

/-- As `Gives`, with the flags that each lane raises: where none is enabled it completes, where one is it traps ARITH (spec/02, R38). -/
abbrev Computes (i : Instr) (s : State) (c : Cur) (g : Group) (fs : List Fibre) (d : Reg) (ws : Fibre → List Word)
    (fl : Fibre → BitVec 6) : Prop :=
  ((∀ f ∈ fs, fl f &&& f.enables = 0) →
    ∃ t, exec i s = .next t ∧
      Retired s s t c g ((fs.head?.map fun f => g.writeScalar d (ws f)).getD g) fs
        fun f => { f.writeReg d (ws f) with flags := f.flags ||| fl f }.goesOn c.next) ∧
  TrapsArith i s c g fs fl

/-- With RAT = 1 `i` traps NV_ILLEGAL_IN_RATIONAL, with its word in TRAPVAL, and raises no flag (spec/06, R126). -/
abbrev TrapsInRational (i : Instr) (s : State) (c : Cur) (g : Group) (fs : List Fibre) : Prop :=
  (∀ f ∈ fs, f.rat = true) → Traps i s c g fs (fun _ => ⟨.nvIllegalInRational, BitVec.ofNat 64 c.word⟩) (fun _ => 0)

/-- What stands before the own causes of an instruction of form `fm` whose lanes read their own operands (spec/02, R29, R33, R35, R48;
spec/08, R178; spec/10, R229). A register out of the allocation traps REGISTER_RANGE whatever the guard; a faulted one takes its producer's
trap, with its field in EREG; an empty source whose F bit is set traps EMPTY_READ; another empty one makes the batch wait; a poisoned source
traps POISON. Of several operands the first in the order D, A, B is reported: the order is the model's choice but for R48's deferred
traps (notes/assumptions/124). -/
abbrev Checks (i : Instr) (s : State) (c : Cur) (g : Group) (fm : Form) : Prop :=
  (∀ k : Nat, (∀ f ∈ g.batch c.lanes, ∃ o, fm.ops.find? (fun x => !x.inRange g f) = some o ∧ o.field = k) →
    s.cur = some c → s.group? c.group = some g → g.Shaped → g.batch c.lanes ≠ [] →
    Traps i s c g (g.batch c.lanes) (fun _ => ⟨.registerRange, BitVec.ofNat 64 k⟩) (fun _ => 0)) ∧
  ∀ fs : List Fibre, Batch s c g fs fm → (∀ f ∈ fs, ∀ p ∈ fm.preds, p.val ≠ 0 → f.predBusy.getLsbD p.val = false) →
    let full := fun (o : Operand) (f : Fibre) => ∀ r ∈ o.cells g f, r.full = true
    let sound := fun (o : Operand) (f : Fibre) => ∀ r ∈ o.cells g f, r.mark = none
    let clean := fun (o : Operand) (f : Fibre) => ∀ r ∈ o.cells g f, r.poison = false
    (∀ (o : Operand) (l r : List Operand) (tr : Fibre → Trap), fm.ops = l ++ o :: r → (∀ f ∈ fs, f.ih = false) →
      (∀ f ∈ fs, (∀ x ∈ l, sound x f) ∧ (o.cells g f).findSome? (·.mark) = some (tr f)) →
      Traps i s c g fs tr (fun _ => 0) o.field) ∧
    ((∀ f ∈ fs, ∀ x ∈ fm.ops, sound x f) →
      (∀ (o : Operand) (l r : List Operand), fm.ops = l ++ o :: r → o.src = true → o.trapEmpty = true →
        (∀ f ∈ fs, (∀ x ∈ l, full x f) ∧ ¬full o f) →
        Traps i s c g fs (fun _ => ⟨.emptyRead, BitVec.ofNat 64 o.field⟩) (fun _ => 0)) ∧
      ((∀ f ∈ fs, ∀ x ∈ fm.ops, clean x f ∧ (x.src = true → x.trapEmpty = true → full x f)) →
        (∃ f ∈ fs, ∃ x ∈ fm.ops, ∃ r ∈ x.reg.span x.n, (g.cell f r).full = false ∧ (x.src = true ∨ s.owers g f r ≠ [])) →
        ∃ t cs ps, exec i s = .next t ∧ t.cur = none ∧ t.mem = s.mem ∧ t.stores = s.stores ∧ t.producers = s.producers ∧ t.blocks = s.blocks ∧
          (∀ f ∈ fs, ((t.group? g.id).bind (·.fibre? f.lane)) = some { f with wait := some (.register cs ps) }) ∧
          ∀ f ∈ fs, ∀ x ∈ fm.ops, x.src = true → ∀ r ∈ x.reg.span x.n, (g.cell f r).full = false → (f.lane, r) ∈ cs) ∧
      (∀ (o : Operand) (l r : List Operand), fm.ops = l ++ o :: r → o.src = true →
        (∀ f ∈ fs, (∀ x ∈ fm.ops, full x f) ∧ (∀ x ∈ l, x.src = true → clean x f) ∧ ¬clean o f) →
        Traps i s c g fs (fun _ => ⟨.poison, BitVec.ofNat 64 o.field⟩) (fun _ => 0)))

/-- `s` with one more producer of `g`, which will write the predicate of `fs` that `p` names, if any. -/
def State.withProducer (s : State) (g : Group) (fs : List Fibre) (kind : ProdKind) (acq : Option Scope) (flagged : Bool)
    (w : Work) : State :=
  { s with
    producers := s.producers ++ [⟨s.nextId, g.id, kind, [], if flagged then fs.map (·.lane) else [], acq, w, []⟩]
    nextId := s.nextId + 1 }

/-- `i` acts as a long-latency producer: its destination `d` of `n` registers is marked empty, and a producer owes `r f` to
each fibre `f`, with the flags and the ARITH trap that `f` sampled (spec/02, R33, R35, R37, R38). -/
abbrev Owes (i : Instr) (s : State) (c : Cur) (g : Group) (fs : List Fibre) (d : Reg) (n : Nat) (kind : ProdKind)
    (r : Fibre → LongRes) : Prop :=
  ∃ t, exec i s = .next t ∧
    Retired s (s.withProducer g fs kind none true (.ready (markScalar (Reg.scalar d) (fs.map fun f => (r f).val (f.destFor d n fs) f)))) t c g
      (g.emptyScalar d n) fs fun f => (f.emptyReg d n).goesOn c.next

/-! Accesses to memory and to engines. -/

/-- No watch of the context is hit by the accesses of `who`, or they are of the unit that has just taken WATCH (spec/22, R396). -/
abbrev Unwatched (s : State) (g : Group) (u : MemUse) (q : Quad) (who : List Fibre) (adr : Fibre → Nat) : Prop :=
  ∀ f ∈ who, f.watchOnce = true ∨ (capSpace (g.quad f q) ≠ 0 ∧ capSpace (g.quad f q) ≠ 5) ∨
    s.watchHit (s.ctxOf g) (adr f) u.size (watchKind u.store) = none

/-- The accesses of `who` through `q` pass every check, at `adr`, and at `key` where they are translated at issue. No acquire of the
group is unbound, no copy or MLOOP covers the bytes, OUTACK has room, and no watch is hit (spec/07, R158, R160; spec/10, R218;
spec/12, R261, R267). -/
abbrev Reaches (s : State) (g : Group) (u : MemUse) (q : Quad) (sub : Nat) (off : Fibre → Int) (defer : Bool)
    (more : Fibre → Option Trap) (who : List Fibre) (adr : Fibre → Nat) (key : Fibre → Option Nat) : Prop :=
  (∀ f ∈ who, s.access g f u q sub (off f) defer (more f) = .ok (adr f) (key f)) ∧ s.acquiring g = false ∧
  (∀ f ∈ who, ∀ k, key f = some k → s.boarded k u.size = false ∧ (u.store = true → g.mloopHolds k u.size = false)) ∧
  (u.store = true → g.outack + (who.filter fun f => ((key f).map isOutside).getD false).length ≤ 65535) ∧
  Unwatched s g u q who adr

/-- What R158 asks of a load of `n` bytes in fibre `f` of a group of block `b`: the capability in `q` is tagged, live and not sealed and
lets it read, and the bytes at `off` are aligned and lie in it and, in the scratchpad of a block, in that block's part. -/
abbrev State.Loadable (s : State) (g : Group) (b : Block) (f : Fibre) (n : Nat) (q : Quad) (off : Int) : Prop :=
  let C := g.quad f q
  let a : Int := capBase C + off
  g.tagOf f q = true ∧ s.stale (s.ctxOf g) C = false ∧ capPerm C 10 = false ∧ capPerm C 0 = true ∧
  a % n = 0 ∧ 0 ≤ off ∧ off + n ≤ capLen C ∧
  (capSpace C = 0 ∨ capSpace C = 5 ∨ (capSpace C = 1 ∧ a + n ≤ b.scratchLen) ∨
    (capSpace C = 2 ∧ ∃ t, s.blocks.find? (fun x => x.sheaf = b.sheaf ∧ x.rank = a.toNat / 2 ^ 19) = some t ∧
      a.toNat % 2 ^ 19 + n ≤ t.scratchLen))

/-- The issue slots of `e` are those of `a` but for what their bank queues hold (spec/10, R216). -/
abbrev Banked (a e : State) : Prop :=
  ∀ core slot, ∃ q w, e.slotOf core slot = { a.slotOf core slot with banks := q, entering := w }

/-- `e` is `a` but for kept translations, the log of malformed entries, replay entries that have been heard, and bank queues. -/
abbrev Translated (a e : State) : Prop :=
  e = { a with xlats := e.xlats, errlog := e.errlog, replays := e.replays, slots := e.slots } ∧ Banked a e

/-- As `Does`, up to translations. -/
abbrev Reached (i : Instr) (s a : State) (c : Cur) (g h : Group) (fs : List Fibre) (post : Fibre → Fibre) : Prop :=
  ∃ t e, exec i s = .next t ∧ Translated a e ∧ Retired s e t c g h fs post

/-- `s` where the block of `g` has had a side effect, when a store of `fs` through `q` leaves its own scratchpad (spec/21, R382). -/
def State.markedBy (s : State) (g : Group) (q : Quad) (fs : List Fibre) : State :=
  if fs.any (fun f => capSpace (g.quad f q) != 1) then s.sideEffect g else s

/-- How many of the accesses go to tier 2 or tier 3. -/
def outsideCount (fs : List Fibre) (key : Fibre → Option Nat) : Nat := (fs.filter fun f => ((key f).map isOutside).getD false).length

/-- The scope of the accesses of one instruction: the widest of its lanes (spec/12, Table 12.2). -/
def Group.scopeOf (g : Group) (q : Quad) (fs : List Fibre) (key : Fibre → Option Nat) : Scope :=
  (fs.map fun f => addrScope (capSpace (g.quad f q)) (key f)).foldl Scope.wider .core

/-- A fibre and a group whose destination quad has taken a capability and its tag (spec/07, R153). -/
def Fibre.writeCap (f : Fibre) (d : Quad) (v : QWord) (tag : Bool) : Fibre :=
  match d.base with
  | .v n => f.deliverV (f.phys n.val) (quadWords v) tag false
  | _ => f
def Group.writeCap (g : Group) (d : Quad) (v : QWord) (tag : Bool) : Group :=
  match d.base with
  | .s n => g.deliverS n.val (quadWords v) tag false
  | _ => g

/-- A fibre whose predicate `p` a producer will write. -/
def Fibre.awaits (f : Fibre) (p : Fin 8) : Fibre :=
  { f with predBusy := if p.val = 0 then f.predBusy else f.predBusy ||| (1 <<< p.val) }

/-! Results said with bit vectors. -/

/-- A result of 64 bits as the words of a pair (spec/04, R77). -/
def pairWords (v : DWord) : List Word := [v.extractLsb' 0 32, v.extractLsb' 32 32]

/-- A result at the width that X selects. -/
def atWidth (x : Bool) (r32 : Word) (r64 : DWord) : List Word := if x then pairWords r64 else [r32]

/-- A comparison by its condition code (spec/03, Table 3.6). -/
def compares {w : Nat} (cond : Nat) (a b : BitVec w) : Bool :=
  match cond with
  | 0 => a == b
  | 1 => a != b
  | 2 => a.slt b
  | 3 => b.sle a
  | 4 => a.sle b
  | 5 => b.slt a
  | 6 => a.ult b
  | 7 => b.ule a
  | 8 => a.ule b
  | 9 => b.ult a
  | _ => false

/-- An IEEE result: the exact result `x` rounded to the format, or the canonical NaN with NV; a signalling NaN raises NV. -/
def ieeeResult (F : Fmt) (rnd : Rnd) (ops : List Num) (x : Option Num) (more : BitVec 6) : List Word × BitVec 6 :=
  let r := (layOf F).round rnd (x.getD (.nan false))
  (outWords F.wide r.1, r.2 ||| more ||| (if x = none then flagNV else 0) ||| (if ops.any Num.isSnan then flagNV else 0))

end Sys2Proof.Machine
end

