-- ==== Sys2Proof/Certificates/Slice0/Obligations.lean ====
section
/-! DEFINITION. The statements for the provers. Each is about every state and every operand that meets its premises. The result
of an instruction is said with bit vectors, from the words of the spec; the rest of the state is said by `Retired`. -/
open Sys2Proof Sys2Proof.Machine

/-! Reset, storage, decoding and the step (spec/00, spec/02, spec/03, spec/24). -/

/-- The module after reset has power, no owner, no context and no resident work, and its journal starts at 0. A launch starts a
fibre at the kernel's entry, with every register full and 0, STATUS and FLAGS at their reset values with STAGE from the launch, and
EREG 127 (spec/02, R46; spec/24, R422, R424). -/
def Obligations.ResetAndLaunchState : Prop :=
  (let s := State.reset
   s.powered = true ∧ s.cur = none ∧ s.owner = none ∧ s.window = none ∧ s.jseq = 0 ∧ s.openCmds = [] ∧ s.groups = [] ∧ s.blocks = [] ∧
   s.held = [] ∧ s.ctxs = [] ∧ s.producers = [] ∧ s.stores = [] ∧ s.copies = [] ∧ s.adds = [] ∧ s.l1 = [] ∧ s.tags = [] ∧ s.poison = [] ∧
   s.errlog = [] ∧ s.inbox = [] ∧ s.replies = [] ∧ Memory.wf s.mem = true ∧
   (∀ core slot leaf, (s.slotOf core slot).leaves.getD leaf 0 = 0)) ∧
  ∀ (lane : Fin 32) (entry : Word) (n : Nat) (stage : Fin 8),
    let f := Fibre.start lane entry n stage.val
    f.lane = lane ∧ f.pc = entry ∧ f.status = BitVec.ofNat 32 stage.val <<< 29 ∧ f.flags = 0 ∧ f.pred = 1 ∧ f.predBusy = 0 ∧
    f.vregs.length = n ∧ (∀ r ∈ f.vregs, r.val = 0 ∧ r.full = true ∧ r.mark = none ∧ r.poison = false) ∧ (∀ t ∈ f.vtags, t = false) ∧
    f.epc = 0 ∧ f.cause = 0 ∧ f.trapval = 0 ∧ f.trapvalh = 0 ∧ f.estatus = 0 ∧ f.ereg = 127 ∧ f.wait = none ∧ f.StatusOk ∧
    f.rnd = .rne ∧ f.rat = false ∧ f.wb = 0 ∧ f.ih = false ∧ f.enables = 0

/-- A step runs the unit at work: the instruction that its bytes, or its dictionary entry, decode to, or ILLEGAL; a unit that cannot
be fetched takes the fault of its translation, also where a replay that it waited on was declined, and waits where a replay or an all-bank
pseudo-channel holds the read. With no unit at work it runs
the first input, records in the order of their masters (that order of records in one inbox is the model's reading of R421:
notes/assumptions/87), else an event, else one part of what goes on without an event (a copy, a load of
a tile, a walk, the passing of a clk), which a free choice picks.
Without power it stops (spec/02, R42, R43, R45; spec/04, R98; spec/21, R379, R380; spec/24, R428). -/
def Obligations.StepRunsTheDecodedInstruction : Prop :=
  ∀ s : State,
    let u := s.tickOn
    (s.powered = false → step s = .fault .poweredDown) ∧
    (s.powered = true → ∀ (c : Cur) (g : Group), s.cur = some c → s.group? c.group = some g →
      let runs := fun (i : Option Instr) (w len : Nat) =>
        step s = exec (i.getD .ill) { u with cur := some { c with len := len, word := w } }
      let code := ((s.ctx? (s.ctxOf g)).map (·.codeBase)).getD 0 + c.addr.toNat
      let at_ := fun (va : Nat) => u.translate g.core (s.ctxOf g) va .ex
      let told := fun (va : Nat) => ∃ f ∈ g.batch c.lanes, f.wait = some (.fetch true) ∧ ∃ r ∈ s.replays, r.declined = true ∧
        r.ctx = s.ctxOf g ∧ r.page = va / 65536 ∧ (g.id, f.lane) ∈ r.fibres
      (∀ e, c.entry = some e → runs (decode32 e) e 2) ∧
      (c.entry = none → told code → step s = .next (u.fetchFail g c .pageFault code)) ∧
      (c.entry = none → ¬told code → told (code + 2) → step s = .next (u.fetchFail g c .pageFault (code + 2))) ∧
      (c.entry = none → ¬told code → ¬told (code + 2) →
        (∀ k, at_ code = .ok k → s.heldByLoft k = false →
          let h := s.numAt k 2
          (h % 2 = 0 → runs (decode16 h) h 2) ∧
          (h % 2 = 1 →
            (∀ k2, at_ (code + 2) = .ok k2 → s.heldByLoft k2 = false →
              runs (decode32 (h + 2 ^ 16 * s.numAt k2 2)) (h + 2 ^ 16 * s.numAt k2 2) 4) ∧
            (at_ (code + 2) = .replay →
              step s = .next ((u.awaitReplay g c.lanes (code + 2)).waitBatch g c.lanes (.fetch true))) ∧
            (at_ (code + 2) = .pageFault → step s = .next (u.fetchFail g c .pageFault (code + 2))) ∧
            (at_ (code + 2) = .xlatePerm → step s = .next (u.fetchFail g c .xlatePerm (code + 2))))) ∧
        ((at_ code = .hold ∨ ∃ k, at_ code = .ok k ∧ s.heldByLoft k = true) → step s = .next (u.waitBatch g c.lanes (.fetch false))) ∧
        (at_ code = .replay → step s = .next ((u.awaitReplay g c.lanes code).waitBatch g c.lanes (.fetch true))) ∧
        (at_ code = .pageFault → step s = .next (u.fetchFail g c .pageFault code)) ∧
        (at_ code = .xlatePerm → step s = .next (u.fetchFail g c .xlatePerm code)))) ∧
    (s.powered = true → s.cur = none →
      let v := u.orderInbox
      (∀ i, v.nextInput = some (some i) → step s = exec i v) ∧
      (v.nextInput = some none → step s = .next v.refuseInput) ∧
      (v.nextInput = none → ∀ i, v.nextEvent = some i → step s = exec i v) ∧
      (v.nextInput = none → v.nextEvent = none →
        ∃ n, (v.drifts n = [] ∧ step s = .next v) ∨ ∃ t ∈ v.drifts n, step s = .next t) ∧
      (v.nextInput = none → v.events = [] → (∀ n, v.drifts n = [v.passClk]) → step s = .next v.passClk))

/-- A byte, a number and a register read as they were last written, and a write leaves every other byte and register alone. `zero`
reads 0, `lane` reads the lane, both always full, and a write to `zero` is discarded (spec/02, R29 to R31; spec/07, R153). -/
def Obligations.ReadAfterWrite : Prop :=
  (∀ (m : List Host.Cell) (a : Nat) (v : Byte), Memory.wf m = true →
    memGet (memSet m a v) a = v ∧ ∀ b, b ≠ a → memGet (memSet m a v) b = memGet m b) ∧
  (∀ (s : State) (k : Nat) (bs : List Byte), Memory.wf s.mem = true →
    let t := s.putBytes k bs
    (∀ i b, bs[i]? = some b → t.byteAt (k + i) = b ∧ t.tagAt (k + i) = false) ∧
    (∀ a, (a < k ∨ k + bs.length ≤ a) → t.byteAt a = s.byteAt a) ∧
    ∀ n v, bs = leBytes n v → v < 256 ^ n → t.numAt k n = v) ∧
  (∀ (g : Group) (f : Fibre) (r : Fin 64) (w : Word), f.phys r.val < f.vregs.length →
    let x := f.writeReg (.v r) [w]
    g.cell x (.v r) = .of w ∧ boolAt x.vtags ((f.phys r.val) / 4) = false ∧
    (∀ q : Fin 64, q ≠ r → g.cell x (.v q) = g.cell f (.v q)) ∧ x = { f with vregs := x.vregs, vtags := x.vtags }) ∧
  (∀ (g : Group) (f : Fibre) (r : Fin 32) (w : Word), g.sregs.length = 32 →
    let h := g.writeScalar (.s r) [w]
    h.cell f (.s r) = .of w ∧ boolAt h.stags (r.val / 4) = false ∧
    (∀ q : Fin 32, q ≠ r → h.cell f (.s q) = g.cell f (.s q)) ∧ h = { g with sregs := h.sregs, stags := h.stags }) ∧
  (∀ (g : Group) (f : Fibre) (ws : List Word),
    g.cell f .zero = .of 0 ∧ g.cell f .lane = .of (BitVec.ofNat 32 f.lane.val) ∧ f.writeReg .zero ws = f ∧ g.writeScalar .zero ws = g)

/-- Words written out from the spec's encodings decode to the instructions that they stand for (spec/03, Table 3.13; spec/02, Table
2.5; the encoding tables of spec/04, spec/06, spec/07, spec/09, spec/11, spec/13, spec/15, spec/17 and spec/19). -/
def Obligations.DecodesTheSpecsWords : Prop :=
  ∀ x ∈ ([
    -- ADD.S32 v3, v3, v7 in its compact form; ADD.S32 v3, v5, v7:t; LD.N32 v4, [s8:q + 12]; GUARD ?!p3; DREF 5
    (16, 0x38C0, .addS32Compact { b := 7, d := 3 }),
    (32, 0x41C28301, .add { x := false, fb := true, fa := false, b := .v 7, a := .v 5, d := .v 3 }),
    (32, 0x01A50481, .ld { i := 3, fa := false, a := .s 2, sz := .b4, d := .v 4 }),
    (16, 0x1B02, .guard true 3), (16, 0x0016, .dref 5),
    -- MIN.N32 v2, v2, v6; BR !p2 at offset -7; MODE RDN, 1
    (32, 0x0181020F, .min { x := false, fb := false, fa := false, b := .v 6, a := .v 2, d := .v 2 }),
    (32, 0xFFFF9A41, .br { off := -7, neg := true, p := 2 }), (32, 0x85000037, .modeSet true .rdn),
    -- FCMP.LT.F32 p2, v1, v2; CVTW.F16.F32 v9, v6
    (32, 0x00809261, .fcmp { x := false, fb := false, fa := false, b := .v 2, a := .v 1, cond := 2, p := 2 }),
    (32, 0x04030967, .cvtw { src := .f32, dst := .f16, fa := false, a := .v 6, d := .v 9 }),
    -- ATOM.ADD.S32 v2, [s24:q + v1]; BARA.REL b3
    (32, 0x006C02A5, .atomAdd .plain { x := false, fb := false, fa := false, b := .v 1, a := .s 6, d := .v 2 }),
    (32, 0x218000A3, .bara true (.blk 3)),
    -- STC [s24:q + 128], s8:q; CDER s8:q, s24:q, s12:q
    (32, 0x042C4893, .stc { i := 8, fa := false, a := .s 6, d := .s 2 }),
    (32, 0x132C4895, .cder { fb := false, fa := false, b := .s 3, a := .s 6, d := .s 2 }),
    -- MMA.Z.T 0, t0, t1; COPY v4:q, v16, v48:q; QRES v2, s12:q, v3
    (32, 0x00100CC3, .mma { q := 0, ta := 0, tb := 1, z := true, t := true }),
    (32, 0x0C0804D1, .copy { fb := false, fa := false, b := .v 12, a := 1, d := .v 1 }),
    (32, 0x80E602DD, .qres { fb := false, fa := false, b := .v 3, a := .s 3, d := .v 2 }),
    -- HLD.F v8, s8:q, v0:q, p0; TRI p3, s24:q, v5; LOFT v1, s0:q, v2
    (32, 0x002488E5, .hldF { p := 0, fb := false, fa := false, c := .v 0, a := .s 2, d := .v 8 }),
    (32, 0x016C03ED, .tri { fb := false, fa := false, b := .v 5, a := .s 6, p := 3 }),
    (32, 0x00A001FB, .loft { fb := false, fa := false, b := .v 2, a := .s 0, d := .v 1 })] : List (Nat × Nat × Instr)),
    decodeTableWord x.1 x.2.1 = some x.2.2

/-- Decoding the bytes of a well-formed instruction gives it back, with its length, whatever follows (spec/03, R50 to R73). -/
def Obligations.EncodingRoundTrip : Prop :=
  ∀ (i : Instr) (bs rest : List Byte), i.wellFormed = true → encode i = some bs → decode (bs ++ rest) = .ok (i, bs.length)

/-- What decodes is well formed, and its encoding is the bytes it was decoded from: no bit of a word is dropped (spec/03, R50 to
R73). -/
def Obligations.DecodingRoundTrip : Prop :=
  ∀ (bs : List Byte) (i : Instr) (n : Nat), decode bs = .ok (i, n) → i.wellFormed = true ∧ encode i = some (bs.take n)

/-- Every step keeps the canonical form of memory (the model's own form, notes/assumptions/1; spec/10, R213). -/
def Obligations.StepKeepsMemoryForm : Prop :=
  ∀ s t : State, Memory.wf s.mem = true → step s = .next t → Memory.wf t.mem = true

/-! Integer instructions (spec/04). -/

/-- ADD, SUB, MUL, AND, OR, XOR and ANDN at both widths, and what stands before them: REGISTER_RANGE, the trap of a faulted register,
EMPTY_READ, the wait for an empty register, POISON. Which of several operands these report is the model's choice but for R48's deferred
traps (notes/assumptions/124) (spec/02, R29, R33, R35; spec/04, R77, R81; spec/08, R178; spec/10, R229). -/
def Obligations.IntegerArithmeticAndLogic : Prop :=
  (∀ (o : Rrr) (s : State) (c : Cur) (g : Group), ∀ i ∈ [Instr.add o, .sub o, .mul o, .and o, .or o, .xor o, .andn o],
     Checks i s c g (formRrr (regs o.x) o)) ∧
  ∀ (o : Rrr) (s : State) (c : Cur) (g : Group) (fs : List Fibre), Acting s c g fs (formRrr (regs o.x) o) →
    let a := fun f => g.word f o.a
    let b := fun f => g.word f o.b
    let A := fun f => g.dword f o.a
    let B := fun f => g.dword f o.b
    Gives (.add o) s c g fs o.d (fun f => atWidth o.x (a f + b f) (A f + B f)) ∧
    Gives (.sub o) s c g fs o.d (fun f => atWidth o.x (a f - b f) (A f - B f)) ∧
    Gives (.mul o) s c g fs o.d (fun f => atWidth o.x (a f * b f) (A f * B f)) ∧
    Gives (.and o) s c g fs o.d (fun f => atWidth o.x (a f &&& b f) (A f &&& B f)) ∧
    Gives (.or o) s c g fs o.d (fun f => atWidth o.x (a f ||| b f) (A f ||| B f)) ∧
    Gives (.xor o) s c g fs o.d (fun f => atWidth o.x (a f ^^^ b f) (A f ^^^ B f)) ∧
    Gives (.andn o) s c g fs o.d (fun f => atWidth o.x (a f &&& ~~~b f) (A f &&& ~~~B f))

/-- MULHI, MIN and MAX, signed when X = 1; MAD and BFI read D as well (spec/04, R81, R87). -/
def Obligations.IntegerBoundsAndOperationsThatReadD : Prop :=
  (∀ (o : Rrr) (s : State) (c : Cur) (g : Group) (fs : List Fibre), Acting s c g fs (formRrr 1 o) →
     let a := fun f => g.word f o.a
     let b := fun f => g.word f o.b
     Gives (.mulhi o) s c g fs o.d (fun f =>
       [if o.x then ((a f).signExtend 64 * (b f).signExtend 64).extractLsb' 32 32
        else ((a f).zeroExtend 64 * (b f).zeroExtend 64).extractLsb' 32 32]) ∧
     Gives (.min o) s c g fs o.d (fun f => [if (if o.x then (a f).sle (b f) else (a f).ule (b f)) then a f else b f]) ∧
     Gives (.max o) s c g fs o.d (fun f => [if (if o.x then (a f).sle (b f) else (a f).ule (b f)) then b f else a f])) ∧
  (∀ (o : Rrr) (s : State) (c : Cur) (g : Group) (fs : List Fibre),
     let n := regs o.x
     (Acting s c g fs ⟨[.both o.d n, .source o.a n o.fa, .source o.b n o.fb], [], false, .own⟩ →
       Gives (.mad o) s c g fs o.d (fun f => atWidth o.x (g.word f o.a * g.word f o.b + g.word f o.d)
         (g.dword f o.a * g.dword f o.b + g.dword f o.d))) ∧
     (Acting s c g fs ⟨[.both o.d n, .source o.a n o.fa, .source o.b 1 o.fb], [], false, .own⟩ →
       Gives (.bfi o) s c g fs o.d (fun f =>
         let w := if o.x then 64 else 32
         let pos := (g.word f o.b).toNat % 64
         let len := if w ≤ pos then 0 else min ((g.word f o.b).toNat / 256 % 128) (w - pos)
         let m32 : Word := (BitVec.ofNat 32 (2 ^ len - 1)) <<< pos
         let m64 : DWord := (BitVec.ofNat 64 (2 ^ len - 1)) <<< pos
         atWidth o.x ((g.word f o.d &&& ~~~m32) ||| ((g.word f o.a <<< pos) &&& m32))
           ((g.dword f o.d &&& ~~~m64) ||| ((g.dword f o.a <<< pos) &&& m64)))))

/-- Shifts take the whole count of B; a count of the width or more leaves 0, or the sign for SAR (spec/04, R81, R84). -/
def Obligations.Shifts : Prop :=
  ∀ (s : State) (c : Cur) (g : Group) (fs : List Fibre),
    (∀ o : Rrr, Acting s c g fs ⟨[.dest o.d (regs o.x), .source o.a (regs o.x) o.fa, .source o.b 1 o.fb], [], false, .own⟩ →
      let a := fun f => g.word f o.a
      let A := fun f => g.dword f o.a
      let n := fun f => (g.word f o.b).toNat
      Gives (.shl o) s c g fs o.d (fun f => atWidth o.x (a f <<< n f) (A f <<< n f)) ∧
      Gives (.shr o) s c g fs o.d (fun f => atWidth o.x (a f >>> n f) (A f >>> n f)) ∧
      Gives (.sar o) s c g fs o.d (fun f => atWidth o.x ((a f).sshiftRight (n f)) ((A f).sshiftRight (n f)))) ∧
    (∀ o : ShiftImm, Acting s c g fs ⟨[.dest o.d (regs o.wide), .source o.a (regs o.wide) o.fa], [], false, .own⟩ →
      let a := fun f => g.word f o.a
      let A := fun f => g.dword f o.a
      let n := o.n.val
      Gives (.shli o) s c g fs o.d (fun f => atWidth o.wide (a f <<< n) (A f <<< n)) ∧
      Gives (.shri o) s c g fs o.d (fun f => atWidth o.wide (a f >>> n) (A f >>> n)) ∧
      Gives (.sari o) s c g fs o.d (fun f => atWidth o.wide ((a f).sshiftRight n) ((A f).sshiftRight n)))

/-- Immediate forms sign-extend IMM9; MOVI sign-extends IMM17; MOVHI keeps D bits 15:0 (spec/04, R83, R92, R93). -/
def Obligations.ImmediateForms : Prop :=
  ∀ (s : State) (c : Cur) (g : Group) (fs : List Fibre),
    (∀ o : RegImm, Acting s c g fs ⟨[.dest o.d 1, .source o.a 1 o.fa], [], false, .own⟩ →
      let a := fun f => g.word f o.a
      let i := o.i.signExtend 32
      Gives (.addi o) s c g fs o.d (fun f => [a f + i]) ∧
      Gives (.andi o) s c g fs o.d (fun f => [a f &&& i]) ∧
      Gives (.ori o) s c g fs o.d (fun f => [a f ||| i]) ∧
      Gives (.xori o) s c g fs o.d (fun f => [a f ^^^ i])) ∧
    (∀ (i : BitVec 17) (d : Reg), Acting s c g fs ⟨[.dest d 1], [], false, .own⟩ →
      Gives (.movi i d) s c g fs d (fun _ => [i.signExtend 32]) ∧ -65536 ≤ (i.signExtend 32).toInt ∧ (i.signExtend 32).toInt ≤ 65535) ∧
    (∀ (i : BitVec 16) (d : Reg), Acting s c g fs ⟨[.both d 1], [], false, .own⟩ →
      Gives (.movhi i d) s c g fs d (fun f => [(i.zeroExtend 32 <<< 16) ||| (g.word f d &&& 0xFFFF)]))

/-- MOV, ABS, CLZ, POPC and BREV; BFX extracts a field; LEA forms a 64-bit sum (spec/04, R85, R86, R88). -/
def Obligations.SingleSourceExtractAndAddressSum : Prop :=
  (∀ (o : Rr) (s : State) (c : Cur) (g : Group) (fs : List Fibre), Acting s c g fs (formRr o) →
     let a := fun f => g.word f o.a
     let A := fun f => g.dword f o.a
     Gives (.mov o) s c g fs o.d (fun f => atWidth o.x (a f) (A f)) ∧
     Gives (.abs o) s c g fs o.d (fun f => atWidth o.x (if (a f).msb then -(a f) else a f) (if (A f).msb then -(A f) else A f)) ∧
     Gives (.clz o) s c g fs o.d (fun f => atWidth o.x (BitVec.ofNat 32 (if a f = 0 then 32 else 31 - Nat.log2 (a f).toNat))
       (BitVec.ofNat 64 (if A f = 0 then 64 else 63 - Nat.log2 (A f).toNat))) ∧
     Gives (.popc o) s c g fs o.d (fun f =>
       atWidth o.x (BitVec.ofNat 32 ((List.range 32).countP fun i => (a f).getLsbD i))
         (BitVec.ofNat 64 ((List.range 64).countP fun i => (A f).getLsbD i))) ∧
     Gives (.brev o) s c g fs o.d (fun f => atWidth o.x (a f).reverse (A f).reverse)) ∧
  (∀ (o : Rrr) (s : State) (c : Cur) (g : Group) (fs : List Fibre),
     (Acting s c g fs (formRrr 1 o) →
       Gives (.bfx o) s c g fs o.d (fun f =>
         let pos := (g.word f o.b).toNat % 64
         let len := if 32 ≤ pos then 0 else min ((g.word f o.b).toNat / 256 % 128) (32 - pos)
         let x := (g.word f o.a >>> pos) &&& BitVec.ofNat 32 (2 ^ len - 1)
         [if o.x ∧ 0 < len ∧ x.getLsbD (len - 1) = true then x - BitVec.ofNat 32 (2 ^ len) else x])) ∧
     (Acting s c g fs ⟨[.dest o.d 2, .source o.a 2 o.fa, .source o.b 1 o.fb], [], false, .own⟩ →
       Gives (.lea o) s c g fs o.d (fun f =>
         pairWords (g.dword f o.a + (if o.x then (g.word f o.b).zeroExtend 64 else (g.word f o.b).signExtend 64)))))

/-- CMP, CMPI, SEL and PLOP (spec/04, R89 to R91). -/
def Obligations.CompareSelectAndPredicateLogic : Prop :=
  ∀ (s : State) (c : Cur) (g : Group) (fs : List Fibre),
    (∀ o : CmpReg, Acting s c g fs ⟨[.source o.a (regs o.x) o.fa, .source o.b (regs o.x) o.fb], [o.p], false, .own⟩ →
      Changes (.cmp o) s c g fs (fun f => (f.setPred o.p (if o.x then compares o.cond.val (g.dword f o.a) (g.dword f o.b)
        else compares o.cond.val (g.word f o.a) (g.word f o.b))).goesOn c.next)) ∧
    (∀ o : CmpImm, Acting s c g fs ⟨[.source o.a 1 o.fa], [o.p], false, .own⟩ →
      Changes (.cmpi o) s c g fs (fun f =>
        (f.setPred o.p (compares o.cond.val (g.word f o.a) (o.i.signExtend 32))).goesOn c.next)) ∧
    (∀ o : Select, Acting s c g fs ⟨[.dest o.d 1, .source o.a 1 false, .source o.b 1 false], [o.p], false, .own⟩ →
      Gives (.sel o) s c g fs o.d (fun f => [if f.predBit o.p then g.word f o.a else g.word f o.b])) ∧
    (∀ o : PredOp, Acting s c g fs ⟨[], [o.pa, o.pb, o.pd], false, .own⟩ →
      Changes (.plop o) s c g fs (fun f =>
        (f.setPred o.pd ((o.tt.val >>> ((if f.predBit o.pa then 2 else 0) + (if f.predBit o.pb then 1 else 0))) % 2 == 1)).goesOn c.next))

/-- A compact word behaves as the 32-bit word of its table: D and A from bits 10:6, B from bits 15:11, in IEEE mode and in rational
mode (spec/03, R56; spec/06, R126). -/
def Obligations.CompactForms : Prop :=
  (∀ (o : Compact) (s : State) (c : Cur) (g : Group) (fs : List Fibre),
     let d : Reg := .v (o.d.castLE (by decide))
     let b : Reg := .v (o.b.castLE (by decide))
     let x := fun f => g.word f d
     let y := fun f => g.word f b
     (Acting s c g fs ⟨[.dest d 1, .source d 1 false, .source b 1 false], [], false, .own⟩ →
       Gives (.addS32Compact o) s c g fs d (fun f => [x f + y f]) ∧
       Gives (.subS32Compact o) s c g fs d (fun f => [x f - y f]) ∧
       Gives (.mulS32Compact o) s c g fs d (fun f => [x f * y f]) ∧
       Gives (.andCompact o) s c g fs d (fun f => [x f &&& y f]) ∧
       Gives (.orCompact o) s c g fs d (fun f => [x f ||| y f]) ∧
       Gives (.xorCompact o) s c g fs d (fun f => [x f ^^^ y f]) ∧
       Gives (.shlS32Compact o) s c g fs d (fun f => [x f <<< (y f).toNat]) ∧
       Gives (.shrN32Compact o) s c g fs d (fun f => [x f >>> (y f).toNat]) ∧
       Gives (.sarS32Compact o) s c g fs d (fun f => [(x f).sshiftRight (y f).toNat]) ∧
       Gives (.minS32Compact o) s c g fs d (fun f => [if (x f).sle (y f) then x f else y f]) ∧
       Gives (.maxS32Compact o) s c g fs d (fun f => [if (x f).sle (y f) then y f else x f])) ∧
     (Acting s c g fs ⟨[.dest d 1, .source b 1 false], [], false, .own⟩ →
       Gives (.movCompact o) s c g fs d (fun f => [y f]))) ∧
  (∀ (o : Compact) (s : State) (c : Cur) (g : Group) (fs : List Fibre), (∀ f ∈ fs, f.rat = false) →
     let d : Reg := .v (o.d.castLE (by decide))
     let e : Reg := .v (o.b.castLE (by decide))
     Acting s c g fs ⟨[.dest d 1, .source d 1 false, .source e 1 false], [], false, .own⟩ →
     let a := fun f => g.ieee f .f32 d
     let b := fun f => g.ieee f .f32 e
     let r := fun (f : Fibre) (x : Option Machine.Num) => ieeeResult .f32 f.rnd [a f, b f] x 0
     let add := fun f => r f ((a f).add? f.rnd (b f))
     let sub := fun f => r f ((a f).add? f.rnd (b f).negate)
     let mul := fun f => r f ((a f).mul? (b f))
     let mx := fun f => r f (some ((a f).maxOf (b f)))
     Computes (.faddF32Compact o) s c g fs d (fun f => (add f).1) (fun f => (add f).2) ∧
     Computes (.fsubF32Compact o) s c g fs d (fun f => (sub f).1) (fun f => (sub f).2) ∧
     Computes (.fmulF32Compact o) s c g fs d (fun f => (mul f).1) (fun f => (mul f).2) ∧
     Computes (.fmaxF32Compact o) s c g fs d (fun f => (mx f).1) (fun f => (mx f).2)) ∧
  (∀ (o : Compact) (s : State) (c : Cur) (g : Group) (fs : List Fibre), (∀ f ∈ fs, f.rat = true) →
     let d : Reg := .v (o.d.castLE (by decide))
     let e : Reg := .v (o.b.castLE (by decide))
     Acting s c g fs ⟨[.dest d 1, .source d 1 false, .source e 1 false], [], false, .own⟩ →
     let a := fun (f : Fibre) => ratRead 26 (g.word f d).toNat
     let b := fun (f : Fibre) => ratRead 26 (g.word f e).toNat
     let run := fun (i : Instr) (h : Fibre → Machine.Num × BitVec 6) =>
       Owes i s c g fs d 1 .rational (fun f => ⟨[BitVec.ofNat 32 (ratCode 26 (h f).1)], (h f).2 ||| ((a f).2 ||| (b f).2), none⟩)
     run (.faddF32Compact o) (fun f => ratOp numAdd false false f.rnd (a f).1 (b f).1) ∧
     run (.fsubF32Compact o) (fun f => ratOp numSub false false f.rnd (a f).1 (b f).1) ∧
     run (.fmulF32Compact o) (fun f => ratOp numMul false false f.rnd (a f).1 (b f).1) ∧
     run (.fmaxF32Compact o) (fun f => (((a f).1.maxOf (b f).1).reduce, 0)))

/-- DIV and REM are long-latency producers; a zero divisor gives all ones and the dividend, and raises DZ (spec/04, R82). That the mark
of a lane's ARITH trap falls on a scalar D, whichever lane raises it, is the model's choice (notes/assumptions/96). -/
def Obligations.DivisionAndRemainder : Prop :=
  ∀ (o : Rrr) (s : State) (c : Cur) (g : Group) (fs : List Fibre), Acting s c g fs (formRrr 1 o) →
    let a := fun f => g.word f o.a
    let b := fun f => g.word f o.b
    let fl := fun f => if b f = 0 then flagDZ else 0
    Owes (.div o) s c g fs o.d 1 .longArith (fun f =>
      ⟨[if b f = 0 then 0xFFFFFFFF else if o.x then (a f).sdiv (b f) else (a f).udiv (b f)], fl f, none⟩) ∧
    Owes (.rem o) s c g fs o.d 1 .longArith (fun f =>
      ⟨[if b f = 0 then a f else if o.x then (a f).srem (b f) else (a f).umod (b f)], fl f, none⟩)

/-! Floating and rational instructions (spec/06). The exact values are those of `Num`. -/

/-- FADD, FSUB, FMUL, FDIV, FMIN and FMAX at .F32 and .F64 with RAT = 0; a raised flag that is enabled traps ARITH (spec/02, R38;
spec/06, R131, R132). -/
def Obligations.FloatingArithmetic : Prop :=
  ∀ (o : Rrr) (s : State) (c : Cur) (g : Group) (fs : List Fibre),
    let F : Fmt := if o.x then .f64 else .f32
    Acting s c g fs (formF F false o) → (∀ f ∈ fs, f.rat = false) →
    let a := fun f => g.ieee f F o.a
    let b := fun f => g.ieee f F o.b
    let r := fun (f : Fibre) (x : Option Machine.Num) (more : BitVec 6) => ieeeResult F f.rnd [a f, b f] x more
    let add := fun f => r f ((a f).add? f.rnd (b f)) 0
    let sub := fun f => r f ((a f).add? f.rnd (b f).negate) 0
    let mul := fun f => r f ((a f).mul? (b f)) 0
    let div := fun f => match (a f).div (b f) with
      | .ok x => r f (some x) 0
      | .byZero x => r f (some x) flagDZ
      | .invalid => r f none 0
    let mn := fun f => r f (some ((a f).minOf (b f))) 0
    let mx := fun f => r f (some ((a f).maxOf (b f))) 0
    Computes (.fadd o) s c g fs o.d (fun f => (add f).1) (fun f => (add f).2) ∧
    Computes (.fsub o) s c g fs o.d (fun f => (sub f).1) (fun f => (sub f).2) ∧
    Computes (.fmul o) s c g fs o.d (fun f => (mul f).1) (fun f => (mul f).2) ∧
    Computes (.fdiv o) s c g fs o.d (fun f => (div f).1) (fun f => (div f).2) ∧
    Computes (.fmin o) s c g fs o.d (fun f => (mn f).1) (fun f => (mn f).2) ∧
    Computes (.fmax o) s c g fs o.d (fun f => (mx f).1) (fun f => (mx f).2)

/-- The .F16 and .BF16 operations, whatever RAT is; FMA reads D; a raised flag that is enabled traps ARITH (spec/02, R38; spec/06, R131,
R132). -/
def Obligations.HalfPrecisionArithmetic : Prop :=
  ∀ (o : Rrr) (s : State) (c : Cur) (g : Group) (fs : List Fibre),
    let F : Fmt := if o.x then .bf16 else .f16
    let a := fun f => g.ieee f F o.a
    let b := fun f => g.ieee f F o.b
    let d := fun f => g.ieee f F o.d
    (Acting s c g fs (formF F false o) →
      let r := fun (f : Fibre) (x : Option Machine.Num) => ieeeResult F f.rnd [a f, b f] x 0
      let add := fun f => r f ((a f).add? f.rnd (b f))
      let sub := fun f => r f ((a f).add? f.rnd (b f).negate)
      let mul := fun f => r f ((a f).mul? (b f))
      let mn := fun f => r f (some ((a f).minOf (b f)))
      let mx := fun f => r f (some ((a f).maxOf (b f)))
      Computes (.fadd16 o) s c g fs o.d (fun f => (add f).1) (fun f => (add f).2) ∧
      Computes (.fsub16 o) s c g fs o.d (fun f => (sub f).1) (fun f => (sub f).2) ∧
      Computes (.fmul16 o) s c g fs o.d (fun f => (mul f).1) (fun f => (mul f).2) ∧
      Computes (.fmin16 o) s c g fs o.d (fun f => (mn f).1) (fun f => (mn f).2) ∧
      Computes (.fmax16 o) s c g fs o.d (fun f => (mx f).1) (fun f => (mx f).2)) ∧
    (Acting s c g fs (formF F true o) →
      let fma := fun f => ieeeResult F f.rnd [a f, b f, d f] (((a f).mul? (b f)).bind fun p => p.add? f.rnd (d f)) 0
      Computes (.fma16 o) s c g fs o.d (fun f => (fma f).1) (fun f => (fma f).2))

/-- FMA, FCPYS, FSQRT, FRND, FABS, FNEG and FCLASS in IEEE mode; the 16-bit formats are IEEE whatever RAT is. With RAT = 1 FABS and FNEG
write the operand canonical with its new sign, and the others trap NV_ILLEGAL_IN_RATIONAL. A raised flag that is enabled traps ARITH
(spec/02, R38; spec/06, R126, R131 to R136, R139). -/
def Obligations.FusedAndUnaryFloating : Prop :=
  ∀ (s : State) (c : Cur) (g : Group) (fs : List Fibre),
    (∀ o : Rrr, (∀ f ∈ fs, f.rat = false) →
      let F : Fmt := if o.x then .f64 else .f32
      let a := fun f => g.ieee f F o.a
      let b := fun f => g.ieee f F o.b
      let d := fun f => g.ieee f F o.d
      let fma := fun f => ieeeResult F f.rnd [a f, b f, d f] (((a f).mul? (b f)).bind fun p => p.add? f.rnd (d f)) 0
      let cps := fun f => ((layOf F).round f.rnd ((a f).withSign (signOf (layOf F) (g.code f F o.b)))).1
      (Acting s c g fs (formF F true o) → Computes (.fma o) s c g fs o.d (fun f => (fma f).1) (fun f => (fma f).2)) ∧
      (Acting s c g fs (formF F false o) →
        Computes (.fcpys o) s c g fs o.d (fun f => outWords F.wide (cps f)) (fun f => snan [a f, b f]))) ∧
    (∀ o : FUnary, (∀ f ∈ fs, f.rat = false ∨ Machine.Fmt.half o.fmt = true) →
      let a := fun f => g.ieee f o.fmt o.a
      let r := fun (f : Fibre) (x : Option Machine.Num) (more : BitVec 6) => ieeeResult o.fmt f.rnd [a f] x more
      let sq := fun f => ieeeOut o.fmt f.rnd [a f] (numSqrt (layOf o.fmt) f.rnd (a f))
      let rd := fun f => ieeeOut o.fmt f.rnd [a f] (numRnd (layOf o.fmt) f.rnd (a f))
      let ab := fun f => r f (some ((a f).withSign false)) 0
      let ng := fun f => r f (some (a f).negate) 0
      (Acting s c g fs (formU o.fmt o) →
        Computes (.fsqrt o) s c g fs o.d (fun f => outWords o.fmt.wide (sq f).1) (fun f => (sq f).2) ∧
        Computes (.frnd o) s c g fs o.d (fun f => outWords o.fmt.wide (rd f).1) (fun f => (rd f).2) ∧
        Computes (.fabs o) s c g fs o.d (fun f => (ab f).1) (fun f => (ab f).2) ∧
        Computes (.fneg o) s c g fs o.d (fun f => (ng f).1) (fun f => (ng f).2)) ∧
      (Acting s c g fs ⟨[.dest o.d 1, .source o.a (fmtRegs o.fmt) o.fa], [], false, .own⟩ →
        Gives (.fclass o) s c g fs o.d (fun f => [1 <<< classBit (layOf o.fmt) (g.code f o.fmt o.a)]))) ∧
    (∀ o : Rrr, let F : Fmt := if o.x then .f64 else .f32
      (Acting s c g fs (formF F true o) → TrapsInRational (.fma o) s c g fs) ∧
      (Acting s c g fs (formF F false o) → TrapsInRational (.fcpys o) s c g fs)) ∧
    (∀ o : FUnary, Machine.Fmt.half o.fmt = false →
      (Acting s c g fs (formU o.fmt o) → TrapsInRational (.fsqrt o) s c g fs ∧ TrapsInRational (.frnd o) s c g fs) ∧
      (Acting s c g fs ⟨[.dest o.d 1, .source o.a (fmtRegs o.fmt) o.fa], [], false, .own⟩ → TrapsInRational (.fclass o) s c g fs) ∧
      let W := if o.fmt.wide then 57 else 26
      let a := fun (f : Fibre) => ratRead W (g.num f o.fmt.wide o.a)
      let gives := fun (i : Instr) (x : Machine.Num → Machine.Num) =>
        Owes i s c g fs o.d (fmtRegs o.fmt) .rational (fun f => ⟨outWords o.fmt.wide (ratCode W (x (a f).1).reduce), (a f).2, none⟩)
      Acting s c g fs (formU o.fmt o) → (∀ f ∈ fs, f.rat = true) → gives (.fabs o) (·.withSign false) ∧ gives (.fneg o) (·.negate))

/-- FCMP at every format: the predicate of its condition, with NV for a NaN that the condition orders; a raised flag that is enabled
traps ARITH at the FCMP. With RAT = 1 it compares rationals: under TENV it completes at the FCMP, and so does, by the model's reading
of R38 and R139, one whose flags trap (notes/assumptions/12); otherwise a producer owes the predicate (spec/02, R38; spec/06, R127, R134, R139). -/
def Obligations.FloatingCompares : Prop :=
  ∀ (o : CmpReg) (s : State) (c : Cur) (g : Group) (fs : List Fibre),
    let flags := fun (a b : Machine.Num) => if (2 ≤ o.cond.val ∧ o.cond.val ≤ 5 ∧ (a.isNan ∨ b.isNan)) ∨ a.isSnan ∨ b.isSnan then flagNV else 0
    let at_ := fun (i : Instr) (p : Fibre → Bool) (fl : Fibre → BitVec 6) =>
      ((∀ f ∈ fs, fl f &&& f.enables = 0) →
        Changes i s c g fs (fun f => { f.setPred o.p (p f) with flags := f.flags ||| fl f }.goesOn c.next)) ∧
      TrapsArith i s c g fs fl
    let run := fun (i : Instr) (F : Fmt) =>
      Acting s c g fs (formCmp F o) →
      at_ i (fun f => condNum o.cond.val (g.ieee f F o.a) (g.ieee f F o.b)) (fun f => flags (g.ieee f F o.a) (g.ieee f F o.b))
    let F : Fmt := if o.x then .f64 else .f32
    ((∀ f ∈ fs, f.rat = false) → run (.fcmp o) F) ∧
    run (.fcmp16 o) (if o.x then .bf16 else .f16) ∧
    (Acting s c g fs (formCmp F o) → (∀ f ∈ fs, f.rat = true) →
      let W := if o.x then 57 else 26
      let a := fun (f : Fibre) => ratRead W (g.num f o.x o.a)
      let b := fun (f : Fibre) => ratRead W (g.num f o.x o.b)
      let p := fun (f : Fibre) => condNum o.cond.val (a f).1 (b f).1
      let fl := fun (f : Fibre) => flags (a f).1 (b f).1 ||| (a f).2 ||| (b f).2
      ((∀ f ∈ fs, f.enables.getLsbD 4 = true) → at_ (.fcmp o) p fl) ∧
      TrapsArith (.fcmp o) s c g fs fl ∧
      ((∀ f ∈ fs, f.enables.getLsbD 4 = false ∧ fl f &&& f.enables = 0) →
        Does (.fcmp o) s
          { s with
            nextId := s.nextId + 1
            producers := s.producers ++ [⟨s.nextId, g.id, .rational, (fs.map fun f => (f.lane, o.p)).filter (fun q => q.2.val != 0),
              fs.map (·.lane), none, .ready (fs.map fun f => ⟨.none f.lane, [], false, false, none, fl f, some (o.p, p f)⟩), []⟩] }
          c g g fs (fun f => (f.awaits o.p).goesOn c.next)))

/-- Conversions in IEEE mode. With RAT = 1 CVTI, CVTF, CVTN and CVTX trap NV_ILLEGAL_IN_RATIONAL on a .F32 or .F64 side, and CVTW takes
its .F32 and .F64 sides as rationals. A raised flag that is enabled traps ARITH (spec/02, R38; spec/06, R126, R143 to R147). -/
def Obligations.Conversions : Prop :=
  ∀ (s : State) (c : Cur) (g : Group) (fs : List Fibre),
    (∀ o : CvtInt, (∀ f ∈ fs, f.rat = false ∨ Machine.Fmt.half o.ff = true) →
      (Acting s c g fs ⟨[.dest o.d (regs o.ii.wide), .source o.a (fmtRegs o.ff) o.fa], [], false, .own⟩ →
        let r := fun (f : Fibre) => cvtiRes o.ii (if o.t then .rtz else f.rnd) (g.ieee f o.ff o.a)
        Computes (.cvti o) s c g fs o.d (fun f => outWords o.ii.wide (wrap (bitsOf o.ii.wide) (r f).1)) (fun f => (r f).2)) ∧
      (Acting s c g fs ⟨[.dest o.d (fmtRegs o.ff), .source o.a (regs o.ii.wide) o.fa], [], false, .own⟩ →
        let r := fun (f : Fibre) => (layOf o.ff).round f.rnd (.ofInt false (intOf o.ii (g.num f o.ii.wide o.a)) 1)
        Computes (.cvtf o) s c g fs o.d (fun f => outWords o.ff.wide (r f).1) (fun f => (r f).2))) ∧
    (∀ o : CvtWide, (∀ f ∈ fs, f.rat = false ∨ (Machine.Fmt.half o.src = true ∧ Machine.Fmt.half o.dst = true)) → Acting s c g fs ⟨[.dest o.d (fmtRegs o.dst), .source o.a (fmtRegs o.src) o.fa], [], false, .own⟩ →
      let r := fun f => ieeeResult o.dst f.rnd [g.ieee f o.src o.a] (some (g.ieee f o.src o.a)) 0
      Computes (.cvtw o) s c g fs o.d (fun f => (r f).1) (fun f => (r f).2)) ∧
    (∀ o : CvtNarrow, (∀ f ∈ fs, f.rat = false ∨ Machine.Fmt.half o.ff = true) →
      (Acting s c g fs ⟨[.dest o.d 1, .source o.a (fmtRegs o.ff) o.fa], [], false, .own⟩ →
        let r := fun (f : Fibre) => roundNarrow f.rnd o.nn o.sat (g.ieee f o.ff o.a)
        Computes (.cvtn o) s c g fs o.d (fun f => [BitVec.ofNat 32 (r f).1]) (fun f => (r f).2)) ∧
      (Acting s c g fs ⟨[.dest o.d (fmtRegs o.ff), .source o.a 1 o.fa], [], false, .own⟩ →
        Gives (.cvtx o) s c g fs o.d (fun f =>
          outWords o.ff.wide ((layOf o.ff).round .rne (narrowRead o.nn (g.word f o.a).toNat)).1))) ∧
    (∀ o : CvtInt, Machine.Fmt.half o.ff = false →
      (Acting s c g fs ⟨[.dest o.d (regs o.ii.wide), .source o.a (fmtRegs o.ff) o.fa], [], false, .own⟩ → TrapsInRational (.cvti o) s c g fs) ∧
      (Acting s c g fs ⟨[.dest o.d (fmtRegs o.ff), .source o.a (regs o.ii.wide) o.fa], [], false, .own⟩ → TrapsInRational (.cvtf o) s c g fs)) ∧
    (∀ o : CvtNarrow, Machine.Fmt.half o.ff = false →
      (Acting s c g fs ⟨[.dest o.d 1, .source o.a (fmtRegs o.ff) o.fa], [], false, .own⟩ → TrapsInRational (.cvtn o) s c g fs) ∧
      (Acting s c g fs ⟨[.dest o.d (fmtRegs o.ff), .source o.a 1 o.fa], [], false, .own⟩ → TrapsInRational (.cvtx o) s c g fs)) ∧
    (∀ o : CvtWide, (Machine.Fmt.half o.src && Machine.Fmt.half o.dst) = false →
      Acting s c g fs ⟨[.dest o.d (fmtRegs o.dst), .source o.a (fmtRegs o.src) o.fa], [], false, .own⟩ → (∀ f ∈ fs, f.rat = true) →
      let W := fun (F : Fmt) => if F.wide then 57 else 26
      let x := fun (f : Fibre) => if Machine.Fmt.half o.src then
          let a := g.ieee f o.src o.a
          (a, if a.isSnan then flagNV else 0)
        else ratRead (W o.src) (g.num f o.src.wide o.a)
      let r := fun (f : Fibre) => if Machine.Fmt.half o.dst then (layOf o.dst).round f.rnd (x f).1
        else
          let q := roundQ (W o.dst) f.rnd (x f).1
          (ratCode (W o.dst) q.1, q.2)
      Owes (.cvtw o) s c g fs o.d (fmtRegs o.dst) .rational (fun f => ⟨outWords o.dst.wide (r f).1, (r f).2 ||| (x f).2, none⟩))

/-- The special-function unit is a long-latency producer of its binary32 stage, rounded once more for .F16 (spec/06, R137). Where
the spec bounds the stage and does not give its value, the value is the free `Config.sfu` wherever that lies within the bound of two
units in the last place (notes/assumptions/13). With RAT = 1 the .F32 form traps NV_ILLEGAL_IN_RATIONAL (spec/06, R126). That the mark of
a lane's ARITH trap falls on a scalar D, whichever lane raises it, is the model's choice (notes/assumptions/96). -/
def Obligations.SpecialFunctions : Prop :=
  ∀ (o : FUnary) (s : State) (c : Cur) (g : Group) (fs : List Fibre),
    Acting s c g fs (formU o.fmt o) →
    (Machine.Fmt.half o.fmt = false → ∀ i ∈ [Instr.sfuEx2 o, .sfuLg2 o, .sfuSin o, .sfuCos o, .sfuRcp o, .sfuRsq o, .sfuTanh o],
      TrapsInRational i s c g fs) ∧
    ((∀ f ∈ fs, f.rat = false ∨ Machine.Fmt.half o.fmt = true) →
    let run := fun (i : Instr) (fn : SfuFn) =>
      let stage := fun (f : Fibre) => sfuF32 fn (g.ieee f o.fmt o.a)
      (∀ (a : Machine.Num) x fl, fn.special a = some (x, fl) → sfuF32 fn a = ((Lay.f32.round .rne x).1, fl)) ∧
      (∀ sg n q, fn.special (.fin sg n q) = none →
        let v := (Config.sfu fn.code (BitVec.ofNat 32 (Lay.f32.round .rne (.fin sg n q)).1)).toNat
        withinTwo (fn.exact sg n q) v = true → sfuF32 fn (.fin sg n q) = (v, 0)) ∧
      Owes i s c g fs o.d (fmtRegs o.fmt) .longArith (fun f =>
        if o.fmt = .f16 then
          let h := Lay.f16.round f.rnd (Lay.f32.read (stage f).1)
          ⟨outWords o.fmt.wide h.1, h.2 ||| (stage f).2, none⟩
        else ⟨outWords o.fmt.wide (stage f).1, (stage f).2, none⟩)
    run (.sfuEx2 o) .ex2 ∧ run (.sfuLg2 o) .lg2 ∧ run (.sfuSin o) .sin ∧ run (.sfuCos o) .cos ∧
    run (.sfuRcp o) .rcp ∧ run (.sfuRsq o) .rsq ∧ run (.sfuTanh o) .tanh)

/-- Rational arithmetic, with RAT = 1, and the rational instructions, whatever RAT is: long-latency producers of the canonical code
of the exact result rounded by round_q (spec/06, R138 to R142). That the mark of a lane's ARITH trap falls on a scalar D, whichever lane
raises it, is the model's choice (notes/assumptions/96). -/
def Obligations.RationalOperations : Prop :=
  ∀ (s : State) (c : Cur) (g : Group) (fs : List Fibre),
    (∀ o : Rrr,
      let W := if o.x then 57 else 26
      let a := fun (f : Fibre) => ratRead W (g.num f o.x o.a)
      let b := fun (f : Fibre) => ratRead W (g.num f o.x o.b)
      let res := fun (x : Machine.Num × BitVec 6) (more : BitVec 6) => (⟨outWords o.x (ratCode W x.1), x.2 ||| more, none⟩ : LongRes)
      let w := bitsOf o.x
      (Acting s c g fs (formRrr (regs o.x) o) → (∀ f ∈ fs, f.rat = true) →
        let run := fun (i : Instr) (h : Fibre → Machine.Num × BitVec 6) =>
          Owes i s c g fs o.d (regs o.x) .rational (fun f => res (h f) ((a f).2 ||| (b f).2))
        run (.fadd o) (fun f => ratOp numAdd false o.x f.rnd (a f).1 (b f).1) ∧
        run (.fsub o) (fun f => ratOp numSub false o.x f.rnd (a f).1 (b f).1) ∧
        run (.fmul o) (fun f => ratOp numMul false o.x f.rnd (a f).1 (b f).1) ∧
        run (.fdiv o) (fun f => ratOp numDiv true o.x f.rnd (a f).1 (b f).1) ∧
        run (.fmin o) (fun f => (((a f).1.minOf (b f).1).reduce, 0)) ∧
        run (.fmax o) (fun f => (((a f).1.maxOf (b f).1).reduce, 0))) ∧
      (Acting s c g fs (formRrr (regs o.x) o) →
        Owes (.qmake o) s c g fs o.d (regs o.x) .rational (fun f =>
          res (qmakeRes o.x f.rnd (signed w (g.num f o.x o.a)) (signed w (g.num f o.x o.b))) 0) ∧
        Owes (.qlim o) s c g fs o.d (regs o.x) .rational (fun f => res (qlimRes o.x f.rnd (a f).1 (g.num f o.x o.b)) (a f).2))) ∧
    (∀ o : FUnary, Acting s c g fs (formU o.fmt o) →
      let W := if o.fmt.wide then 57 else 26
      let a := fun (f : Fibre) => ratRead W (g.num f o.fmt.wide o.a)
      let w := bitsOf o.fmt.wide
      Owes (.qnum o) s c g fs o.d (fmtRegs o.fmt) .rational (fun f => ⟨outWords o.fmt.wide (wrap w (qnumOf (a f).1.reduce)), (a f).2, none⟩) ∧
      Owes (.qden o) s c g fs o.d (fmtRegs o.fmt) .rational (fun f => ⟨outWords o.fmt.wide (wrap w (qdenOf (a f).1.reduce)), (a f).2, none⟩))

/-- PKP and UPKP move codes between lanes and planes; a lane that does not act counts as 0. SHFL, VOTE and MATCH: what a fibre gets
from the other fibres of its batch (spec/06, R148; spec/09, R196 to R199). -/
def Obligations.PlanesAndLaneExchange : Prop :=
  (∀ (o : Plane) (s : State) (c : Cur) (g : Group) (fs : List Fibre), Acting s c g fs (formPlane o) →
     let m := o.w.val + 2
     let lane := fun (e : Nat) => ((fs.find? fun f => f.lane.val = e).map fun f => (g.word f o.a).toNat).getD 0
     Gives (.pkp o) s c g fs o.d (fun f =>
       [if f.lane.val < m then BitVec.ofNat 32 (packPlanes m (fun e => lane e % 2 ^ m) / 2 ^ (32 * f.lane.val)) else 0]) ∧
     Gives (.upkp o) s c g fs o.d (fun f =>
       [BitVec.ofNat 32 (unpackPlanes m ((List.range m).foldl (fun v j => v + lane j * 2 ^ (32 * j)) 0) f.lane.val)])) ∧
  (∀ (s : State) (c : Cur) (g : Group) (fs : List Fibre),
     (∀ o : Rrr, Acting s c g fs ⟨[.dest o.d (regs o.x), .source o.a (regs o.x) o.fa, .source o.b 1 o.fb], [], false, .named o.b⟩ →
       Gives (.shfl o) s c g fs o.d (fun f =>
         let src := (fs.find? fun x => x.lane.val = (g.word f o.b).toNat).getD f
         atWidth o.x (g.word src o.a) (g.dword src o.a))) ∧
     (∀ (p : Fin 8) (d : Reg), Acting s c g fs ⟨[.dest d 1], [p], false, .own⟩ →
       Gives (.voteBallot p d) s c g fs d (fun _ => [laneMask ((fs.filter fun x => x.predBit p).map (·.lane))]) ∧
       Gives (.voteAny p d) s c g fs d (fun _ => [if fs.any (fun x => x.predBit p) then 1 else 0]) ∧
       Gives (.voteAll p d) s c g fs d (fun _ => [if fs.all (fun x => x.predBit p) then 1 else 0])) ∧
     (∀ o : Rr, Acting s c g fs ⟨[.dest o.d 1, .source o.a (regs o.x) o.fa], [], false, .every⟩ →
       Gives (.matchLanes o) s c g fs o.d (fun f =>
         [laneMask ((fs.filter fun x => if o.x then g.dword x o.a == g.dword f o.a else g.word x o.a == g.word f o.a).map (·.lane))])))

/-! Control and special registers (spec/02, spec/04). -/

/-- BR, CALL, RET, JR and NOP: where each fibre goes on, and what it writes (spec/04, R98 to R103). -/
def Obligations.ControlTransfer : Prop :=
  ∀ (s : State) (c : Cur) (g : Group) (fs : List Fibre),
    (∀ o : Jump, Acting s c g fs ⟨[], [o.p], false, .own⟩ →
      let target := c.addr + (o.off.signExtend 32 <<< 1)
      let taken := fun (f : Fibre) => f.predBit o.p != o.neg
      Changes (.br o) s c g fs (fun f => f.goesOn (if taken f then target else c.next)) ∧
      Changes (.call o) s c g fs (fun f =>
        if taken f then { f with link := c.next }.goesOn target else f.goesOn c.next)) ∧
    (Acting s c g fs ⟨[], [], false, .own⟩ →
      Changes .ret s c g fs (fun f => f.goesOn f.link) ∧ Changes .nop s c g fs (fun f => f.goesOn c.next)) ∧
    (∀ o : RegImm, Acting s c g fs ⟨[.dest o.d 1, .source o.a 1 o.fa], [], false, .own⟩ →
      let target := fun f => g.word f o.a + (o.i.signExtend 32 <<< 1)
      ((∀ f ∈ fs, (target f).getLsbD 0 = false) →
        Does (.jr o) s s c g (g.writeScalar o.d [c.next]) fs (fun f => (f.writeReg o.d [c.next]).goesOn (target f))) ∧
      ((∀ f ∈ fs, (target f).getLsbD 0 = true) →
        Traps (.jr o) s c g fs (fun f => ⟨.misaligned, (target f).zeroExtend 64⟩) (fun _ => 0)))

/-- TRAP, and BRK where no breakpoint stop is armed, trap BREAKPOINT; a BRK where one is armed stops the block and leaves every
fibre at its unit, in a handler too, which against R107's words is the model's choice (notes/assumptions/125). Without a handler, or in
one, a trap is a group fault: the fibre keeps what it saved, and the block stops with the report of its first faulting fibre (spec/02,
R47; spec/04, R105, R106; spec/21, R376; spec/22, R394). -/
def Obligations.BreakpointsAndGroupFaults : Prop :=
  (∀ (i : BitVec 17) (s : State) (c : Cur) (g : Group) (fs : List Fibre), Acting s c g fs ⟨[], [], false, .own⟩ →
     let armed := ((s.ctx? (s.ctxOf g)).map fun x => x.dbg.arm % 2 == 1).getD false
     Traps (.trap i) s c g fs (fun _ => ⟨.breakpoint, BitVec.ofNat 64 (0x80000000 + i.toNat)⟩) (fun _ => 0) ∧
     (armed = false → Traps (.brk i) s c g fs (fun _ => ⟨.breakpoint, BitVec.ofNat 64 i.toNat⟩) (fun _ => 0)) ∧
     (armed = true → Does (.brk i) s (s.stopBlock g.block (.brk i.toNat) g.recNum c.unit g.core g.slot) c g g fs
       (fun f => { f with pc := c.unit, wait := some (.brk c.next), watchOnce := false }))) ∧
  (∀ (i : BitVec 17) (s : State) (c : Cur) (g : Group) (f : Fibre) (fs : List Fibre) (b : Block),
     Acting s c g (f :: fs) ⟨[], [], false, .own⟩ → s.block? g.block = some b → b.mode = .running →
     (∀ x ∈ f :: fs, x.ih = f.ih) → (f.ih = true ∨ (s.handlerOf g).getLsbD 0 = false) →
     let v : DWord := BitVec.ofNat 64 (0x80000000 + i.toNat)
     ∃ t, exec (.trap i) s = .next t ∧ t.mem = s.mem ∧
       ((t.block? g.block).map (·.mode)) = some (.faulting ⟨if f.ih then 1 else 2, some .breakpoint, g.recNum,
         laneMask ((f :: fs).map (·.lane)), c.unit, g.coreId, v, s.clk, 0⟩) ∧
       ((t.group? g.id).bind (·.fibre? f.lane)) = some { f with
         estatus := f.status, epc := c.unit, cause := 0x10, trapval := v.extractLsb' 0 32, trapvalh := 0, ereg := 127, watchUnit := none })

/-- RTT: STATUS comes from ESTATUS but for STAGE and IH, IH is cleared, the PC is EPC; with IH = 0 it traps ILLEGAL. That the
reserved bits of STATUS stay 0 is an inference (notes/assumptions/23), and that RTT in a handler returns, against R107's words, is the
model's choice (notes/assumptions/125) (spec/02, R49; spec/22, R396). -/
def Obligations.ReturnFromTrap : Prop :=
  ∀ (s : State) (c : Cur) (g : Group) (fs : List Fibre), Acting s c g fs ⟨[], [], false, .own⟩ →
    ((∀ f ∈ fs, f.ih = true) → Changes .rtt s c g fs (fun f =>
      { f with
        status := ((f.estatus &&& 0x1FFFFFFE) ||| (f.status &&& 0xE0000000)) &&& statusFields
        pc := f.epc
        wait := none
        parked := none
        watchOnce := f.cause == 0x11 && f.watchUnit == some f.epc })) ∧
    ((∀ f ∈ fs, f.ih = false) → Traps .rtt s c g fs (fun _ => ⟨.illegal, BitVec.ofNat 64 c.word⟩) (fun _ => 0))

/-- GUARD guards the next instruction of its unit, DREF runs a dictionary entry in its place; a second GUARD, an entry whose bit 0
is 0, and ILL trap ILLEGAL in the whole batch, whatever the guard (spec/02, R43 to R45; spec/03, R71). -/
def Obligations.PrefixAndDictionary : Prop :=
  ∀ (s : State) (c : Cur) (g : Group), s.cur = some c → s.group? c.group = some g → g.Shaped → g.batch c.lanes ≠ [] →
    let entry := fun (e : Fin 1024) => (((s.kernelOf g).map fun k => k.dict.getD e.val 0).getD 0)
    (∀ (neg : Bool) (p : Fin 8),
      (c.guard = none → exec (.guard neg p) s = .next { s with cur := some { c with guard := some (neg, p), addr := c.addr + 2 } }) ∧
      (c.guard ≠ none → Traps (.guard neg p) s c g (g.batch c.lanes) (fun _ => ⟨.illegal, BitVec.ofNat 64 c.word⟩) (fun _ => 0))) ∧
    (∀ e : Fin 1024,
      ((entry e).getLsbD 0 = true → exec (.dref e) s = .next { s with cur := some { c with entry := some (entry e).toNat } }) ∧
      ((entry e).getLsbD 0 = false →
        Traps (.dref e) s c g (g.batch c.lanes) (fun _ => ⟨.illegal, (entry e).zeroExtend 64⟩) (fun _ => 0))) ∧
    Traps .ill s c g (g.batch c.lanes) (fun _ => ⟨.illegal, BitVec.ofNat 64 c.word⟩) (fun _ => 0)

/-- RDSR delivers the register it names; a read of CLK also latches the high half for CLKH. The registers of the other chapters read the
launch, the placement, the batch, the quadrants, OUTACK, the fields of the context and the block's PREINFO. One count of clks for all
dies is the model's choice (notes/assumptions/3) (spec/02, R36 to R41; spec/04, R94, R95; spec/08, Table 8.2; spec/11, Table 11.4; spec/12,
Table 12.5; spec/15, R306; spec/17, R339; spec/19, R352; spec/21, Table 21.3). -/
def Obligations.ReadSpecialRegister : Prop :=
  ∀ (n : Fin 128) (d : Reg) (s : State) (c : Cur) (g : Group) (fs : List Fibre), Acting s c g fs ⟨[.dest d 1], [], false, .own⟩ →
    (n.val = 1 → ∀ f ∈ fs, s.flagsBusy g f = false) → (n.val = 2 → ∀ f ∈ fs, f.predBusy = 0) →
    let read := fun (f : Fibre) => s.srRead g c f n.val
    Does (.rdsr n d) s s c g ((fs.head?.map fun f => g.writeScalar d [read f]).getD g) fs (fun f =>
      let x := (f.writeReg d [read f]).goesOn c.next
      if n.val = 0x0C then { x with clkLatch := some (BitVec.ofNat 32 (s.clk / 2 ^ 32)) } else x) ∧
    ∀ f : Fibre,
      s.srRead g c f 0x00 = f.status ∧ s.srRead g c f 0x01 = f.flags.zeroExtend 32 ∧
      s.srRead g c f 0x02 = f.pred.zeroExtend 32 ||| 1 ∧ s.srRead g c f 0x03 = c.addr ∧ s.srRead g c f 0x04 = f.epc ∧
      s.srRead g c f 0x05 = f.cause ∧ s.srRead g c f 0x06 = f.trapval ∧ s.srRead g c f 0x07 = f.trapvalh ∧
      s.srRead g c f 0x08 = f.estatus ∧ s.srRead g c f 0x09 = f.ereg ∧ s.srRead g c f 0x0A = BitVec.ofNat 32 g.regsN ∧
      s.srRead g c f 0x0C = BitVec.ofNat 32 s.clk ∧
      s.srRead g c f 0x0D = f.clkLatch.getD (BitVec.ofNat 32 (s.clk / 2 ^ 32)) ∧ s.srRead g c f 0x0E = f.link ∧
      s.srRead g c f 0x0B = s.handlerOf g ∧
      (∀ (b : Block) (sh : Sheaf) (gr : Grid) (k : Kernel), s.block? g.block = some b → s.sheaf? b.sheaf = some sh →
        s.grid? sh.grid = some gr → s.kernelOf g = some k →
        let at_ := fun (n hi len : Nat) => (s.srRead g c f n).extractLsb' hi len
        s.srRead g c f 0x10 = BitVec.ofNat 32 b.x ∧ at_ 0x11 16 16 = BitVec.ofNat 16 b.z ∧ at_ 0x11 0 16 = BitVec.ofNat 16 b.y ∧
        s.srRead g c f 0x12 = BitVec.ofNat 32 gr.x ∧ at_ 0x13 16 16 = BitVec.ofNat 16 gr.z ∧ at_ 0x13 0 16 = BitVec.ofNat 16 gr.y ∧
        s.srRead g c f 0x14 =
          (if g.task.isSome then 0 else BitVec.ofNat 32 ((k.stages.length - 1) % 32 * 256 + g.index)) ∧
        s.srRead g c f 0x15 = (if g.task.isSome then 0 else BitVec.ofNat 32 ((sh.count - 1) % 32 * 256 + b.rank)) ∧
        at_ 0x22 16 16 = BitVec.ofNat 16 (min b.resumes 65535) ∧ at_ 0x22 8 8 = BitVec.ofNat 8 (min b.restarts 255) ∧
        at_ 0x22 2 6 = 0 ∧ (s.srRead g c f 0x22).getLsbD 1 = k.idempotent ∧ (s.srRead g c f 0x22).getLsbD 0 = b.sidefx) ∧
      (∀ l : Fin 32, (s.srRead g c f 0x17).getLsbD l.val = c.lanes.contains l) ∧
      s.srRead g c f 0x16 = BitVec.ofNat 32 (g.core % 4096 + (if g.task.isSome then 4096 else 0)) ∧
      ((∀ q : Fin 4, ∀ e, ((s.core g.core).quad q).mode = .int e → e < 15) → ∀ q : Fin 4,
        let x := (s.core g.core).quad q
        (s.srRead g c f 0x18).extractLsb' (8 * q.val) 8 = BitVec.ofNat 8 ((if x.holder = some g.id then 128 else 0) +
          match x.mode with
          | .zero => 0
          | .fp32 => 16
          | .int e => 32 + e)) ∧
      s.srRead g c f 0x19 = BitVec.ofNat 32 (g.outack % 2 ^ 16) ∧
      (∀ x : Ctx, s.ctx? (s.ctxOf g) = some x → s.srRead g c f 0x1A = BitVec.ofNat 32 x.histCount) ∧
      s.srRead g c f 0x1B = g.rasthresh ∧ s.srRead g c f 0x1C = g.vistile ∧ s.srRead g c f 0x1D = g.visorg ∧
      s.srRead g c f 0x1E = g.vpsize ∧ s.srRead g c f 0x1F = g.kvmodel ∧ s.srRead g c f 0x20 = g.kvmodelh ∧
      s.srRead g c f 0x21 = g.kvver

/-- WRSR changes what its register lets a program change, in each fibre and, for registers held once per group, from the lowest one;
a RND of 5 to 7 traps ILLEGAL and changes nothing (spec/02, R37, R39; spec/04, R96; spec/17, R339; spec/19, R352). -/
def Obligations.WriteSpecialRegister : Prop :=
  ∀ (n : Fin 128) (fa : Bool) (a : Reg) (s : State) (c : Cur) (g : Group) (f0 : Fibre) (fs : List Fibre),
    Acting s c g (f0 :: fs) ⟨[.source a 1 fa], [], false, .own⟩ →
    (n.val = 1 → ∀ f ∈ f0 :: fs, s.flagsBusy g f = false) → (n.val = 2 → ∀ f ∈ f0 :: fs, f.predBusy = 0) →
    let v := fun f => g.word f a
    ((n.val = 0 ∨ n.val = 8 → ∀ f ∈ f0 :: fs, (v f).toNat / 2 % 8 < 5) →
      Does (.wrsr n fa a) s s c g (g.srWrite n.val (v f0)) (f0 :: fs) (fun f => (f.srWrite n.val (v f)).goesOn c.next)) ∧
    ((n.val = 0 ∨ n.val = 8) → (∀ f ∈ f0 :: fs, 5 ≤ (v f).toNat / 2 % 8) →
      (∀ f ∈ f0 :: fs, f.ih = false) → (s.handlerOf g).getLsbD 0 = true →
      ∃ t, exec (.wrsr n fa a) s = .next t ∧ ∀ f ∈ f0 :: fs,
        ((t.group? g.id).bind (·.fibre? f.lane)) = some (f.trapped c.unit (s.handlerOf g) s.nextId ⟨.illegal, (v f).zeroExtend 64⟩ 0)) ∧
    ∀ (f : Fibre) (w : Word),
      f.srWrite 0x00 w = { f with status := (f.status &&& ~~~0x3F1E) ||| (w &&& 0x3F1E) } ∧
      f.srWrite 0x01 w = { f with flags := w.extractLsb' 0 6 } ∧
      f.srWrite 0x02 w = { f with pred := w.extractLsb' 0 8 ||| 1 } ∧
      f.srWrite 0x04 w = { f with epc := w &&& 0xFFFFFFFE } ∧
      f.srWrite 0x05 w = { f with cause := w &&& 0x3F } ∧
      f.srWrite 0x06 w = { f with trapval := w } ∧
      f.srWrite 0x07 w = { f with trapvalh := w } ∧
      f.srWrite 0x08 w = { f with estatus := w } ∧
      f.srWrite 0x09 w = { f with ereg := w &&& 0x7F } ∧
      f.srWrite 0x0E w = { f with link := w &&& 0xFFFFFFFE } ∧
      (∀ n : Nat, 0x1B ≤ n → n ≤ 0x21 → f.srWrite n w = f) ∧ (∀ n : Nat, n < 0x1B → g.srWrite n w = g) ∧
      g.srWrite 0x1B w = { g with rasthresh := w } ∧ g.srWrite 0x1C w = { g with vistile := w &&& 0x0007FFF8 } ∧
      g.srWrite 0x1D w = { g with visorg := w } ∧ g.srWrite 0x1E w = { g with vpsize := w } ∧
      g.srWrite 0x1F w = { g with kvmodel := w } ∧ g.srWrite 0x20 w = { g with kvmodelh := w } ∧ g.srWrite 0x21 w = { g with kvver := w }

/-- MODE sets RND and RAT in each executing fibre; WIN sets the window, or traps REGISTER_RANGE beyond the allocation (spec/04, R97;
spec/09, R212). -/
def Obligations.ModeAndWindow : Prop :=
  ∀ (s : State) (c : Cur) (g : Group) (fs : List Fibre), Acting s c g fs ⟨[], [], false, .own⟩ →
    (∀ (rat : Bool) (rnd : Rnd), Changes (.modeSet rat rnd) s c g fs (fun f =>
      { f with status := (f.status &&& ~~~0x1E) ||| BitVec.ofNat 32 (2 * rnd.toNat + if rat then 16 else 0) }.goesOn c.next)) ∧
    (∀ n : Fin 16,
      (n.val * 16 < g.regsN → Changes (.win n) s c g fs (fun f =>
        { f with status := (f.status &&& 0xFF0FFFFF) ||| BitVec.ofNat 32 (n.val * 2 ^ 20) }.goesOn c.next)) ∧
      (g.regsN ≤ n.val * 16 →
        Traps (.win n) s c g fs (fun _ => ⟨.registerRange, BitVec.ofNat 64 n.val⟩) (fun _ => 0)))

/-! Lanes, fibres and barriers (spec/08, spec/09). -/

/-- SCAN and REDG combine the values of the batch over the fixed tree, up to the lane itself or over all lanes. Floating forms use
the modes of the lowest lane, take each code canonically and raise what it raises, and in rational mode they are long-latency
producers. That a lane's flags are those of its own combinations, with REDG's the union in every lane, and that a lone lane's code is
taken canonically too, are the model's choices (notes/assumptions/29, 94) (spec/09, R200; spec/05, R109, R118, R124). -/
def Obligations.ScanAndReduce : Prop :=
  ∀ (o : Scan) (s : State) (c : Cur) (g : Group) (lead : Fibre) (rest : List Fibre),
    let fs := lead :: rest
    let wide := scanWide o.ty.val
    let tree := fun (upto : Nat) =>
      let vals := laneVals g fs o lead upto
      let r := treeOf (scanStep o lead) (vals.map fun v => v.map (·.1))
      (r.1, vals.foldl (fun fl v => fl ||| (v.map (·.2)).getD 0) r.2)
    let run := fun (i : Instr) (x : Cross) (r : Fibre → Option Nat × BitVec 6) =>
      let ws := fun f => outWords wide ((r f).1.getD 0)
      Acting s c g fs (formScan o x) →
      (∀ f ∈ fs, (r f).2 &&& lead.enables = 0) →
      (scanFloat o.ty.val && lead.rat) = false →
      Does i s s c g (g.writeScalar o.d (ws lead)) fs
        (fun f => { f.writeReg o.d (ws f) with flags := f.flags ||| (r f).2 }.goesOn c.next)
    let owe := fun (i : Instr) (x : Cross) (r : Fibre → Option Nat × BitVec 6) =>
      let n := if wide then 2 else 1
      Acting s c g fs (formScan o x) →
      (∀ f ∈ fs, (r f).2 &&& lead.enables = 0) →
      (scanFloat o.ty.val && lead.rat) = true →
      Does i s (s.withProducer g fs .rational none true (.ready (fs.map fun f =>
          ⟨f.destFor o.d n fs, outWords wide ((r f).1.getD 0), false, false, none, (r f).2, none⟩))) c g
        (g.emptyScalar o.d n) fs (fun f => (f.emptyReg o.d n).goesOn c.next)
    run (.scan o) .upTo (fun f => tree f.lane.val) ∧ run (.redg o) .every (fun _ => tree 31) ∧
    owe (.scan o) .upTo (fun f => tree f.lane.val) ∧ owe (.redg o) .every (fun _ => tree 31)

/-- SPAWN gives each spawning fibre, in lane order, the lowest free lane, or all ones when none is left, and puts a fibre there as
R46 and R201 start it; an odd target traps MISALIGNED. FEXIT ends its fibres; the other fibres of the group keep their registers
(spec/09, R201, R202). -/
def Obligations.SpawningAndExit : Prop :=
  (∀ (o : Spawn) (s : State) (c : Cur) (g : Group) (fs : List Fibre),
     Acting s c g fs ⟨[.dest o.d 1, .source o.a 1 o.fa, .quad o.b 0 o.fb], [], false, .own⟩ →
     let made := spawnLanes g fs []
     let res := fun (f : Fibre) => match made.find? fun m => m.1.lane = f.lane with
       | some (_, some l) => (BitVec.ofNat 32 l.val : Word)
       | _ => 0xFFFFFFFF
     ((∀ f ∈ fs, (g.word f o.a).getLsbD 0 = false) →
       ∃ t, exec (.spawn o) s = .next t ∧
         Retired s s t c g ((fs.head?.map fun f => g.writeScalar o.d [res f]).getD g) fs (fun f => (f.writeReg o.d [res f]).goesOn c.next) ∧
         ∀ m ∈ made, ∀ l, m.2 = some l → ((t.group? g.id).bind (·.fibre? l)) = some (s.newFibre g o m.1 l)) ∧
     ((∀ f ∈ fs, (g.word f o.a).getLsbD 0 = true) →
       Traps (.spawn o) s c g fs (fun f => ⟨.misaligned, (g.word f o.a).zeroExtend 64⟩) (fun _ => 0))) ∧
  (∀ (s : State) (c : Cur) (g : Group) (fs : List Fibre), Acting s c g fs ⟨[], [], false, .own⟩ → g.ovf = none →
     (g.task = none ∨ g.fibres.length ≠ fs.length ∨ s.released g .die = true) →
     ∃ t, exec .fexit s = .next t ∧ t.cur = none ∧
       (∀ f ∈ fs, ((t.group? g.id).bind (·.fibre? f.lane)) = none) ∧
       (∀ f ∈ g.fibres, f ∉ fs → ∃ f', ((t.group? g.id).bind (·.fibre? f.lane)) = some f' ∧
         f'.vregs = f.vregs ∧ f'.vtags = f.vtags ∧ f'.pred = f.pred ∧ f'.status = f.status ∧ f'.flags = f.flags))

/-- FORK, once the group's earlier accesses are performed, files one task record for each fibre in lane order: ENTRY and LANES from the
pair A, ARG0 to ARG3 from the quad B, CTR from the capability D, for the block of the group. Records go to the head of the core's deque
while it has room, and the rest to the tail of the sheaf's overflow queue. A fibre's checks in their order: R158 on the counter, an odd
ENTRY, LANES, and room (spec/07, R158; spec/08, R189, R191; spec/09, R203). -/
def Obligations.Forking : Prop :=
  ∀ (o : Fork) (s : State) (c : Cur) (g : Group) (b : Block) (sh : Sheaf) (fs : List Fibre),
    Acting s c g fs ⟨[.quad o.d 0 false, .source o.a 2 o.fa, .quad o.b 0 o.fb], [], false, .own⟩ →
    s.block? g.block = some b → s.sheaf? b.sheaf = some sh → g.ovf = none →
    let deque := (s.core g.core).deque
    let entry := fun (f : Fibre) => (g.dword f o.a).extractLsb' 0 32
    let lanes := fun (f : Fibre) => ((g.dword f o.a).extractLsb' 32 32).toNat
    let record := fun (f : Fibre) => (⟨entry f, lanes f, capBase (g.quad f o.d), g.words f o.b.base 4, g.block⟩ : TaskRec)
    let C := fun (f : Fibre) => g.quad f o.d
    let live := fun (f : Fibre) => g.tagOf f o.d = true ∧ s.stale (s.ctxOf g) (C f) = false
    let lets := fun (f : Fibre) => capSpace (C f) = 3 ∧ capPerm (C f) 10 = false ∧ capPerm (C f) 6 = true
    let holds := fun (f : Fibre) => live f ∧ lets f ∧ capBase (C f) % 8 = 0 ∧ 8 ≤ capLen (C f)
    let traps := fun (tr : Fibre → Trap) => Traps (.fork o) s c g fs tr (fun _ => 0)
    (s.released g .die = true → (∀ f ∈ fs, holds f ∧ (entry f).getLsbD 0 = false ∧ 0 < lanes f ∧ lanes f ≤ 32) →
      let room := 64 - deque.length
      sh.overflow.length + (fs.length - room) ≤ 65536 →
      ∃ cores sheaves,
        let e := { s with
          cores := cores
          sheaves := sheaves
          blocks := s.blocks.map fun x => if x.id = g.block then { x with sidefx := true } else x }
        e.core g.core = { s.core g.core with deque := ((fs.take room).map record).reverse ++ deque } ∧
        (∀ k, k ≠ g.core → e.core k = s.core k) ∧
        e.sheaf? b.sheaf = some { sh with overflow := sh.overflow ++ (fs.drop room).map record } ∧
        (∀ k, k ≠ b.sheaf → e.sheaf? k = s.sheaf? k) ∧
        Does (.fork o) s e c g g fs (fun f => f.goesOn c.next)) ∧
    ((∀ f ∈ fs, g.tagOf f o.d = false) → traps fun f => ⟨.capTag, capVal (o.d.field 0) (C f)⟩) ∧
    ((∀ f ∈ fs, g.tagOf f o.d = true ∧ s.stale (s.ctxOf g) (C f) = true) → traps fun f => ⟨.capStale, capVal (o.d.field 0) (C f)⟩) ∧
    ((∀ f ∈ fs, live f ∧ ¬lets f) → traps fun f => ⟨.capPerm, capVal (o.d.field 0) (C f)⟩) ∧
    ((∀ f ∈ fs, live f ∧ lets f ∧ capBase (C f) % 8 ≠ 0) → traps fun f => ⟨.misaligned, BitVec.ofNat 64 (capBase (C f))⟩) ∧
    ((∀ f ∈ fs, live f ∧ lets f ∧ capBase (C f) % 8 = 0 ∧ capLen (C f) < 8) → traps fun f => ⟨.capBounds, BitVec.ofNat 64 (capBase (C f))⟩) ∧
    ((∀ f ∈ fs, holds f ∧ (entry f).getLsbD 0 = true) → traps fun f => ⟨.misaligned, (entry f).zeroExtend 64⟩) ∧
    ((∀ f ∈ fs, holds f ∧ (entry f).getLsbD 0 = false ∧ (lanes f = 0 ∨ 32 < lanes f)) →
      traps fun f => ⟨.illegal, BitVec.ofNat 64 (lanes f)⟩) ∧
    (64 ≤ deque.length → 65536 ≤ sh.overflow.length →
      (∀ f ∈ fs, holds f ∧ (entry f).getLsbD 0 = false ∧ 0 < lanes f ∧ lanes f ≤ 32) → traps fun _ => ⟨.illegal, 0x10000⟩)

/-- RECONV: while a fibre of the arrival set is not at it, those that reach it wait there; when the fibres that reach it are the
whole group, outside a handler, they go on as one batch (spec/08, R176; spec/09, R205). -/
def Obligations.Reconvergence : Prop :=
  ∀ (s : State) (c : Cur) (g : Group) (fs : List Fibre), Acting s c g fs ⟨[], [], false, .own⟩ →
    (∀ f ∈ g.fibres, f.parked = none ∧ f.splits = []) →
    ((∀ f ∈ fs, ∃ x ∈ g.fibres, x ∉ fs ∧ x.aset = f.aset ∧ (x.atReconv.map (·.1)) ≠ some c.addr ∧ c.lanes.contains x.lane = false) →
      ∃ t, exec .reconv s = .next t ∧ ∀ f ∈ fs, ((t.group? g.id).bind (·.fibre? f.lane)) =
        some { f with pc := c.unit, wait := some (.reconv c.addr c.next), watchOnce := false }) ∧
    (g.fibres = fs → (∀ f ∈ fs, ∀ x ∈ fs, f.aset = x.aset) →
      ∃ t, exec .reconv s = .next t ∧ ∀ f ∈ fs, ((t.group? g.id).bind (·.fibre? f.lane)) =
        some { f with pc := c.next, wait := none, watchOnce := false, aset := g.nextAset })

/-- YIELD gives up the greedy stay of its slot and lets the other batches go first; FENCE, once the group's earlier accesses are
performed at its scope, drops what the core holds of memory that others may write. A serial section: LSER lets the lowest lane go on
and holds the others; LSEND holds its lane and lets the next one go on, and with the last one all go on together (spec/09, R206,
R207, R211; spec/12, R259 to R261). -/
def Obligations.YieldFenceAndSerialSections : Prop :=
  (∀ (s : State) (c : Cur) (g : Group) (fs : List Fibre), Acting s c g fs ⟨[], [], false, .own⟩ →
     (∃ t, exec .yield s = .next t ∧ Retired s s t c g { g with yielded := c.lanes } fs (fun f => f.goesOn c.next) ∧
       (t.slotOf g.core g.slot).yielded = true) ∧
     (∀ sc : Scope, g.ovf = none → s.released g sc = true → s.acquiring g = false →
       let kept := s.l1.filter fun (l : L1Line) => !(l.core == g.core && l.ctx == s.ctxOf g && !l.constant)
       Does (.fence sc) s { s with l1 := if sc = .core then s.l1 else kept } c g g fs (fun f => f.goesOn c.next))) ∧
  (∀ (s : State) (c : Cur) (g : Group), c.guard = none →
     (∀ (f : Fibre) (fs : List Fibre), Acting s c g (f :: fs) ⟨[], [], false, .own⟩ → g.lser = none → (∀ x ∈ f :: fs, x.turn = false) →
       Does .lser s s c g { g with lser := some ⟨fs.map (·.lane), [], c.next⟩ } (f :: fs) (fun x =>
         if x.lane = f.lane then { x.goesOn c.next with turn := true }
         else { x with pc := c.unit, wait := some .lser, watchOnce := false })) ∧
     (∀ f : Fibre, Acting s c g [f] ⟨[], [], false, .own⟩ → f.turn = true →
       (∀ (l : Fin 32) (r d : List (Fin 32)) (nx : Word) (y : Fibre), g.lser = some ⟨l :: r, d, nx⟩ → l ≠ f.lane →
         g.fibre? l = some y → c.lanes.contains l = false →
         ∃ t, exec .lsend s = .next t ∧
           ((t.group? g.id).bind (·.lser)) = some ⟨r, d ++ [f.lane], nx⟩ ∧
           ((t.group? g.id).bind (·.fibre? f.lane)) = some { f with pc := c.next, wait := some .lser, turn := false, watchOnce := false } ∧
           ((t.group? g.id).bind (·.fibre? l)) = some { y with turn := true, wait := none, pc := nx }) ∧
       (∀ (d : List (Fin 32)) (nx : Word), g.lser = some ⟨[], d, nx⟩ →
         ∃ t, exec .lsend s = .next t ∧ ((t.group? g.id).bind (·.lser)) = none ∧
           ((t.group? g.id).bind (·.fibre? f.lane)) = some { f with pc := c.next, wait := none, turn := false, watchOnce := false } ∧
           ∀ x ∈ g.fibres, x.wait = some .lser → c.lanes.contains x.lane = false →
             ((t.group? g.id).bind (·.fibre? x.lane)) = some { x with wait := none })))

/-- BARA marks the arrival of its fibres, BARW goes on where the generation of the mark has passed and waits where it has not, BARM
sets MEMBER, at once when nothing has arrived and else at the end of the generation; a fibre that is no member, arrives a second time in
one generation, or waits without a mark traps BARRIER_MEMBERSHIP. BARM by a task group, on the barriers of the block that forked it, is the
model's choice (notes/assumptions/106) (spec/08, R193, R194; spec/09, R208). -/
def Obligations.NamedBarriers : Prop :=
  ∀ (b : Bar) (s : State) (c : Cur) (g : Group) (fs : List Fibre),
    let gen := s.barGen g b
    (∀ ord : Bool, Acting s c g fs ⟨[], [], false, .own⟩ →
      ((∀ f ∈ fs, f.markOf b ≠ some gen) → s.isMember g b = true → (ord = true → g.ovf = none ∧ s.released g (barScope b) = true) →
        Does (.bara ord b) s ((s.updGroup g.id fun h => h.updBatch (fs.map (·.lane)) fun f => f.setMark b gen).arriveIf g.id b) c g g fs
          (fun f => (f.setMark b gen).goesOn c.next)) ∧
      ((s.isMember g b = false ∨ ∀ f ∈ fs, f.markOf b = some gen) → (ord = true → g.ovf = none) →
        Traps (.bara ord b) s c g fs (fun _ => ⟨.barrierMembership, BitVec.ofNat 64 (barNum b)⟩) (fun _ => 0)) ∧
      ((∀ f ∈ fs, ∃ m, f.markOf b = some m ∧ m ≠ gen) →
        Does (.barw ord b) s (if ord then s.acquire g.core (s.ctxOf g) (barScope b) else s) c g g fs
          (fun f => (f.clearMark b).goesOn c.next)) ∧
      ((∀ f ∈ fs, f.markOf b = some gen) →
        ∃ t, exec (.barw ord b) s = .next t ∧ t.blocks = s.blocks ∧ ∀ f ∈ fs,
          ((t.group? g.id).bind (·.fibre? f.lane)) = some { f with wait := some (.barrier b) }) ∧
      ((∀ f ∈ fs, f.markOf b = none) →
        Traps (.barw ord b) s c g fs (fun _ => ⟨.barrierMembership, BitVec.ofNat 64 (barNum b)⟩) (fun _ => 0))) ∧
    (∀ (fa : Bool) (a : Reg) (f0 : Fibre) (rest : List Fibre) (bl : Block), fs = f0 :: rest → s.block? g.block = some bl →
      Acting s c g fs ⟨[.source a 1 fa], [], false, .own⟩ →
      let m := g.word f0 a &&& lowMask (s.memberCount g bl b)
      let k := s.barmMark g bl b m
      (∀ x ∈ s.barms, BarmMark.meets x k = true → x.who ≤ k.who) →
      (∀ x : Barrier, (x.arrived = 0 → Barrier.setMember m x = { x with member := m }) ∧
        (x.arrived ≠ 0 → Barrier.setMember m x = { x with pending := some m })) ∧
      Does (.barm b fa a) s { s.touch bl b (Barrier.setMember m) with barms := k :: s.barms.filter fun x => x.clk == s.clk }
        c g g fs (fun f => f.goesOn c.next))

/-! Memory and capabilities (spec/07, spec/09, spec/12). -/

/-- A load completes, and its producer owes D, when in every fibre the capability is tagged, live and not sealed, lets it read, and
holds the aligned bytes (spec/07, R158, R161, R162, R164 to R166), when no acquire of the group is unbound, no copy covers scratchpad
bytes, and no watch is set (spec/10, R218; spec/12, R261; spec/22, R396). -/
def Obligations.LoadsComplete : Prop :=
  ∀ (s : State) (c : Cur) (g : Group) (b : Block) (fs : List Fibre), s.block? g.block = some b → s.acquiring g = false →
    (∀ x ∈ s.copies, x.board = none) → (∀ x ∈ s.ctxs, ∀ w ∈ x.dbg.watches, w.action = 0) →
    let completes := fun (i : Instr) (fm : Form) (d : Reg) (n size : Nat) (q : Quad) (off : Fibre → Int) =>
      Acting s c g fs fm → (∀ f ∈ fs, s.Loadable g b f size q (off f)) →
      ∃ t p, exec i s = .next t ∧ t.cur = none ∧ t.mem = s.mem ∧ t.stores = s.stores ∧ t.producers = s.producers ++ [p] ∧
        p.group = g.id ∧ p.kind = .memory ∧ (p.acq.isSome = true ↔ ∃ o, i = .ldAcq o) ∧
        ∀ f ∈ fs, ((t.group? g.id).bind (·.fibre? f.lane)) = some ((f.emptyReg d n).goesOn c.next)
    (∀ o : MemImm,
      let n := if o.sz = .b8 then 2 else 1
      let off := fun (_ : Fibre) => o.i.toInt * (o.sz.bytes : Int)
      completes (.ld o) (formLoad o) o.d n o.sz.bytes o.a off ∧ completes (.ldS o) (formLoad o) o.d n o.sz.bytes o.a off ∧
      completes (.ldAcq o) (formLoad o) o.d n o.sz.bytes o.a off) ∧
    (∀ o : MemIdx,
      let n := if o.sz = .b8 then 2 else 1
      let off := fun f => ((g.word f o.b).toNat : Int) * (if o.x then (o.sz.bytes : Int) else 1)
      completes (.ldx o) (formLoadX o) o.d n o.sz.bytes o.a off ∧ completes (.ldxS o) (formLoadX o) o.d n o.sz.bytes o.a off) ∧
    (∀ o : MemCap, completes (.ldc o) ⟨[.dest o.d.base 4, .quad o.a 0 o.fa], [], false, .own⟩ o.d.base 4 16 o.a (fun _ => o.i.toInt * 16))

/-- Loads: D is marked empty, and a producer will read the bytes at the address that R158 computes; a scalar D takes the lowest lane
only. LD.ACQ is an acquire at the widest of the scopes of its lanes' translated addresses. A lane's virtual address asks for a walk of a
page that no cache of the core keeps, once for each page (spec/07, R158, R161, R162, R164, R165; spec/10, R227; spec/12, Table 12.2,
R261). -/
def Obligations.Loads : Prop :=
  ∀ (s : State) (c : Cur) (g : Group) (fs : List Fibre) (adr : Fibre → Nat) (key : Fibre → Option Nat),
    let run := fun (i : Instr) (fm : Form) (d : Reg) (n size : Nat) (sg cap acq : Bool) (q : Quad) (sub : Nat) (off : Fibre → Int) =>
      let who := if Reg.scalar d then fs.take 1 else fs
      Acting s c g fs fm → Reaches s g (.load size) q sub off true (fun _ => none) who adr key →
      let at_ := fun (f : Fibre) => match key f with
        | some k => some k
        | none => match s.translate g.core (s.ctxOf g) (adr f) .rd with
          | .ok k => some k
          | _ => none
      let asked := who.foldl (fun u f => if (key f).isNone then u.askWalk g.core (s.ctxOf g) (adr f) else u) s
      ∃ t e, exec i s = .next t ∧ Banked s e ∧
        Retired s e t c g (g.emptyScalar d n) fs (fun f => (f.emptyReg d n).goesOn c.next) ∧
        e = { s with
          slots := e.slots, replays := (s.hearDeclined g.id (who.map (·.lane))).replays, walks := asked.walks, nextId := asked.nextId + 1
          producers := s.producers ++ [⟨asked.nextId, g.id, .memory, [], [], if acq then some (g.scopeOf q who at_) else none,
            .load size sg cap (who.map fun f =>
              ⟨f.destFor d n fs, adr f, key f, capSpace (g.quad f q) == 5, capPerm (g.quad f q) 2⟩), []⟩] }
    (∀ o : MemImm,
      let n := if o.sz = .b8 then 2 else 1
      let fm : Form := ⟨[.dest o.d n, .quad o.a o.sz.toNat o.fa], [], false, .own⟩
      let off := fun (_ : Fibre) => o.i.toInt * (o.sz.bytes : Int)
      run (.ld o) fm o.d n o.sz.bytes false false false o.a o.sz.toNat off ∧
      run (.ldS o) fm o.d n o.sz.bytes true false false o.a o.sz.toNat off ∧
      run (.ldAcq o) fm o.d n o.sz.bytes false false true o.a o.sz.toNat off) ∧
    (∀ o : MemIdx,
      let n := if o.sz = .b8 then 2 else 1
      let fm : Form := ⟨[.dest o.d n, .quad o.a o.sz.toNat o.fa, .source o.b 1 o.fb], [], false, .own⟩
      let off := fun f => ((g.word f o.b).toNat : Int) * (if o.x then (o.sz.bytes : Int) else 1)
      run (.ldx o) fm o.d n o.sz.bytes false false false o.a o.sz.toNat off ∧
      run (.ldxS o) fm o.d n o.sz.bytes true false false o.a o.sz.toNat off) ∧
    (∀ o : MemCap,
      run (.ldc o) ⟨[.dest o.d.base 4, .quad o.a 0 o.fa], [], false, .own⟩ o.d.base 4 16 false true false o.a 0
        (fun _ => o.i.toInt * 16))

/-- Stores join the store queue of their core in lane order, with the bytes of D at the address that R158 computes; ST.REL first
waits for the group's earlier accesses; STC carries the tag of D. Lanes at one bank word of a scratchpad share a request (spec/07, R158,
R163, R166; spec/10, R216; spec/12, R259, R260). -/
def Obligations.Stores : Prop :=
  ∀ (s : State) (c : Cur) (g : Group) (fs : List Fibre) (adr : Fibre → Nat) (key : Fibre → Option Nat),
    let run := fun (i : Instr) (fm : Form) (d : Reg) (n : Nat) (rel : Bool) (q : Quad) (sub : Nat) (off : Fibre → Int) =>
      Acting s c g fs fm → Reaches s g (.st n) q sub off false (fun _ => none) fs adr key →
      (rel = true → g.ovf = none ∧ s.released g (g.scopeOf q fs key) = true) →
      Reached i s { (s.markedBy g q fs).queueStores g n (fs.map fun f => ⟨(key f).getD 0, adr f, g.num f (n == 8) d⟩) with groups := s.groups }
        c g { g with outack := g.outack + outsideCount fs key } fs (fun f => f.goesOn c.next)
    (∀ o : MemImm,
      let fm : Form := ⟨[.source o.d (if o.sz = .b8 then 2 else 1) false, .quad o.a o.sz.toNat o.fa], [], false, .own⟩
      let off := fun (_ : Fibre) => o.i.toInt * (o.sz.bytes : Int)
      run (.st o) fm o.d o.sz.bytes false o.a o.sz.toNat off ∧ run (.stRel o) fm o.d o.sz.bytes true o.a o.sz.toNat off) ∧
    (∀ o : MemIdx,
      let fm : Form :=
        ⟨[.source o.d (if o.sz = .b8 then 2 else 1) false, .quad o.a o.sz.toNat o.fa, .source o.b 1 o.fb], [], false, .own⟩
      run (.stx o) fm o.d o.sz.bytes false o.a o.sz.toNat
        (fun f => ((g.word f o.b).toNat : Int) * (if o.x then (o.sz.bytes : Int) else 1))) ∧
    (∀ o : MemCap,
      let k := fun f => (key f).getD 0
      let tagged := fun f => g.tagOf f o.d
      Acting s c g fs ⟨[.quad o.d 0 false, .quad o.a 0 o.fa], [], false, .own⟩ →
      Reaches s g (.st 16) o.a 0 (fun _ => o.i.toInt * 16) false
        (fun f => stcCheck (g.quad f o.a) (o.a.field 0) (g.quad f o.d) (tagged f) (o.d.field 0)) fs adr key →
      Reached (.stc o) s
        { (capRequests (fs.map fun f => (k f, byteWrites (k f) (adr f) 16 (g.quad f o.d).toNat, tagged f && !isOutside (k f)))).foldl
            (fun t r => t.queueStore g s.nextId r.1 (.bytes r.2.1 (if r.2.2 then [r.1 / 16] else []) [r.1 / 16])) (s.markedBy g o.a fs) with
          groups := s.groups }
        c g { g with outack := g.outack + outsideCount fs key } fs (fun f => f.goesOn c.next))

/-- ATOM is a long-latency producer of the old values, with its ordering; RED joins the store queue, one request to each address
with its lanes in order. That CAS marks only the registers of its width empty is the model's choice (notes/assumptions/16) (spec/09, R209,
R210; spec/10, R216; spec/12, R260, R261). -/
def Obligations.AtomicsAndReductions : Prop :=
  ∀ (o : Atomic) (s : State) (c : Cur) (g : Group) (fs : List Fibre) (adr : Fibre → Nat) (key : Fibre → Option Nat),
    let n := if o.x then 8 else 4
    let off := fun f => ((g.word f o.b).toNat : Int)
    let atom := fun (i : AtomOrd → Instr) (op : AtomOp) => ∀ ord : AtomOrd,
      let sub := match ord with | .plain => 0 | .acq => 1 | .rel => 2
      let data := fun f => Atomic.data o g f (op = .cas)
      Acting s c g fs (formAtomDst ord o (op = .cas)) → Reaches s g (.atom n) o.a sub off false (fun _ => none) fs adr key →
      (ord = .rel → g.ovf = none ∧ s.released g (g.scopeOf o.a fs key) = true) →
      Reached (i ord) s
        { s.markedBy g o.a fs with
          nextId := s.nextId + 1
          producers := s.producers ++ [⟨s.nextId, g.id, .memory, [], [], if ord = .acq then some (g.scopeOf o.a fs key) else none,
            .atomic op n (fs.map fun f => (f.destFor o.d (regs o.x) fs, ⟨f.lane, (key f).getD 0, adr f, (data f).1, (data f).2⟩)), []⟩] }
        c g { g.emptyScalar o.d (regs o.x) with outack := g.outack + outsideCount fs key } fs
        (fun f => (f.emptyReg o.d (regs o.x)).goesOn c.next)
    let red := fun (i : Instr) (op : AtomOp) =>
      let reqs := redRequests (fs.map fun f => ⟨f.lane, (key f).getD 0, adr f, g.num f o.x o.d, 0⟩)
      Acting s c g fs (formRed o) → Reaches s g (.atom n) o.a 3 off false (fun _ => none) fs adr key →
      Reached i s { reqs.foldl (fun t q => t.queueStore g s.nextId q.1 (.red op n q.2)) (s.markedBy g o.a fs) with groups := s.groups }
        c g { g with outack := g.outack + (reqs.filter fun q => isOutside q.1).length } fs (fun f => f.goesOn c.next)
    atom (.atomAdd · o) .add ∧ atom (.atomMinS · o) .minS ∧ atom (.atomMinN · o) .minN ∧ atom (.atomMaxS · o) .maxS ∧
    atom (.atomMaxN · o) .maxN ∧ atom (.atomAnd · o) .and ∧ atom (.atomOr · o) .or ∧ atom (.atomXor · o) .xor ∧
    atom (.atomXchg · o) .xchg ∧ atom (.atomCas · o) .cas ∧
    red (.redAdd o) .add ∧ red (.redMinS o) .minS ∧ red (.redMinN o) .minN ∧ red (.redMaxS o) .maxS ∧ red (.redMaxN o) .maxN ∧
    red (.redAnd o) .and ∧ red (.redOr o) .or ∧ red (.redXor o) .xor

/-- R158 in its order, and the traps that a load or a store takes from it (spec/07, R158, R159). -/
def Obligations.AccessChecks : Prop :=
  ∀ (s : State) (g : Group) (b : Block), s.block? g.block = some b →
    (∀ (f : Fibre) (u : MemUse) (q : Quad) (sub : Nat) (off : Int) (defer : Bool),
      let C := g.quad f q
      let a : Int := capBase C + off
      let run := s.access g f u q sub off defer none
      let live := g.tagOf f q = true ∧ s.stale (s.ctxOf g) C = false
      let held := live ∧ capSpace C ∈ u.spaces ∧ capPerm C 10 = false ∧ ∀ i ∈ u.perms, capPerm C i = true
      (g.tagOf f q = false → run = .trap ⟨.capTag, capVal (q.field sub) C⟩) ∧
      (g.tagOf f q = true → s.stale (s.ctxOf g) C = true → run = .trap ⟨.capStale, capVal (q.field sub) C⟩) ∧
      (live → (capSpace C ∉ u.spaces ∨ capPerm C 10 = true ∨ ∃ i ∈ u.perms, capPerm C i = false) →
        run = .trap ⟨.capPerm, capVal (q.field sub) C⟩) ∧
      (held → a % u.size ≠ 0 → run = .trap ⟨.misaligned, BitVec.ofInt 64 a⟩) ∧
      (held → a % u.size = 0 → (off < 0 ∨ (capLen C : Int) < off + u.size) → run = .trap ⟨.capBounds, BitVec.ofInt 64 a⟩) ∧
      (held → a % u.size = 0 → 0 ≤ off → off + u.size ≤ capLen C →
        let t := s.blocks.find? fun x => x.sheaf = b.sheaf ∧ x.rank = a.toNat / 2 ^ 19
        (capSpace C = 1 → a + u.size ≤ b.scratchLen → run = .ok a.toNat (some (scratchKey b.core (b.scratchBase + a.toNat)))) ∧
        (capSpace C = 1 → (b.scratchLen : Int) < a + u.size → run = .trap ⟨.capBounds, BitVec.ofInt 64 a⟩) ∧
        (capSpace C = 2 → ∀ x, t = some x → a.toNat % 2 ^ 19 + u.size ≤ x.scratchLen →
          run = .ok a.toNat (some (scratchKey x.core (x.scratchBase + a.toNat % 2 ^ 19)))) ∧
        (capSpace C = 2 → (t = none ∨ ∃ x, t = some x ∧ x.scratchLen < a.toNat % 2 ^ 19 + u.size) →
          run = .trap ⟨.capBounds, BitVec.ofInt 64 a⟩))) ∧
    (∀ (o : MemImm) (c : Cur) (fs : List Fibre) (tr : Fibre → Trap), (∀ r ∈ s.replays, r.declined = false) →
      let off := fun (_ : Fibre) => o.i.toInt * (o.sz.bytes : Int)
      (Acting s c g fs ⟨[.dest o.d (if o.sz = .b8 then 2 else 1), .quad o.a o.sz.toNat o.fa], [], false, .own⟩ →
        (∀ n : Fin 32, o.d ≠ .s n) → (∀ f ∈ fs, s.access g f (.load o.sz.bytes) o.a o.sz.toNat (off f) true none = .trap (tr f)) →
        Traps (.ld o) s c g fs tr (fun _ => 0)) ∧
      (Acting s c g fs ⟨[.source o.d (if o.sz = .b8 then 2 else 1) false, .quad o.a o.sz.toNat o.fa], [], false, .own⟩ →
        (∀ f ∈ fs, s.access g f (.st o.sz.bytes) o.a o.sz.toNat (off f) false none = .trap (tr f)) →
        Traps (.st o) s c g fs tr (fun _ => 0)))

/-- CDER, CPERM and CSEAL: what a parent gives, and when the result is tagged; CGET and CTAG (spec/07, R168 to R171). -/
def Obligations.Capabilities : Prop :=
  (∀ (s : State) (c : Cur) (g : Group) (fs : List Fibre),
    let run := fun (i : Instr) (fm : Form) (a d : Quad) (sub : Nat) (r : Fibre → QWord) (fits : Fibre → Prop) =>
      let p := fun f => g.quad f a
      let stale := fun f => s.stale (s.ctxOf g) (p f)
      let live := fun f => g.tagOf f a && !capPerm (p f) 10 && capPerm (p f) 9
      Acting s c g fs fm →
      ((∀ f ∈ fs, g.tagOf f a = true → capSpace (p f) < 7 ∧ stale f = false ∧ (live f = true → fits f)) →
        Does i s s c g ((fs.head?.map fun f => g.writeCap d (r f) (live f)).getD g) fs
          (fun f => (f.writeCap d (r f) (live f)).goesOn c.next)) ∧
      ((∀ f ∈ fs, g.tagOf f a = true ∧ 7 ≤ capSpace (p f)) →
        Traps i s c g fs (fun f => ⟨.capPerm, capVal (a.field sub) (p f)⟩) (fun _ => 0)) ∧
      ((∀ f ∈ fs, g.tagOf f a = true ∧ capSpace (p f) < 7 ∧ stale f = true) →
        Traps i s c g fs (fun f => ⟨.capStale, capVal (a.field sub) (p f)⟩) (fun _ => 0))
    (∀ o : CapQuad,
      let O := fun f => (g.quad f o.b).toNat % 2 ^ 64
      let L := fun f => (g.quad f o.b).toNat / 2 ^ 64
      let fm : Form := ⟨[.dest o.d.base 4, .quad o.a 0 o.fa, .quad o.b 0 o.fb], [], false, .own⟩
      let fits := fun f => O f + L f ≤ capLen (g.quad f o.a) ∧ (2 ^ 39 ≤ L f → L f % 65536 = 0 ∧ L f / 65536 < 2 ^ 39)
      run (.cder o) fm o.a o.d 0 (fun f => cderOf (g.quad f o.a) (O f) (L f)) fits ∧
      (Acting s c g fs fm →
        (∀ f ∈ fs, g.tagOf f o.a = true ∧ capPerm (g.quad f o.a) 10 = false ∧ capPerm (g.quad f o.a) 9 = true ∧
          capSpace (g.quad f o.a) < 7 ∧ s.stale (s.ctxOf g) (g.quad f o.a) = false ∧ ¬fits f) →
        Traps (.cder o) s c g fs (fun f => ⟨.capBounds, BitVec.ofNat 64 (O f)⟩) (fun _ => 0))) ∧
    (∀ o : CapReg, run (.cperm o) ⟨[.dest o.d.base 4, .quad o.a 1 o.fa, .source o.b 1 o.fb], [], false, .own⟩ o.a o.d 1
      (fun f => cpermOf (g.quad f o.a) (g.word f o.b).toNat) (fun _ => True)) ∧
    (∀ (fa : Bool) (a d : Quad), run (.cseal fa a d) ⟨[.dest d.base 4, .quad a 0 fa], [], false, .own⟩ a d 0
      (fun f => csealOf (g.quad f a)) (fun _ => True)) ∧
    (∀ (fn : Fin 7) (fa : Bool) (a : Quad) (d : Reg),
      (Acting s c g fs ⟨[.dest d 1, .quad a 2 fa], [], false, .own⟩ → Gives (.cget fn fa a d) s c g fs d (fun f =>
        let q := g.quad f a
        [BitVec.ofNat 32 ([capBase q, capBase q / 2 ^ 32, capLen q, capLen q / 2 ^ 32, capPerms q, capSpace q, capGen q].getD fn.val 0)])) ∧
      (Acting s c g fs ⟨[.dest d 1, .quad a 3 fa], [], false, .own⟩ → Gives (.ctag fa a d) s c g fs d (fun f =>
        [BitVec.ofNat 32 (if g.tagOf f a then (if s.stale (s.ctxOf g) (g.quad f a) then 3 else 1) else 0)])))) ∧
  (∀ (p : QWord) (O L m : Nat),
    (capBase p + O < 2 ^ 56 → (2 ^ 39 ≤ L → L % 65536 = 0 ∧ L / 65536 < 2 ^ 39) →
      capBase (cderOf p O L) = capBase p + O ∧ capLen (cderOf p O L) = L ∧ capHi (cderOf p O L) = capHi p) ∧
    capBase (cpermOf p m) = capBase p ∧ capLen (cpermOf p m) = capLen p ∧ capSpace (cpermOf p m) = capSpace p ∧
    capGen (cpermOf p m) = capGen p ∧ (∀ i < 16, capPerm (cpermOf p m) i = (capPerm p i && m.testBit i)) ∧
    csealOf p = p ||| (1 <<< 106))

/-- PREF fetches toward the level it names and takes no trap; L1INV drops the line and checks as a load of one byte (spec/07, R172).
-/
def Obligations.CacheLines : Prop :=
  ∀ (o : MemLine) (s : State) (c : Cur) (g : Group) (fs : List Fibre),
    let acts := fun (sub : Nat) => Acting s c g fs (formLine o sub)
    (acts 1 → Changes (.prefL2 o) s c g fs (fun f => f.goesOn c.next)) ∧
    (acts 0 → ∃ t e, exec (.prefL1 o) s = .next t ∧ e = { s with l1 := e.l1 } ∧ Retired s e t c g g fs (fun f => f.goesOn c.next) ∧
      ∀ (f : Fibre) (va k : Nat), fs = [f] → s.lineAt g f o 0 = .ok va → s.translate g.core (s.ctxOf g) va .rd = .ok k →
        isPeer k = false → s.heldByLoft k = false → (e.l1At g.core (s.ctxOf g) va k).isSome = true) ∧
    (acts 2 → (∀ f ∈ fs, ∃ va, s.lineAt g f o 2 = .ok va) →
      ∃ t e, exec (.l1inv o) s = .next t ∧ e = { s with l1 := e.l1 } ∧ Retired s e t c g g fs (fun f => f.goesOn c.next) ∧
        (∀ x ∈ e.l1, x ∈ s.l1) ∧
        ∀ f ∈ fs, ∀ (va : Nat) (l : Leaf), s.lineAt g f o 2 = .ok va → s.lookup g.core (s.ctxOf g) va = .leaf l →
          e.l1At g.core (s.ctxOf g) va (l.key va) = none) ∧
    (∀ tr : Fibre → Trap, acts 2 → (∀ f ∈ fs, s.lineAt g f o 2 = .error (tr f)) → Traps (.l1inv o) s c g fs tr (fun _ => 0))

/-! The matrix engine (spec/11). -/

/-- TCFG, TCRD, TZERO, and the tokens: MACQ takes free tokens that no waiter wants, and else joins the queue of its core and waits for
MACQ_GRANT; MREL gives tokens back, ACZ clears quadrants; a misconfigured tile or a token that is not held traps (spec/11, R234 to R241,
R253). -/
def Obligations.TilesAndTokens : Prop :=
  ∀ (s : State) (c : Cur) (g : Group) (f : Fibre) (fs : List Fibre),
    let once := fun (ops : List Operand) => ActingOnce s c g f fs ⟨ops, [], true, .own⟩
    let go := fun (x : Fibre) => x.goesOn c.next
    let quiet := ∀ r ∈ s.replays, r.declined = false
    let fails := fun (i : Instr) (cause : Cause) (v : Nat) => Traps i s c g (f :: fs) (fun _ => ⟨cause, BitVec.ofNat 64 v⟩) (fun _ => 0)
    let k := s.core g.core
    (∀ (r : Reg) (t : Fin 16), once [.source r 1 false] →
      let v := g.word f r
      (t.val < g.tilesN → tcInvalid v = false →
        Does (.tcfg r t) s s c g { g with tcs := g.tcs.set t.val (v ||| 1) } (f :: fs) go) ∧
      (quiet → g.tilesN ≤ t.val → fails (.tcfg r t) .tileConfig (256 + t.val)) ∧
      (quiet → t.val < g.tilesN → tcInvalid v = true → fails (.tcfg r t) .tileConfig (512 + t.val))) ∧
    (∀ (r : Reg) (t : Fin 16), once [.dest r 1] → t.val < g.tilesN →
      Does (.tcrd r t) s s c g (g.writeScalar r [g.tcs.getD t.val 0]) (f :: fs)
        (fun x => (x.writeReg r [g.tcs.getD t.val 0]).goesOn c.next)) ∧
    (∀ t : Fin 16, once [] →
      s.matrixBusy g [t] 0 = false →
      (t.val < g.tilesN → (g.tcs.getD t.val 0).getLsbD 0 = true →
        Does (.tzero t) s s c g { g with tiles := g.tiles.set t.val ⟨[], false⟩ } (f :: fs) go) ∧
      (quiet → (g.tilesN ≤ t.val ∨ (g.tcs.getD t.val 0).getLsbD 0 = false) → fails (.tzero t) .tileConfig (256 + t.val))) ∧
    (∀ m : Fin 16, once [] →
      (k.macqs = [] → k.heldMask g.id = 0 → (∀ q ∈ maskQuads m.val, (k.quad q).holder = none) →
        Does (.macq m) s (s.updCore g.core fun k => k.give g.id m.val) c g g (f :: fs) go) ∧
      (quiet → k.macqs = [] → k.heldMask g.id ≠ 0 → fails (.macq m) .matrixToken (16 + k.heldMask g.id)) ∧
      (k.heldMask g.id = 0 → (∀ w ∈ k.macqs, w.group ≠ g.id) →
        ((∃ q ∈ maskQuads m.val, (k.quad q).holder ≠ none) ∨ ∃ w ∈ k.macqs, w.granted = false ∧ Nat.land w.mask.val m.val ≠ 0) →
        ∃ t, exec (.macq m) s = .next t ∧ t.mem = s.mem ∧
          t.core g.core = { k with macqs := k.macqs ++ [⟨g.id, (f :: fs).map (·.lane), m, s.clk, false⟩] } ∧
          ∀ x ∈ f :: fs, ((t.group? g.id).bind (·.fibre? x.lane)) = some { x with wait := some .token }) ∧
      (k.lackMask g.id m.val = 0 → s.matrixBusy g [] m.val = false →
        Does (.mrel m) s (s.updCore g.core fun k => k.takeBack m.val) c g g (f :: fs) go ∧
        Does (.acz m) s (s.updCore g.core fun k => (maskQuads m.val).foldl (fun k q => k.setQuad q ⟨.zero, [], false, (k.quad q).holder⟩) k)
          c g g (f :: fs) go) ∧
      (quiet → k.lackMask g.id m.val ≠ 0 → fails (.mrel m) .matrixToken (32 + k.lackMask g.id m.val) ∧
        (s.matrixBusy g [] m.val = false → fails (.acz m) .matrixToken (k.lackMask g.id m.val)))) ∧
    (∀ (core : Nat) (w : Macq), (s.core core).macqs = [w] → w.granted = false → (s.core core).quads.length = 4 →
      (s.core core).heldMask w.group = 0 →
      (∀ q ∈ maskQuads w.mask.val, ((s.core core).quad q).holder = none) →
      ∃ t, exec (.macqGrant core) s = .next t ∧ (t.core core).macqs = [{ w with granted := true }] ∧
        (∀ q : Fin 4, ((t.core core).quad q).holder = if w.mask.val.testBit q.val then some w.group else ((s.core core).quad q).holder) ∧
        ∀ h ∈ s.groups, h.id = w.group → s.wakes h = true → ∃ h' ∈ t.groups, h'.id = h.id ∧
          h'.fibres = h.fibres.map fun x => if w.lanes.contains x.lane ∧ x.wait = some .token then { x with wait := none } else x)

/-- TLD and ACLD leave a load of their rows behind, once their own checks and those of the extent pass, and write their tile or quadrant
when its bytes are bound; TST and ACST store rows; ACRD delivers one row. How many accesses of OUTACK a row makes is the model's choice
(notes/assumptions/117) (spec/11, R242, R243, R252 to R254; spec/12, R266, R267, R272). -/
def Obligations.MatrixMoves : Prop :=
  (∀ (s : State) (c : Cur) (g : Group) (f : Fibre) (fs : List Fibre) (sq : Fin 7) (e : Extent),
    let go := fun (x : Fibre) => x.goesOn c.next
    let k := s.core g.core
    let d := (g.word f (.s (Fin.ofNat 32 (4 * sq.val + 5)))).toNat
    let q := scalarQuad sq
    let ready := fun (u : MemUse) (rows bytes : Nat) =>
      ActingOnce s c g f fs ⟨[.source (.s (Fin.ofNat 32 (4 * sq.val))) 6 false], [], true, .own⟩ ∧
      s.rowExtent g f u sq rows bytes = .ok e ∧ s.extWatch g f u (capSpace (g.quad f q)) e = none ∧
      (if u.store then s.writeWait g e ((List.range rows).map fun i => (e.a + i * d, bytes))
        else s.extWait g e ((List.range rows).map fun i => (e.a + i * d, bytes))) = none
    let loads := fun (dst : ExtDest) (rows n : Nat) =>
      { s with
        nextId := s.nextId + 1
        producers := s.producers ++ [⟨s.nextId, g.id, .memory, [], [], none, .ext dst ((List.range rows).flatMap fun i =>
          (List.range n).map fun j => ⟨e.key (e.a + i * d + j), e.virt (e.a + i * d + j), none⟩), []⟩] }
    let stored := fun (rows : List (List Byte)) =>
      { (s.markedBy g q [f]).queueRows g e (rows.zipIdx.map fun r => (e.a + r.2 * d, r.1)) with groups := s.groups }
    let sent := fun (rows : List (List Byte)) =>
      let ws := rows.zipIdx.flatMap fun r => r.1.zipIdx.map fun x => (⟨e.key (e.a + r.2 * d + x.2), e.a + r.2 * d + x.2, x.1⟩ : ByteWrite)
      { g with outack := g.outack + ((writeUnits ws).filter fun u => isOutside ((u.head?.map (·.key)).getD 0)).length }
    let good := fun (t : Fin 16) (m : Nat) => g.tileBad t.val ++ moveErr (g.tc t.val) m t.val = [] ∧ s.matrixBusy g [t] 0 = false
    (∀ (t : Fin 16) (w : Fin 8),
      let tc := g.tc t.val
      let m := planarWidth w
      let bytes := rowBytes tc m
      good t m →
      (∀ sx : Bool, ready (.load 16) (tcRows tc) bytes →
        Reached (.tld sq t sx w) s (loads (.tile t tc m sx) (tcRows tc) bytes) c g g (f :: fs) go) ∧
      (ready (.st 16) (tcRows tc) bytes → (g.tile t.val).poison = false →
        let rows := (List.range (tcRows tc)).map fun i => narrowRow tc m i (tileByte (g.tile t.val))
        Reached (.tst sq t w) s (stored rows) c g (sent rows) (f :: fs) go)) ∧
    (∀ n : Fin 4, k.lackMask g.id (2 ^ n.val) = 0 → s.matrixBusy g [] (2 ^ n.val) = false →
      (ready (.load 16) 64 256 → Reached (.acld sq n) s (loads (.quad n) 64 256) c g g (f :: fs) go) ∧
      (∀ fm : Fin 3, (fm.val = 0 ∨ (k.quad n).mode.isInt = false) → (k.quad n).poison = false →
        ready (.st 16) 64 (if fm.val = 0 then 256 else 128) →
        let rows := (List.range 64).map fun i => (List.range 64).flatMap fun j => acstBytes fm.val (quadElem (k.quad n) i j)
        Reached (.acst sq fm n) s (stored rows) c g (sent rows) (f :: fs) go)) ∧
    (∀ (r : Reg) (row : Fin 128) (cb : Fin 4), Acting s c g (f :: fs) ⟨[.dest r 1], [], false, .own⟩ →
      let n : Fin 4 := Fin.ofNat 4 (2 * (row.val / 64) + cb.val / 2)
      k.lackMask g.id (2 ^ n.val) = 0 → s.matrixBusy g [] (2 ^ n.val) = false → (k.quad n).poison = false →
      Owes (.acrd r row cb) s c g (f :: fs) r 1 .longArith (fun x =>
        ⟨[quadElem (k.quad n) (row.val % 64) (32 * (cb.val % 2) + x.lane.val)], 0, none⟩))) ∧
  (∀ (s : State) (g : Group) (p : Producer) (dst : ExtDest) (bs : List ExtByte) (got : List (Byte × Bool)),
    s.producers.find? (fun q => q.id = p.id) = some p → p.work = .ext dst bs → p.group = g.id → s.group? g.id = some g → g.ended = false →
    s.replayed p.id = false → s.inOrder p = true → bs.map (·.val) = got.map some → (s.core g.core).quads.length = 4 →
    let byte := fun (i : Nat) => ((got[i]?).map (·.1)).getD 0
    ∃ t, exec (.producerComplete p.id) s = .next t ∧ t.mem = s.mem ∧ t.producers = s.producers.filter (fun q => q.id != p.id) ∧
      (∀ x tc m sx, dst = .tile x tc m sx → x.val < g.tiles.length → ∃ h, t.group? g.id = some h ∧
        let bytes := (List.range (tcRows tc)).flatMap fun i => widenRow tc m sx fun j => byte (i * rowBytes tc m + j)
        ((h.tile x.val).poison = got.any (·.2)) ∧
        ∀ i, tileByte (h.tile x.val) i = if i < bytes.length then bytes.getD i 0 else tileByte (g.tile x.val) i) ∧
      (∀ q, dst = .quad q → (t.core g.core).quad q = ⟨.fp32,
        trimWords ((List.range 4096).map fun i => BitVec.ofNat 32 (leNat ((List.range 4).map fun b => byte (4 * i + b)))),
        got.any (·.2), ((s.core g.core).quad q).holder⟩))

/-- MMA, MMAX and MSCA change one quadrant of the core; MLOOP starts a loop of steps; a step may read an aligned 8-byte unit of its
tiles before the others, and each MLOOP_STEP runs the next of them over the bytes read. That the prior value counts among the infinite
terms of a sum, that MLOOP's extents start at multiples of 16, and that a step which traps POISON poisons nothing are the model's choices
(notes/assumptions/128, 129, 130) (spec/11, R244 to R251; spec/12, R266). -/
def Obligations.MatrixSteps : Prop :=
  ∀ (s : State) (c : Cur) (g : Group) (f : Fibre) (fs : List Fibre),
    let go := fun (x : Fibre) => x.goesOn c.next
    let k := s.core g.core
    let byte := fun (t : Fin 16) => tileByte (g.tile t.val)
    let sets := fun (q : Fin 4) (y : Quadrant) => s.updCore g.core fun k => k.setQuad q y
    let held := fun (ts : List (Fin 16)) (m : Nat) => k.lackMask g.id m = 0 ∧ s.matrixBusy g ts m = false
    (∀ (o : MatStep), ActingOnce s c g f fs ⟨[], [], true, .own⟩ → (∀ h ∈ s.readySteps g.core, h.id = g.id) →
      let x : Quadrant := if o.z then ⟨.zero, [], false, (k.quad o.q).holder⟩ else k.quad o.q
      let tcA := g.tc o.ta.val
      let tcB := g.tc o.tb.val
      let run := fun (i : Instr) (int : Bool) =>
        g.tileBad o.ta.val ++ g.tileBad o.tb.val ++ stepErr int o.ta.val o.tb.val tcA tcB o.t ++ modeErr int o.q x.mode (stepF tcA tcB) = [] →
        held [o.ta, o.tb] (2 ^ o.q.val) → (g.tile o.ta.val).poison = false → (g.tile o.tb.val).poison = false → x.poison = false →
        Does i s (sets o.q (stepQuad int tcA tcB o.t (byte o.ta) (byte o.tb) x)) c g g (f :: fs) go
      run (.mma o) false ∧ run (.mmax o) true) ∧
    (∀ (qd qs : Fin 4) (ta tb : Fin 16), ActingOnce s c g f fs ⟨[], [], true, .own⟩ →
      let raw := fun (t : Fin 16) => g.tileBad t.val = [] ∧ tcFmt (g.tc t.val) = 15 ∧ tcCw (g.tc t.val) = 8 ∧
        64 ≤ tcRows (g.tc t.val) * tcCols (g.tc t.val) ∧ (g.tile t.val).poison = false
      raw ta → raw tb → qd ≠ qs → (k.quad qd).mode.isInt = false → (k.quad qd).poison = false → (k.quad qs).poison = false →
      held [ta, tb] (Nat.lor (2 ^ qd.val) (2 ^ qs.val)) →
      Does (.msca qd qs ta tb) s (sets qd ⟨.fp32,
        trimWords ((List.range 64).flatMap fun i => (List.range 64).map fun j =>
          mscaElem (k.quad qs).mode (quadElem (k.quad qs) i j) (quadElem (k.quad qd) i j) (rawElem (g.tc ta.val) (g.tile ta.val) i)
            (rawElem (g.tc tb.val) (g.tile tb.val) j)), (k.quad qd).poison, (k.quad qd).holder⟩) c g g (f :: fs) go) ∧
    (∀ (sq : Fin 6) (m ta tb : Fin 16) (ka kb : Nat),
      ActingOnce s c g f fs ⟨[.source (.s (Fin.ofNat 32 (4 * sq.val + 0))) 11 false], [], true, .own⟩ →
      let w := fun (i : Nat) => (g.word f (.s (Fin.ofNat 32 (4 * sq.val + i)))).toNat
      let tcA := g.tc ta.val
      let tcB := g.tc tb.val
      let n := w 10 % 65536
      let qa : Quad := .s (Fin.ofNat 8 sq.val)
      let qb : Quad := .s (Fin.ofNat 8 (sq.val + 1))
      let int := isXClass tcA || isXClass tcB
      g.tileBad ta.val ++ g.tileBad tb.val ++ mloopErr ta.val tb.val tcA tcB = [] →
      (∀ q ∈ maskQuads m.val, modeErr int q (k.quad q).mode (stepF tcA tcB) = [] ∧ (k.quad q).poison = false) →
      0 < n → w 10 < 65536 → (∀ q ∈ [qa, qb], capSpace (g.quad f q) = 1 ∨ capSpace (g.quad f q) = 2) → k.lackMask g.id m.val = 0 →
      s.mloopExtent g f qa (w 8) (tcSize tcA) n = .ok ka → s.mloopExtent g f qb (w 9) (tcSize tcB) n = .ok kb →
      g.mloop = none → s.acquiring g = false → (∀ p ∈ s.producers, p.group = g.id → p.work.isAccess = false) →
      Does (.mloop sq m ta tb) s { s with nextId := s.nextId + 1 } c g
        { g with mloop := some ⟨s.nextId, s.tick, tcA, tcB, ka, kb, n, m, 0, c.unit, []⟩ } (f :: fs) go) ∧
    (∀ (l : MLoop) (q : Fin 4), s.group? g.id = some g → g.mloop = some l → (s.readySteps g.core).head? = some g →
      let qs := maskQuads l.mask.val
      qs[l.done % qs.length]? = some q →
      let n := l.done / qs.length
      let a := l.keyA + (2 * n + q.val / 2) * tcSize l.tcA
      let b := l.keyB + (2 * n + q.val % 2) * tcSize l.tcB
      let now := fun (i : Nat) => (s.seenByte g.core g.id l.id (s.ctxOf g) none i, s.seenPoison g.core g.id l.id (s.ctxOf g) none i)
      let read := fun (i : Nat) => ((l.early.find? fun x => x.1 = i).map (·.2)).getD (now i)
      (∀ i : Nat, 0 < tcSize l.tcA → i < tcSize l.tcA / 8 → l.early = [] →
        s.loopUnit g l i = s.updGroup g.id fun h => { h with mloop := some { l with
          early := (List.range 8).map fun j => (a + 8 * i + j, now (a + 8 * i + j)) } }) ∧
      (l.done + 1 < l.ksteps * qs.length →
        let y := stepQuad (isXClass l.tcA) l.tcA l.tcB false (fun i => (read (a + i)).1) (fun i => (read (b + i)).1) (k.quad q)
        ∃ t bad, exec (.mloopStep g.id) s = .next t ∧ Banked s t ∧
          t = { s.updCore g.core (fun k => k.setQuad q { y with poison := bad }) with groups := t.groups, slots := t.slots } ∧
          (bad = true ↔ (k.quad q).poison = true ∨
            (∃ i, i < tcSize l.tcA / 16 ∧ ((read (a + 16 * i)).2 = true ∨ (read (a + 16 * i + 8)).2 = true)) ∨
            ∃ i, i < tcSize l.tcB / 16 ∧ ((read (b + 16 * i)).2 = true ∨ (read (b + 16 * i + 8)).2 = true)) ∧
          t.group? g.id = some { g with mloop := some { l with done := l.done + 1, since := s.tick, early := [] } }))

/-! Copies, counters, queues, Granary (spec/13, spec/17, spec/19). -/

/-- COPY and COPYG join the streamer with the bytes that the box names, once the checks of R277 pass; CFENCE orders later copies
after earlier ones; HALO joins with a strip for each neighbour. A copy or a strip that completes, and has written nothing before, writes
its bytes, all of them read first, and adds to its counter; every other byte keeps its value. That a copy carries poison and heals none,
that the index list is read as it stands, and what a record of HALO keeps are the model's choices (notes/assumptions/30, 126, 54)
(spec/13, R275 to R279, R281; spec/17, R347, R348). -/
def Obligations.CopyIssueAndCompletion : Prop :=
  (∀ (s : State) (c : Cur) (g : Group) (f : Fibre) (fs : List Fibre) (b : Block), s.block? g.block = some b →
     let go := fun (x : Fibre) => x.goesOn c.next
     (∀ (o : CopyOp) (gather : Bool) (va key : Nat) (l r : Layout) (es : List (Option Int × Int)) (sx dx : Option Extent) (se de : Extent),
       ActingOnce s c g f fs (formCopy o) → g.stage = 0 →
       s.counterAt g f o.b = .ok va (some key) → s.acquiring g = false →
       let d := (List.range 15).map fun k => g.word f (descReg o.a k)
       let q := g.words f o.d.base 4
       let sec := ((s.kernelOf g).map (·.layout)).getD []
       let recs := (d.getD 8 0).toNat
       let box := (extents ((d.drop 12).take 3)).take l.rank
       let n := box.getD (l.rank - 1) 0
       let off := (q.getD 3 0).toNat
       let sq := g.quad f (descQuad o.a 0)
       let dq := g.quad f (descQuad o.a 1)
       layoutAt sec (recs % 65536) = some l → layoutAt sec (recs / 65536) = some r → copyConfig (some l) (some r) d = none →
       (gather = true → off % 4 = 0 ∧ off + 4 * n ≤ b.scratchLen ∧
         s.readWait g ⟨off, 4 * n, some (scratchKey b.core (b.scratchBase + off)), []⟩ [(off, 4 * n)] = none) →
       CopyArgs.elems ⟨l, r, extents ((d.drop 9).take 3), box, ((halfWords q).take 5).map (signedOf 16), (halfWords q).getD 5 0,
         if gather then some (s.indexList g b n off) else none⟩ = .ok es →
       s.copySide g b copySrc sq (g.tagOf f (descQuad o.a 0)) ((descQuad o.a 0).field 0) l.esize (es.filterMap (·.1)) = .ok sx →
       s.copySide g b copyDst dq (g.tagOf f (descQuad o.a 1)) ((descQuad o.a 1).field 0) l.esize (es.map (·.2)) = .ok dx →
       s.sideReach g f copySrc sx = .ok se → s.sideReach g f copyDst dx = .ok de → s.copyRoom g.core (boardOf de) = none →
       Reached (if gather then .copyg o else .copy o) s
         ((if capSpace dq = 1 then s else s.sideEffect g).acceptCopy
           { id := s.nextId, unit := s.nextId, group := g.id, num := g.recNum, block := b.id, core := g.core, ctx := s.ctxOf g, pc := c.unit
             strip := false
             srcs := es.flatMap fun x => match x.1 with
               | some y => (elemKeys se (capBase sq) l.esize y).map some
               | none => List.replicate l.esize none
             dsts := es.flatMap fun x => elemKeys de (capBase dq) l.esize x.2
             dstVa := if capSpace dq = 0 then es.flatMap fun x => elemVas (capBase dq) l.esize x.2 else []
             fence := g.fence, ctr := key, ctrVa := va, amount := box.foldl (· * ·) 1 * l.esize, read := [], wrote := [], watched := []
             board := boardOf de, gone := none } (d ++ [0]) q)
         c g g (f :: fs) go) ∧
     (ActingOnce s c g f fs ⟨[], [], true, .own⟩ → Does .cfence s s c g { g with fence := g.fence + 1 } (f :: fs) go) ∧
     (∀ (o : ThreeQuads) (strips : List (Nat × Block × Nat × Nat)),
       ActingOnce s c g f fs ⟨[.quad o.d 0 false, .quad o.a 0 o.fa, .quad o.b 0 o.fb], [], true, .own⟩ →
       let ws := g.words f o.a.base 4
       let a := haloArgs ws
       let dirs := haloDirs a.mask (g.words f o.b.base 4)
       a.bad ws = none → a.frame + a.size ≤ g.scratchLen b → strips.length = dirs.length →
       (∀ p ∈ dirs.zip strips, p.2.1 = p.1.1 ∧ s.haloCounter g f b o.d p.1.2 = .ok p.2.2.2.1 (some p.2.2.2.2) ∧
         s.haloTarget b a p.1.2 = .ok p.2.2.1) →
       (∀ x ∈ strips, (s.boardUnits x.2.1.core).length < 32) → s.slotRoom g.core = none →
       Reached (.halo o) s
         (((s.sideEffect g).sendStrips g c b a s.nextId strips strips).updBlock b.id fun b => { b with
           copyLog := b.copyLog ++ [⟨s.nextId, ws, g.words f o.b.base 4, capBase (g.quad f o.d), g.recNum, c.unit,
             if strips.isEmpty then some s.clk else none⟩] })
         c g g (f :: fs) go)) ∧
  (∀ (s : State) (x : Copy), s.copies.find? (fun y => y.id = x.id ∧ y.strip = x.strip) = some x → s.copyReady x = true →
     Memory.wf s.mem = true → x.dsts.Nodup → x.srcs.length = x.dsts.length → x.wrote = [] → s.copyHits x x.dsts = [] →
     (∀ y ∈ x.read, x.srcs.getD y.1 none ≠ none) → (∀ k ∈ x.dsts, s.reaches (dieOf x.core) k = true) →
     ∃ t, exec (if x.strip then .haloStripComplete x.id else .copyComplete x.id) s = .next t ∧
       (∀ i k y, x.dsts[i]? = some k → x.srcs[i]? = some y → t.byteAt k = match y with
         | none => 0
         | some src => ((x.read.find? fun (r : Nat × Byte × Bool) => r.1 = i).map fun (r : Nat × Byte × Bool) => r.2.1).getD (s.seenByte x.core x.group x.id x.ctx none src)) ∧
       (∀ k, k ∉ x.dsts → t.byteAt k = s.byteAt k) ∧
       ((∀ y, some y ∈ x.srcs → s.seenPoison x.core x.group x.id x.ctx none y = false) → (∀ y ∈ x.read, y.2.2 = false) → t.poison = s.poison) ∧
       (∀ k, t.tagAt k = true → s.tagAt k = true ∧ ∀ d ∈ x.dsts, d / 16 ≠ k / 16) ∧
       t.copies = s.copies.filter (fun y => y.id != x.id) ∧
       t.adds = s.adds ++ [⟨s.nextId, x.ctr, x.ctrVa, x.ctx, x.amount, if x.strip then none else some x.group,
         (x.dsts.map (· / 128)).eraseDups, some x.block, x.unit, false, dieOf x.core⟩])

/-- CADD sends an add; CWAIT waits until an add meets its target, and then goes on and acquires; CTEST and CREAD are long-latency
producers. An add raises its counter, saturating; an overflow is told to the group that added; waiters whose target is met are
released, and one is woken or asks again. That a CTEST acquires at CORE scope, and that CWAIT acquires the byte sets of all adds applied up
to its completion, are the model's choices (notes/assumptions/55, 39) (spec/12, R265, R267, R269; spec/13, R283 to R289; spec/24, R417). -/
def Obligations.CounterInstructionsAndEvents : Prop :=
  (∀ (s : State) (c : Cur) (g : Group) (f : Fibre) (fs : List Fibre) (va key : Nat), g.ovf = none → s.acquiring g = false →
     let all := f :: fs
     let go := fun (x : Fibre) => x.goesOn c.next
     let lanes := all.map (·.lane)
     (∀ o : CtrPair, ActingOnce s c g f fs (formCtr o.fa o.a o.fb o.b) → s.counterAt g f o.a = .ok va (some key) →
       let amount := (g.dword f o.b).toNat
       let mine := fun (w : Waiter) => w.woken && w.group == g.id && w.ctr == key && w.target == amount && w.lanes.all c.lanes.contains
       let sent := amount ≠ 0 ∧ isOutside key = true
       ((o.x = true → s.released g (addrScope 3 (some key)) = true) → (sent → g.outack < 65535) →
         Reached (.cadd o) s
           { s.sideEffect g with
             adds := s.adds ++ if amount = 0 then [] else [⟨s.nextId, key, va, s.ctxOf g, amount, some g.id, [], none, 0, o.x, dieOf g.core⟩]
             nextId := if amount = 0 then s.nextId else s.nextId + 1 }
           c g { g with outack := if sent then g.outack + 1 else g.outack } all go) ∧
       (s.reaches (dieOf g.core) key = true → s.waiters.any mine = true →
         let t := ({ s with waiters := s.waiters.filter fun w => !mine w } : State).acquireSets g.core (s.ctxOf g) key
         Reached (.cwait o) s (if o.x then t.acquire g.core (s.ctxOf g) (addrScope 3 (some key)) else t) c g g all go) ∧
       (s.reaches (dieOf g.core) key = true → (∀ w ∈ s.waiters, w.group ≠ g.id) → ∃ t, exec (.cwait o) s = .next t ∧ t.mem = s.mem ∧
         t.waiters = s.waiters ++ [⟨s.nextId, g.id, c.lanes, key, amount, s.listRoom key,
           !s.ownAdd g.id s.nextId key && decide (amount ≤ s.counterVal key), false, s.clk⟩] ∧
         ∀ x ∈ all, ((t.group? g.id).bind (·.fibre? x.lane)) = some { x with wait := some .counter })) ∧
     (∀ o : CtrTest, ActingOnce s c g f fs ⟨[.quad o.a 0 o.fa, .source o.b 2 o.fb], [o.p], true, .own⟩ →
       s.counterAt g f o.a = .ok va (some key) → s.reaches (dieOf g.core) key = true →
       Reached (.ctest o) s
         { s with
           nextId := s.nextId + 1
           producers := s.producers ++ [⟨s.nextId, g.id, .memory, (lanes.map fun l => (l, o.p)).filter (fun q => q.2.val != 0), [], some .core,
             .ctest key (g.dword f o.b).toNat o.p lanes, []⟩] } c g g all
         (fun x => { x with predBusy := if o.p.val = 0 then x.predBusy else x.predBusy ||| (1 <<< o.p.val) }.goesOn c.next)) ∧
     (∀ (fa : Bool) (a : Quad) (d : Reg), ActingOnce s c g f fs ⟨[.dest d 2, .quad a 0 fa], [], true, .own⟩ →
       s.counterAt g f a = .ok va (some key) → s.reaches (dieOf g.core) key = true →
       Reached (.cread fa a d) s
         { s with
           nextId := s.nextId + 1
           producers := s.producers ++ [⟨s.nextId, g.id, .memory, [], [], none, .cread key (all.map fun x => x.destFor d 2 all), []⟩] }
         c g (g.emptyScalar d 2) all (fun x => (x.emptyReg d 2).goesOn c.next))) ∧
  (∀ s : State,
     (∀ a : Add, s.adds.find? (fun x => x.id = a.id) = some a → s.mayAdd a = true → Memory.wf s.mem = true →
       s.reaches a.die a.ctr = true → a.ctr % 8 = 0 → (∀ gid, a.owner = some gid → ∀ g, s.group? gid = some g → g.ended = false) →
       (∀ c ∈ s.ctxs, ∀ q ∈ c.queues, a.ctr + 8 ≤ q.desc ∨ q.desc + 64 ≤ a.ctr) →
       let sum := s.counterVal a.ctr + a.amount
       let v := min sum (2 ^ 64 - 1)
       let woken := fun (g : Group) => if s.wakes g then g.wake (· == .release) else g
       ∃ t, exec (.counterAdd a.id) s = .next t ∧ t.counterVal a.ctr = v ∧ t.adds = s.adds.filter (fun x => x.id != a.id) ∧
         (∀ w ∈ s.waiters, w.listed = true → w.ctr = a.ctr → w.target ≤ v →
           (∀ x ∈ s.adds, x.id ≠ a.id → ¬(x.owner = some w.group ∧ x.lines = [] ∧ x.id < w.id ∧ x.ctr = a.ctr)) →
           { w with met := true } ∈ t.waiters) ∧
         (∀ g ∈ s.groups, 2 ^ 64 ≤ sum → a.owner = some g.id → s.group? g.id = some g → g.ended = false →
           t.group? g.id = some { woken g with ovf := some a.va }) ∧
         (sum < 2 ^ 64 → t.groups = s.groups.map woken)) ∧
     (∀ w : Waiter, s.waiters.find? (fun x => x.id = w.id ∧ x.met ∧ x.woken = false) = some w →
       ∃ t, exec (.cwaitWake w.id) s = .next t ∧
         (let woken := fun (x : Waiter) => if x.id = w.id then { x with woken := true } else x
          t = { s with waiters := s.waiters.map woken, groups := t.groups }) ∧
         let ready := fun (x : Fibre) => if w.lanes.contains x.lane = true ∧ x.wait = some .counter then { x with wait := none } else x
         t.groups = s.groups.map fun g => if g.id = w.group ∧ s.wakes g = true then { g with fibres := g.fibres.map ready } else g) ∧
     (∀ id : Nat,
       let resend := fun (w : Waiter) => if w.id = id ∧ w.listed = false ∧ w.met = false ∧ w.since + 512 ≤ s.clk then
         { w with listed := s.listRoom w.ctr, met := !s.ownAdd w.group w.id w.ctr && decide (w.target ≤ s.counterVal w.ctr), since := s.clk }
         else w
       exec (.cwaitResend id) s = .next { s with waiters := s.waiters.map resend }))

/-- CBIND sets the gate of a queue; QPUSH appends one record for each fibre while the queue has room; QRES reserves slots; QDONE
retires the records that its block was launched with; MARK raises the progress mark or traps SCHEDULE_MISS; TTBIND binds a
timetable. COALESCE_TIMER_EXPIRY and QUEUE_FIRE: which queue fires and what it launches; GRANARY_ENTRY_START and GRANARY_ENTRY_COMPLETE.
That QRES acts once with D written in every fibre, that a root queue is first in, first out, and how it stands among the queues are the
model's choices (notes/assumptions/32, 40, 42) (spec/13, R290 to R302). -/
def Obligations.QueueInstructionsAndEvents : Prop :=
  (∀ (s : State) (c : Cur) (g : Group) (f : Fibre) (fs : List Fibre) (q : QueueRef), s.acquiring g = false →
     let all := f :: fs
     let go := fun (x : Fibre) => x.goesOn c.next
     let ctx := s.ctxOf g
     (∀ (o : CtrBind) (va key : Nat),
       ActingOnce s c g f fs ⟨[.quad o.d 0 false, .quad o.a 0 o.fa, .source o.b 2 o.fb], [], true, .own⟩ →
       g.ovf = none → s.queueAt g f o.d 1 = .ok q → s.counterAt g f o.a = .ok va (some key) →
       Reached (.cbind o) s (((s.sideEffect g).setNum (q.desc + 28) 8 va).setNum (q.desc + 36) 8 (g.dword f o.b).toNat) c g g all go) ∧
     (∀ o : QueuePush,
       let rb : Reg := if o.b.val < 4 then .v (Fin.ofNat 64 (16 * o.b.val)) else .s (Fin.ofNat 32 (16 * (o.b.val - 4)))
       Acting s c g all ⟨[.quad o.a 0 o.fa, .source rb 16 o.fb], [], false, .own⟩ → g.ovf = none →
       (∀ x ∈ all, s.queueAt g x o.a 1 = .ok q) → s.released g (queueScope g.core q.handle) = true →
       (all.length ≤ s.qRoom ctx g.block q →
         Does (.qpush o) s ((s.sideEffect g).pushRecords ctx g.block q (all.map fun x => (g.words x rb 16).flatMap fun w => leBytes 4 w.toNat))
           c g g all go) ∧
       (s.qRoom ctx g.block q < all.length → ∃ t, exec (.qpush o) s = .next t ∧ t.mem = s.mem ∧
         ∀ x ∈ all, ((t.group? g.id).bind (·.fibre? x.lane)) = some { x with wait := some .queue })) ∧
     (∀ o : QuadReg, ActingOnce s c g f fs ⟨[.dest o.d 1, .quad o.a 0 o.fa, .source o.b 1 o.fb], [], true, .own⟩ →
       s.queueAt g f o.a 1 = .ok q →
       let n := (g.word f o.b).toNat
       let yes := decide (n ≤ s.qRoom ctx g.block q)
       let t := s.sideEffect g
       0 < n →
       Does (.qres o) s
         ((if yes then t.updBlock g.block fun b => { b with reserved := b.reserved ++ [⟨q.handle, n⟩] } else t).withProducer g all .memory none false
           (.ready (all.map fun x => ⟨x.destFor o.d 1 all, [if yes then 1 else 0], false, false, none, 0, none⟩)))
         c g (g.emptyScalar o.d 1) all (fun x => (x.emptyReg o.d 1).goesOn c.next)) ∧
     (∀ (fa : Bool) (a : Quad) (b : Block), ActingOnce s c g f fs ⟨[.quad a 0 fa], [], true, .own⟩ → s.queueAt g f a 0 = .ok q →
       s.block? g.block = some b → (∀ x ∈ g.fibres, x.wait ≠ some .queue) →
       (∀ r, b.records = some r → r.queue = q.handle → Does (.qdone fa a) s
         (((s.sideEffect g).retireRecords ctx r).updBlock g.block fun b => { b with records := none }) c g g all go) ∧
       (b.records = none → Does (.qdone fa a) s (s.sideEffect g) c g g all go)) ∧
     (∀ (i : BitVec 17) (gr : Grid), ActingOnce s c g f fs ⟨[], [], true, .own⟩ → s.gridOf g = some gr →
       (gr.table = none → Does (.mark i) s (s.sideEffect g) c g g all go) ∧
       ∀ tab, gr.table = some tab →
         (tab.missed i.toNat = none →
           Does (.mark i) s ((s.sideEffect g).updGrid gr.id fun x => { x with marker := max x.marker i.toNat }) c g g all go) ∧
         ∀ n m, tab.missed i.toNat = some (n, m) → (∀ x ∈ all, x.ih = false) → (s.handlerOf g).getLsbD 0 = true →
           ∃ t, exec (.mark i) s = .next t ∧ ((t.grid? gr.id).map (·.marker)) = some (max gr.marker i.toNat) ∧
             ∀ x ∈ all, ((t.group? g.id).bind (·.fibre? x.lane)) =
               some (x.trapped c.unit (s.handlerOf g) s.nextId ⟨.scheduleMiss, BitVec.ofNat 64 (n + 2 ^ 32 * m)⟩ 0)) ∧
     (∀ (fb fa : Bool) (b a : Quad) (gr : Grid) (e k : Extent),
       ActingOnce s c g f fs ⟨[.quad a 0 fa, .quad b 0 fb], [], true, .own⟩ →
       let A := g.quad f a
       let B := g.quad f b
       let n := capLen A / 32
       s.gridOf g = some gr → gr.table = none → capLen A % 32 = 0 → 1 ≤ n → n ≤ 65536 → capBase A % 32 = 0 → capBase B % 8 = 0 →
       s.extent g f.lane ⟨[0, 5], [0], .rd, capLen A, false⟩ A (g.tagOf f a) (a.field 0) 0 (capLen A) none = .ok e →
       s.extent g f.lane .counter B (g.tagOf f b) (b.field 0) 0 (8 * n) none = .ok k →
       Reached (.ttbind fb fa b a) s
         ((s.sideEffect g).updGrid gr.id fun x => { x with table := some (s.readTable g e n (capBase B)), marker := 0 }) c g g all go)) ∧
  (∀ s : State,
     (∀ (ctx h : Nat) (q : QueueRef), s.queue? ctx h = some q → s.timerDue q = true →
       exec (.coalesceTimerExpiry ctx h) s = .next (s.updQueue ctx h fun x => { x with expired := true })) ∧
     (∀ (die ctx : Nat) (q : QueueRef), s.canFire die = some (ctx, .inl q) → (ctx, q) ∈ s.eligibleOn die ∧
       ∀ y ∈ s.eligibleOn die,
         let late := fun (z : QueueRef) => 4 * s.qTimer z < s.qAge z
         (late q → late y.2 → s.qAge y.2 ≤ s.qAge q) ∧
         (¬late q → ¬late y.2 ∧ s.qWaiting y.2 ≤ s.qWaiting q ∧ (s.qWaiting y.2 = s.qWaiting q → s.qAge y.2 ≤ s.qAge q))) ∧
     (∀ (die ctx : Nat) (q : QueueRef) (x : Ctx) (k : Kernel), s.canFire die = some (ctx, .inl q) → q.handle ≠ 0 → s.ctx? ctx = some x →
       s.kernel? ctx (s.qKernel q) = some k → k.stages.length = 1 → k.sheaf = 1 →
       let first := s.qFired q
       let n := min (min 32 (s.qWaiting q)) (s.qCap q - first % s.qCap q)
       ∃ t, exec (.queueFire die) s = .next t ∧
         t.grids = s.grids ++ [⟨s.nextId, ctx, x.gridSeq, s.qKernel q, 1, 1, 1, s.qArgtab q, s.qCtl q % 4, 0, none, some ⟨q.handle, first, n⟩,
           s.qRing q + 64 * (first % s.qCap q), if s.qGate q = 0 then none else some (s.qGate q)⟩]) ∧
     (∀ (die ctx : Nat) (r : RootRec) (x : Ctx) (k : Kernel), s.canFire die = some (ctx, .inr r) → s.ctx? ctx = some x →
       s.kernel? ctx r.kernel = some k → launchOk r.x r.y r.z k = true →
       ∃ t, exec (.queueFire die) s = .next t ∧ t.fired = die :: s.fired ∧ ((t.ctx? ctx).map (·.rootq)) = some (x.rootq.drop 1) ∧
         t.grids = s.grids ++ [⟨s.nextId, ctx, x.gridSeq, r.kernel, r.x, r.y, r.z, r.argtab, r.priority % 4, 0, none, none, 0,
           if r.gate = 0 then none else some r.gate⟩]) ∧
     (∀ (gr : Grid) (n : Nat), s.grid? gr.id = some gr → s.nextEntry gr = some n →
       exec (.granaryEntryStart gr.id n) s = .next (s.updGrid gr.id fun x =>
         { x with table := x.table.map fun t => t.upd n fun y => { y with state := .running } })) ∧
     (∀ (gr : Grid) (t0 : Timetable) (n : Nat) (e : Entry) (l : Leaf), (∀ x ∈ s.fetches, x.id ≠ gr.id) → s.grid? gr.id = some gr →
       s.gridLive gr.id = true → gr.table = some t0 → t0.entries[n]? = some e → e.state = .running → e.action = 2 →
       let va := t0.ctrBase + 8 * n
       s.lookup (dieSite t0.die) gr.ctx va = .leaf l →
       ∃ t, exec (.granaryEntryComplete gr.id n) s = .next t ∧ t.mem = s.mem ∧
         t.adds = s.adds ++ [⟨s.nextId, l.key va, va, gr.ctx, capLen e.obj, none, [], none, 0, false, t0.die⟩] ∧
         (((t.grid? gr.id).bind (·.table)).bind (·.entries[n]?)) = some { e with state := .complete, integrity := false }))

/-! History, texture and graphics (spec/15, spec/17). -/

/-- HLD, HLD.F, HLDP and TEX are producers of the history kind, with what their headers and coordinates gave at issue; a field that
does not exist traps CAP_BOUNDS with reason 1. HSEAL latches a descriptor and seals its field; HOPEN opens or retires a field and
counts its generation; HFOLD is accepted with the fields as they stand, and HFOLD_COMPLETE seals the sum and links it (spec/15,
R310, R311, R316, R317, R319 to R322, R326, R327). -/
def Obligations.HistoryLoadsAndFields : Prop :=
  (∀ (s : State) (c : Cur) (g : Group) (fs : List Fibre),
     let owes := fun (i : Instr) (fm : Form) (d : Reg) (n : Nat) (p : Fin 8) (w : Work) =>
       Acting s c g fs fm → s.acquiring g = false →
       Reached i s
         { s with
           producers := s.producers ++ [⟨s.nextId, g.id, .history, (fs.map fun f => (f.lane, p)).filter (fun q => q.2.val != 0), [], none, w, []⟩]
           nextId := s.nextId + 1 } c g (g.emptyScalar d n) fs (fun f => ((f.emptyReg d n).awaits p).goesOn c.next)
     let args := fun (f : Fibre) (q : Quad) (x y a b : Word) =>
       g.words f q.base 4 = [x, y, a, b] ∧ 1 ≤ a.toNat % 256 ∧ a.toNat % 256 ≤ 64 ∧ a.toNat / 256 % 256 = 0 ∧ a.toNat / 2 ^ 24 = 0 ∧
       b.toNat < 4096
     (∀ (o : HistLoad) (l : Fibre → HistLane),
       let run := fun (i : Instr) (form : Nat) =>
         (∀ f ∈ fs, ∃ (x y a b : Word) (h : List Byte) (u : Surf), args f o.c x y a b ∧ b.toNat < s.fieldCount g ∧
           s.header g f o.a (o.a.field form) 64 = .ok (some h) ∧ surfOf (g.quad f o.a) (o.a.field form) (a.toNat / 65536 % 256) h = some u ∧
           a.toNat / 65536 % 256 < u.chans ∧
           l f = .start (f.destFor o.d 1 fs) f x.toInt y.toInt (a.toNat % 256) b.toNat (some u) false) →
         owes i (formHld form o) o.d 1 o.p (.hist form o.p c.unit (fs.map l))
       run (.hld o) 0 ∧ run (.hldF o) 1) ∧
     (∀ (o : HistPos) (l : Fibre → HistLane),
       ((∀ f ∈ fs, ∃ (x y a b : Word), args f o.c x y a b ∧ b.toNat < s.fieldCount g ∧
           l f = .start (f.destFor o.d 2 fs) f x.toInt y.toInt (a.toNat % 256) b.toNat none false) →
         owes (.hldp o) (formHldp o) o.d 2 o.p (.hist 2 o.p c.unit (fs.map l))) ∧
       ∀ n : Fibre → Nat, Acting s c g fs (formHldp o) → (∀ r ∈ s.replays, r.declined = false) →
         (∀ f ∈ fs, ∃ (x y a b : Word), args f o.c x y a b ∧ s.fieldCount g ≤ b.toNat ∧ n f = b.toNat) →
         Traps (.hldp o) s c g fs (fun f => ⟨.capBounds, BitVec.ofNat 64 (n f + 2 ^ 32 * (2 ^ 31 + 1))⟩) (fun _ => 0)) ∧
     (∀ (o : Texture) (l : Fibre → TexLane),
       (∀ f ∈ fs, ∃ (u v lvl lay : Word) (h : List Byte) (t : Texel) (n : Nat), g.words f o.c.base 4 = [u, v, lvl, lay] ∧
         s.header g f o.a (o.a.field 0) 304 = .ok (some h) ∧ texelOf (g.quad f o.a) (o.a.field 0) h = some (t, n) ∧
         lvl.toNat < t.levels.length ∧ lay.toNat < n ∧
         l f = ⟨f.destFor o.d.base 4 fs, f.lane, u.toInt, v.toInt, lvl.toNat, lay.toNat, t, false⟩) →
       owes (.tex o) ⟨[.dest o.d.base 4, .quad o.a 0 o.fa, .quad o.c (o.p.val % 4) o.fb], [o.p], false, .own⟩ o.d.base 4 o.p
         (.tex o.p (fs.map l)))) ∧
  (∀ (s : State) (c : Cur) (g : Group) (f : Fibre) (fs : List Fibre),
     let go := fun (x : Fibre) => x.goesOn c.next
     let ctx := s.ctxOf g
     let bad := fun (i : Instr) (n reason : Nat) => (∀ r ∈ s.replays, r.declined = false) →
       Traps i s c g (f :: fs) (fun _ => ⟨.capBounds, BitVec.ofNat 64 (n + 2 ^ 32 * (2 ^ 31 + reason))⟩) (fun _ => 0)
     (∀ (fa : Bool) (a : Reg), ActingOnce s c g f fs ⟨[.source a 1 fa], [], true, .own⟩ →
       let w := (g.word f a).toNat
       let n := w % 4096
       let x := s.field ctx n
       (∀ d : Descr, n < s.fieldCount g → g.ovf = none → s.acquiring g = false → s.recordBusy ctx n f = false → s.readDescr g f n = .ok d →
         s.released g (s.entryScope g d) = true → x.state = 1 → d.ok = true → s.stale ctx d.obj = false →
         let y : Field := { x with
           frame := d.frame, width := d.width, height := d.height, cellk := d.cellk, parent := d.parent, sealCtr := d.sealCtr
           entries := capBase d.obj, span := 1, state := 2 }
         let t := (s.sideEffect g).setField ctx y
         (d.sealCtr = 0 → Reached (.hseal fa a) s t c g g (f :: fs) go) ∧
         ∀ key : Nat, d.sealCtr ≠ 0 → s.sealAt g f d.sealCtr = .ok (some key) → s.released g (addrScope 3 (some key)) = true →
           (isOutside key = true → g.outack < 65535) →
           Reached (.hseal fa a) s
             { t with adds := s.adds ++ [⟨s.nextId, key, d.sealCtr, ctx, 1, some g.id, [], none, 0, true, dieOf g.core⟩], nextId := s.nextId + 1 }
             c g { g with outack := if isOutside key then g.outack + 1 else g.outack } (f :: fs) go) ∧
       (n < s.fieldCount g → s.acquiring g = false → s.recordBusy ctx n f = false → (∀ x ∈ s.folds, x.ctx = ctx → x.s ≠ n ∧ x.n ≠ n ∧ x.o ≠ n) →
         (∀ st : Nat, ((bitAt w 31 = true ∧ (x.state = 1 ∨ x.state = 2) ∧ st = 0) ∨ (bitAt w 31 = false ∧ (x.state = 0 ∨ x.state = 2) ∧ st = 1)) →
           let gen := (x.gen + 1) % 65536
           let t := ((s.sideEffect g).uncache ctx n).setField ctx { x with state := st, gen := gen }
           (s.fieldRead ctx n = false → (∀ x ∈ g.fibres, x.wait ≠ some (.hopen none)) →
             Does (.hopen fa a) s ((if gen = 0 then t.clearFolds ctx n else t).wakeAll (· == .hopen none)) c g g (f :: fs) go) ∧
           (s.fieldRead ctx n = true → ∃ t, exec (.hopen fa a) s = .next t ∧ t.ctxs = s.ctxs ∧ t.mem = s.mem ∧
             ∀ y ∈ f :: fs, ((t.group? g.id).bind (·.fibre? y.lane)) = some { y with wait := some (.hopen (some n)) })) ∧
         ((if bitAt w 31 then x.state ≠ 1 ∧ x.state ≠ 2 else x.state ≠ 0 ∧ x.state ≠ 2) → bad (.hopen fa a) n 2)) ∧
       (s.fieldCount g ≤ n → bad (.hopen fa a) n 1)) ∧
     (∀ (fb fa : Bool) (b a : Quad) (va key : Nat) (k : Ctx) (d : Descr),
       ActingOnce s c g f fs ⟨[.quad a 0 fa, .quad b 0 fb], [], true, .own⟩ →
       let num := fun (i : Nat) => ((g.words f a.base 3).getD i 0).toNat % 4096
       (∀ i < 3, num i < s.fieldCount g) → s.ctx? ctx = some k → s.counterAt g f b = .ok va (some key) → s.acquiring g = false →
       (k.field (num 1)).state = 2 → (k.field (num 2)).state = 2 → (k.field (num 0)).state = 1 → s.readDescr g f (num 0) = .ok d →
       (∀ i < 3, s.recordBusy ctx (num i) f = false) → foldBad k (num 0) (num 1) (num 2) d = false →
       Reached (.hfold fb fa b a) s
         { s.sideEffect g with
           folds := s.folds ++ [⟨s.nextId, ctx, num 0, num 1, num 2, (k.field (num 1)).gen, (k.field (num 2)).gen, (k.field (num 0)).gen,
             d.obj, d.tag, key, va⟩]
           nextId := s.nextId + 1 } c g g (f :: fs) go) ∧
     (∀ (x : Fold) (u : State) (keys : List Nat), s.folds.find? (fun y => y.id = x.id) = some x → (s.ctx? x.ctx).isSome = true → x.s ≠ x.n →
       let n := s.field x.ctx x.n
       let o := s.field x.ctx x.o
       s.foldWaits x n o (cellsOf n) = none → s.foldCells x n o (cellsOf n) [] = (u, .ok keys) →
       let sum := { s.field x.ctx x.s with
         frame := n.frame, width := n.width, height := n.height, cellk := n.cellk, parent := o.parent, entries := capBase x.obj
         span := n.span + o.span, state := 2 }
       let link := { n with fold := some x.s, fgn := x.genN, fgo := x.genO, fgs := x.genS }
       ∃ t, exec (.hfoldComplete x.id) s = .next t ∧ t.mem = ((u.setField x.ctx sum).setField x.ctx link).mem ∧
         t.folds = s.folds.filter (fun y => y.id != x.id) ∧ t.field x.ctx x.s = sum ∧ t.field x.ctx x.n = link ∧
         t.adds = s.adds ++ [⟨s.nextId, x.ctr, x.ctrVa, x.ctx, 4 * n.width * n.height, none, (keys.map (· / 128)).eraseDups, none, 0, false, 0⟩]))

/-- TRI, CUTSEL and TRACE as accepted, with what their records gave at issue; GLEANER_REQUEST plans a request, pushes one page of
it, or ends it. That Gleaner uses the header and the view as at acceptance, reads the graph in one step, and writes only STATUS on an
error are the model's choices (notes/assumptions/56) (spec/17, R331, R333, R338, R341 to R346). -/
def Obligations.Graphics : Prop :=
  ∀ (s : State) (c : Cur) (g : Group) (fs : List Fibre),
    (∀ (o : CtrTest) (b : Block) (rec0 : Fibre → List Byte × List Bool),
      let tile := g.vistile.toNat % 2 ^ 19
      let res := fun f => triResult g (rec0 f).1
      let writes := fun (f : Fibre) => (res f).2.map fun x => (⟨f.lane, scratchKey b.core (b.scratchBase + tile + 8 * x.1), 0, x.2, 0⟩ : AtomLane)
      Acting s c g fs ⟨[.quad o.a 0 o.fa, .source o.b 1 o.fb], [o.p], false, .own⟩ → s.block? g.block = some b →
      (∀ f ∈ fs, s.readRecord g f o.a [0, 5, 1] [0] (g.word f o.b).toNat 112 16 = .ok (rec0 f)) → tile + 32768 ≤ g.scratchLen b →
      (∀ f ∈ fs, ∀ w ∈ writes f, s.boarded w.key 8 = false ∧ g.mloopHolds w.key 8 = false) →
      Reached (.tri o) s
        { s with
          producers := s.producers ++ [⟨s.nextId, g.id, .memory, (fs.map fun f => (f.lane, o.p)).filter (fun q => q.2.val != 0), [], none,
            .tri o.p (fs.map fun f => (f.lane, (res f).1)) (fs.flatMap writes), []⟩]
          nextId := s.nextId + 1 } c g g fs (fun f => (f.awaits o.p).goesOn c.next)) ∧
    (∀ (o : TwoQuads) (l : Fibre → RayLane),
      let ctx := s.ctxOf g
      Acting s c g fs ⟨[.both o.d 1, .quad o.a 0 o.fa, .quad o.b 0 o.fb], [], false, .own⟩ →
      (∀ f ∈ fs, ∃ (ray sc : List Byte) (rt tags : List Bool),
        s.readRecord g f o.a [0, 5, 1] [0] (g.word f o.d).toNat 64 16 = .ok (ray, rt) ∧
        s.readRecord g f o.b [0, 5] [0, 2] 0 64 16 = .ok (sc, tags) ∧ s.goodCap ctx (quadOf sc 0) (tags.getD 0 false) [0, 5] [0] = true ∧
        s.goodCap ctx (quadOf sc 16) (tags.getD 1 false) [0, 5] [0] = true ∧
        s.goodCap ctx (quadOf sc 32) (tags.getD 2 false) [0, 1, 2, 5] [0, 2] = true ∧ hdrZero sc 60 4 = true ∧ rayOk ray = true ∧
        l f = ⟨f.destFor o.d 1 fs, f.lane, ray, o.b.field 0, quadOf sc 0, quadOf sc 16, quadOf sc 32, hdr sc 48 4, hdr sc 52 4⟩) →
      Reached (.trace o) s
        { s.sideEffect g with
          producers := s.producers ++ [⟨s.nextId, g.id, .memory, [], [], none, .trace (fs.map l), []⟩]
          nextId := s.nextId + 1 } c g (g.emptyScalar o.d 1) fs (fun f => (f.emptyReg o.d 1).goesOn c.next)) ∧
    (∀ (o : ThreeQuads) (f : Fibre) (rest : List Fibre) (va key : Nat) (hb vb : List Byte) (ht tags : List Bool), fs = f :: rest →
      let ctx := s.ctxOf g
      let view := capBase (g.quad f o.b)
      ActingOnce s c g f rest ⟨[.quad o.d 0 false, .quad o.a 0 o.fa, .quad o.b 0 o.fb], [], true, .own⟩ →
      g.ovf = none → s.acquiring g = false → s.counterAt g f o.d = .ok va (some key) →
      s.readRecord g f o.a [0, 5] [0] 0 64 64 = .ok (hb, ht) → s.readRecord g f o.b [0] [0, 1, 2] 0 128 128 = .ok (vb, tags) →
      s.viewWrite g view = none → graphOk hb = true → s.viewOk ctx vb tags = true →
      s.released g (s.graphScope g (capBase (g.quad f o.a))) = true →
      Reached (.cutsel o) s
        { s.sideEffect g with
          cuts := s.cuts ++ [⟨s.nextId, dieOf g.core, ctx, g.quad f o.a, hb, view, vb, tags.getD 6 false && !s.stale ctx (quadOf vb 96),
            key, va, none⟩]
          nextId := s.nextId + 1 } c g g fs (fun x => x.goesOn c.next)) ∧
    (∀ (die : Nat) (x : Cut), s.cuts.find? (fun y => y.die = die) = some x →
      (∀ (p : CutPlan) (qs : List QWord), x.plan = none → s.cutPlan x = .ok (p, qs) →
        exec (.gleanerRequest die) s = .next ((s.setPlan x.id p).askFetches x qs)) ∧
      (∀ t : Trap, x.plan = none → s.cutPlan x = .fail t →
        exec (.gleanerRequest die) s = .next (({ s.hearEngine x.id with errlog := s.errlog ++ [.cut x.ctx x.view] } : State).setPlan x.id ⟨[], none⟩)) ∧
      (∀ (p : CutPlan) (q : QueueRef) (page : List (List Byte)), x.plan = some p → p.pages ≠ [] →
        s.pageReady x.ctx [] p.pages = some (q, page) →
        exec (.gleanerRequest die) s =
          .next ((s.pushRecords x.ctx 0 q page).setPlan x.id { p with pages := p.pages.erase (q.handle, page) })) ∧
      (∀ (n m : Nat) (k0 k1 k2 : List Nat), x.plan = some ⟨[], some (n, m)⟩ →
        let at_ := dieSite x.die
        let s0 := s.sendKeys x.die k0 (leBytes 4 n)
        let s1 := s0.sendKeys x.die k1 (leBytes 4 m)
        s.keysOf at_ x.ctx (x.view + 112) 4 .wr = some k0 → s0.keysOf at_ x.ctx (x.view + 116) 4 .wr = some k1 →
        s1.keysOf at_ x.ctx (x.view + 120) 4 .wr = some k2 →
        ∃ t lines, exec (.gleanerRequest die) s = .next t ∧ t.mem = (s1.sendKeys x.die k2 (leBytes 4 0)).mem ∧
          t.cuts = s.cuts.filter (fun y => y.id != x.id) ∧
          t.adds = s.adds ++ [⟨s.nextId, x.ctr, x.ctrVa, x.ctx, 16, none, lines, none, 0, false, x.die⟩]))

/-! Key-value tables and lofts (spec/19). -/

/-- KVHASH: the first 128 bits of SHA-256 over the previous digest, KVMODEL and the tokens of lanes 0 to 15, or ILLEGAL when one of
these lanes does not act; the other KV instructions hand their requests to the table agent, as a release and an acquire at MODULE
scope. KV_AGENT_OPERATION answers a request with what its operation gives over the table, requests for one table in the order of their
clk and then of their requester ids, once the clk of its arrival is over; the checks of versions and arguments come before any change of
the table. The place of a group in a requester id, no partial effect of a request that faults, and STEP's version before its window are the
model's choices (notes/assumptions/57) (spec/19, R351, R353, R356, R358 to R361). -/
def Obligations.KeyValueInstructionsAndAgent : Prop :=
  (∀ (s : State) (c : Cur) (g : Group) (f : Fibre) (fs : List Fibre),
     let all := f :: fs
     (∀ o : KvHash,
       let fm : Form := ⟨[.dest o.d.base 4, .quad o.a 0 o.fa, .source o.b 1 o.fb], [], true, .every⟩
       Batch s c g all fm → fm.Readable g f → (∀ x ∈ fs, fm.written.Readable g x) → (∀ x ∈ fs, x.lane.val < 16 → (Operand.source o.b 1 o.fb).Readable g x) →
       (∀ toks : List Word, toks.length = 16 → (∀ i : Fin 32, i.val < 16 → ∃ x ∈ all, x.lane = i ∧ toks[i.val]? = some (g.word x o.b)) →
         let msg := (g.words f o.a.base 4 ++ [g.kvmodel, g.kvmodelh] ++ toks).flatMap fun w => leBytes 4 w.toNat
         let ws := (List.range 4).map fun i => (BitVec.ofNat 32 (leNat (((sha256 msg).drop (4 * i)).take 4)) : Word)
         Does (.kvhash o) s s c g (g.writeScalar o.d.base ws) all (fun x => (x.writeReg o.d.base ws).goesOn c.next)) ∧
       ((∀ r ∈ s.replays, r.declined = false) → (∃ i : Fin 32, i.val < 16 ∧ ∀ x ∈ all, x.lane ≠ i) →
         Traps (.kvhash o) s c g all (fun _ => ⟨.illegal, (laneMask (all.map (·.lane))).zeroExtend 64⟩) (fun _ => 0))) ∧
     (∀ (base : Fibre → Nat), g.ovf = none → s.acquiring g = false → s.released g .module = true →
       let run := fun (i : Instr) (fm : Form) (d : Reg) (n : Nat) (effects : Bool) (op : Fibre → KvOp) =>
         Acting s c g all fm →
         let t := if effects then s.sideEffect g else s
         Reached i s
           { t with
             kvops := s.kvops ++ all.zipIdx.map fun x =>
               ⟨s.nextId + x.2, base x.1, s.ctxOf g, g.id, x.1.destFor d n all, g.kvver.toNat, op x.1, s.arrivalClk, s.requester g x.1.lane,
                 none⟩
             producers := s.producers ++ [⟨s.nextId + all.length, g.id, .memory, [], [], some .module,
               .kv ((List.range all.length).map (s.nextId + ·)), []⟩]
             nextId := s.nextId + all.length + 1 } c g (g.emptyScalar d n) all (fun x => (x.emptyReg d n).goesOn c.next)
       let handles := fun (a : Quad) (sub perm : Nat) => ∀ x ∈ all, s.handleAt g x a sub perm = .ok (base x)
       (∀ o : TwoQuads,
         (handles o.a 0 0 → run (.kvlookLook o) (formLook 0 o) o.d 2 false (fun x => .look (g.quad x o.b) false)) ∧
         (handles o.a 1 0 → run (.kvlookTake o) (formLook 1 o) o.d 2 true (fun x => .look (g.quad x o.b) true)) ∧
         (handles o.a 2 1 → run (.kvlookPub o) (formLookD 2 o) o.d 2 true (fun x => .pub (g.quad x o.b) (g.word x o.d).toNat)) ∧
         (handles o.a 1 1 →
           run (.kvrelKill o) ⟨[.dest o.d 1, .quad o.a 1 o.fa, .quad o.b 0 o.fb], [], false, .own⟩ o.d 1 true
             (fun x => .kill (g.quad x o.b))) ∧
         (∀ (b : Block) (tb : Fibre → Nat) (va : Fibre → Nat) (key : Fibre → Option Nat), handles o.a 0 1 → s.block? g.block = some b →
           (∀ x ∈ all, s.engineNum (dieOf g.core) (s.ctxOf g) 0 (base x + 8) 4 = .ok (tb x) ∧
             s.capCheck (s.ctxOf g) (g.quad x o.b) (g.tagOf x o.b) (o.b.field 0) ⟨[0, 1], [0], .rd, tb x / 16, false⟩ = none ∧
             s.place b (g.quad x o.b) 0 (tb x / 16) = .ok (va x, key x)) →
           run (.kvapp o) (formLookD 0 o) o.d 2 true (fun x => .app (g.word x o.d).toNat (g.quad x o.b) (some (va x, key x, tb x / 16))))) ∧
       (∀ o : QuadReg,
         (handles o.a 0 1 → run (.kvrelDrop o) (formRel 0 o) o.d 1 true (fun x => .drop (g.word x o.b).toNat)) ∧
         (handles o.a 2 1 → run (.kvrelStep o) (formRel 2 o) o.d 1 true (fun x => .step (g.word x o.b).toNat)) ∧
         (handles o.a 3 1 → run (.kvrelUnpin o) (formRel 3 o) o.d 1 true (fun x => .unpin (g.word x o.b).toNat))))) ∧
  (∀ (s : State) (q r : KvReq), s.kvops.find? (fun x => x.id = r.id) = some r → q ∈ s.kvops → q.id ≠ r.id → q.answer = none →
     q.ctx = r.ctx → q.table = r.table → (∀ x ∈ s.replays, x.declined = false → q.id ∉ x.prods) →
     (q.clk < r.clk ∨ (q.clk = r.clk ∧ q.req < r.req)) → exec (.kvAgentOperation r.id) s = .next s) ∧
  (∀ (s : State) (r : KvReq), s.kvops.find? (fun x => x.id = r.id) = some r → s.clk ≤ r.clk →
     exec (.kvAgentOperation r.id) s = .next s) ∧
  (∀ (s : State) (r : KvReq), s.kvops.find? (fun x => x.id = r.id) = some r → s.kvReady r = true →
     let t : Table := ⟨dieOf (((s.group? r.group).map (·.core)).getD 0), r.ctx, r.table, r.id⟩
     let answers := fun (u : State) (ws : List Word) (mark : Option Trap) =>
       exec (.kvAgentOperation r.id) s = .next
         { u.hearEngine r.id with kvops := u.kvops.map fun x => if x.id = r.id then { x with answer := some ⟨r.dest, ws, false, false, mark, 0, none⟩ } else x }
     (∀ u ws, t.run r s = .ok (u, ws) → answers u ws none) ∧
     (∀ tr : Trap, t.run r s = .fail tr → answers s [] (some tr)) ∧
     ∀ h : KvHead, t.head s = .ok h →
       (∀ d take, r.op = .look d take → (r.kvver < h.oldest ∨ h.cur < r.kvver) → answers s [0xFFFFFFFB, 0] none) ∧
       (∀ d b, r.op = .pub d b → h.nblk ≤ b → answers s [0xFFFFFFFA, 0] none) ∧
       (∀ b, r.op = .drop b → h.nblk ≤ b → answers s [0xFFFFFFFA] none) ∧
       (∀ v, r.op = .unpin v → (v < h.oldest ∨ h.cur < v) → answers s [0xFFFFFFFB] none) ∧
       (∀ k, r.op = .step k → (k = 0 ∨ 65535 < k) → answers s [0xFFFFFFFB] none) ∧
       (∀ k, r.op = .step k → 1 ≤ k → k ≤ 65535 →
         (h.cur + 1 - h.oldest = 64 → answers s [0xFFFFFFF6] none) ∧
         ∀ u v, h.cur + 1 - h.oldest ≠ 64 → t.wr 12 4 (h.cur + 1) s = .ok u → t.wr (h.vref + 4 * ((h.cur + 1) % 64)) 4 k u = .ok v →
           answers v [BitVec.ofNat 32 (h.cur + 1)] none))

/-- LOFT gives its command to the loft, after its checks; LMERGE merges two triples. The commands of a loft, in order of receipt:
each changes its loft or its bank rows, and adds 1 to its counter; one whose loft is not in AB mode, or has no open row, changes
nothing, is logged, and adds 2^32. That the order of receipt is the order of issue, ATTN's status words, running maximum and rows modulo
2^16, where its codes 5 to 7 trap, which lines a slice holds through all-bank mode, and the infinities of a sum are the model's choices
(notes/assumptions/58, 59, 60, 61, 128) (spec/19, R365 to R370). -/
def Obligations.LoftInstructionsAndCommands : Prop :=
  (∀ (s : State) (c : Cur) (g : Group) (fs : List Fibre),
     (∀ o : QuadReg, Acting s c g fs ⟨[.source o.d 1 false, .quad o.a 0 o.fa, .source o.b 2 o.fb], [], false, .own⟩ →
       g.ovf = none →
       let n := fun f => (g.word f o.d).toNat
       let held := fun f => n f < 2048 ∧ s.holdsLoft (s.ctxOf g) (n f) = true
       (∀ va key : Fibre → Nat, s.acquiring g = false → s.released g .module = true →
         (∀ f ∈ fs, held f ∧ s.counterAt g f o.a = .ok (va f) (some (key f)) ∧ cmdOk (g.dword f o.b) = true) →
         Reached (.loft o) s
           { s.sideEffect g with loftq := s.loftq ++ fs.map fun f => ⟨n f, s.ctxOf g, g.dword f o.b, key f, va f⟩ } c g g fs
           (fun f => f.goesOn c.next)) ∧
       ((∀ r ∈ s.replays, r.declined = false) →
         ((∀ f ∈ fs, 2048 ≤ n f) → Traps (.loft o) s c g fs (fun f => ⟨.illegal, (g.word f o.d).zeroExtend 64⟩) (fun _ => 0)) ∧
         ((∀ f ∈ fs, n f < 2048 ∧ s.holdsLoft (s.ctxOf g) (n f) = false) →
           Traps (.loft o) s c g fs (fun f => ⟨.capPerm, (0xFFFFFFFF : Word) ++ g.word f o.d⟩) (fun _ => 0)) ∧
         ((∀ f ∈ fs, held f ∧ (∃ va key, s.counterAt g f o.a = .ok va (some key)) ∧ cmdOk (g.dword f o.b) = false) →
           Traps (.loft o) s c g fs (fun f => ⟨.illegal, g.dword f o.b⟩) (fun _ => 0)))) ∧
     (∀ o : ThreeQuads, Acting s c g fs ⟨[.dest o.d.base 4, .quad o.a 0 o.fa, .quad o.b 0 o.fb], [], false, .own⟩ →
       Does (.lmerge o) s (s.withProducer g fs .memory none false (.ready (fs.map fun f =>
           ⟨f.destFor o.d.base 4 fs, ((tripleOf (g.words f o.a.base 4)).merge (tripleOf (g.words f o.b.base 4))).words,
             false, false, none, 0, none⟩)))
         c g (g.emptyScalar o.d.base 4) fs (fun f => (f.emptyReg o.d.base 4).goesOn c.next))) ∧
  (∀ (s : State) (n : Nat) (c : LoftCmd), s.loftq.find? (fun x => x.loft = n) = some c →
     let l := s.loft n
     let fld := fun (lo w : Nat) => c.cmd.toNat / 2 ^ lo % 2 ^ w
     let run := fun (i : Instr) (op amount : Nat) (post : State → Prop) =>
       c.cmd.toNat / 2 ^ 60 = op →
       ∃ t lines, exec i s = .next t ∧ t.loftq = s.loftq.erase c ∧
         t.adds = s.adds ++ [⟨s.nextId, c.ctr, c.ctrVa, c.ctx, amount, none, lines, none, 0, false, n / 128⟩] ∧ (∀ m, m ≠ n → t.loft m = s.loft m) ∧ post t
     let same := fun (t : State) => t.mem = s.mem ∧ t.dirty = s.dirty
     run (.modeAb n) 0 1 (fun t => same t ∧ t.loft n = { l with allBank := true, lines := s.tick }) ∧
     (let closed := { l with allBank := false, row := none }
      let u := ((s.setLoft closed).writeBack n).performLate n
      run (.modeSb n) 1 1 (fun t => t.mem = u.mem ∧ t.dirty = u.dirty ∧ t.late = s.late.filter (fun x => loftOf x.1 != n) ∧ t.loft n = closed)) ∧
     run (.clr n) 7 1 (fun t => same t ∧ t.loft n = l.mapLanes fun _ _ => .fresh) ∧
     (l.allBank = false →
       let fails := fun (i : Instr) (op : Nat) => run i op (2 ^ 32) fun t => same t ∧ t.loft n = l ∧ t.errlog = s.errlog ++ [.loft n c.cmd]
       fails (.bcast n) 2 ∧ fails (.act n) 3 ∧ fails (.mac n) 4 ∧ fails (.rdacc n) 5 ∧ fails (.attn n) 6) ∧
     (l.allBank = true →
       run (.act n) 3 1 (fun t => same t ∧ t.loft n = { l with row := some (fld 44 16) }) ∧
       (let w := sweepOf n c.cmd
        let ts := s.sweepAll w l
        let units := (unitsOf (sweepWords ts).length (sweepWords ts)).zipIdx
        run (.attn n) 6 1 (fun t =>
         t.mem = (units.foldl (fun s u => s.loftWrite n w.rr (u.2 % 16) (u.2 / 16) u.1) s).mem ∧
         t.loft n = { l.mapLanes (fun k x => match ts[k]? with | some y => x.keep y.1 | none => x) with row := some w.rr })) ∧
       (l.row = none →
         let fails := fun (i : Instr) (op : Nat) => run i op (2 ^ 32) fun t => same t ∧ t.loft n = l ∧ t.errlog = s.errlog ++ [.loft n c.cmd]
         fails (.bcast n) 2 ∧ fails (.mac n) 4 ∧ fails (.rdacc n) 5) ∧
       ∀ row, l.row = some row →
         run (.bcast n) 2 1 (fun t => same t ∧ t.loft n = l.mapLanes fun k x =>
           { x with regs := x.regs.set (fld 56 4) (s.loftColumn n row (if fld 51 1 = 1 then k else fld 52 4) (fld 46 5)) }) ∧
         run (.mac n) 4 1 (fun t => same t ∧ t.loft n = l.mapLanes fun k x =>
           let old : Machine.Num := if fld 47 1 = 1 then .fin false 0 1 else Lay.f32.read (x.accs.getD (fld 48 3) 0).toNat
           { x with accs := x.accs.set (fld 48 3) (sumF32 (old :: halfProducts (s.loftColumn n row k (fld 55 5)) (x.regs.getD (fld 51 4) []))) }) ∧
         run (.rdacc n) 5 1 (fun t => t.loft n = l ∧
           t.mem = (l.lanes.zipIdx.foldl (fun s x => s.loftWrite n row x.2 (fld 55 5) x.1.accs) s).mem)))

/-! Accesses under way: producers, stores, walks and replays (spec/02, spec/10, spec/12, spec/21). -/

/-- PRODUCER_COMPLETE delivers each result, also those had early, to its register, full or with the faulted mark, with its flags and its
predicate, and the fibres that wait try again; what a load, an atomic and a result bound at issue give. A load sees its group's last
queued store to a byte, else a line of its first-level cache, else memory (spec/02, R33 to R35, R39; spec/07, R162, R165, R173; spec/09,
R202, R209, R210; spec/10, R220). That every waiting unit is tried again is the model's choice (notes/assumptions/115). -/
def Obligations.ProducersComplete : Prop :=
  ∀ (s : State) (p : Producer) (g : Group),
    (s.producers.find? (fun q => q.id = p.id) = some p → s.group? p.group = some g → s.replayed p.id = false →
      let u := s.walkLanes g p none
      u.inOrder p = true → ∀ (x : Producer) (vs : List LaneVal) (eff : State → State) (h : Group), u.producers.find? (fun q => q.id = p.id) = some x →
        u.produce g x = .ok (vs, eff) → (eff u).group? g.id = some h → h.ended = false →
        let all := x.early ++ vs
        (all.map (·.dest.lane)).Nodup →
        ∃ t k, exec (.producerComplete p.id) s = .next t ∧ t.group? g.id = some k ∧ t.mem = (eff u).mem ∧
          t.producers = (eff u).producers.filter (fun q => q.id != p.id) ∧
          (∀ v ∈ all, ∀ va e, v.mark = some ⟨.pageFault, va⟩ → (eff u).walk ((eff u).ctxOf g) va.toNat = .malformed e →
            .malformed ((eff u).ctxOf g) e ∈ t.errlog) ∧
          ((eff u).wakes h = true → ∀ f ∈ k.fibres, ∀ w, f.wait = some w → w.retries = true → f.again = true) ∧
          (∀ v ∈ all, ∀ l m n, v.dest = .vec l m n → ∀ f, h.fibre? l = some f → ∃ f', k.fibre? l = some f' ∧ f'.pc = f.pc ∧ f'.wait = f.wait ∧
            f'.vregs = (match v.mark with
              | some tr => overCells f.vregs m n (.marked tr)
              | none => (f.deliverV m v.words v.tag v.poison).vregs) ∧
            f'.flags = (if x.flagLanes.contains l then f.flags ||| v.flags else f.flags) ∧
            f'.pred = (match v.pred with | some (q, b) => if (l, q) ∈ x.preds then (f.setPred q b).pred else f.pred | none => f.pred) ∧
            ∀ q, (l, q) ∈ x.preds → f'.predBusy.getLsbD q.val = false) ∧
          (∀ v l m n, all = [v] → v.dest = .sca l m n → v.mark = none → k.sregs = (h.deliverS m v.words v.tag v.poison).sregs)) ∧
    (∀ vs, p.work = .ready vs → s.produce g p = .ok (vs, id)) ∧
    (∀ (size : Nat) (sg cap : Bool) (ls : List LoadLane) (v : LoadLane → LaneVal), p.work = .load size sg cap ls →
      s.walking (dieOf g.core) (s.ctxOf g) ls = false → (∀ l ∈ ls, s.loadVal g p size sg cap l = .ok (v l)) →
      s.produce g p = .ok (ls.map v, fun t => t.fillLanes g ls)) ∧
    (∀ (size : Nat) (sg cap : Bool) (l : LoadLane),
      let x := s.translate g.core (s.ctxOf g) l.va .rd
      let marked := fun (cause : Cause) => s.loadVal g p size sg cap l = .ok ⟨l.dest, [], false, false, some ⟨cause, BitVec.ofNat 64 l.va⟩, 0, none⟩
      let declined := s.declinedFor (s.ctxOf g) l.va (fun r => r.prods.contains p.id)
      (l.key = none → (declined = true ∨ x = .pageFault) → marked .pageFault) ∧
      (l.key = none → declined = false → x = .xlatePerm → marked .xlatePerm) ∧
      (∀ k, (l.key = some k ∨ (l.key = none ∧ declined = false ∧ x = .ok k)) → s.mayRead g p.id k size = true →
        let va := if l.key.isSome then none else some l.va
        (s.seenPoison g.core g.id p.id (s.ctxOf g) va k = true → marked .poison) ∧
        (s.seenPoison g.core g.id p.id (s.ctxOf g) va k = false →
          let bs := (List.range size).map fun i => s.seenByte g.core g.id p.id (s.ctxOf g) va (k + i)
          s.loadVal g p size sg cap l = .ok ⟨l.dest, loadWords size sg bs,
            cap && l.ldcap && !isOutside k && s.seenTag g.core g.id p.id (s.ctxOf g) va k, false, none, 0, none⟩))) ∧
    (∀ (core gid before ctx : Nat) (va : Option Nat) (k : Nat),
      let sees := fun (v : Byte) => s.seenByte core gid before ctx va k = v
      let own := fun (q : PStore) => q.group = gid ∧ q.id < before
      (∀ e ∈ s.passed, e.core ≠ core ∨ e.key ≠ k) →
      ((∀ q ∈ s.stores, k ∈ q.work.keys → ¬own q ∧ ¬(q.left = true ∧ q.core = core)) →
        ((∀ v, va = some v → ∀ l ∈ s.l1, l.is core ctx v k = false) → sees (s.byteAt k)) ∧
        ∀ v l, va = some v → s.l1At core ctx v k = some l → sees (l.bytes.getD (k % 128) 0)) ∧
      ∀ ps q rest w gr h, s.stores = ps ++ [q] ++ rest → q.left = false → own q → q.work = .bytes [w] gr h → w.key = k →
        (∀ x ∈ rest, own x → k ∉ x.work.keys) → sees w.val) ∧
    (∀ (core gid before ctx : Nat) (va : Option Nat) (k : Nat),
      (∀ q ∈ s.stores, (∃ j ∈ q.work.keys, j / 16 = k / 16) ∨ (∃ ws gr h, q.work = .bytes ws gr h ∧ k / 16 ∈ h) →
        ¬(q.group = gid ∧ q.id < before) ∧ ¬(q.left = true ∧ q.core = core)) →
      (∀ v, va = some v → ∀ l ∈ s.l1, l.is core ctx v k = false) →
      s.seenTag core gid before ctx va k = s.tagAt k ∧ s.seenPoison core gid before ctx va k = s.poisonAt k) ∧
    (∀ (op : AtomOp) (size : Nat) (d : Dest) (x : AtomLane), p.work = .atomic op size [(d, x)] → s.mayAct g p.id size [x.key] = true →
      (size = 4 ∨ size = 8) → x.key % size = 0 →
      s.poisonAt x.key = false → s.reaches (dieOf g.core) x.key = true → Memory.wf s.mem = true → x.data < 2 ^ (8 * size) → x.new < 2 ^ (8 * size) →
      ∃ eff, s.produce g p = .ok ([⟨d, outWords (size == 8) (s.numAt x.key size), false, false, none, 0, none⟩], eff) ∧
        (eff s).numAt x.key size = op.fn (8 * size) (s.numAt x.key size) x.data x.new ∧
        ∀ k, (k < x.key ∨ x.key + size ≤ k) → (eff s).byteAt k = s.byteAt k)

/-- STORE_PERFORMED moves a store out of its queue, then to its home: its bytes, its tags, its healed granules; every other byte
keeps its value. PAGE_WALK keeps the translation at each level for the core that asked, within the sizes of R227, or hands the page to the
replays. OUTACK_ACKNOWLEDGE, REPLAY_MAPPED and REPLAY_DECLINED let those that wait try again (spec/07, R154, R163; spec/10, R225, R227,
R229; spec/12, R259, R264, R267; spec/21, R379, R380). When a queued store leaves, and which older translation a cache may still give, are
the model's choices (notes/assumptions/10, notes/assumptions/14). -/
def Obligations.MemoryEvents : Prop :=
  ∀ s : State,
    (∀ p : PStore, s.stores.find? (fun x => x.id = p.id) = some p → Memory.wf s.mem = true →
      (p.left = false → s.mayLeave p = true → p.ownBanks = false →
        ∃ t, exec (.storePerformed p.id) s = .next t ∧ t.mem = s.mem ∧
          t.stores = s.stores.filter (·.left) ++ [{ p with left := true }] ++ s.stores.filter (fun q => !q.left && q.id != p.id)) ∧
      (((p.left = false ∧ s.mayLeave p = true ∧ p.ownBanks = true ∧ s.boardClear p = true) ∨ s.mayPerform p = true) →
        ∃ t, exec (.storePerformed p.id) s = .next t ∧ t.stores = s.stores.filter (fun q => q.id != p.id) ∧
          (∀ k, k ∉ p.work.keys ∨ s.reaches (dieOf p.core) k = false → t.byteAt k = s.byteAt k) ∧
          ((∀ k ∈ p.work.keys, s.reaches (dieOf p.core) k = true) → (∀ j ∈ p.work.keys, ∀ k ∈ p.work.keys, s.inAllBank j = true → j / 128 = k / 128) →
           (∀ ws tagged healed, p.work = .bytes ws tagged healed → (∀ gr ∈ tagged ++ healed, s.reaches (dieOf p.core) (gr * 16) = true) →
            ((ws.map (·.key)).Nodup → ∀ w ∈ ws, t.byteAt w.key = w.val) ∧ (∀ gr ∈ tagged, t.tagAt (16 * gr) = true) ∧
            (∀ w ∈ ws, w.key / 16 ∉ tagged → t.tagAt w.key = false) ∧ ∀ gr ∈ healed, t.poisonAt (16 * gr) = false) ∧
           ∀ op n l, p.work = .red op n [l] → l.data < 2 ^ (8 * n) → l.new < 2 ^ (8 * n) →
            t.numAt l.key n = op.fn (8 * n) (s.numAt l.key n) l.data l.new))) ∧
    (∀ g : Group, s.group? g.id = some g → s.outbound g.id < g.outack →
      ∃ t k, exec (.outackAcknowledge g.id) s = .next t ∧ t.mem = s.mem ∧ t.group? g.id = some k ∧
        k = { g with outack := g.outack - 1, fibres := k.fibres } ∧
        k.fibres = if s.wakes g then g.fibres.map fun f => if f.wait = some .release then { f with again := true } else f else g.fibres) ∧
    (∀ w : Walk, s.walks.find? (fun x => x.id = w.id) = some w → s.walkStarted w = true →
      let va := w.page * 65536
      let t := { s with walks := s.walks.filter fun x => x.id != w.id }
      (∀ l : Leaf, s.walk w.ctx va = .leaf l → s.xlatsOf w.site w.ctx va = [] → w.site < 4096 →
        let held := fun (x : Xlat) => (x.level, x.unit) ∈ [(0, w.site), (1, clusterOf w.site), (2, dieOf w.site)]
        let news := fun (x : Xlat) => held x ∧ x.ctx = w.ctx ∧ x.page = w.page ∧ x.leaf = l
        let count := fun (l : List Xlat) (level unit : Nat) => (l.filter fun x => x.level = level ∧ x.unit = unit).length
        ∃ xs, exec (.pageWalk w.id) s = .next { t with xlats := xs } ∧ (∀ x, news x → x ∈ xs) ∧ (∀ x ∈ xs, news x ∨ x ∈ s.xlats) ∧
          (∀ x ∈ s.xlats, ¬held x → x ∈ xs) ∧
          count xs 0 w.site ≤ 64 ∧ count xs 1 (clusterOf w.site) ≤ 2048 ∧ count xs 2 (dieOf w.site) ≤ 32768) ∧
      ((s.walk w.ctx va = .fault ∨ ∃ e, s.walk w.ctx va = .malformed e) → s.xlatsOf w.site w.ctx va = [] →
        exec (.pageWalk w.id) s = .next t) ∧
      (s.walk w.ctx va = .replayable → (∀ r ∈ s.replays, r.declined = true ∨ r.die ≠ w.die ∨ r.ctx ≠ w.ctx ∨ r.page ≠ w.page) →
        (s.replays.filter fun r => r.die = w.die ∧ r.declined = false).length < 1024 →
        exec (.pageWalk w.id) s = .next { t with
          replays := s.replays ++ [⟨s.nextId, w.die, w.ctx, w.page, false, s.walkers w.die w.ctx w.page, []⟩]
          nextId := s.nextId + 1 })) ∧
    (∀ r : Replay, s.replays.find? (fun x => x.id = r.id) = some r → r.declined = false →
      let wakes := fun (t : State) => ∀ g ∈ s.groups, ∃ g' ∈ t.groups, g'.id = g.id ∧
        g'.fibres = g.fibres.map fun f =>
          if (f.wait = some .replay ∨ f.wait = some (.fetch true)) ∧ ((g.id, f.lane) ∈ r.fibres ∨ ∀ x ∈ t.replays, (g.id, f.lane) ∉ x.fibres) then
            { f with again := true } else f
      (s.walk r.ctx (r.page * 65536) ≠ .replayable →
        ∃ t, exec (.replayMapped r.id) s = .next t ∧ t.mem = s.mem ∧ t.replays = s.replays.filter (fun x => x.id != r.id) ∧
          t.xlats = s.xlats.filter (fun x => x.ctx != r.ctx) ∧
          (t.kvops = s.kvops.map fun k => if k.id ∈ r.prods then { k with clk := s.clk } else k) ∧ wakes t) ∧
      ∃ t, exec (.replayDeclined r.id) s = .next t ∧ t.mem = s.mem ∧ wakes t ∧
        t.replays = s.replays.flatMap fun x =>
          if x.id ≠ r.id then [x] else if x.prods = [] ∧ x.fibres = [] then [] else [{ x with declined := true }])

/-! Placement, slots and the end of work (spec/08, spec/21). -/

/-- SHEAF_PLACE starts every block of the next sheaf at its place in the state of R46, on a core that holds no line of its context from
before, TASK_TAKE starts a task group; BLOCK_END ends a block that is over, or one that faulted, whose fault is told to the owner, and the
blocks of a sheaf leave their cores with the last of them (spec/02, R46; spec/08, R184, R186, R189 to R193; spec/21, R376, R377; spec/24,
R420). The 32 fibres of a launched group and a task group without tiles are the model's choices (notes/assumptions/43, 45). -/
def Obligations.PlacementAndEnd : Prop :=
  ∀ s : State,
    (∀ (die : Nat) (p : Pending) (places : List (Nat × Nat)) (gr : Grid) (k : Kernel), s.nextSheaf die = some (p, places) → p.saved = false →
      s.grid? p.grid = some gr → s.kernel? gr.ctx gr.kernel = some k → gr.queue = none →
      let first := p.first * max 1 k.sheaf
      ∃ t, exec (.sheafPlace die) s = .next t ∧ t.mem = s.mem ∧
        t.sheaves = s.sheaves ++ [⟨s.nextId, gr.id, die, first, places.length, List.replicate 8 (.fresh places.length), []⟩] ∧
        t.blocks.length = s.blocks.length + places.length ∧ (∀ b ∈ s.blocks, b ∈ t.blocks) ∧ (∀ g ∈ s.groups, g ∈ t.groups) ∧
        ∀ (i core base : Nat), places[i]? = some (core, base) →
          (∀ l ∈ t.l1, l.core = core → l.ctx = gr.ctx → l.constant = true) ∧ ∃ b ∈ t.blocks,
          b = { b with
            ctx := gr.ctx, sheaf := s.nextId, rank := i, core := core, x := (first + i) % gr.x, y := (first + i) / gr.x % gr.y
            z := (first + i) / gr.x / gr.y, kernel := gr.kernel, scratchBase := base, scratchLen := k.scratch, priority := gr.priority
            bars := List.replicate 16 (.fresh k.stages.length), phase := 0, issues := 0, sidefx := false, mode := .running, leave := .stays
            reserved := [], ended := false } ∧
          ∀ (j st : Nat), k.stages[j]? = some st → ∃ g ∈ t.groups, g.block = b.id ∧ g.index = j ∧ g.stage = st ∧ g.core = core ∧
            g.task = none ∧ g.regsN = k.regs ∧ g.fibres = (List.finRange 32).map fun l => Fibre.start l k.entry k.regs st) ∧
    (∀ (core : Nat) (src : TaskSource) (r : TaskRec) (b : Block) (k : Kernel), s.taskReady core = some (src, r, b, k) →
      ∃ t g, exec (.taskTake core) s = .next t ∧ t.groups = s.groups ++ [g] ∧ t.mem = s.mem ∧ t.blocks = s.blocks ∧
        g.id = s.nextId ∧ g.block = b.id ∧ g.core = core ∧ g.stage = 1 ∧ g.tilesN = 0 ∧ g.task = some ⟨r.ctr⟩ ∧ g.regsN = k.regs ∧
        g.fibres = ((List.finRange 32).take r.lanes).map (fun l => Fibre.start l r.entry k.regs 1) ∧
        (src = .own → (t.core core).deque = (s.core core).deque.drop 1)) ∧
    (∀ (b : Block) (sh : Sheaf) (gr : Grid), s.block? b.id = some b → b.ended = false → s.sheaf? b.sheaf = some sh →
      s.grid? sh.grid = some gr → gr.ctx = b.ctx →
      let last := ∀ x ∈ s.blocks, x.sheaf = b.sheaf → x.id ≠ b.id → x.ended = true
      let saved := ∃ x ∈ s.savedOf b.ctx b.sheaf, x.block.ended = false
      let stays := fun (t : State) => t.blocks = s.blocks.map fun x => if x.id = b.id then { x with
        ended := true, reserved := [], mode := .running, baleWanted := false, leave := if x.leave == .stays then .stays else .saves } else x
      let goes := fun (t : State) => t.blocks = s.blocks.filter fun x => !(s.blocks.any fun y => y.sheaf == b.sheaf && y.id == x.id)
      (b.isFaulting = false → (∀ g ∈ s.groups, g.block ≠ b.id) → s.hasTasks b.id = false → b.dumps = false →
        ∃ t, exec (.blockEnd b.id) s = .next t ∧ (last ∧ ¬saved → goes t) ∧ (¬(last ∧ ¬saved) → stays t)) ∧
      ∀ (f : FaultInfo) (x : Ctx), b.mode = .faulting f → s.faultSettled b = true → s.ctx? b.ctx = some x →
        ∃ t, exec (.blockEnd b.id) s = .next t ∧ (last ∧ (f.flags ≠ 4 ∨ ¬saved) → goes t) ∧ (¬(last ∧ (f.flags ≠ 4 ∨ ¬saved)) → stays t) ∧
          (∀ g ∈ t.groups, g.block ≠ b.id) ∧ (∀ r ∈ s.replies, r ∈ t.replies) ∧ (s.owner.isSome = true → .fault b.ctx x.flogSeq ∈ t.replies))

/-- A slot stays with the group that it issued last while that group has a ready batch, and goes to the oldest other ready one if it
has none, or has yielded; it picks the ready batch of lowest PC of the group and puts it to work, or counts an idle cycle. A group that
has been pending for more than 8,192 clk becomes active, and a batch that has waited behind 4,096 issues of another issues next
(spec/08, R174, R175, R187, R188; spec/09, R206; spec/22, R399, R400). A batch that is found to wait when it is tried has not issued: what
the attempt changes of turn and count is kept to be put back (notes/assumptions/115). -/
def Obligations.IssueSlots : Prop :=
  ∀ (s : State) (core slot : Nat),
    let turn := s.cur = none ∧ (core, slot) ∈ s.rr
    let begun := fun (t u : State) (g : Group) (k : Nat) =>
      (let pc := BitVec.ofNat 32 (k / 2)
       t.cur = some ⟨g.id, u.batchLanes g k, pc, pc, 0, 0, none, none, some ⟨g.lastLanes, g.lastRun, g.yielded, (u.slotOf g.core g.slot).yielded⟩⟩) ∧ t.rr = s.rr.filter (· != (core, slot)) ∧ t.mem = s.mem ∧
      t.blocks = s.blocks
    let u := (s.endTurn core slot).slotSets core slot
    let x := u.slotOf core slot
    let ready := fun (h : Group) => h ∈ u.activeSet core slot ∧ u.hasReady h = true
    (∀ g : Group, u.pickGroup core slot = some g → ready g ∧
      (x.yielded = false → (∃ h, ready h ∧ x.lastGroup = some h.id) → x.lastGroup = some g.id) ∧
      (x.yielded = true → x.lastGroup = some g.id → ∀ h, ready h → x.lastGroup = some h.id) ∧
      (x.lastGroup ≠ some g.id → ∀ h, ready h → x.lastGroup ≠ some h.id → g.since < h.since ∨ (g.since = h.since ∧ g.id ≤ h.id))) ∧
    ((∃ g, ready g) → ∃ g, u.pickGroup core slot = some g) ∧
    (turn →
      (∀ (g : Group) (k : Nat), u.pickGroup core slot = some g → u.pickKey g = some k →
        (∃ t, exec (.slotCycle core slot) s = .next t ∧ begun t u g k) ∧ g ∈ u.activeSet core slot ∧ (∃ f ∈ u.readyFibres g, f.key = k) ∧
        (g.yielded = [] → ∀ f ∈ u.readyFibres g, k ≤ f.key)) ∧
      (u.pickGroup core slot = none → exec (.slotCycle core slot) s = .next (u.countLeaf core slot (u.idleLeaf core slot))) ∧
      (∀ (g : Group) (k : Nat), s.unfair core slot = some (g, k) →
        ∃ t, exec (.batchFairness core slot) s = .next t ∧ begun t (s.endTurn core slot) g k)) ∧
    (∀ g : Group, s.overdue core slot = some g → s.group? g.id = some g →
      g.since + 8192 < s.clk ∧
      ∃ t, exec (.pendingPromotion core slot) s = .next t ∧ t.mem = s.mem ∧ t.group? g.id = some { g with active := true, since := s.clk } ∧
        ((s.activeSet core slot).length < 8 → ∀ id, id ≠ g.id → t.group? id = s.group? id))

/-- Pre-emption: a quantum that has run out, the method of each block, the end of a drain's budget, a flush, a save with its image
or the fault of a full SAVEAREA, a resume, and the pass of a cluster to another context with its cores cleared. BALE_WRITE stops a
block that runs, or counts the bale of its context and marks it written; SAMPLE_TICK steps the LFSR of its core and sets the next tick
(spec/21, R381 to R392; spec/22, R394, R401 to R404; spec/23, R405). The clk of the first sample, the sizes and free bytes of an image, what
a save waits for, the context that comes next, and where task groups and their quadrants come back are the model's choices
(notes/assumptions/65, 66, 67, 68, 118). -/
def Obligations.PreemptionAndDebugEvents : Prop :=
  (∀ s : State,
     (∀ (cl : Nat) (h : Hold), s.hold? cl = some h →
       let c := s.controlOf h.ctx
       (h.preempt = false → h.since + (if c.quantum = 0 then 2800000 else c.quantum) ≤ s.clk →
         (∃ x ∈ s.ctxs, x.num ≠ h.ctx ∧ s.couldTake cl x.num = true) →
         exec (.quantumExpiry cl) s =
           .next { s with held := s.held.map fun x => if x.cluster = cl then { x with preempt := true } else x }) ∧
       (h.preempt = true → h.assigned = false →
         ∃ t, exec (.preemptRequest cl) s = .next t ∧ t.mem = s.mem ∧ t.groups = s.groups ∧
           t.held = s.held.map (fun x => if x.cluster = cl then { x with assigned := true } else x) ∧
           ∀ b ∈ s.blocks, b.leave = .stays →
             (∃ x ∈ s.blocks, x.sheaf = b.sheaf ∧ (clusterOf x.core = cl ∨ ∃ g ∈ s.groups, g.block = x.id ∧ clusterOf g.core = cl)) →
             ∀ k : Kernel, s.kernel? b.ctx b.kernel = some k →
               let pre := (s.controlOf b.ctx).predrain
               let near := k.expect ≠ 0 ∧ (if pre = 0 then 96 else pre) * k.expect ≤ b.issues * 128
               let again := k.idempotent = true ∧ b.sidefx = false ∧ ((s.sheaf? b.sheaf).map (·.count)).getD 1 = 1
               ∃ b' ∈ t.blocks, b' = { b with leave := b'.leave } ∧ (b.mode = .stopped ∨ b.ended = true → b'.leave = .saves) ∧
                 (b.mode ≠ .stopped → b.ended = false → (near → b'.leave = .drains s.clk) ∧ (¬near → again → b'.leave = .flushes) ∧
                   (¬near → ¬again → b'.leave = .saves)))) ∧
     (∀ b : Block, s.block? b.id = some b →
       let others := s.blocks.filter fun x => x.id != b.id
       let c := s.controlOf b.ctx
       (∀ t0 : Nat, b.leave = .drains t0 → b.isFaulting = false → t0 + (if c.drainbudget = 0 then 100000 else c.drainbudget) ≤ s.clk →
         exec (.drainBudgetExpiry b.id) s = .next { s with blocks := s.blocks.map fun x => if x.id = b.id then { x with leave := .saves } else x }) ∧
       (b.leave = .flushes → b.mode = .stopped →
         exec (.flush b.id) s = .next { s with blocks := s.blocks.map fun x => if x.id = b.id then { x with leave := .saves } else x }) ∧
       (∀ (sh : Sheaf) (k : Kernel), b.leave = .flushes → b.mode ≠ .stopped → b.isFaulting = false → s.hasCopies b.id = false → s.sheaf? b.sheaf = some sh →
         s.kernel? b.ctx b.kernel = some k →
         ∃ t, exec (.flush b.id) s = .next t ∧ t.mem = s.mem ∧ t.blocks = others ∧ (∀ g ∈ t.groups, g.block ≠ b.id) ∧
           t.pending = s.pending ++ [⟨sh.grid, sh.first / max 1 k.sheaf, 1, none, sh.id, true, min 255 (b.restarts + 1), [b.resumes], false, sh.id⟩]) ∧
       (∀ x : Ctx, b.leave = .saves → s.mayBeSaved b = true → s.ctx? b.ctx = some x →
         let off := x.saved.foldl (fun m y => max m (y.off + y.size)) 0
         let mine := s.producers.filter fun p => (s.groupsOf b.id).any fun g => g.id == p.group
         let u := ((mine.map (·.id)).reverse.foldl State.abandonWalks s).dropGrants b
         let size := imageSize (u.imageRows (u.imageOf b off 0))
         let lo := scratchKey b.core b.scratchBase
         (off + size ≤ c.savelen → ∀ (sh : Sheaf) (gr : Grid), s.sheaf? b.sheaf = some sh → s.grid? sh.grid = some gr → gr.ctx = b.ctx →
           b.ended = false →
           ∃ t y, exec (.save b.id) s = .next t ∧ t.blocks = others ∧ (∀ g ∈ t.groups, g.block ≠ b.id) ∧
             ((t.ctx? b.ctx).map (·.saved)) = some (x.saved ++ [y]) ∧ y.block = b ∧ y.off = off ∧ y.size = size ∧
             y.groups = (u.groupsOf b.id).map (fun g => { g with fibres := g.fibres.map Fibre.saved }) ∧ (mine = [] → u.groups = s.groups) ∧
             y.bytes = (s.mem.filter fun m => decide (lo ≤ m.1) && decide (m.1 < lo + b.scratchLen)).map (fun m => (m.1 - lo, m.2))) ∧
         (c.savelen < off + size → b.ended = true → ∃ t, exec (.save b.id) s = .next t ∧ t.mem = s.mem ∧ t.block? b.id = none) ∧
         (c.savelen < off + size → b.ended = false →
           ∃ t, exec (.save b.id) s = .next t ∧ t.mem = s.mem ∧
             ((t.block? b.id).map (·.mode)) = some (.faulting ⟨3, none, 0xFF, 0, 0, BitVec.ofNat 32 (b.core % 4096), 0, s.clk, 4⟩)))) ∧
     (∀ (block d : Nat) (p : Pending) (places : List (Nat × Nat)) (gr : Grid), s.resumeDie block = some (d, p, places) →
       s.grid? p.grid = some gr →
       ∃ t, exec (.blockResume block) s = .next t ∧
         ∀ (x : Saved) (core base : Nat), (x, core, base) ∈ (s.savedOf gr.ctx p.sheaf).zip places →
           { x.block with core := core, scratchBase := base, resumes := min 65535 (x.block.resumes + 1), leave := .stays } ∈ t.blocks ∧
           ∀ g ∈ x.groups, ∃ g' ∈ t.groups, g'.core = core / 8 * 8 + (core + (g.core + 8 - x.block.core % 8)) % 8 ∧
             g' = { g with core := g'.core, slot := g'.slot, active := g'.active, since := s.clk, lastIssue := s.clk, mloop := g'.mloop }) ∧
     (∀ cl : Nat, s.switchable cl = true →
       let left := s.held.filter fun h => h.cluster != cl
       ∃ t, exec (.contextSwitch cl) s = .next t ∧ t.groups = s.groups ∧ t.blocks = s.blocks ∧
         (∀ core ∈ coresOf cl, t.core core = { Core.fresh core with nextTick := s.clk } ∧
           ∀ off < 2 ^ 19, memGet t.mem (scratchKey core off) = 0 ∧ t.tagAt (scratchKey core off) = false) ∧
         (s.incoming cl = [] → t.held = left) ∧
         (s.incoming cl ≠ [] → ∃ ctx ∈ s.incoming cl, t.held = left ++ [⟨cl, ctx, s.clk, false, false⟩]))) ∧
  (∀ s : State,
     (∀ (b : Block) (c : Ctx), s.block? b.id = some b → s.ctx? b.ctx = some c → b.baleWanted = true → b.baleDone = false →
       (b.isFaulting = true ∨ b.mode = .stopped) → s.baleSettled b = true → (b.isFaulting = true → s.baleTurn b = true) → s.slotHeld b.ctx = false →
       ∃ t y, exec (.baleWrite b.id) s = .next t ∧ t.groups = s.groups ∧ t.block? b.id = some y ∧
         y = { b with baleDone := true, baleWanted := b.isFaulting, baleFlags := y.baleFlags } ∧
         t.ctx? b.ctx = some { c with baleSeq := c.baleSeq + 1 }) ∧
     (∀ b : Block, s.block? b.id = some b → b.baleWanted = true → b.baleDone = false → (b.mode = .running ∨ ∃ k n, b.mode = .stepping k n) →
       ∃ t, exec (.baleWrite b.id) s = .next t ∧ t.groups = s.groups ∧ t.block? b.id = some { b with mode := .stopped }) ∧
     (∀ (core ctx : Nat) (d : DebugRec), s.sampleDue core = true → s.debugOf core = some (ctx, d) →
       let k := s.core core
       let l := (k.lfsr >>> 1) ^^^ (if k.lfsr.getLsbD 0 then 0x80200003 else 0)
       ∃ t, exec (.sampleTick core) s = .next t ∧
         t.core core = { k with lfsr := l, nextTick := s.clk + (d.samplebase + l.toNat % 2 ^ d.jitter), tickNo := k.tickNo + 1 }))

/-! The command interface (spec/24). -/

/-- A command record at the head of the inbox is refused with the status that R422 names, or is accepted with its entry in the
journal, acts and replies. The election window closes on the lowest priority value, then the lowest master, whose ownership counts from
its last accepted command; ownership lapses 100 ms after the owner's last command; a module reset leaves the state after reset, with the
staged firmware (spec/22, R394, R395, R402; spec/24, R421 to R426). The firmware's number and bytes, the root queue's order and what enters
it, the layouts of CTXSET, READ and the debug commands, the entries of claims, what a reset keeps, the report's SEQ and where the state
array stands are the model's choices (notes/assumptions/8, 21, 22, 40, 41, 69, 70, 71, 72, 121, 123). -/
def Obligations.HostCommandsOwnershipAndReset : Prop :=
  (∀ (s : State) (m : Fin 4) (r : CmdRecord) (rest : List Input), s.inbox = .command m r :: rest →
     let op := (r.extractLsb' 0 8).toNat
     let n := recCtx r
     let nonce := r.extractLsb' 64 64
     let refused := fun (st : Status) (p : Instr × Nat) =>
       op = p.2 → exec p.1 s = .next { s with inbox := rest, replies := s.replies ++ [.command m nonce st []] }
     let tells := fun (i : Instr) (code : Nat) (st : Status) (data : List Byte) (post : State → Prop) =>
       op = code → ∃ t, exec i s = .next t ∧ t.inbox = rest ∧ t.replies = s.replies ++ [.command m nonce st data] ∧ t.jseq = s.jseq + 1 ∧ post t
     let named : List (Instr × Nat) := [(.launch, 0x10), (.ctxset, 0x11), (.inval, 0x12), (.revoke, 0x13), (.preempt, 0x14), (.stop, 0x20),
       (.step, 0x21), (.resume, 0x22), (.dump, 0x23)]
     let owners : List (Instr × Nat) := [(.heartbeat, 0x02), (.handover, 0x03), (.release, 0x04)] ++ named
     (s.fwOk = false → ∀ p ∈ owners, refused .illegal p) ∧
     (s.fwOk = true → s.owner ≠ some m → ∀ p ∈ owners ++ [(.fwload, 0x40)], refused .notOwner p) ∧
     (s.fwOk = true → s.owner = some m →
       (65535 < n → ∀ p ∈ named, refused .badArg p) ∧ (s.ctx? n = none → ∀ p ∈ named, p.1 ≠ .ctxset → refused .badArg p) ∧
       tells .heartbeat 0x02 .ok [] (fun t => t.owner = some m ∧ t.lastCmd = s.clk) ∧
       (∀ k : Fin 4, recField r 2 1 = k.val → tells .handover 0x03 .ok [] (fun t => t.owner = some k ∧ t.lastCmd = s.clk)) ∧
       (4 ≤ recField r 2 1 → refused .badArg (.handover, 0x03)) ∧ tells .release 0x04 .ok [] (fun t => t.owner = none)) ∧
     (s.fwOk = true → s.owner = some m → n ≤ 65535 → ∀ x : Ctx, s.ctx? n = some x →
       (recField r 40 1 ≤ 3 →
         (s.queue? n 0 = none → tells .launch 0x10 .ok [] (fun t => t.ctx? n = some { x with rootq := x.rootq ++ [launchRec (withMaster r m) s.clk] })) ∧
         ∀ q : QueueRef, s.queue? n 0 = some q →
           let u := s.popInput.accept m r
           let full := u.qCap q ≤ diff32 (u.qTail q) (u.qHead q)
           (full → refused .busy (.launch, 0x10)) ∧
           (¬full → tells .launch 0x10 .ok [] (fun t => t.queue? n 0 = some { q with pushed := q.pushed ++ [s.clk] }))) ∧
       (3 < recField r 40 1 → refused .badArg (.launch, 0x10)) ∧
       tells .inval 0x12 .ok [] (fun t => t.xlats = s.xlats.filter fun y => y.ctx != n) ∧
       (s.holdsCluster n = true → refused .busy (.ctxset, 0x11) ∧ (recField r 2 1 ≤ 6 → refused .busy (.revoke, 0x13)) ∧
         tells .preempt 0x14 .pending [] (fun t => t.held = s.held.map fun h => if h.ctx = n then { h with preempt := true } else h)) ∧
       (s.holdsCluster n = false →
         tells .preempt 0x14 .ok [] (fun t => t.held = s.held) ∧
         (let sets := fun (sel : Nat) (y : Ctx) => recField r 2 1 = sel → tells .ctxset 0x11 .ok [] (fun t => t.ctx? n = some y)
          sets 0 { x with control := controlOfRec r } ∧
          sets 1 { x with dbg := (s.popInput.accept m r).debugAt (recField r 16 8) } ∧
          sets 2 { x with root := recField r 16 8 } ∧
          sets 3 { x with gens := (List.range 7).map fun i => recField r (16 + 2 * i) 2 % 4096 } ∧
          (recField r 32 4 ≤ 4096 →
            sets 4 { x with histDesc := recField r 16 8, histStates := recField r 24 8, histCount := recField r 32 4 }) ∧
          (4096 < recField r 32 4 → recField r 2 1 = 4 → refused .badArg (.ctxset, 0x11))) ∧
         (Memory.wf s.mem = true → recField r 2 1 ≤ 6 →
           let sp := recField r 2 1
           let gen := (s.curGen n sp + 1) % 4096
           tells .revoke 0x13 .ok [] (fun t => ((t.ctx? n).map (·.gens)) = some (x.gens.set sp gen) ∧
             ∀ k, t.tagAt k = true → s.tagAt k = true ∧ ((∃ y ∈ x.memory, y.1 ≤ 16 * (k / 16) ∧ 16 * (k / 16) < y.1 + y.2) →
               let q : QWord := BitVec.ofNat 128 (s.numAt (16 * (k / 16)) 16)
               capSpace q ≠ sp ∨ capGen q ≠ gen)))) ∧
       (s.namedBlock r = none → ∀ p ∈ ([(.stop, 0x20), (.step, 0x21), (.resume, 0x22), (.dump, 0x23)] : List (Instr × Nat)), refused .badArg p) ∧
       ∀ b : Block, s.namedBlock r = some b → s.block? b.id = some b →
         let mode := fun (t : State) => (t.block? b.id).map (·.mode)
         (b.mode = .running → tells .stop 0x20 .ok [] (fun t => mode t = some .stopped)) ∧
         (b.mode = .stopped →
           tells .resume 0x22 .ok [] (fun t => t.block? b.id = some { b with mode := .running, copyLog := [] } ∧
             ∀ g ∈ s.groups, g.block = b.id → ∃ g' ∈ t.groups, g'.id = g.id ∧
               g'.fibres = g.fibres.map fun f => match f.wait with
                 | some (.brk a) => { f with wait := none, pc := a }
                 | some w => if s.waitOver g f w then { f with wait := none } else f
                 | none => f) ∧
           tells .dump 0x23 .pending [] (fun t => t.block? b.id = some { b with baleWanted := true, baleDone := false }) ∧
           ∀ k : Fin 16, recField r 24 1 = k.val → (barAt b.bars k.val).member ≠ 0 →
             tells .step 0x21 .ok [] (fun t => mode t = some (.stepping k (barAt b.bars k.val).gen))) ∧
         (b.mode ≠ .stopped → refused .badArg (.step, 0x21) ∧ refused .badArg (.dump, 0x23))) ∧
     (s.fwOk = true → s.owner = some m → n ≤ 65535 → s.ctx? n = none → s.holdsCluster n = false → recField r 2 1 = 2 →
       tells .ctxset 0x11 .ok [] (fun t => ∃ res, t.ctx? n = some { Ctx.fresh n res with root := recField r 16 8 })) ∧
     (s.owner = none → tells .claim 0x01 .pending [] (fun t =>
       t.window = some (match s.window with
         | some (t0, cs) => (t0, (cs.map fun c => if c.master = m then { c with last := s.clk } else c) ++ [⟨m, recField r 2 1, nonce, s.clk⟩])
         | none => (s.clk, [⟨m, recField r 2 1, nonce, s.clk⟩])))) ∧
     (s.owner.isSome = true → refused .busy (.claim, 0x01)) ∧
     (let u := s.popInput.accept m r
      (∀ bs, u.readOut r = some bs → tells .read 0x30 .ok (bs ++ List.replicate (32 - bs.length) 0) (fun t => t.groups = s.groups)) ∧
      (s.fwOk = true → s.keysUsed < 2 ^ 20 →
        tells .attest 0x31 .ok (u.report r ++ Config.attestSign s.keysUsed (u.report r)) (fun t => t.keysUsed = s.keysUsed + 1)) ∧
      (s.fwOk = true → 2 ^ 20 ≤ s.keysUsed → refused .exhausted (.attest, 0x31))) ∧
     (s.owner = some m →
       (Config.firmwareOk (recField r 16 8) = true → tells .fwload 0x40 .ok [] (fun t => t.staged = some (recField r 16 8))) ∧
       (Config.firmwareOk (recField r 16 8) = false → refused .badArg (.fwload, 0x40)))) ∧
  (∀ s : State,
     (∀ (t0 : Nat) (cs : List Claim) (w : Claim), s.window = some (t0, cs) → t0 + 14000000 ≤ s.clk → w ∈ cs →
       (∀ c ∈ cs, w.priority < c.priority ∨ (w.priority = c.priority ∧ w.master ≤ c.master)) →
       ∃ t, exec .electionWindowClose s = .next t ∧ t.owner = some w.master ∧ t.window = none ∧
         (∃ c ∈ cs, c.master = w.master ∧ c.priority = w.priority ∧ t.lastCmd = c.last) ∧
         t.replies = s.replies ++ cs.map fun c => .election c.master c.nonce w.master) ∧
     (s.owner.isSome = true → s.lastCmd + 140000000 ≤ s.clk → exec .ownershipLapse s = .next { s with owner := none }) ∧
     (∀ rest : List Input, s.inbox = .reset :: rest →
       let fw := s.staged.getD s.firmware
       exec .moduleReset s = .next { State.reset with
         firmware := fw, fwOk := Config.firmwareOk fw, keysUsed := s.keysUsed, tick := s.tick, nextId := s.nextId, inbox := rest }))

/-- Host and peer accesses take effect at their home, over links that are up, and are answered, or get an error response; link errors,
heat and storage errors are counted, and an uncorrectable storage error marks its place poisoned (spec/10, R228; spec/24, R417 to R420,
R427, R428). At which die an access is translated, what an error strikes, and which links an access needs are the model's choices
(notes/assumptions/74, 75, 86, 119). -/
def Obligations.HostAccessesAndErrors : Prop :=
  ∀ (s : State) (x : Input) (rest : List Input), s.inbox = x :: rest →
    let t0 := { s with inbox := rest }
    (∀ a : HostAccess,
      let adr := match a.addr with | .virt _ va => va | .phys _ pa => pa
      let die := if a.far then 8 else 0
      let oneLine := fun (ks : List Nat) => ∀ j ∈ ks, ∀ k ∈ ks, s.inAllBank j = true → j / 128 = k / 128
      let fails := fun (i : Instr) (n : Nat) (need : Need) => s.hostHeld a n need = false → s.hostKeys a n need = none →
        let t := match a.addr with | .virt ctx va => t0.noteRange ctx va n | .phys _ _ => t0
        exec i s = .next { t with replies := s.replies ++ [.hostError], errlog := t.errlog ++ [.host adr] }
      (x = .hostRead a →
        fails .hostRead a.len .rd ∧
        ∀ ks : List Nat, s.hostKeys a a.len .rd = some ks → (∀ k ∈ ks, s.heldByLoft k = false) →
          ((∀ k ∈ ks, s.poisonAt k = false) → exec .hostRead s = .next { t0 with replies := s.replies ++ [.hostRead (ks.map s.byteAt) false] }) ∧
          ((∃ k ∈ ks, s.poisonAt k = true) → exec .hostRead s = .next { t0 with
            replies := s.replies ++ [.hostRead (ks.map s.byteAt) true], errlog := s.errlog ++ [.poisonRead adr] })) ∧
      (x = .hostWrite a →
        fails .hostWrite a.data.length .wr ∧
        ∀ ks : List Nat, s.hostKeys a a.data.length .wr = some ks → (∀ k ∈ ks, s.heldByLoft k = false) → Memory.wf s.mem = true → ks.Nodup → oneLine ks →
          ∃ t, exec .hostWrite s = .next t ∧ t.inbox = rest ∧ t.replies = s.replies ++ [.hostDone] ∧ t.groups = s.groups ∧
            (∀ k, k ∉ ks → t.byteAt k = s.byteAt k) ∧ (∀ p ∈ ks.zip a.data, t.byteAt p.1 = p.2) ∧ ∀ k ∈ ks, t.tagAt k = false) ∧
      (∀ m pa, a.addr = .phys m pa → ∀ n need,
        let ks := (List.range n).map (pa + ·)
        s.hostKeys a n need = if s.owner = some m ∧ pa + n ≤ 2 ^ 52 ∧ ∀ k ∈ ks, s.reaches die k = true then some ks else none) ∧
      (∀ ctx va, a.addr = .virt ctx va → ∀ n need, s.hostKeys a n need =
        if ∃ x, s.ctx? ctx = some x ∧ x.resident = true then
          (s.keysOf (4096 + die) ctx va n need).bind fun ks => if ∀ k ∈ ks, s.reaches die k = true then some ks else none
        else none)) ∧
    (∀ a : PeerAccess, x = .peer a →
      let site := 4096 + Config.portDie a.port.val % 16
      let fails := { t0 with replies := s.replies ++ [.peer a.port [] false true], errlog := s.errlog ++ [.peer a.port a.addr] }
      (s.windowFor a = none → exec .subryInbound s = .next fails) ∧
      ∀ w : Window, s.windowFor a = some w →
        (s.virtHeld site w.ctx a.addr a.op.size a.op.need = false →
          (s.keysOf site w.ctx a.addr a.op.size a.op.need = none ∨
            ∃ ks, s.keysOf site w.ctx a.addr a.op.size a.op.need = some ks ∧ ∃ k ∈ ks, s.reaches (site - 4096) k = false) →
          exec .subryInbound s = .next (fails.noteRange w.ctx a.addr a.op.size)) ∧
        ∀ ks : List Nat, s.keysOf site w.ctx a.addr a.op.size a.op.need = some ks → (∀ k ∈ ks, s.heldByLoft k = false) →
          (∀ k ∈ ks, s.reaches (site - 4096) k = true) →
          let answers := fun (data : List Byte) (poisoned : Prop) (post : State → Prop) =>
            ∃ t p, exec .subryInbound s = .next t ∧ t.inbox = rest ∧ t.replies = s.replies ++ [.peer a.port data p false] ∧
              (p = true ↔ poisoned) ∧ post t
          let bad := ∃ k ∈ ks, s.poisonAt k = true
          (∀ n, a.op = .read n → answers (ks.map s.byteAt) bad (fun t => t.mem = s.mem)) ∧
          (∀ bs, a.op = .write bs → answers [] False (fun t => t.mem = (s.setKeys ks bs).mem)) ∧
          (∀ op n d e, a.op = .atom op n d e → answers (leBytes n (leNat (ks.map s.byteAt))) bad (fun t =>
            t.mem = (s.setKeys ks (leBytes n (op.fn (8 * n) (leNat (ks.map s.byteAt)) d.toNat e.toNat))).mem)) ∧
          (∀ d c, a.op = .counterAdd d → ks = (List.range 8).map (c + ·) → Memory.wf s.mem = true → c % 8 = 0 →
            (∀ x ∈ s.ctxs, ∀ q ∈ x.queues, q.desc + 36 ≤ c ∨ c + 8 ≤ q.desc + 28) → answers [] False (fun t => t.counterVal c = min (s.counterVal c + d.toNat) (2 ^ 64 - 1) ∧ t.adds = s.adds))) ∧
    (∀ l : Nat,
      (x = .flitReplay l → exec .flitReplay s = .next { t0 with errlog := s.errlog ++ [.flitReplay l] }) ∧
      (x = .linkDown l → exec .linkDown s = .next
        { t0 with down := if l ∈ s.down then s.down else s.down ++ [l], errlog := s.errlog ++ [.linkDown l] })) ∧
    (∀ y : Sensors, x = .thermal y →
      ((45 < y.inlet ∨ ∃ d ∈ y.dies, 110 < d) → exec .thermal s = .next { t0 with
        held := s.held.map fun h => { h with preempt := true }
        replies := if s.owner.isSome then s.replies ++ [.thermal] else s.replies }) ∧
      ((y.inlet ≤ 45 ∧ ∀ d ∈ y.dies, d ≤ 110) → exec .thermal s = .next t0) ∧
      ((∃ d ∈ y.dies, 120 ≤ d) → exec .thermalPowerDown s = .next { t0 with powered := false })) ∧
    (∀ e : StorageError, x = .storage e →
      (∀ u, e = .corrected u → exec .eccError s = .next { t0 with errlog := s.errlog ++ [.corrected u] }) ∧
      ((∀ u, e ≠ .corrected u) → ∃ t, exec .eccError s = .next t ∧ t.inbox = rest ∧ t.errlog = s.errlog ++ [.uncorrected e] ∧ t.mem = s.mem ∧
        (∀ pa, e = .memory pa → t.poisonAt pa = true ∧ ∀ k, k / 16 ≠ pa / 16 → t.poisonAt k = s.poisonAt k) ∧
        (∀ core off, e = .scratch core off → t.poisonAt (scratchKey core off) = true) ∧
        (∀ id l n, e = .register id l n → ∀ g f, s.group? id = some g → g.fibre? l = some f → n < f.vregs.length →
          ((t.group? id).bind (·.fibre? l)) = some { f with vregs := f.vregs.set n { cellAt f.vregs n with poison := true } }) ∧
        (∀ id (n : Fin 32), e = .scalar id n → ∀ g, s.group? id = some g →
          t.group? id = some { g with sregs := g.sregs.set n.val { cellAt g.sregs n.val with poison := true } }) ∧
        (∀ id (n : Fin 16) y, e = .tile id n → ∀ g, s.group? id = some g → g.tiles[n.val]? = some y →
          t.group? id = some { g with tiles := g.tiles.set n.val { y with poison := true } }) ∧
        (∀ core ctx va, e = .l1 core ctx va → t.l1 = s.l1.map fun l => if l.core = core ∧ l.ctx = ctx ∧ l.va = va / 128 * 128 then
          { l with poison := l.poison.set (va % 128 / 16) true } else l) ∧
        (∀ core q, e = .quadrant core q → (s.core core).quads.length = 4 →
          (t.core core).quad q = { (s.core core).quad q with poison := true })))
end

