-- ==== Sys2Proof/Laws/Choice.lean ====
section
/-! SUPPORT. What a free choice can give: an event, and a place for blocks. The value that chooses is opaque, so these laws hold
for every one. -/
namespace Sys2Proof.Machine

/-- The event that is chosen is one of those that can happen. -/
theorem nextEvent_mem {s : State} {i : Instr} (h : s.nextEvent = some i) : i ∈ s.events := List.mem_of_getElem? h

/-- While events stand and nothing goes on without one, one of them is chosen. -/
theorem nextEvent_isSome {s : State} (h : s.events ≠ []) (hc : s.drifts 0 = []) : s.nextEvent.isSome = true := by
  have : Config.choose s.tick % s.events.length < s.events.length := Nat.mod_lt _ (List.length_pos_of_ne_nil h)
  simp [State.nextEvent, hc, List.getElem?_eq_getElem this]

/-- With nothing to choose from, no event is. -/
theorem nextEvent_none {s : State} (h : s.events = []) : s.nextEvent = none := by simp [State.nextEvent, h]

/-- An assignment of cores has one place for each block. -/
theorem assignCores_length {pick : Nat → Nat} : ∀ {rs : List Room} {us : List CoreUse} {l : List (Nat × Nat)},
    assignCores pick rs us = some l → l.length = rs.length
  | [], _, _, h => by cases h; rfl
  | r :: rs, us, l, h => by
    simp only [assignCores] at h
    split at h
    · cases h
    split at h
    · cases h
    obtain ⟨x, hx, rfl⟩ := Option.map_eq_some_iff.1 h
    simp [assignCores_length hx]

/-- Blocks have a place once some clusters of the context can take them, whichever is chosen. -/
theorem findPlace_isSome {s : State} {ctx die : Nat} {needs : List Room}
    (h : (sublistsTo 4 (s.clustersOn ctx die)).filter
      (fun cls => (assignCores (fun _ => 0) needs ((cls.flatMap coresOf).map s.coreUse)).isSome) ≠ []) :
    ∃ l, s.findPlace ctx die needs = some l ∧ l.length = needs.length := by
  simp only [State.findPlace]
  have hlt := Nat.mod_lt (Config.freeNat (s.tick * 2 ^ 64 + 2 ^ 63)) (List.length_pos_of_ne_nil h)
  rw [List.getElem?_eq_getElem hlt]
  have hm := (List.mem_filter.1 (List.getElem_mem hlt)).2
  simp only
  split
  · next l hl => exact ⟨l, rfl, assignCores_length hl⟩
  · obtain ⟨l, hl⟩ := Option.isSome_iff_exists.1 hm
    exact ⟨l, hl, assignCores_length hl⟩

end Sys2Proof.Machine
end

