-- ==== Sys2Proof/Laws/Groups.lean ====
section
/-! SUPPORT. Finding groups, fibres and slots after an update. -/
namespace Sys2Proof.Machine

theorem State.group?_updGroup (s : State) (id j : Nat) (f : Group → Group) (hf : ∀ g, (f g).id = g.id) :
    (s.updGroup id f).group? j = (s.group? j).map fun g => if g.id = id then f g else g := by
  simp only [State.updGroup, State.group?, List.find?_map]
  congr 2
  funext g
  by_cases h : g.id = id <;> simp [h, hf]

theorem State.group?_id {s : State} {j : Nat} {g : Group} (h : s.group? j = some g) : g.id = j := by
  simpa [State.group?] using List.find?_some h

theorem State.group?_updGroup_self {s : State} {g : Group} (f : Group → Group) (hf : ∀ g, (f g).id = g.id)
    (h : s.group? g.id = some g) : (s.updGroup g.id f).group? g.id = some (f g) := by
  simp [State.group?_updGroup _ _ _ _ hf, h]

theorem State.group?_updGroup_ne {s : State} {id j : Nat} (f : Group → Group) (hf : ∀ g, (f g).id = g.id)
    (h : j ≠ id) : (s.updGroup id f).group? j = s.group? j := by
  rw [State.group?_updGroup _ _ _ _ hf]
  cases hg : s.group? j with
  | none => rfl
  | some g => simp [State.group?_id hg, h]

theorem Group.fibre?_map {g k : Group} (l : Fin 32) (h : Fibre → Fibre) (hl : ∀ f, (h f).lane = f.lane)
    (e : k.fibres = g.fibres.map h) : k.fibre? l = (g.fibre? l).map h := by
  simp only [Group.fibre?, e, List.find?_map]
  congr 2
  funext f
  simp [hl]

theorem Group.fibre?_updFibre (g : Group) (l k : Fin 32) (h : Fibre → Fibre) (hl : ∀ f, (h f).lane = f.lane) :
    (g.updFibre k h).fibre? l = (g.fibre? l).map fun f => if f.lane = k then h f else f :=
  Group.fibre?_map l _ (fun f => by split <;> simp_all) rfl

theorem Group.fibre?_lane {g : Group} {l : Fin 32} {f : Fibre} (h : g.fibre? l = some f) : f.lane = l := by
  simpa [Group.fibre?] using List.find?_some h

theorem Group.fibre?_updFibre_self {g : Group} {l : Fin 32} {f : Fibre} (h : Fibre → Fibre) (hl : ∀ f, (h f).lane = f.lane)
    (hf : g.fibre? l = some f) : (g.updFibre l h).fibre? l = some (h f) := by
  simp [Group.fibre?_updFibre _ _ _ _ hl, hf, Group.fibre?_lane hf]

theorem Group.fibre?_updFibre_ne {g : Group} {l k : Fin 32} (h : Fibre → Fibre) (hl : ∀ f, (h f).lane = f.lane)
    (hk : l ≠ k) : (g.updFibre k h).fibre? l = g.fibre? l := by
  rw [Group.fibre?_updFibre _ _ _ _ hl]
  cases hg : g.fibre? l with
  | none => rfl
  | some f => simp [Group.fibre?_lane hg, hk]

/-- With distinct lanes a fibre of the group is the one found by its lane. -/
theorem Group.fibre?_of_mem {g : Group} (hn : (g.fibres.map (·.lane)).Nodup) {f : Fibre} (hf : f ∈ g.fibres) :
    g.fibre? f.lane = some f := by
  unfold Group.fibre?
  generalize g.fibres = l at hn hf
  induction l with
  | nil => cases hf
  | cons a r ih =>
    simp only [List.map_cons, List.nodup_cons, List.mem_map, not_exists, not_and] at hn
    rcases List.mem_cons.1 hf with rfl | h
    · simp
    · have : a.lane ≠ f.lane := fun e => hn.1 f h e.symm
      simp [this, ih hn.2 h]

theorem State.slotOf_setSlot_ne (s : State) (x : Slot) (core slot : Nat) (h : ¬(core = x.core ∧ slot = x.slot)) :
    (s.setSlot x).slotOf core slot = s.slotOf core slot := by
  have hx : ¬(x.core = core ∧ x.slot = slot) := fun e => h ⟨e.1.symm, e.2.symm⟩
  have : (s.slots.filter fun y => !(y.core == x.core && y.slot == x.slot)).find? (fun y => decide (y.core = core ∧ y.slot = slot)) =
      s.slots.find? fun y => decide (y.core = core ∧ y.slot = slot) := by
    rw [List.find?_filter]
    congr 1
    funext y
    by_cases hy : y.core = core ∧ y.slot = slot
    · have this : ¬(y.core = x.core ∧ y.slot = x.slot) := fun e => hx ⟨e.1 ▸ hy.1, e.2 ▸ hy.2⟩
      simpa [hy] using not_and_or.1 this
    · simp [hy]
  simp only [State.setSlot, State.slotOf, List.find?_cons, hx, decide_false, this]

theorem State.setSlot_groups (s : State) (x : Slot) : (s.setSlot x).groups = s.groups := rfl
theorem State.slotOf_updGroup (s : State) (id : Nat) (f : Group → Group) (a b : Nat) :
    (s.updGroup id f).slotOf a b = s.slotOf a b := rfl
theorem State.slotOf_updBlock (s : State) (id : Nat) (f : Block → Block) (a b : Nat) :
    (s.updBlock id f).slotOf a b = s.slotOf a b := rfl

theorem State.slotOf_core (s : State) (a b : Nat) : (s.slotOf a b).core = a ∧ (s.slotOf a b).slot = b := by
  unfold State.slotOf
  cases h : s.slots.find? fun x => decide (x.core = a ∧ x.slot = b) with
  | none => simp
  | some x => simpa using List.find?_some h

end Sys2Proof.Machine
end

