-- ==== Sys2Proof/Laws/Reconv.lean ====
section
/-! SUPPORT. What the release of reconvergence barriers can do to a group, and what the end of a unit does. -/
namespace Sys2Proof.Machine

/-- `h` is `g` after releases: fibres that waited at a RECONV may have gone on, and nothing else has changed. -/
def Group.ReleasedTo (g h : Group) : Prop :=
  h = { g with fibres := h.fibres, nextAset := h.nextAset } ∧
  ∀ l f, g.fibre? l = some f →
    (f.atReconv = none → h.fibre? l = some f) ∧
    ∃ f', h.fibre? l = some f' ∧ f' = { f with pc := f'.pc, wait := f'.wait, aset := f'.aset }

theorem Group.ReleasedTo.refl (g : Group) : g.ReleasedTo g := ⟨rfl, fun _ f h => ⟨fun _ => h, f, h, rfl⟩⟩

theorem Group.ReleasedTo.trans {g h k : Group} (a : g.ReleasedTo h) (b : h.ReleasedTo k) : g.ReleasedTo k := by
  refine ⟨?_, fun l f hf => ?_⟩
  · rw [b.1, a.1]
  · obtain ⟨a1, f', hf', e⟩ := a.2 l f hf
    obtain ⟨b1, f'', hf'', e'⟩ := b.2 l f' hf'
    refine ⟨fun hn => ?_, f'', hf'', by rw [e', e]⟩
    have := a1 hn
    rw [hf'] at this
    cases this
    exact b1 hn

theorem Group.releaseReconv_spec (g : Group) (f : Fibre) : g.ReleasedTo (g.releaseReconv f) := by
  unfold Group.releaseReconv
  split
  · exact .refl g
  · refine ⟨rfl, fun l x hx => ?_⟩
    rw [Group.fibre?_map l _ (fun y => by split <;> [split; skip] <;> rfl) rfl]
    simp only [Group.fibre?] at hx ⊢
    rw [hx]
    simp only [Option.map_some]
    refine ⟨fun hn => by simp [hn], _, rfl, ?_⟩
    split
    · split <;> rfl
    · rfl

theorem Group.settleReconv_spec (g : Group) : g.ReleasedTo g.settleReconv := by
  unfold Group.settleReconv
  split
  · generalize g.fibres = l
    have key : ∀ (l : List Fibre) (h : Group), g.ReleasedTo h →
        g.ReleasedTo (l.foldl (fun h f => match h.fibre? f.lane with | some x => h.releaseReconv x | none => h) h) := by
      intro l
      induction l with
      | nil => exact fun h hh => hh
      | cons a r ih =>
        intro h hh
        refine ih _ ?_
        dsimp only
        split
        · exact hh.trans (Group.releaseReconv_spec _ _)
        · exact hh
    exact key l g (.refl g)
  · exact .refl g

theorem Group.settleReconv_id (g : Group) : g.settleReconv.id = g.id := by rw [g.settleReconv_spec.1]

/-- The end of a unit keeps everything but the unit at work, a slot's counters and waits at a RECONV. -/
theorem State.endUnit_rest (s : State) (g : Group) (leaf : Nat) :
    s.endUnit g leaf = { s with cur := none, groups := (s.endUnit g leaf).groups, slots := (s.endUnit g leaf).slots } := rfl

theorem State.endUnit_group {s : State} {g g1 : Group} (leaf : Nat) (h : s.group? g.id = some g1) :
    (s.endUnit g leaf).group? g.id = some g1.settleReconv := by
  have : (s.endUnit g leaf).group? g.id = ((s.countLeaf g.core g.slot leaf).updGroup g.id Group.settleReconv).group? g.id := rfl
  rw [this, State.group?_updGroup _ _ _ _ Group.settleReconv_id]
  have : (s.countLeaf g.core g.slot leaf).group? g.id = s.group? g.id := rfl
  rw [this, h]
  simp [State.group?_id h]

theorem State.endUnit_others {s : State} {g : Group} (leaf : Nat) {id : Nat} (h : id ≠ g.id) :
    (s.endUnit g leaf).group? id = s.group? id := by
  have : (s.endUnit g leaf).group? id = ((s.countLeaf g.core g.slot leaf).updGroup g.id Group.settleReconv).group? id := rfl
  rw [this, State.group?_updGroup_ne _ Group.settleReconv_id h]
  rfl

theorem State.endUnit_slots (s : State) (g : Group) (leaf core slot : Nat) (h : ¬(core = g.core ∧ slot = g.slot)) :
    (s.endUnit g leaf).slotOf core slot = s.slotOf core slot := by
  have hc := State.slotOf_core s g.core g.slot
  have : (s.endUnit g leaf).slotOf core slot = (s.countLeaf g.core g.slot leaf).slotOf core slot := rfl
  rw [this]
  exact State.slotOf_setSlot_ne s _ core slot (by simpa [hc] using h)

end Sys2Proof.Machine
end

