-- ==== Sys2Proof/Laws/Issue.lean ====
section
/-! SUPPORT. The issue law: what a unit leaves behind when every lane that acts completes. -/
namespace Sys2Proof.Machine

/-! Sorting. -/

theorem Form.markTrap_none {fm : Form} {g : Group} {f : Fibre} (h : ∀ o ∈ fm.ops, o.Readable g f) : fm.markTrap g f = none := by
  simp only [Form.markTrap, List.findSome?_eq_none_iff]
  intro o ho
  split
  · rfl
  · simp only [Option.map_eq_none_iff, Operand.marked, List.findSome?_eq_none_iff]
    exact fun r hr => (h o ho r hr).2.1

theorem Operand.empty_false {o : Operand} {g : Group} {f : Fibre} (h : o.Readable g f) : o.empty g f = false := by
  simp only [Operand.empty, List.any_eq_false]
  intro r hr
  simp [(h r hr).1]

theorem Form.emptyTrap_none {fm : Form} {f : Fibre} {e : Operand → Bool} (h : ∀ o ∈ fm.ops, e o = false) :
    fm.emptyTrap f e = none := by
  simp only [Form.emptyTrap, List.findSome?_eq_none_iff]
  intro o ho
  simp [h o ho]

theorem Operand.poisoned_false {o : Operand} {g : Group} {f : Fibre} (h : o.Readable g f) (hs : o.src = true) :
    o.poisoned g f = false := by
  simp only [Operand.poisoned, List.any_eq_false]
  exact fun r hr => by simp [(h r hr).2.2 hs]

theorem Form.poisonTrap_none {fm : Form} {f : Fibre} {p : Operand → Bool} (h : ∀ o ∈ fm.ops, o.src = true → p o = false) :
    fm.poisonTrap f p = none := by
  simp only [Form.poisonTrap, List.findSome?_eq_none_iff]
  intro o ho
  cases hs : o.src <;> simp [h o ho, hs]

/-- Readable operands and predicates wait for nothing. -/
theorem Form.waitOn_none {fm : Form} {s : State} {g : Group} {f : Fibre} (h : fm.Readable g f) : fm.waitOn s g f = none := by
  have h1 : fm.ops.flatMap (s.waitsOf g f) = [] := by
    rw [List.flatMap_eq_nil_iff]
    intro o ho
    have : (o.reg.span o.n).filter (g.lacks f) = [] := List.filter_eq_nil_iff.2 fun r hr => by
      simp [Group.lacks, (h.1 o ho _ (List.mem_map.2 ⟨r, hr, rfl⟩)).1]
    simp [State.waitsOf, this]
  have h2 : (fm.preds.filter fun p => p.val != 0 && f.predBusy.getLsbD p.val) = [] := by
    rw [List.filter_eq_nil_iff]
    intro p hp
    by_cases hz : p.val = 0
    · simp [hz]
    · simpa using fun _ => h.2 p hp hz
  simp only [Form.waitOn, Form.predWaits, h1, h2, List.map_nil]

/-- The fibres that a fibre reads are of its batch. -/
theorem Cross.reads_mem {x : Cross} {g : Group} {fs : List Fibre} {f y : Fibre} (hf : f ∈ fs) (hy : y ∈ x.reads g fs f) : y ∈ fs := by
  cases x with
  | own => simpa [List.mem_singleton.1 hy] using hf
  | every => exact hy
  | upTo => exact List.mem_of_mem_filter hy
  | named b =>
    rw [List.mem_singleton.1 hy]
    cases h : fs.find? fun z => z.lane.val = (g.cell f b).val.toNat with
    | none => simpa using hf
    | some z => exact List.mem_of_find?_eq_some h

/-- A test that fails wherever an operand is read. -/
theorem Form.inLanes_false {fm : Form} {f : Fibre} {fs ls : List Fibre} {p : Operand → Fibre → Bool} {o : Operand} (hf : f ∈ fs)
    (hs : ∀ x ∈ ls, x ∈ fs) (h : ∀ x ∈ fs, p o x = false) : fm.inLanes f ls p o = false := by
  unfold Form.inLanes
  split
  · rw [List.any_eq_false]
    exact fun x hx => by simp [h x (hs x hx)]
  · exact h f hf

theorem Form.ready_go {fm : Form} {s : State} {g : Group} {fs : List Fibre} {f : Fibre} (hf : f ∈ fs)
    (h : ∀ x ∈ fs, fm.Readable g x) : fm.ready s g fs f = .go := by
  have h1 : fm.emptyTrap f (fm.inLanes f fs fun o x => o.empty g x) = none :=
    Form.emptyTrap_none fun o ho => Form.inLanes_false hf (fun _ hx => hx) fun x hx => Operand.empty_false ((h x hx).1 o ho)
  have h2 : fm.poisonTrap f (fm.inLanes f (fm.cross.reads g fs f) fun o x => o.poisoned g x) = none :=
    Form.poisonTrap_none fun o ho hs =>
      Form.inLanes_false hf (fun _ hx => Cross.reads_mem hf hx) fun x hx => Operand.poisoned_false ((h x hx).1 o ho) hs
  simp only [Form.ready, Form.markTrap_none (h f hf).1, h1, Form.waitOn_none (h f hf), h2]

theorem Form.readyOnce_go {fm : Form} {s : State} {g : Group} {f : Fibre} {act : List Fibre} (hc : fm.cross = .own)
    (h : fm.Readable g f) (hd : ∀ x ∈ act, x.lane ≠ f.lane → fm.written.Readable g x) : fm.readyOnce s g f act = .go := by
  have hall : ∀ x ∈ (fm, f) :: ((act.filter fun x => x.lane != f.lane).map fun x => (({ fm with ops := fm.ops.filter (·.dst), cross := .own } : Form), x)),
      x.1.Readable g x.2 := by
    intro x hx
    rcases List.mem_cons.1 hx with rfl | hx
    · exact h
    · obtain ⟨y, hy, rfl⟩ := List.mem_map.1 hx
      exact hd y (List.mem_of_mem_filter hy) (by simpa using (List.mem_filter.1 hy).2)
  have h1 := fun x hx => Form.markTrap_none (hall x hx).1
  have h2 := fun x hx => Form.emptyTrap_none (f := x.2) (e := fun o => o.empty g x.2) (fun o ho => Operand.empty_false ((hall x hx).1 o ho))
  have h3 := fun x hx => Form.waitOn_none (s := s) (hall x hx)
  have h4 := fun x hx => Form.poisonTrap_none (f := x.2) (p := fun o => o.poisoned g x.2)
    (fun o ho hs => Operand.poisoned_false ((hall x hx).1 o ho) hs)
  simp only [Form.readyOnce, hc, reduceCtorEq, ↓reduceIte, List.append_nil]
  rw [List.findSome?_eq_none_iff.2 h1, List.findSome?_eq_none_iff.2 h2, List.filterMap_eq_nil_iff.2 h3, List.findSome?_eq_none_iff.2 h4]
  rfl

theorem Form.rangeTrap_none {fm : Form} {g : Group} {f : Fibre} (h : ∀ o ∈ fm.ops, o.inRange g f = true) : fm.rangeTrap g f = none := by
  simp only [Form.rangeTrap, List.findSome?_eq_none_iff]
  exact fun o ho => by simp [h o ho]

/-- The fibres of the batch whose guard is off. -/
def Cur.off (c : Cur) (g : Group) : List Fibre := (g.batch c.lanes).filter fun f => !c.holds f

theorem State.sort_acting {s : State} {c : Cur} {g : Group} {fs : List Fibre} {fm : Form} (h : Acting s c g fs fm)
    (ho : fm.once = false) : s.sort g c fm = ⟨[], none, c.off g, fs⟩ := by
  obtain ⟨⟨-, -, -, hfs, -, hb⟩, hr⟩ := h
  have h1 : (g.batch c.lanes).filterMap (fm.rangeTrap g) = [] := by
    rw [List.filterMap_eq_nil_iff]
    exact fun f hf => Form.rangeTrap_none (hb f hf).2
  have h2 : (g.batch c.lanes).filter (fun f => (fm.rangeTrap g f).isNone) = g.batch c.lanes := by
    rw [List.filter_eq_self]
    exact fun f hf => by simp [Form.rangeTrap_none (hb f hf).2]
  have h3 : (g.batch c.lanes).any c.guardBusy = false := by
    rw [List.any_eq_false]
    exact fun f hf => by simp [(hb f hf).1]
  have h4 : ∀ f ∈ fs, fm.ready s g fs f = .go := fun f hf => Form.ready_go hf hr
  have h6 : fs.filter (fun f => decide (fm.ready s g fs f = .go)) = fs := by
    rw [List.filter_eq_self]
    exact fun f hf => by simp [h4 f hf]
  simp only [State.sort, h1, h2, h3, ho, ← hfs, h6, Bool.false_eq_true, ↓reduceIte]
  have h7 : fs.filterMap (fun f => (fm.ready s g fs f).trap?) = [] := by
    rw [List.filterMap_eq_nil_iff]
    exact fun f hf => by rw [h4 f hf]; rfl
  have h8 : fs.filterMap (fun f => (fm.ready s g fs f).wait?) = [] := by
    rw [List.filterMap_eq_nil_iff]
    exact fun f hf => by rw [h4 f hf]; rfl
  rw [h7, h8]
  rfl

theorem State.sort_once {s : State} {c : Cur} {g : Group} {f : Fibre} {fs : List Fibre} {fm : Form}
    (h : ActingOnce s c g f fs fm) (ho : fm.once = true) (hc : fm.cross = .own) :
    s.sort g c fm = ⟨[], none, c.off g, f :: fs⟩ := by
  obtain ⟨⟨-, -, -, hfs, -, hb⟩, hr, hd⟩ := h
  have h1 : (g.batch c.lanes).filterMap (fm.rangeTrap g) = [] := by
    rw [List.filterMap_eq_nil_iff]
    exact fun f hf => Form.rangeTrap_none (hb f hf).2
  have h2 : (g.batch c.lanes).filter (fun f => (fm.rangeTrap g f).isNone) = g.batch c.lanes := by
    rw [List.filter_eq_self]
    exact fun f hf => by simp [Form.rangeTrap_none (hb f hf).2]
  have h3 : (g.batch c.lanes).any c.guardBusy = false := by
    rw [List.any_eq_false]
    exact fun f hf => by simp [(hb f hf).1]
  have hw : ∀ x ∈ f :: fs, fm.written.Readable g x := by
    intro x hx
    rcases List.mem_cons.1 hx with rfl | hx
    · exact ⟨fun o ho => hr.1 o (List.mem_of_mem_filter ho), hr.2⟩
    · exact hd x hx
  have h0 : fm.onceMark g (f :: fs) = fm.dstMark g := funext fun x => by simp [Form.onceMark, hc]
  have h4 : ∀ x ∈ f :: fs, fm.dstMark g x = none := fun x hx => Form.markTrap_none (hw x hx).1
  have h5 : (f :: fs).filterMap (fm.dstMark g) = [] := List.filterMap_eq_nil_iff.2 h4
  have h6 : (f :: fs).filter (fun f => (fm.dstMark g f).isNone) = f :: fs :=
    List.filter_eq_self.2 fun x hx => by simp [h4 x hx]
  simp only [State.sort, h1, h2, h3, ho, ← hfs, h0, h5, h6, Form.readyOnce_go hc hr fun x hx _ => hw x hx, Bool.false_eq_true, ↓reduceIte]
  rfl

/-! Retiring. -/

/-- The state after the lanes `rs` have completed and before the effect of the instruction. -/
def State.retire (s : State) (g : Group) (c : Cur) (fm : Form) (rs : List (Fibre × LaneRes)) : State :=
  (s.noteIssue g c).updGroup g.id fun h =>
    ((c.off g).foldl (fun h f => h.updFibre f.lane fun f => f.goesOn c.next) h).completeAll c fm true rs

theorem State.retire_frame (s : State) (g : Group) (c : Cur) (fm : Form) (rs : List (Fibre × LaneRes)) :
    let u := s.retire g c fm rs
    u = { s with cur := u.cur, groups := u.groups, slots := u.slots, blocks := s.issuedBlocks g } := by cases s; rfl

theorem State.issue_done {s : State} {c : Cur} {g : Group} {fs : List Fibre} {fm : Form}
    {body : State → Group → Cur → List Fibre → Body} (rs : List (Fibre × LaneRes))
    (hc : s.cur = some c) (hg : s.group? c.group = some g) (hs : s.sort g c fm = ⟨[], none, c.off g, fs⟩) (hn : fs ≠ [])
    (ho : (body s g c fs).outs = rs.map fun x => (x.1, .done x.2)) :
    s.issue fm body = ((body s g c fs).effect (s.retire g c fm rs)).endUnit g (if (g.batch c.lanes).any c.holds then 0 else 1) := by
  have h1 : (rs.map fun x => (x.1, LaneOut.done x.2)).filterMap LaneOut.trap? = [] := by
    rw [List.filterMap_eq_nil_iff]; intro a ha
    obtain ⟨x, -, rfl⟩ := List.mem_map.1 ha; rfl
  have h2 : (rs.map fun x => (x.1, LaneOut.done x.2)).findSome? LaneOut.wait? = none := by
    rw [List.findSome?_eq_none_iff]; intro a ha
    obtain ⟨x, -, rfl⟩ := List.mem_map.1 ha; rfl
  have h3 : (rs.map fun x => (x.1, LaneOut.done x.2)).filterMap LaneOut.res? = rs := by
    rw [List.filterMap_map]
    exact (List.filterMap_congr fun x _ => rfl).trans List.filterMap_some
  have hempty : fs.isEmpty = false := by simpa using hn
  have h4 : ∀ (u : State) (ls : List (Fin 32)), u.enterTrap g.id ls c.unit [] = u := by
    intro u ls; unfold State.enterTrap; split <;> simp_all
  simp only [State.issue, hc, hg, hs, hempty, ho, h1, h2, h3, List.map_nil, List.append_nil, Bool.false_eq_true, ↓reduceIte, h4,
    List.foldl_nil]
  rfl

end Sys2Proof.Machine
end

