-- ==== Sys2Proof/Laws/Complete.lean ====
section
/-! SUPPORT. What completing lanes does to the fibres and the scalar registers of a group. -/
namespace Sys2Proof.Machine

/-- The destination part of a completed lane, for vector registers. -/
def LaneRes.onFibre (r : LaneRes) (phys n : Nat) (x : Fibre) : Fibre :=
  match r.mark with
  | some t => { x.emptyV phys n with vregs := overCells (x.emptyV phys n).vregs phys n (.marked t) }
  | none => if r.pend then x.emptyV phys n else if r.words.isEmpty then x else x.deliverV phys r.words r.tag false

/-- The same for scalar registers. -/
def LaneRes.onGroup (r : LaneRes) (k n : Nat) (g : Group) : Group :=
  match r.mark with
  | some t => { g.emptyS k n with sregs := overCells (g.emptyS k n).sregs k n (.marked t) }
  | none => if r.pend then g.emptyS k n else if r.words.isEmpty then g else g.deliverS k r.words r.tag false

/-- A fibre after its lane has completed. -/
def LaneRes.after (fm : Form) (c : Cur) (f : Fibre) (r : LaneRes) : Fibre :=
  r.finish c (match fm.destOf f with | .vec _ p n => r.onFibre p n f | _ => f)

/-- The group after the scalar destination of its lowest lane has been written. -/
def LaneRes.scalar (fm : Form) (f : Fibre) (r : LaneRes) (g : Group) : Group :=
  match fm.destOf f with
  | .sca _ k n => r.onGroup k n g
  | _ => g

@[simp] theorem Fibre.setV_lane (f : Fibre) (p : Nat) (c : RegCell) : (f.setV p c).lane = f.lane := rfl
@[simp] theorem Fibre.writeV_lane (ws : List Word) : ∀ (f : Fibre) (p : Nat), (f.writeV p ws).lane = f.lane := by
  induction ws with
  | nil => exact fun _ _ => rfl
  | cons w r ih => exact fun f p => (ih _ _).trans rfl
@[simp] theorem Fibre.deliverV_lane (f : Fibre) (p : Nat) (ws : List Word) (t q : Bool) : (f.deliverV p ws t q).lane = f.lane := by
  unfold Fibre.deliverV
  cases t <;> cases q <;> simp
@[simp] theorem Fibre.emptyV_lane (f : Fibre) (p n : Nat) : (f.emptyV p n).lane = f.lane := rfl
@[simp] theorem Fibre.setPred_lane (f : Fibre) (p : Fin 8) (b : Bool) : (f.setPred p b).lane = f.lane := rfl

@[simp] theorem LaneRes.onFibre_lane (r : LaneRes) (p n : Nat) (x : Fibre) : (r.onFibre p n x).lane = x.lane := by
  unfold LaneRes.onFibre
  split
  · rfl
  · split
    · rfl
    · split <;> simp

theorem Group.writeS_fibres (ws : List Word) : ∀ (g : Group) (n : Nat),
    g.writeS n ws = { g with sregs := (g.writeS n ws).sregs, stags := (g.writeS n ws).stags } := by
  induction ws with
  | nil => exact fun _ _ => rfl
  | cons w r ih =>
    intro g n
    have h : g.writeS n (w :: r) = (g.setS n (.of w)).writeS (n + 1) r := rfl
    rw [h, ih]
    rfl

theorem LaneRes.scalar_rest (fm : Form) (f : Fibre) (r : LaneRes) (g : Group) :
    r.scalar fm f g = { g with sregs := (r.scalar fm f g).sregs, stags := (r.scalar fm f g).stags } := by
  unfold LaneRes.scalar LaneRes.onGroup
  cases fm.destOf f with
  | vec => rfl
  | none => rfl
  | sca l k n =>
    dsimp only
    cases r.mark with
    | some t => rfl
    | none =>
      dsimp only
      split
      · rfl
      · split
        · rfl
        · unfold Group.deliverS
          rw [Group.writeS_fibres]
          cases r.tag <;> simp

theorem Group.updFibre_comp (g : Group) (l : Fin 32) (h k : Fibre → Fibre) (hl : ∀ f, (h f).lane = f.lane) :
    (g.updFibre l h).updFibre l k = g.updFibre l fun f => k (h f) := by
  unfold Group.updFibre
  simp only [List.map_map]
  congr 1
  apply List.map_congr_left
  intro f _
  by_cases e : f.lane = l <;> simp [e, hl]

theorem Group.land_none (g : Group) (l : Fin 32) (r : LaneRes) : g.land (.none l) r = g := by
  unfold Group.land
  split
  · rfl
  · split
    · rfl
    · split <;> rfl

theorem Group.land_sca (g : Group) (l : Fin 32) (k n : Nat) (r : LaneRes) : g.land (.sca l k n) r = r.onGroup k n g := by
  unfold Group.land LaneRes.onGroup
  cases r.mark with
  | some t => rfl
  | none =>
    dsimp only
    split
    · rfl
    · split <;> rfl

theorem Group.land_vec (g : Group) (l : Fin 32) (p n : Nat) (r : LaneRes) :
    g.land (.vec l p n) r = g.updFibre l (r.onFibre p n) := by
  unfold Group.land LaneRes.onFibre
  cases r.mark with
  | some t => exact Group.updFibre_comp g l _ _ fun _ => rfl
  | none =>
    dsimp only
    split
    · rfl
    · split
      · unfold Group.updFibre
        simp
      · rfl

theorem Form.destOf_not_sca {fm : Form} (h : fm.scalarDst = false) (f : Fibre) (l : Fin 32) (p n : Nat) :
    fm.destOf f ≠ .sca l p n := by
  intro e
  simp only [Form.destOf, Form.scalarDst, Operand.destOf] at e h
  cases hd : fm.dst with
  | none => simp [hd] at e
  | some o => cases hr : o.reg <;> simp_all [Reg.scalar]

theorem Group.complete_eq (g : Group) (c : Cur) (fm : Form) (write : Bool) (f : Fibre) (r : LaneRes)
    (hw : write = false → fm.scalarDst = true) :
    g.complete c fm write f r =
      (if write then r.scalar fm f g else g).updFibre f.lane fun x =>
        r.finish c (match fm.destOf f with | .vec _ p n => r.onFibre p n x | _ => x) := by
  have hv : ∀ l p n, fm.destOf f = .vec l p n → l = f.lane ∧ fm.scalarDst = false := by
    intro l p n h
    simp only [Form.destOf, Form.scalarDst, Operand.destOf] at h ⊢
    cases hd : fm.dst with
    | none => simp [hd] at h
    | some o => cases hr : o.reg <;> simp_all [Reg.scalar]
  unfold Group.complete LaneRes.scalar
  cases write with
  | false =>
    have := hw rfl
    cases hd : fm.destOf f with
    | vec l p n => simp [(hv l p n hd).2] at this
    | sca l k n => rfl
    | none l => rfl
  | true =>
    simp only [↓reduceIte]
    cases hd : fm.destOf f with
    | none l => rw [Group.land_none]
    | sca l k n => rw [Group.land_sca]
    | vec l p n =>
      obtain ⟨rfl, -⟩ := hv l p n hd
      rw [Group.land_vec]
      exact Group.updFibre_comp g f.lane _ _ fun _ => LaneRes.onFibre_lane ..

theorem LaneRes.finish_lane (c : Cur) (r : LaneRes) (hu : ∀ y, (r.upd y).lane = y.lane) (x : Fibre) :
    (r.finish c x).lane = x.lane := by
  unfold LaneRes.finish
  rw [hu]
  cases r.pred with
  | none => rfl
  | some q => rfl

theorem Group.updFibre_rest (g : Group) (l : Fin 32) (h : Fibre → Fibre) :
    g.updFibre l h = { g with fibres := (g.updFibre l h).fibres } := rfl

/-- One lane after another: each acting fibre as `after` says, others as before, the scalar destination from the first. -/
theorem Group.completeAll_spec (c : Cur) (fm : Form) : ∀ (rs : List (Fibre × LaneRes)) (g : Group) (first : Bool),
    (rs.map fun x => x.1.lane).Nodup → (∀ x ∈ rs, g.fibre? x.1.lane = some x.1) →
    (∀ x ∈ rs, ∀ y, (x.2.upd y).lane = y.lane) →
    g.completeAll c fm first rs =
      { (match rs, first || !fm.scalarDst with | (f, r) :: _, true => r.scalar fm f g | _, _ => g) with
        fibres := (g.completeAll c fm first rs).fibres } ∧
    (∀ x ∈ rs, (g.completeAll c fm first rs).fibre? x.1.lane = some (x.2.after fm c x.1)) ∧
    ∀ l, l ∉ rs.map (fun x => x.1.lane) → (g.completeAll c fm first rs).fibre? l = g.fibre? l := by
  intro rs
  induction rs with
  | nil => exact fun g first _ _ _ => ⟨rfl, fun x hx => absurd hx (by simp), fun _ _ => rfl⟩
  | cons a rest ih =>
    obtain ⟨f, r⟩ := a
    intro g first hn hf hu
    simp only [List.map_cons, List.nodup_cons] at hn
    have hur := hu (f, r) (by simp)
    have hff : g.fibre? f.lane = some f := hf (f, r) (by simp)
    obtain ⟨w, hw⟩ : ∃ w, w = (first || !fm.scalarDst) := ⟨_, rfl⟩
    rw [← hw]
    have he := Group.complete_eq g c fm w f r (by
      intro h; rw [hw] at h; cases hsd : fm.scalarDst <;> simp [hsd] at h ⊢)
    obtain ⟨S, hS⟩ : ∃ S, S = if w then r.scalar fm f g else g := ⟨_, rfl⟩
    rw [← hS] at he
    have hSf : S.fibres = g.fibres := by
      rw [hS]; split
      · rw [LaneRes.scalar_rest]
      · rfl
    have hSf' : ∀ l, S.fibre? l = g.fibre? l := fun l => by unfold Group.fibre?; rw [hSf]
    have hl : ∀ x : Fibre, (r.finish c (match fm.destOf f with | .vec _ p n => r.onFibre p n x | _ => x)).lane = x.lane := by
      intro x
      rw [LaneRes.finish_lane c r hur]
      split <;> simp
    have h1 : (g.complete c fm w f r).fibre? f.lane = some (r.after fm c f) := by
      rw [he, Group.fibre?_updFibre_self _ hl (by rw [hSf', hff])]
      rfl
    have h2 : ∀ l, l ≠ f.lane → (g.complete c fm w f r).fibre? l = g.fibre? l := by
      intro l hne
      rw [he, Group.fibre?_updFibre_ne _ hl hne, hSf']
    have hs : g.completeAll c fm first ((f, r) :: rest) = (g.complete c fm w f r).completeAll c fm false rest := by
      rw [hw]; rfl
    have hne : ∀ x ∈ rest, x.1.lane ≠ f.lane := by
      intro x hx e
      exact hn.1 (List.mem_map.2 ⟨x, hx, e⟩)
    obtain ⟨i1, i2, i3⟩ := ih (g.complete c fm w f r) false hn.2
      (fun x hx => by rw [h2 _ (hne x hx)]; exact hf x (by simp [hx])) (fun x hx => hu x (by simp [hx]))
    refine ⟨?_, ?_, ?_⟩
    · rw [hs, i1]
      have hc : g.complete c fm w f r = { S with fibres := (g.complete c fm w f r).fibres } := by rw [he]; rfl
      cases rest with
      | nil =>
        rw [hc, hS]
        cases w <;> rfl
      | cons b rest' =>
        cases hsd : fm.scalarDst with
        | true =>
          rw [hc, hS]
          cases w <;> rfl
        | false =>
          have hid : ∀ (x : Fibre × LaneRes) (k : Group), x.2.scalar fm x.1 k = k := by
            intro x k
            unfold LaneRes.scalar
            split
            · rename_i l p n h; exact absurd h (Form.destOf_not_sca hsd x.1 l p n)
            · rfl
          have hw1 : w = true := by rw [hw]; simp [hsd]
          have hSg : S = g := by rw [hS, hw1]; exact hid (f, r) g
          subst hw1
          simp only [Bool.not_false, Bool.or_true]
          rw [hid b, hid (f, r), hc, hSg]
    · intro x hx
      rcases List.mem_cons.1 hx with rfl | hx
      · rw [hs, i3 _ (by intro h; obtain ⟨y, hy, e⟩ := List.mem_map.1 h; exact hne y hy e), h1]
      · rw [hs, i2 x hx]
    · intro l hl'
      simp only [List.map_cons, List.mem_cons, not_or] at hl'
      rw [hs, i3 l hl'.2, h2 l hl'.1]

/-- Updates of fibres leave the group's name as it was. -/
theorem Group.foldl_updFibre_id {α : Type} (k : α → Fin 32) (F : α → Fibre → Fibre) (xs : List α) :
    ∀ g : Group, (xs.foldl (fun h x => h.updFibre (k x) (F x)) g).id = g.id := by
  induction xs with
  | nil => exact fun _ => rfl
  | cons a r ih => exact fun g => (ih _).trans rfl

/-- Updates of fibres that keep lanes leave the lanes of the group as they were. -/
theorem Group.foldl_updFibre_lanes {α : Type} (k : α → Fin 32) (F : α → Fibre → Fibre) (hF : ∀ x f, (F x f).lane = f.lane)
    (xs : List α) : ∀ g : Group,
      (xs.foldl (fun h x => h.updFibre (k x) (F x)) g).fibres.map (·.lane) = g.fibres.map (·.lane) := by
  induction xs with
  | nil => exact fun _ => rfl
  | cons a r ih =>
    intro g
    refine (ih _).trans ?_
    simp only [Group.updFibre, List.map_map]
    exact List.map_congr_left fun f _ => by simp only [Function.comp]; split <;> simp [hF]

/-- Fibres whose guard is off move on. -/
theorem Group.skip_spec (p : Word) : ∀ (xs : List Fibre) (g : Group), (xs.map (·.lane)).Nodup →
    (∀ x ∈ xs, g.fibre? x.lane = some x) →
    (xs.foldl (fun h f => h.updFibre f.lane fun f => f.goesOn p) g) =
      { g with fibres := (xs.foldl (fun h f => h.updFibre f.lane fun f => f.goesOn p) g).fibres } ∧
    (∀ x ∈ xs, (xs.foldl (fun h f => h.updFibre f.lane fun f => f.goesOn p) g).fibre? x.lane =
      some (x.goesOn p)) ∧
    ∀ l, l ∉ xs.map (·.lane) →
      (xs.foldl (fun h f => h.updFibre f.lane fun f => f.goesOn p) g).fibre? l = g.fibre? l := by
  intro xs
  induction xs with
  | nil => exact fun g _ _ => ⟨rfl, fun x hx => absurd hx (by simp), fun _ _ => rfl⟩
  | cons a r ih =>
    intro g hn hf
    simp only [List.map_cons, List.nodup_cons] at hn
    have hne : ∀ x ∈ r, x.lane ≠ a.lane := fun x hx e => hn.1 (List.mem_map.2 ⟨x, hx, e⟩)
    have hl : ∀ f : Fibre, (f.goesOn p).lane = f.lane := fun _ => rfl
    obtain ⟨i1, i2, i3⟩ := ih (g.updFibre a.lane fun f => f.goesOn p) hn.2
      (fun x hx => by rw [Group.fibre?_updFibre_ne _ hl (hne x hx)]; exact hf x (by simp [hx]))
    refine ⟨?_, ?_, ?_⟩
    · rw [List.foldl_cons, i1]; rfl
    · intro x hx
      rw [List.foldl_cons]
      rcases List.mem_cons.1 hx with rfl | hx
      · rw [i3 _ (by intro h; obtain ⟨y, hy, e⟩ := List.mem_map.1 h; exact hne y hy e)]
        exact Group.fibre?_updFibre_self _ hl (hf x (by simp))
      · exact i2 x hx
    · intro l hl'
      simp only [List.map_cons, List.mem_cons, not_or] at hl'
      rw [List.foldl_cons, i3 l hl'.2, Group.fibre?_updFibre_ne _ hl hl'.1]

end Sys2Proof.Machine
end

