-- ==== Sys2Proof/Laws/Retire.lean ====
section
/-! SUPPORT. The issue law as `Retired` says it, for every form that acts in each lane and every form that acts once. -/
namespace Sys2Proof.Machine

theorem Fibre.atReconv_goesOn (f : Fibre) (p : Word) : ({ f with pc := p, wait := none } : Fibre).atReconv = none := rfl

/-- The end of a unit of `g` whose state before it is known. -/
theorem State.retired_of {s e u : State} {c : Cur} {g h g1 : Group} {fs : List Fibre} {post : Fibre → Fibre} (leaf : Nat)
    (hu : u = { e with cur := u.cur, groups := u.groups, slots := u.slots, blocks := u.blocks })
    (hb : u.blocks = e.issuedBlocks g)
    (hsl : ∀ core slot, ¬(core = g.core ∧ slot = g.slot) → u.slotOf core slot = e.slotOf core slot)
    (hg1 : u.group? g.id = some g1) (hh : g1 = { h with fibres := g1.fibres, lastIssue := s.clk })
    (hp : ∀ f ∈ fs, g1.fibre? f.lane = some (post f) ∧ (post f).atReconv = none)
    (hoff : ∀ f ∈ g.batch c.lanes, f ∉ fs → g1.fibre? f.lane = some (f.goesOn c.next))
    (hother : ∀ f ∈ g.fibres, c.lanes.contains f.lane = false → g1.fibre? f.lane = some f)
    (hne : ∀ id, id ≠ g.id → u.group? id = e.group? id) :
    Retired s e (u.endUnit g leaf) c g h fs post := by
  obtain ⟨r1, r2⟩ := Group.settleReconv_spec g1
  refine ⟨⟨g1.settleReconv, State.endUnit_group leaf hg1, ?_, ?_, ?_, ?_⟩, ?_, ?_, ?_, ?_⟩
  · rw [r1, hh]
  · exact fun f hf => (r2 _ _ (hp f hf).1).1 (hp f hf).2
  · exact fun f hf hg => (r2 _ _ (hoff f hf hg)).1 rfl
  · exact fun f hf hl => r2 _ _ (hother f hf hl)
  · exact fun id hid => (State.endUnit_others leaf hid).trans (hne id hid)
  · exact fun core slot hcs => (State.endUnit_slots u g leaf core slot hcs).trans (hsl core slot hcs)
  · have key : ∀ G S, ({ u with cur := none, groups := G, slots := S } : State) =
        { e with cur := none, groups := G, slots := S, blocks := u.blocks } := by
      intro G S
      rw [hu]
    exact key _ _
  · exact hb

theorem State.noteIssue_group {s : State} {g : Group} {c : Cur} (hg : s.group? g.id = some g) :
    (s.noteIssue g c).group? g.id = some { g with lastIssue := s.clk } := by
  have : (s.noteIssue g c).group? g.id = (s.updGroup g.id fun g => { g with lastIssue := s.clk }).group? g.id := rfl
  rw [this]
  exact State.group?_updGroup_self _ (fun _ => rfl) hg

theorem State.noteIssue_others {s : State} {g : Group} {c : Cur} {id : Nat} (h : id ≠ g.id) :
    (s.noteIssue g c).group? id = s.group? id := by
  have : (s.noteIssue g c).group? id = (s.updGroup g.id fun g => { g with lastIssue := s.clk }).group? id := rfl
  rw [this]
  exact State.group?_updGroup_ne _ (fun _ => rfl) h

theorem State.noteIssue_slots {s : State} {g : Group} {c : Cur} {core slot : Nat} (h : ¬(core = g.core ∧ slot = g.slot)) :
    (s.noteIssue g c).slotOf core slot = s.slotOf core slot := by
  unfold State.noteIssue
  rw [State.slotOf_setSlot_ne]
  · rfl
  · exact fun e => h ⟨e.1.trans (State.slotOf_core _ _ _).1, e.2.trans (State.slotOf_core _ _ _).2⟩

theorem State.noteIssue_rest (s : State) (g : Group) (c : Cur) :
    s.noteIssue g c = { s with groups := (s.noteIssue g c).groups, slots := (s.noteIssue g c).slots, blocks := s.issuedBlocks g } := rfl

theorem Group.completeAll_id (c : Cur) (fm : Form) (rs : List (Fibre × LaneRes)) : ∀ (g : Group) (b : Bool),
    (g.completeAll c fm b rs).id = g.id := by
  induction rs with
  | nil => exact fun _ _ => rfl
  | cons a r ih =>
    intro g b
    have h : g.completeAll c fm b (a :: r) = (g.complete c fm (b || !fm.scalarDst) a.1 a.2).completeAll c fm false r := rfl
    rw [h, ih]
    unfold Group.complete
    have : ∀ d, (g.land d a.2).id = g.id := by
      intro d
      cases d with
      | none l => rw [Group.land_none]
      | sca l k n =>
        rw [Group.land_sca]
        unfold LaneRes.onGroup
        cases a.2.mark with
        | some t => rfl
        | none =>
          dsimp only
          split
          · rfl
          · split
            · rfl
            · unfold Group.deliverS
              rw [Group.writeS_fibres]
              cases a.2.tag <;> rfl
      | vec l p n => rw [Group.land_vec]; rfl
    split
    · exact this _
    · rfl

/-- The group of the unit once its lanes have completed and before the effect of the instruction. -/
theorem State.retire_facts {s : State} {c : Cur} {g : Group} {fs : List Fibre} {fm : Form} (hb : Batch s c g fs fm)
    (r : Fibre → LaneRes) (hu : ∀ f ∈ fs, ∀ y, ((r f).upd y).lane = y.lane) :
    let u := s.retire g c fm (fs.map fun f => (f, r f))
    ∃ g1, u.group? g.id = some g1 ∧
      g1 = { ((fs.head?.map fun f => (r f).scalar fm f { g with lastIssue := s.clk }).getD { g with lastIssue := s.clk }) with
        fibres := g1.fibres } ∧
      (∀ f ∈ fs, g1.fibre? f.lane = some ((r f).after fm c f)) ∧
      (∀ f ∈ g.batch c.lanes, f ∉ fs → g1.fibre? f.lane = some (f.goesOn c.next)) ∧
      (∀ f ∈ g.fibres, c.lanes.contains f.lane = false → g1.fibre? f.lane = some f) := by
  obtain ⟨-, hg, hsh, hfs, -, -⟩ := hb
  have hgid := State.group?_id hg
  have hn := hsh.1
  let G : Group := { g with lastIssue := s.clk }
  have hsub : ∀ f ∈ g.batch c.lanes, f ∈ g.fibres := fun f hf => (List.mem_filter.1 hf).1
  have hfsub : ∀ f ∈ fs, f ∈ g.batch c.lanes := fun f hf => by rw [hfs] at hf; exact (List.mem_filter.1 hf).1
  have hoffsub : ∀ f ∈ c.off g, f ∈ g.batch c.lanes := fun f hf => (List.mem_filter.1 hf).1
  have find : ∀ f ∈ g.fibres, G.fibre? f.lane = some f := fun f hf => Group.fibre?_of_mem (g := G) hn hf
  have nd : ∀ (p : Fibre → Bool), ((((g.batch c.lanes).filter p)).map (·.lane)).Nodup := by
    intro p
    refine List.Nodup.sublist ?_ hn
    exact List.Sublist.map _ ((List.filter_sublist).trans List.filter_sublist)
  have lane_inj : ∀ a ∈ g.fibres, ∀ b ∈ g.fibres, a.lane = b.lane → a = b := by
    intro a ha b hb e
    have h1 := find a ha
    have h2 := find b hb
    rw [e, h2] at h1
    exact (Option.some.inj h1).symm
  obtain ⟨k1, k2, k3⟩ := Group.skip_spec c.next (c.off g) G (nd _) (fun x hx => find x (hsub x (hoffsub x hx)))
  let K : Group := (c.off g).foldl (fun h f => h.updFibre f.lane fun f => f.goesOn c.next) G
  have hdisj : ∀ f ∈ fs, f.lane ∉ (c.off g).map (·.lane) := by
    intro f hf hm
    obtain ⟨x, hx, e⟩ := List.mem_map.1 hm
    have : x = f := lane_inj x (hsub x (hoffsub x hx)) f (hsub f (hfsub f hf)) e
    subst this
    rw [hfs] at hf
    have h1 := (List.mem_filter.1 hf).2
    have h2 := (List.mem_filter.1 hx).2
    rw [h1] at h2
    exact absurd h2 (by simp)
  have hmaps : (fs.map fun f => (f, r f)).map (fun x => x.1.lane) = fs.map (·.lane) := by
    rw [List.map_map]; rfl
  obtain ⟨q1, q2, q3⟩ := Group.completeAll_spec c fm (fs.map fun f => (f, r f)) K true
    (by rw [hmaps, hfs]; exact nd _)
    (by
      intro x hx
      obtain ⟨f, hf, rfl⟩ := List.mem_map.1 hx
      exact (k3 _ (hdisj f hf)).trans (find f (hsub f (hfsub f hf))))
    (by
      intro x hx
      obtain ⟨f, hf, rfl⟩ := List.mem_map.1 hx
      exact hu f hf)
  have hfind : (s.retire g c fm (fs.map fun f => (f, r f))).group? g.id = some (K.completeAll c fm true (fs.map fun f => (f, r f))) := by
    have hg' : s.group? g.id = some g := by rw [hgid]; exact hg
    unfold State.retire
    rw [State.group?_updGroup _ _ _ _ (by
      intro x
      rw [Group.completeAll_id]
      exact Group.foldl_updFibre_id (fun f : Fibre => f.lane) (fun _ f => f.goesOn c.next) _ _), State.noteIssue_group hg']
    simp [K, G]
  refine ⟨_, hfind, ?_, ?_, ?_, ?_⟩
  · rw [q1]
    have hK : K = { G with fibres := K.fibres } := k1
    cases hfs' : fs with
    | nil => simp only [List.map_nil, List.head?_nil, Option.map_none, Option.getD_none]; rw [hK]
    | cons a l =>
      simp only [List.map_cons, List.head?_cons, Option.map_some, Option.getD_some, Bool.true_or]
      have : ∀ (x : LaneRes) (G : Group) (ff : List Fibre), x.scalar fm a { G with fibres := ff } = { x.scalar fm a G with fibres := ff } := by
        intro x G ff
        unfold LaneRes.scalar LaneRes.onGroup
        cases fm.destOf a with
        | vec => rfl
        | none => rfl
        | sca l k n =>
          dsimp only
          cases x.mark with
          | some t => rfl
          | none =>
            dsimp only
            split
            · rfl
            · split
              · rfl
              · have hw : ∀ (ws : List Word) (G : Group) (m : Nat),
                    Group.writeS { G with fibres := ff } m ws = { G.writeS m ws with fibres := ff } := by
                  intro ws
                  induction ws with
                  | nil => exact fun _ _ => rfl
                  | cons w ws ih => exact fun G m => ih (G.setS m (.of w)) (m + 1)
                unfold Group.deliverS
                rw [hw]
                cases x.tag <;> rfl
      rw [hK, this]
  · exact fun f hf => q2 (f, r f) (List.mem_map.2 ⟨f, hf, rfl⟩)
  · intro f hf hh
    have hoff : f ∈ c.off g := by
      refine List.mem_filter.2 ⟨hf, ?_⟩
      cases hc : c.holds f with
      | false => rfl
      | true => exact absurd (by rw [hfs]; exact List.mem_filter.2 ⟨hf, hc⟩) hh
    refine (q3 _ ?_).trans (k2 f hoff)
    rw [hmaps]
    intro hm
    obtain ⟨x, hx, e⟩ := List.mem_map.1 hm
    exact hdisj x hx (List.mem_map.2 ⟨f, hoff, e.symm⟩)
  · intro f hf hl
    have hnb : ∀ x ∈ g.batch c.lanes, x.lane ≠ f.lane := by
      intro x hx e
      have := (List.mem_filter.1 hx).2
      rw [e, hl] at this
      exact absurd this (by simp)
    refine (q3 _ ?_).trans ((k3 _ ?_).trans (find f hf))
    · rw [hmaps]
      intro hm
      obtain ⟨x, hx, e⟩ := List.mem_map.1 hm
      exact hnb x (hfsub x hx) e
    · intro hm
      obtain ⟨x, hx, e⟩ := List.mem_map.1 hm
      exact hnb x (hoffsub x hx) e

end Sys2Proof.Machine
end

