-- ==== Sys2Proof/Laws/Lanes.lean ====
section
/-! SUPPORT. The issue law for instructions that act lane by lane, or once, without an effect of their own; and for those with one. -/
namespace Sys2Proof.Machine

theorem Group.writeS_lastIssue (k : Nat) : ∀ (ws : List Word) (g : Group) (n : Nat),
    Group.writeS { g with lastIssue := k } n ws = { g.writeS n ws with lastIssue := k } := by
  intro ws
  induction ws with
  | nil => exact fun _ _ => rfl
  | cons w r ih => exact fun g n => ih (g.setS n (.of w)) (n + 1)

theorem LaneRes.scalar_lastIssue (fm : Form) (f : Fibre) (r : LaneRes) (g : Group) (k : Nat) :
    r.scalar fm f { g with lastIssue := k } = { r.scalar fm f g with lastIssue := k } := by
  unfold LaneRes.scalar LaneRes.onGroup
  cases fm.destOf f with
  | vec => rfl
  | none => rfl
  | sca l i n =>
    dsimp only
    cases r.mark with
    | some t => rfl
    | none =>
      dsimp only
      split
      · rfl
      · split
        · rfl
        · unfold Group.deliverS
          rw [Group.writeS_lastIssue]
          cases r.tag <;> rfl

/-- The group of a unit with its scalar destination written by the lowest lane. -/
def Group.scalarOf (g : Group) (fm : Form) (fs : List Fibre) (r : Fibre → LaneRes) : Group :=
  (fs.head?.map fun f => (r f).scalar fm f g).getD g

/-- The issue law with an effect `E` that changes the unit's group by `h` and its fibres not at all. -/
theorem State.issue_retired {s e : State} {c : Cur} {g : Group} {fs : List Fibre} {fm : Form}
    {body : State → Group → Cur → List Fibre → Body} (post : Fibre → Fibre) (h : Group → Group) (r : Fibre → LaneRes)
    (hb : Batch s c g fs fm) (hs : s.sort g c fm = ⟨[], none, c.off g, fs⟩)
    (ho : (body s g c fs).outs = fs.map fun f => (f, .done (r f)))
    (hu : ∀ f ∈ fs, ∀ y, ((r f).upd y).lane = y.lane)
    (hp : ∀ f ∈ fs, (r f).after fm c f = post f ∧ (post f).atReconv = none)
    (hh : ∀ k : Group, h k = { h k with fibres := k.fibres, lastIssue := k.lastIssue })
    (hhm : ∀ (k : Group) (ff : List Fibre) (n : Nat), h { k with fibres := ff, lastIssue := n } = { h k with fibres := ff, lastIssue := n })
    (he : let u := s.retire g c fm (fs.map fun f => (f, r f))
      let v := (body s g c fs).effect u
      v = { e with cur := v.cur, groups := v.groups, slots := u.slots, blocks := e.issuedBlocks g } ∧ (e.clk = s.clk ∧ e.slots = s.slots) ∧
      v.group? g.id = (u.group? g.id).map h ∧ ∀ id, id ≠ g.id → v.group? id = e.group? id) :
    Retired s e (s.issue fm body) c g (h (g.scalarOf fm fs r)) fs post := by
  obtain ⟨hc, hg, hsh, hfs, hne, hbb⟩ := hb
  have hb' : Batch s c g fs fm := ⟨hc, hg, hsh, hfs, hne, hbb⟩
  rw [State.issue_done (fs.map fun f => (f, r f)) hc hg hs hne (by rw [ho, List.map_map]; rfl)]
  obtain ⟨g1, f1, f2, f3, f4, f5⟩ := State.retire_facts hb' r hu
  obtain ⟨e1, ⟨e0, es⟩, e2, e3⟩ := he
  have hsl : ∀ core slot, ¬(core = g.core ∧ slot = g.slot) →
      (s.retire g c fm (fs.map fun f => (f, r f))).slotOf core slot = s.slotOf core slot :=
    fun core slot hcs => (State.slotOf_updGroup _ _ _ core slot).trans (State.noteIssue_slots hcs)
  rw [f1, Option.map_some] at e2
  have hfib : ∀ l, (h g1).fibre? l = g1.fibre? l := by
    intro l
    unfold Group.fibre?
    rw [hh g1]
  refine State.retired_of _ (g1 := h g1) ?_ ?_ ?_ e2 ?_ ?_ ?_ ?_ e3
  · rw [e1]
  · rw [e1]
  · intro core slot hcs
    have : ∀ a b : State, a.slots = b.slots → a.clk = b.clk → a.slotOf core slot = b.slotOf core slot := by
      intro a b h1 h2; unfold State.slotOf; rw [h1, h2]
    refine Eq.trans ?_ ((hsl core slot hcs).trans (this _ _ es.symm e0.symm))
    rw [e1]
    exact this _ _ rfl e0
  · have hsc : ((fs.head?.map fun f => (r f).scalar fm f { g with lastIssue := s.clk }).getD { g with lastIssue := s.clk }) =
        { g.scalarOf fm fs r with lastIssue := s.clk } := by
      unfold Group.scalarOf
      cases fs.head? with
      | none => rfl
      | some a => exact LaneRes.scalar_lastIssue fm a (r a) g s.clk
    rw [hsc] at f2
    have key : ∀ (k : Group) (ff : List Fibre) (n : Nat),
        h { k with lastIssue := n, fibres := ff } = { h k with fibres := ff, lastIssue := n } := hhm
    obtain ⟨ff, hff⟩ : ∃ ff, g1 = { g.scalarOf fm fs r with lastIssue := s.clk, fibres := ff } := ⟨_, f2⟩
    rw [hff, key]
  · exact fun f hf => by rw [hfib, f3 f hf, (hp f hf).1]; exact ⟨rfl, (hp f hf).2⟩
  · exact fun f hf hn => by rw [hfib]; exact f4 f hf hn
  · exact fun f hf hn => by rw [hfib]; exact f5 f hf hn

/-- The issue law without an effect. -/
theorem State.issue_plain {s : State} {c : Cur} {g : Group} {fs : List Fibre} {fm : Form}
    {body : State → Group → Cur → List Fibre → Body} (post : Fibre → Fibre) (r : Fibre → LaneRes)
    (hb : Batch s c g fs fm) (hs : s.sort g c fm = ⟨[], none, c.off g, fs⟩)
    (ho : (body s g c fs).outs = fs.map fun f => (f, .done (r f))) (hE : (body s g c fs).effect = id)
    (hu : ∀ f ∈ fs, ∀ y, ((r f).upd y).lane = y.lane)
    (hp : ∀ f ∈ fs, (r f).after fm c f = post f ∧ (post f).atReconv = none) :
    Retired s s (s.issue fm body) c g (g.scalarOf fm fs r) fs post := by
  refine State.issue_retired (e := s) post id r hb hs ho hu hp (fun _ => rfl) (fun _ _ _ => rfl) ?_
  rw [hE]
  refine ⟨State.retire_frame s g c fm _, ⟨rfl, rfl⟩, by simp, fun id hid => ?_⟩
  unfold State.retire
  have hid' : ∀ f : Group → Group, (∀ x, (f x).id = x.id) → ((s.noteIssue g c).updGroup g.id f).group? id = s.group? id :=
    fun f hf => (State.group?_updGroup_ne f hf hid).trans (State.noteIssue_others hid)
  refine hid' _ fun x => ?_
  rw [Group.completeAll_id]
  exact Group.foldl_updFibre_id (fun f : Fibre => f.lane) (fun _ f => f.goesOn c.next) _ _

/-- A fixed-latency result to register `d`, lane by lane. -/
theorem State.lanes_gives {s : State} {c : Cur} {g : Group} {fs : List Fibre} {fm : Form} {d : Reg} {ws : Group → Fibre → List Word}
    (ha : Acting s c g fs fm) (hd : fm.dst.map (·.reg) = some d) (ho : fm.once = false) :
    ∃ t, s.lanes fm ws = .next t ∧
      Retired s s t c g ((fs.head?.map fun f => g.writeScalar d (ws g f)).getD g) fs fun f => (f.writeReg d (ws g f)).goesOn c.next := by
  refine ⟨_, rfl, ?_⟩
  have hdst : ∃ o, fm.dst = some o ∧ o.reg = d := by
    cases h : fm.dst with
    | none => simp [h] at hd
    | some o => exact ⟨o, rfl, by simpa [h] using hd⟩
  obtain ⟨o, ho1, ho2⟩ := hdst
  have hsc : (fs.head?.map fun f => g.writeScalar d (ws g f)).getD g = g.scalarOf fm fs (fun f => { words := ws g f }) := by
    unfold Group.scalarOf
    congr 1
    congr 1
    funext f
    unfold LaneRes.scalar Group.writeScalar Form.destOf Operand.destOf
    rw [ho1]
    dsimp only
    rw [ho2]
    cases d with
    | v n => rfl
    | zero => rfl
    | lane => rfl
    | s n =>
      unfold LaneRes.onGroup
      dsimp only
      cases h : ws g f with
      | nil => rfl
      | cons a l => rfl
  rw [hsc]
  refine State.issue_plain (r := fun f => { words := ws g f }) _ ha.1 (State.sort_acting ha ho) rfl rfl (fun _ _ _ => rfl) fun f _ => ⟨?_, rfl⟩
  unfold LaneRes.after LaneRes.finish Fibre.goesOn Fibre.writeReg Form.destOf Operand.destOf
  rw [ho1]
  dsimp only
  rw [ho2]
  cases d with
  | zero => simp
  | lane => simp
  | s n => simp
  | v n =>
    unfold LaneRes.onFibre
    dsimp only
    cases h : ws g f with
    | nil => simp [Fibre.writeV]
    | cons a l => simp [Fibre.deliverV]

end Sys2Proof.Machine
end

