-- ==== Sys2Proof/Laws/Memory.lean ====
section
/-! SUPPORT. Memory: what its canonical form is, every operation of memory keeps it, and the bytes of numbers. -/
namespace Sys2Proof.Machine

/-- A list above a key rises, lies above the key and lists no 0. -/
theorem memAbove_iff (m : List Host.Cell) : ∀ a : Nat,
    memAbove a m = true ↔ m.Pairwise (fun x y => x.1 < y.1) ∧ (∀ c ∈ m, a < c.1) ∧ ∀ c ∈ m, c.2 ≠ 0 := by
  induction m with
  | nil => simp [memAbove]
  | cons c r ih =>
    obtain ⟨k, v⟩ := c
    intro a
    simp only [memAbove, Bool.and_eq_true, decide_eq_true_eq, ih, List.pairwise_cons, List.mem_cons, forall_eq_or_imp]
    constructor
    · rintro ⟨⟨h1, h2⟩, h3, h4, h5⟩
      exact ⟨⟨h4, h3⟩, ⟨h1, fun c hc => Nat.lt_trans h1 (h4 c hc)⟩, h2, h5⟩
    · rintro ⟨⟨h4, h3⟩, ⟨h1, _⟩, h2, h5⟩
      exact ⟨⟨h1, h2⟩, h3, h4, h5⟩

/-- The canonical form: keys rise strictly and no listed byte is 0. -/
theorem Memory.wf_iff (m : List Host.Cell) :
    Memory.wf m = true ↔ m.Pairwise (fun x y => x.1 < y.1) ∧ ∀ c ∈ m, c.2 ≠ 0 := by
  cases m with
  | nil => simp [Memory.wf]
  | cons c r =>
    obtain ⟨k, v⟩ := c
    simp only [Memory.wf, Bool.and_eq_true, decide_eq_true_eq, memAbove_iff, List.pairwise_cons, List.mem_cons, forall_eq_or_imp]
    tauto

theorem Memory.wf_nil : Memory.wf [] = true := rfl

/-- What a write lists is what was listed before, or the key written with a byte other than 0. -/
theorem mem_memSet {m : List Host.Cell} {a : Nat} {v : Byte} {c : Host.Cell} (h : c ∈ memSet m a v) :
    c ∈ m ∨ (c.1 = a ∧ c.2 ≠ 0) := by
  induction m with
  | nil =>
    by_cases hv : v = 0
    · simp [memSet, hv] at h
    · rw [memSet, if_neg hv, List.mem_singleton] at h; subst h; exact .inr ⟨rfl, hv⟩
  | cons d r ih =>
    obtain ⟨k, w⟩ := d
    unfold memSet at h
    split at h
    · split at h
      · exact .inl h
      · rcases List.mem_cons.1 h with h | h
        · subst h; exact .inr ⟨rfl, ‹_›⟩
        · exact .inl h
    · split at h
      · split at h
        · exact .inl (List.mem_cons_of_mem _ h)
        · rcases List.mem_cons.1 h with h | h
          · subst h; exact .inr ⟨rfl, ‹_›⟩
          · exact .inl (List.mem_cons_of_mem _ h)
      · rcases List.mem_cons.1 h with h | h
        · subst h; exact .inl (List.mem_cons_self)
        · rcases ih h with h | h
          · exact .inl (List.mem_cons_of_mem _ h)
          · exact .inr h

/-- A write keeps the canonical form. -/
theorem memSet_wf {m : List Host.Cell} (a : Nat) (v : Byte) (h : Memory.wf m = true) : Memory.wf (memSet m a v) = true := by
  rw [Memory.wf_iff] at h ⊢
  refine ⟨?_, fun c hc => (mem_memSet hc).elim (h.2 c) And.right⟩
  have hp := h.1
  clear h
  induction m with
  | nil => unfold memSet; split <;> simp
  | cons d r ih =>
    obtain ⟨k, w⟩ := d
    have hr := List.pairwise_cons.1 hp
    unfold memSet
    split
    · rename_i hak
      split
      · exact hp
      · exact List.pairwise_cons.2 ⟨fun c hc => by
          rcases List.mem_cons.1 hc with hc | hc
          · subst hc; exact hak
          · exact Nat.lt_trans hak (hr.1 c hc), hp⟩
    · split
      · rename_i hak
        subst hak
        split
        · exact hr.2
        · exact List.pairwise_cons.2 hr
      · rename_i h1 h2
        refine List.pairwise_cons.2 ⟨fun c hc => ?_, ih hr.2⟩
        rcases mem_memSet hc with hc | hc
        · exact hr.1 c hc
        · have hk : (k, w).1 = k := rfl
          omega

/-- Dropping listed bytes keeps the canonical form. -/
theorem Memory.wf_filter {m : List Host.Cell} (p : Host.Cell → Bool) (h : Memory.wf m = true) : Memory.wf (m.filter p) = true := by
  rw [Memory.wf_iff] at h ⊢
  exact ⟨h.1.filter _, fun c hc => h.2 c (List.mem_of_mem_filter hc)⟩

/-- Writing bytes one after another keeps the canonical form. -/
theorem Memory.wf_foldl {α : Type} (key : α → Nat) (val : α → Byte) : ∀ (l : List α) {m : List Host.Cell}, Memory.wf m = true →
    Memory.wf (l.foldl (fun m c => memSet m (key c) (val c)) m) = true
  | [], _, h => h
  | c :: r, _, h => Memory.wf_foldl key val r (memSet_wf (key c) (val c) h)

/-! Writes of a state. -/

theorem State.setByte_wf {s : State} (k : Nat) (v : Byte) (h : Memory.wf s.mem = true) : Memory.wf (s.setByte k v).mem = true :=
  memSet_wf k v h

theorem State.setBytes_wf : ∀ (bs : List Byte) {s : State} (k : Nat), Memory.wf s.mem = true → Memory.wf (s.setBytes k bs).mem = true
  | [], _, _, h => h
  | b :: r, _, k, h => State.setBytes_wf r (k + 1) (State.setByte_wf k b h)

theorem State.setNum_wf {s : State} (k n v : Nat) (h : Memory.wf s.mem = true) : Memory.wf (s.setNum k n v).mem = true :=
  State.setBytes_wf _ k h

theorem State.putByte_wf {s : State} (k : Nat) (v : Byte) (h : Memory.wf s.mem = true) : Memory.wf (s.putByte k v).mem = true := by
  unfold State.putByte
  split
  · exact h
  · split
    · exact h
    · exact State.setByte_wf k v h

theorem State.putBytes_wf : ∀ (bs : List Byte) {s : State} (k : Nat), Memory.wf s.mem = true → Memory.wf (s.putBytes k bs).mem = true
  | [], _, _, h => h
  | b :: r, _, k, h => State.putBytes_wf r (k + 1) (State.putByte_wf k b h)

theorem State.setKeys_wf : ∀ (ks : List Nat) (bs : List Byte) {s : State}, Memory.wf s.mem = true → Memory.wf (s.setKeys ks bs).mem = true
  | [], _, _, h => by simpa [State.setKeys] using h
  | _ :: _, [], _, h => by simpa [State.setKeys] using h
  | k :: ks, b :: bs, _, h => State.setKeys_wf ks bs (State.putByte_wf k b h)

theorem State.noteLost_rest (s : State) (die : Nat) (ks : List Nat) : s.noteLost die ks = { s with errlog := (s.noteLost die ks).errlog } := by
  unfold State.noteLost; split <;> rfl
theorem State.noteRange_rest (s : State) (ctx va n : Nat) : s.noteRange ctx va n = { s with errlog := (s.noteRange ctx va n).errlog } := by
  unfold State.noteRange; split <;> rfl

theorem State.sendKeys_wf {s : State} (die : Nat) (ks : List Nat) (bs : List Byte) (h : Memory.wf s.mem = true) :
    Memory.wf (s.sendKeys die ks bs).mem = true := by
  unfold State.sendKeys
  refine State.setKeys_wf _ _ ?_
  rw [State.noteLost_rest]
  exact h

theorem State.writeVirt_wf {s : State} (ctx va : Nat) (bs : List Byte) (h : Memory.wf s.mem = true) :
    Memory.wf (s.writeVirt ctx va bs).mem = true := by
  unfold State.writeVirt
  split
  · exact State.sendKeys_wf 0 _ _ h
  · rw [State.noteRange_rest]
    exact h

/-- A trace record changes memory only by its write. -/
theorem State.traceRec_wf {s : State} (ctx : Nat) (bs : List Byte) (h : Memory.wf s.mem = true) :
    Memory.wf (s.traceRec ctx bs).mem = true := by
  unfold State.traceRec
  split
  · exact h
  · split
    · exact h
    · exact State.writeVirt_wf _ _ _ h

/-! Bytes of numbers. -/

theorem leBytes_length (n v : Nat) : (leBytes n v).length = n := by simp [leBytes]

theorem leBytes_succ (n v : Nat) : leBytes (n + 1) v = BitVec.ofNat 8 v :: leBytes n (v / 256) := by
  simp only [leBytes, List.range_succ_eq_map, List.map_cons, List.map_map, Nat.pow_zero, Nat.div_one]
  congr 1
  apply List.map_congr_left
  intro i _
  simp only [Function.comp, Nat.succ_eq_add_one, Nat.div_div_eq_div_mul]
  rw [Nat.pow_succ, Nat.mul_comm]

/-- A number of `n` bytes is the number of its bytes. -/
theorem leNat_leBytes : ∀ (n v : Nat), v < 256 ^ n → leNat (leBytes n v) = v
  | 0, v, h => by
    have : v = 0 := by simpa using h
    simp [leBytes, leNat, this]
  | n + 1, v, h => by
    have h2 : v / 256 < 256 ^ n := Nat.div_lt_of_lt_mul (by rw [Nat.mul_comm, ← Nat.pow_succ]; exact h)
    rw [leBytes_succ, leNat, leNat_leBytes n _ h2]
    simp only [BitVec.toNat_ofNat]
    omega

end Sys2Proof.Machine
end

