-- ==== Sys2Proof/Laws/State.lean ====
section
/-! SUPPORT. What each small update of a state, a group or a fibre leaves as it was, and what it sets. -/
namespace Sys2Proof.Machine

/-! The only fields that an update of the state changes. -/

theorem State.tickOn_rest (s : State) : s.tickOn = { s with tick := (s.tickOn).tick } := rfl
theorem State.popInput_rest (s : State) : s.popInput = { s with inbox := (s.popInput).inbox } := rfl
theorem State.updGroup_rest (s : State) (id : Nat) (f : Group → Group) : s.updGroup id f = { s with groups := (s.updGroup id f).groups } := rfl
theorem State.updBlock_rest (s : State) (id : Nat) (f : Block → Block) : s.updBlock id f = { s with blocks := (s.updBlock id f).blocks } := rfl
theorem State.updSheaf_rest (s : State) (id : Nat) (f : Sheaf → Sheaf) : s.updSheaf id f = { s with sheaves := (s.updSheaf id f).sheaves } := rfl
theorem State.updGrid_rest (s : State) (id : Nat) (f : Grid → Grid) : s.updGrid id f = { s with grids := (s.updGrid id f).grids } := rfl
theorem State.updCtx_rest (s : State) (n : Nat) (f : Ctx → Ctx) : s.updCtx n f = { s with ctxs := (s.updCtx n f).ctxs } := rfl
theorem State.setCore_rest (s : State) (c : Core) : s.setCore c = { s with cores := (s.setCore c).cores } := rfl
theorem State.setSlot_rest (s : State) (x : Slot) : s.setSlot x = { s with slots := (s.setSlot x).slots } := rfl
theorem State.setByte_rest (s : State) (k : Nat) (v : Byte) : s.setByte k v = { s with mem := (s.setByte k v).mem, dirty := (s.setByte k v).dirty, tags := (s.setByte k v).tags } := rfl
theorem State.setTag_rest (s : State) (k : Nat) (b : Bool) : s.setTag k b = { s with tags := (s.setTag k b).tags } := rfl
theorem State.setPoison_rest (s : State) (k : Nat) (b : Bool) : s.setPoison k b = { s with poison := (s.setPoison k b).poison } := rfl
theorem State.countLeaf_rest (s : State) (core slot leaf : Nat) : s.countLeaf core slot leaf = { s with slots := (s.countLeaf core slot leaf).slots } := rfl
theorem State.wakeAll_rest (s : State) (p : Wait → Bool) : s.wakeAll p = { s with groups := (s.wakeAll p).groups } := rfl
theorem State.notePage_rest (s : State) (ctx : Nat) (t : Trap) : s.notePage ctx t = { s with errlog := (s.notePage ctx t).errlog } := by
  unfold State.notePage
  split
  · rfl
  · split <;> rfl
theorem State.dropXlats_rest (s : State) (ctx : Nat) : s.dropXlats ctx = { s with xlats := (s.dropXlats ctx).xlats } := rfl

/-! The fields that it leaves. -/

@[simp] theorem State.tickOn_cur (s : State) : (s.tickOn).cur = s.cur := rfl
@[simp] theorem State.tickOn_clk (s : State) : (s.tickOn).clk = s.clk := rfl
@[simp] theorem State.tickOn_nextId (s : State) : (s.tickOn).nextId = s.nextId := rfl
@[simp] theorem State.tickOn_mem (s : State) : (s.tickOn).mem = s.mem := rfl
@[simp] theorem State.tickOn_tags (s : State) : (s.tickOn).tags = s.tags := rfl
@[simp] theorem State.tickOn_stores (s : State) : (s.tickOn).stores = s.stores := rfl
@[simp] theorem State.tickOn_passed (s : State) : (s.tickOn).passed = s.passed := rfl
@[simp] theorem State.tickOn_groups (s : State) : (s.tickOn).groups = s.groups := rfl
@[simp] theorem State.tickOn_blocks (s : State) : (s.tickOn).blocks = s.blocks := rfl
@[simp] theorem State.tickOn_ctxs (s : State) : (s.tickOn).ctxs = s.ctxs := rfl
@[simp] theorem State.tickOn_producers (s : State) : (s.tickOn).producers = s.producers := rfl
@[simp] theorem State.popInput_cur (s : State) : (s.popInput).cur = s.cur := rfl
@[simp] theorem State.popInput_clk (s : State) : (s.popInput).clk = s.clk := rfl
@[simp] theorem State.popInput_tick (s : State) : (s.popInput).tick = s.tick := rfl
@[simp] theorem State.popInput_nextId (s : State) : (s.popInput).nextId = s.nextId := rfl
@[simp] theorem State.popInput_mem (s : State) : (s.popInput).mem = s.mem := rfl
@[simp] theorem State.popInput_tags (s : State) : (s.popInput).tags = s.tags := rfl
@[simp] theorem State.popInput_stores (s : State) : (s.popInput).stores = s.stores := rfl
@[simp] theorem State.popInput_passed (s : State) : (s.popInput).passed = s.passed := rfl
@[simp] theorem State.popInput_groups (s : State) : (s.popInput).groups = s.groups := rfl
@[simp] theorem State.popInput_blocks (s : State) : (s.popInput).blocks = s.blocks := rfl
@[simp] theorem State.popInput_ctxs (s : State) : (s.popInput).ctxs = s.ctxs := rfl
@[simp] theorem State.popInput_producers (s : State) : (s.popInput).producers = s.producers := rfl
@[simp] theorem State.updGroup_cur (s : State) (id : Nat) (f : Group → Group) : (s.updGroup id f).cur = s.cur := rfl
@[simp] theorem State.updGroup_clk (s : State) (id : Nat) (f : Group → Group) : (s.updGroup id f).clk = s.clk := rfl
@[simp] theorem State.updGroup_tick (s : State) (id : Nat) (f : Group → Group) : (s.updGroup id f).tick = s.tick := rfl
@[simp] theorem State.updGroup_nextId (s : State) (id : Nat) (f : Group → Group) : (s.updGroup id f).nextId = s.nextId := rfl
@[simp] theorem State.updGroup_mem (s : State) (id : Nat) (f : Group → Group) : (s.updGroup id f).mem = s.mem := rfl
@[simp] theorem State.updGroup_tags (s : State) (id : Nat) (f : Group → Group) : (s.updGroup id f).tags = s.tags := rfl
@[simp] theorem State.updGroup_stores (s : State) (id : Nat) (f : Group → Group) : (s.updGroup id f).stores = s.stores := rfl
@[simp] theorem State.updGroup_passed (s : State) (id : Nat) (f : Group → Group) : (s.updGroup id f).passed = s.passed := rfl
@[simp] theorem State.updGroup_blocks (s : State) (id : Nat) (f : Group → Group) : (s.updGroup id f).blocks = s.blocks := rfl
@[simp] theorem State.updGroup_ctxs (s : State) (id : Nat) (f : Group → Group) : (s.updGroup id f).ctxs = s.ctxs := rfl
@[simp] theorem State.updGroup_producers (s : State) (id : Nat) (f : Group → Group) : (s.updGroup id f).producers = s.producers := rfl
@[simp] theorem State.updBlock_cur (s : State) (id : Nat) (f : Block → Block) : (s.updBlock id f).cur = s.cur := rfl
@[simp] theorem State.updBlock_clk (s : State) (id : Nat) (f : Block → Block) : (s.updBlock id f).clk = s.clk := rfl
@[simp] theorem State.updBlock_tick (s : State) (id : Nat) (f : Block → Block) : (s.updBlock id f).tick = s.tick := rfl
@[simp] theorem State.updBlock_nextId (s : State) (id : Nat) (f : Block → Block) : (s.updBlock id f).nextId = s.nextId := rfl
@[simp] theorem State.updBlock_mem (s : State) (id : Nat) (f : Block → Block) : (s.updBlock id f).mem = s.mem := rfl
@[simp] theorem State.updBlock_tags (s : State) (id : Nat) (f : Block → Block) : (s.updBlock id f).tags = s.tags := rfl
@[simp] theorem State.updBlock_stores (s : State) (id : Nat) (f : Block → Block) : (s.updBlock id f).stores = s.stores := rfl
@[simp] theorem State.updBlock_passed (s : State) (id : Nat) (f : Block → Block) : (s.updBlock id f).passed = s.passed := rfl
@[simp] theorem State.updBlock_groups (s : State) (id : Nat) (f : Block → Block) : (s.updBlock id f).groups = s.groups := rfl
@[simp] theorem State.updBlock_ctxs (s : State) (id : Nat) (f : Block → Block) : (s.updBlock id f).ctxs = s.ctxs := rfl
@[simp] theorem State.updBlock_producers (s : State) (id : Nat) (f : Block → Block) : (s.updBlock id f).producers = s.producers := rfl
@[simp] theorem State.updSheaf_cur (s : State) (id : Nat) (f : Sheaf → Sheaf) : (s.updSheaf id f).cur = s.cur := rfl
@[simp] theorem State.updSheaf_clk (s : State) (id : Nat) (f : Sheaf → Sheaf) : (s.updSheaf id f).clk = s.clk := rfl
@[simp] theorem State.updSheaf_tick (s : State) (id : Nat) (f : Sheaf → Sheaf) : (s.updSheaf id f).tick = s.tick := rfl
@[simp] theorem State.updSheaf_nextId (s : State) (id : Nat) (f : Sheaf → Sheaf) : (s.updSheaf id f).nextId = s.nextId := rfl
@[simp] theorem State.updSheaf_mem (s : State) (id : Nat) (f : Sheaf → Sheaf) : (s.updSheaf id f).mem = s.mem := rfl
@[simp] theorem State.updSheaf_tags (s : State) (id : Nat) (f : Sheaf → Sheaf) : (s.updSheaf id f).tags = s.tags := rfl
@[simp] theorem State.updSheaf_stores (s : State) (id : Nat) (f : Sheaf → Sheaf) : (s.updSheaf id f).stores = s.stores := rfl
@[simp] theorem State.updSheaf_passed (s : State) (id : Nat) (f : Sheaf → Sheaf) : (s.updSheaf id f).passed = s.passed := rfl
@[simp] theorem State.updSheaf_groups (s : State) (id : Nat) (f : Sheaf → Sheaf) : (s.updSheaf id f).groups = s.groups := rfl
@[simp] theorem State.updSheaf_blocks (s : State) (id : Nat) (f : Sheaf → Sheaf) : (s.updSheaf id f).blocks = s.blocks := rfl
@[simp] theorem State.updSheaf_ctxs (s : State) (id : Nat) (f : Sheaf → Sheaf) : (s.updSheaf id f).ctxs = s.ctxs := rfl
@[simp] theorem State.updSheaf_producers (s : State) (id : Nat) (f : Sheaf → Sheaf) : (s.updSheaf id f).producers = s.producers := rfl
@[simp] theorem State.updGrid_cur (s : State) (id : Nat) (f : Grid → Grid) : (s.updGrid id f).cur = s.cur := rfl
@[simp] theorem State.updGrid_clk (s : State) (id : Nat) (f : Grid → Grid) : (s.updGrid id f).clk = s.clk := rfl
@[simp] theorem State.updGrid_tick (s : State) (id : Nat) (f : Grid → Grid) : (s.updGrid id f).tick = s.tick := rfl
@[simp] theorem State.updGrid_nextId (s : State) (id : Nat) (f : Grid → Grid) : (s.updGrid id f).nextId = s.nextId := rfl
@[simp] theorem State.updGrid_mem (s : State) (id : Nat) (f : Grid → Grid) : (s.updGrid id f).mem = s.mem := rfl
@[simp] theorem State.updGrid_tags (s : State) (id : Nat) (f : Grid → Grid) : (s.updGrid id f).tags = s.tags := rfl
@[simp] theorem State.updGrid_stores (s : State) (id : Nat) (f : Grid → Grid) : (s.updGrid id f).stores = s.stores := rfl
@[simp] theorem State.updGrid_passed (s : State) (id : Nat) (f : Grid → Grid) : (s.updGrid id f).passed = s.passed := rfl
@[simp] theorem State.updGrid_groups (s : State) (id : Nat) (f : Grid → Grid) : (s.updGrid id f).groups = s.groups := rfl
@[simp] theorem State.updGrid_blocks (s : State) (id : Nat) (f : Grid → Grid) : (s.updGrid id f).blocks = s.blocks := rfl
@[simp] theorem State.updGrid_ctxs (s : State) (id : Nat) (f : Grid → Grid) : (s.updGrid id f).ctxs = s.ctxs := rfl
@[simp] theorem State.updGrid_producers (s : State) (id : Nat) (f : Grid → Grid) : (s.updGrid id f).producers = s.producers := rfl
@[simp] theorem State.updCtx_cur (s : State) (n : Nat) (f : Ctx → Ctx) : (s.updCtx n f).cur = s.cur := rfl
@[simp] theorem State.updCtx_clk (s : State) (n : Nat) (f : Ctx → Ctx) : (s.updCtx n f).clk = s.clk := rfl
@[simp] theorem State.updCtx_tick (s : State) (n : Nat) (f : Ctx → Ctx) : (s.updCtx n f).tick = s.tick := rfl
@[simp] theorem State.updCtx_nextId (s : State) (n : Nat) (f : Ctx → Ctx) : (s.updCtx n f).nextId = s.nextId := rfl
@[simp] theorem State.updCtx_mem (s : State) (n : Nat) (f : Ctx → Ctx) : (s.updCtx n f).mem = s.mem := rfl
@[simp] theorem State.updCtx_tags (s : State) (n : Nat) (f : Ctx → Ctx) : (s.updCtx n f).tags = s.tags := rfl
@[simp] theorem State.updCtx_stores (s : State) (n : Nat) (f : Ctx → Ctx) : (s.updCtx n f).stores = s.stores := rfl
@[simp] theorem State.updCtx_passed (s : State) (n : Nat) (f : Ctx → Ctx) : (s.updCtx n f).passed = s.passed := rfl
@[simp] theorem State.updCtx_groups (s : State) (n : Nat) (f : Ctx → Ctx) : (s.updCtx n f).groups = s.groups := rfl
@[simp] theorem State.updCtx_blocks (s : State) (n : Nat) (f : Ctx → Ctx) : (s.updCtx n f).blocks = s.blocks := rfl
@[simp] theorem State.updCtx_producers (s : State) (n : Nat) (f : Ctx → Ctx) : (s.updCtx n f).producers = s.producers := rfl
@[simp] theorem State.setCore_cur (s : State) (c : Core) : (s.setCore c).cur = s.cur := rfl
@[simp] theorem State.setCore_clk (s : State) (c : Core) : (s.setCore c).clk = s.clk := rfl
@[simp] theorem State.setCore_tick (s : State) (c : Core) : (s.setCore c).tick = s.tick := rfl
@[simp] theorem State.setCore_nextId (s : State) (c : Core) : (s.setCore c).nextId = s.nextId := rfl
@[simp] theorem State.setCore_mem (s : State) (c : Core) : (s.setCore c).mem = s.mem := rfl
@[simp] theorem State.setCore_tags (s : State) (c : Core) : (s.setCore c).tags = s.tags := rfl
@[simp] theorem State.setCore_stores (s : State) (c : Core) : (s.setCore c).stores = s.stores := rfl
@[simp] theorem State.setCore_passed (s : State) (c : Core) : (s.setCore c).passed = s.passed := rfl
@[simp] theorem State.setCore_groups (s : State) (c : Core) : (s.setCore c).groups = s.groups := rfl
@[simp] theorem State.setCore_blocks (s : State) (c : Core) : (s.setCore c).blocks = s.blocks := rfl
@[simp] theorem State.setCore_ctxs (s : State) (c : Core) : (s.setCore c).ctxs = s.ctxs := rfl
@[simp] theorem State.setCore_producers (s : State) (c : Core) : (s.setCore c).producers = s.producers := rfl
@[simp] theorem State.setSlot_cur (s : State) (x : Slot) : (s.setSlot x).cur = s.cur := rfl
@[simp] theorem State.setSlot_clk (s : State) (x : Slot) : (s.setSlot x).clk = s.clk := rfl
@[simp] theorem State.setSlot_tick (s : State) (x : Slot) : (s.setSlot x).tick = s.tick := rfl
@[simp] theorem State.setSlot_nextId (s : State) (x : Slot) : (s.setSlot x).nextId = s.nextId := rfl
@[simp] theorem State.setSlot_mem (s : State) (x : Slot) : (s.setSlot x).mem = s.mem := rfl
@[simp] theorem State.setSlot_tags (s : State) (x : Slot) : (s.setSlot x).tags = s.tags := rfl
@[simp] theorem State.setSlot_stores (s : State) (x : Slot) : (s.setSlot x).stores = s.stores := rfl
@[simp] theorem State.setSlot_passed (s : State) (x : Slot) : (s.setSlot x).passed = s.passed := rfl
@[simp] theorem State.setSlot_blocks (s : State) (x : Slot) : (s.setSlot x).blocks = s.blocks := rfl
@[simp] theorem State.setSlot_ctxs (s : State) (x : Slot) : (s.setSlot x).ctxs = s.ctxs := rfl
@[simp] theorem State.setSlot_producers (s : State) (x : Slot) : (s.setSlot x).producers = s.producers := rfl
@[simp] theorem State.setByte_cur (s : State) (k : Nat) (v : Byte) : (s.setByte k v).cur = s.cur := rfl
@[simp] theorem State.setByte_clk (s : State) (k : Nat) (v : Byte) : (s.setByte k v).clk = s.clk := rfl
@[simp] theorem State.setByte_tick (s : State) (k : Nat) (v : Byte) : (s.setByte k v).tick = s.tick := rfl
@[simp] theorem State.setByte_nextId (s : State) (k : Nat) (v : Byte) : (s.setByte k v).nextId = s.nextId := rfl
@[simp] theorem State.setByte_stores (s : State) (k : Nat) (v : Byte) : (s.setByte k v).stores = s.stores := rfl
@[simp] theorem State.setByte_passed (s : State) (k : Nat) (v : Byte) : (s.setByte k v).passed = s.passed := rfl
@[simp] theorem State.setByte_groups (s : State) (k : Nat) (v : Byte) : (s.setByte k v).groups = s.groups := rfl
@[simp] theorem State.setByte_blocks (s : State) (k : Nat) (v : Byte) : (s.setByte k v).blocks = s.blocks := rfl
@[simp] theorem State.setByte_ctxs (s : State) (k : Nat) (v : Byte) : (s.setByte k v).ctxs = s.ctxs := rfl
@[simp] theorem State.setByte_producers (s : State) (k : Nat) (v : Byte) : (s.setByte k v).producers = s.producers := rfl
@[simp] theorem State.setTag_cur (s : State) (k : Nat) (b : Bool) : (s.setTag k b).cur = s.cur := rfl
@[simp] theorem State.setTag_clk (s : State) (k : Nat) (b : Bool) : (s.setTag k b).clk = s.clk := rfl
@[simp] theorem State.setTag_tick (s : State) (k : Nat) (b : Bool) : (s.setTag k b).tick = s.tick := rfl
@[simp] theorem State.setTag_nextId (s : State) (k : Nat) (b : Bool) : (s.setTag k b).nextId = s.nextId := rfl
@[simp] theorem State.setTag_mem (s : State) (k : Nat) (b : Bool) : (s.setTag k b).mem = s.mem := rfl
@[simp] theorem State.setTag_stores (s : State) (k : Nat) (b : Bool) : (s.setTag k b).stores = s.stores := rfl
@[simp] theorem State.setTag_passed (s : State) (k : Nat) (b : Bool) : (s.setTag k b).passed = s.passed := rfl
@[simp] theorem State.setTag_groups (s : State) (k : Nat) (b : Bool) : (s.setTag k b).groups = s.groups := rfl
@[simp] theorem State.setTag_blocks (s : State) (k : Nat) (b : Bool) : (s.setTag k b).blocks = s.blocks := rfl
@[simp] theorem State.setTag_ctxs (s : State) (k : Nat) (b : Bool) : (s.setTag k b).ctxs = s.ctxs := rfl
@[simp] theorem State.setTag_producers (s : State) (k : Nat) (b : Bool) : (s.setTag k b).producers = s.producers := rfl
@[simp] theorem State.setPoison_cur (s : State) (k : Nat) (b : Bool) : (s.setPoison k b).cur = s.cur := rfl
@[simp] theorem State.setPoison_clk (s : State) (k : Nat) (b : Bool) : (s.setPoison k b).clk = s.clk := rfl
@[simp] theorem State.setPoison_tick (s : State) (k : Nat) (b : Bool) : (s.setPoison k b).tick = s.tick := rfl
@[simp] theorem State.setPoison_nextId (s : State) (k : Nat) (b : Bool) : (s.setPoison k b).nextId = s.nextId := rfl
@[simp] theorem State.setPoison_mem (s : State) (k : Nat) (b : Bool) : (s.setPoison k b).mem = s.mem := rfl
@[simp] theorem State.setPoison_tags (s : State) (k : Nat) (b : Bool) : (s.setPoison k b).tags = s.tags := rfl
@[simp] theorem State.setPoison_stores (s : State) (k : Nat) (b : Bool) : (s.setPoison k b).stores = s.stores := rfl
@[simp] theorem State.setPoison_passed (s : State) (k : Nat) (b : Bool) : (s.setPoison k b).passed = s.passed := rfl
@[simp] theorem State.setPoison_groups (s : State) (k : Nat) (b : Bool) : (s.setPoison k b).groups = s.groups := rfl
@[simp] theorem State.setPoison_blocks (s : State) (k : Nat) (b : Bool) : (s.setPoison k b).blocks = s.blocks := rfl
@[simp] theorem State.setPoison_ctxs (s : State) (k : Nat) (b : Bool) : (s.setPoison k b).ctxs = s.ctxs := rfl
@[simp] theorem State.setPoison_producers (s : State) (k : Nat) (b : Bool) : (s.setPoison k b).producers = s.producers := rfl
@[simp] theorem State.countLeaf_cur (s : State) (core slot leaf : Nat) : (s.countLeaf core slot leaf).cur = s.cur := rfl
@[simp] theorem State.countLeaf_clk (s : State) (core slot leaf : Nat) : (s.countLeaf core slot leaf).clk = s.clk := rfl
@[simp] theorem State.countLeaf_tick (s : State) (core slot leaf : Nat) : (s.countLeaf core slot leaf).tick = s.tick := rfl
@[simp] theorem State.countLeaf_nextId (s : State) (core slot leaf : Nat) : (s.countLeaf core slot leaf).nextId = s.nextId := rfl
@[simp] theorem State.countLeaf_mem (s : State) (core slot leaf : Nat) : (s.countLeaf core slot leaf).mem = s.mem := rfl
@[simp] theorem State.countLeaf_tags (s : State) (core slot leaf : Nat) : (s.countLeaf core slot leaf).tags = s.tags := rfl
@[simp] theorem State.countLeaf_stores (s : State) (core slot leaf : Nat) : (s.countLeaf core slot leaf).stores = s.stores := rfl
@[simp] theorem State.countLeaf_passed (s : State) (core slot leaf : Nat) : (s.countLeaf core slot leaf).passed = s.passed := rfl
@[simp] theorem State.countLeaf_groups (s : State) (core slot leaf : Nat) : (s.countLeaf core slot leaf).groups = s.groups := rfl
@[simp] theorem State.countLeaf_blocks (s : State) (core slot leaf : Nat) : (s.countLeaf core slot leaf).blocks = s.blocks := rfl
@[simp] theorem State.countLeaf_ctxs (s : State) (core slot leaf : Nat) : (s.countLeaf core slot leaf).ctxs = s.ctxs := rfl
@[simp] theorem State.countLeaf_producers (s : State) (core slot leaf : Nat) : (s.countLeaf core slot leaf).producers = s.producers := rfl
@[simp] theorem State.wakeAll_cur (s : State) (p : Wait → Bool) : (s.wakeAll p).cur = s.cur := rfl
@[simp] theorem State.wakeAll_clk (s : State) (p : Wait → Bool) : (s.wakeAll p).clk = s.clk := rfl
@[simp] theorem State.wakeAll_tick (s : State) (p : Wait → Bool) : (s.wakeAll p).tick = s.tick := rfl
@[simp] theorem State.wakeAll_nextId (s : State) (p : Wait → Bool) : (s.wakeAll p).nextId = s.nextId := rfl
@[simp] theorem State.wakeAll_mem (s : State) (p : Wait → Bool) : (s.wakeAll p).mem = s.mem := rfl
@[simp] theorem State.wakeAll_tags (s : State) (p : Wait → Bool) : (s.wakeAll p).tags = s.tags := rfl
@[simp] theorem State.wakeAll_stores (s : State) (p : Wait → Bool) : (s.wakeAll p).stores = s.stores := rfl
@[simp] theorem State.wakeAll_passed (s : State) (p : Wait → Bool) : (s.wakeAll p).passed = s.passed := rfl
@[simp] theorem State.wakeAll_blocks (s : State) (p : Wait → Bool) : (s.wakeAll p).blocks = s.blocks := rfl
@[simp] theorem State.wakeAll_ctxs (s : State) (p : Wait → Bool) : (s.wakeAll p).ctxs = s.ctxs := rfl
@[simp] theorem State.wakeAll_producers (s : State) (p : Wait → Bool) : (s.wakeAll p).producers = s.producers := rfl
@[simp] theorem State.dropXlats_cur (s : State) (ctx : Nat) : (s.dropXlats ctx).cur = s.cur := rfl
@[simp] theorem State.dropXlats_clk (s : State) (ctx : Nat) : (s.dropXlats ctx).clk = s.clk := rfl
@[simp] theorem State.dropXlats_tick (s : State) (ctx : Nat) : (s.dropXlats ctx).tick = s.tick := rfl
@[simp] theorem State.dropXlats_nextId (s : State) (ctx : Nat) : (s.dropXlats ctx).nextId = s.nextId := rfl
@[simp] theorem State.dropXlats_mem (s : State) (ctx : Nat) : (s.dropXlats ctx).mem = s.mem := rfl
@[simp] theorem State.dropXlats_tags (s : State) (ctx : Nat) : (s.dropXlats ctx).tags = s.tags := rfl
@[simp] theorem State.dropXlats_stores (s : State) (ctx : Nat) : (s.dropXlats ctx).stores = s.stores := rfl
@[simp] theorem State.dropXlats_passed (s : State) (ctx : Nat) : (s.dropXlats ctx).passed = s.passed := rfl
@[simp] theorem State.dropXlats_groups (s : State) (ctx : Nat) : (s.dropXlats ctx).groups = s.groups := rfl
@[simp] theorem State.dropXlats_blocks (s : State) (ctx : Nat) : (s.dropXlats ctx).blocks = s.blocks := rfl
@[simp] theorem State.dropXlats_ctxs (s : State) (ctx : Nat) : (s.dropXlats ctx).ctxs = s.ctxs := rfl
@[simp] theorem State.dropXlats_producers (s : State) (ctx : Nat) : (s.dropXlats ctx).producers = s.producers := rfl

@[simp] theorem State.tickOn_tick (s : State) : s.tickOn.tick = s.tick + 1 := rfl
@[simp] theorem State.tickOn_powered (s : State) : s.tickOn.powered = s.powered := rfl
@[simp] theorem State.tickOn_inbox (s : State) : s.tickOn.inbox = s.inbox := rfl
@[simp] theorem State.popInput_inbox (s : State) : s.popInput.inbox = s.inbox.tail := rfl
@[simp] theorem State.tickOn_group? (s : State) (id : Nat) : s.tickOn.group? id = s.group? id := rfl
@[simp] theorem State.tickOn_ctxOf (s : State) (g : Group) : s.tickOn.ctxOf g = s.ctxOf g := rfl
@[simp] theorem State.tickOn_byteAt (s : State) (k : Nat) : s.tickOn.byteAt k = s.byteAt k := rfl
@[simp] theorem State.tickOn_numAt (s : State) (k n : Nat) : s.tickOn.numAt k n = s.numAt k n := rfl
@[simp] theorem State.updGroup_byteAt (s : State) (id : Nat) (f : Group → Group) (k : Nat) : (s.updGroup id f).byteAt k = s.byteAt k := rfl
@[simp] theorem State.updBlock_byteAt (s : State) (id : Nat) (f : Block → Block) (k : Nat) : (s.updBlock id f).byteAt k = s.byteAt k := rfl
@[simp] theorem State.updCtx_byteAt (s : State) (n : Nat) (f : Ctx → Ctx) (k : Nat) : (s.updCtx n f).byteAt k = s.byteAt k := rfl

/-! Fibres and groups. -/

@[simp] theorem Fibre.goesOn_lane (f : Fibre) (p : Word) : (f.goesOn p).lane = f.lane := rfl
@[simp] theorem Fibre.goesOn_vregs (f : Fibre) (p : Word) : (f.goesOn p).vregs = f.vregs := rfl
@[simp] theorem Fibre.goesOn_vtags (f : Fibre) (p : Word) : (f.goesOn p).vtags = f.vtags := rfl
@[simp] theorem Fibre.goesOn_pred (f : Fibre) (p : Word) : (f.goesOn p).pred = f.pred := rfl
@[simp] theorem Fibre.goesOn_predBusy (f : Fibre) (p : Word) : (f.goesOn p).predBusy = f.predBusy := rfl
@[simp] theorem Fibre.goesOn_status (f : Fibre) (p : Word) : (f.goesOn p).status = f.status := rfl
@[simp] theorem Fibre.goesOn_flags (f : Fibre) (p : Word) : (f.goesOn p).flags = f.flags := rfl
@[simp] theorem Fibre.goesOn_epc (f : Fibre) (p : Word) : (f.goesOn p).epc = f.epc := rfl
@[simp] theorem Fibre.goesOn_cause (f : Fibre) (p : Word) : (f.goesOn p).cause = f.cause := rfl
@[simp] theorem Fibre.goesOn_trapval (f : Fibre) (p : Word) : (f.goesOn p).trapval = f.trapval := rfl
@[simp] theorem Fibre.goesOn_trapvalh (f : Fibre) (p : Word) : (f.goesOn p).trapvalh = f.trapvalh := rfl
@[simp] theorem Fibre.goesOn_estatus (f : Fibre) (p : Word) : (f.goesOn p).estatus = f.estatus := rfl
@[simp] theorem Fibre.goesOn_ereg (f : Fibre) (p : Word) : (f.goesOn p).ereg = f.ereg := rfl
@[simp] theorem Fibre.goesOn_link (f : Fibre) (p : Word) : (f.goesOn p).link = f.link := rfl
@[simp] theorem Fibre.goesOn_marks (f : Fibre) (p : Word) : (f.goesOn p).marks = f.marks := rfl
@[simp] theorem Fibre.goesOn_turn (f : Fibre) (p : Word) : (f.goesOn p).turn = f.turn := rfl
@[simp] theorem Fibre.goesOn_aset (f : Fibre) (p : Word) : (f.goesOn p).aset = f.aset := rfl
@[simp] theorem Fibre.goesOn_parked (f : Fibre) (p : Word) : (f.goesOn p).parked = f.parked := rfl
@[simp] theorem Fibre.goesOn_pc (f : Fibre) (p : Word) : (f.goesOn p).pc = p := rfl
@[simp] theorem Fibre.goesOn_wait (f : Fibre) (p : Word) : (f.goesOn p).wait = none := rfl
@[simp] theorem Fibre.setV_pred (f : Fibre) (p : Nat) (c : RegCell) : (f.setV p c).pred = f.pred := rfl
@[simp] theorem Fibre.setV_predBusy (f : Fibre) (p : Nat) (c : RegCell) : (f.setV p c).predBusy = f.predBusy := rfl
@[simp] theorem Fibre.setV_status (f : Fibre) (p : Nat) (c : RegCell) : (f.setV p c).status = f.status := rfl
@[simp] theorem Fibre.setV_flags (f : Fibre) (p : Nat) (c : RegCell) : (f.setV p c).flags = f.flags := rfl
@[simp] theorem Fibre.setV_epc (f : Fibre) (p : Nat) (c : RegCell) : (f.setV p c).epc = f.epc := rfl
@[simp] theorem Fibre.setV_cause (f : Fibre) (p : Nat) (c : RegCell) : (f.setV p c).cause = f.cause := rfl
@[simp] theorem Fibre.setV_trapval (f : Fibre) (p : Nat) (c : RegCell) : (f.setV p c).trapval = f.trapval := rfl
@[simp] theorem Fibre.setV_trapvalh (f : Fibre) (p : Nat) (c : RegCell) : (f.setV p c).trapvalh = f.trapvalh := rfl
@[simp] theorem Fibre.setV_estatus (f : Fibre) (p : Nat) (c : RegCell) : (f.setV p c).estatus = f.estatus := rfl
@[simp] theorem Fibre.setV_ereg (f : Fibre) (p : Nat) (c : RegCell) : (f.setV p c).ereg = f.ereg := rfl
@[simp] theorem Fibre.setV_link (f : Fibre) (p : Nat) (c : RegCell) : (f.setV p c).link = f.link := rfl
@[simp] theorem Fibre.setV_marks (f : Fibre) (p : Nat) (c : RegCell) : (f.setV p c).marks = f.marks := rfl
@[simp] theorem Fibre.setV_turn (f : Fibre) (p : Nat) (c : RegCell) : (f.setV p c).turn = f.turn := rfl
@[simp] theorem Fibre.setV_aset (f : Fibre) (p : Nat) (c : RegCell) : (f.setV p c).aset = f.aset := rfl
@[simp] theorem Fibre.setV_parked (f : Fibre) (p : Nat) (c : RegCell) : (f.setV p c).parked = f.parked := rfl
@[simp] theorem Fibre.setPred_vregs (f : Fibre) (p : Fin 8) (b : Bool) : (f.setPred p b).vregs = f.vregs := rfl
@[simp] theorem Fibre.setPred_vtags (f : Fibre) (p : Fin 8) (b : Bool) : (f.setPred p b).vtags = f.vtags := rfl
@[simp] theorem Fibre.setPred_predBusy (f : Fibre) (p : Fin 8) (b : Bool) : (f.setPred p b).predBusy = f.predBusy := rfl
@[simp] theorem Fibre.setPred_status (f : Fibre) (p : Fin 8) (b : Bool) : (f.setPred p b).status = f.status := rfl
@[simp] theorem Fibre.setPred_flags (f : Fibre) (p : Fin 8) (b : Bool) : (f.setPred p b).flags = f.flags := rfl
@[simp] theorem Fibre.setPred_epc (f : Fibre) (p : Fin 8) (b : Bool) : (f.setPred p b).epc = f.epc := rfl
@[simp] theorem Fibre.setPred_cause (f : Fibre) (p : Fin 8) (b : Bool) : (f.setPred p b).cause = f.cause := rfl
@[simp] theorem Fibre.setPred_trapval (f : Fibre) (p : Fin 8) (b : Bool) : (f.setPred p b).trapval = f.trapval := rfl
@[simp] theorem Fibre.setPred_trapvalh (f : Fibre) (p : Fin 8) (b : Bool) : (f.setPred p b).trapvalh = f.trapvalh := rfl
@[simp] theorem Fibre.setPred_estatus (f : Fibre) (p : Fin 8) (b : Bool) : (f.setPred p b).estatus = f.estatus := rfl
@[simp] theorem Fibre.setPred_ereg (f : Fibre) (p : Fin 8) (b : Bool) : (f.setPred p b).ereg = f.ereg := rfl
@[simp] theorem Fibre.setPred_link (f : Fibre) (p : Fin 8) (b : Bool) : (f.setPred p b).link = f.link := rfl
@[simp] theorem Fibre.setPred_marks (f : Fibre) (p : Fin 8) (b : Bool) : (f.setPred p b).marks = f.marks := rfl
@[simp] theorem Fibre.setPred_turn (f : Fibre) (p : Fin 8) (b : Bool) : (f.setPred p b).turn = f.turn := rfl
@[simp] theorem Fibre.setPred_aset (f : Fibre) (p : Fin 8) (b : Bool) : (f.setPred p b).aset = f.aset := rfl
@[simp] theorem Fibre.setPred_parked (f : Fibre) (p : Fin 8) (b : Bool) : (f.setPred p b).parked = f.parked := rfl
@[simp] theorem Group.setS_id (g : Group) (n : Nat) (c : RegCell) : (g.setS n c).id = g.id := rfl
@[simp] theorem Group.updFibre_id (g : Group) (l : Fin 32) (f : Fibre → Fibre) : (g.updFibre l f).id = g.id := rfl
@[simp] theorem Group.updBatch_id (g : Group) (ls : List (Fin 32)) (f : Fibre → Fibre) : (g.updBatch ls f).id = g.id := rfl
@[simp] theorem Group.setS_block (g : Group) (n : Nat) (c : RegCell) : (g.setS n c).block = g.block := rfl
@[simp] theorem Group.updFibre_block (g : Group) (l : Fin 32) (f : Fibre → Fibre) : (g.updFibre l f).block = g.block := rfl
@[simp] theorem Group.updBatch_block (g : Group) (ls : List (Fin 32)) (f : Fibre → Fibre) : (g.updBatch ls f).block = g.block := rfl
@[simp] theorem Group.setS_core (g : Group) (n : Nat) (c : RegCell) : (g.setS n c).core = g.core := rfl
@[simp] theorem Group.updFibre_core (g : Group) (l : Fin 32) (f : Fibre → Fibre) : (g.updFibre l f).core = g.core := rfl
@[simp] theorem Group.updBatch_core (g : Group) (ls : List (Fin 32)) (f : Fibre → Fibre) : (g.updBatch ls f).core = g.core := rfl
@[simp] theorem Group.setS_slot (g : Group) (n : Nat) (c : RegCell) : (g.setS n c).slot = g.slot := rfl
@[simp] theorem Group.updFibre_slot (g : Group) (l : Fin 32) (f : Fibre → Fibre) : (g.updFibre l f).slot = g.slot := rfl
@[simp] theorem Group.updBatch_slot (g : Group) (ls : List (Fin 32)) (f : Fibre → Fibre) : (g.updBatch ls f).slot = g.slot := rfl
@[simp] theorem Group.setS_regsN (g : Group) (n : Nat) (c : RegCell) : (g.setS n c).regsN = g.regsN := rfl
@[simp] theorem Group.updFibre_regsN (g : Group) (l : Fin 32) (f : Fibre → Fibre) : (g.updFibre l f).regsN = g.regsN := rfl
@[simp] theorem Group.updBatch_regsN (g : Group) (ls : List (Fin 32)) (f : Fibre → Fibre) : (g.updBatch ls f).regsN = g.regsN := rfl
@[simp] theorem Group.setS_fibres (g : Group) (n : Nat) (c : RegCell) : (g.setS n c).fibres = g.fibres := rfl
@[simp] theorem Group.setS_tiles (g : Group) (n : Nat) (c : RegCell) : (g.setS n c).tiles = g.tiles := rfl
@[simp] theorem Group.updFibre_tiles (g : Group) (l : Fin 32) (f : Fibre → Fibre) : (g.updFibre l f).tiles = g.tiles := rfl
@[simp] theorem Group.updBatch_tiles (g : Group) (ls : List (Fin 32)) (f : Fibre → Fibre) : (g.updBatch ls f).tiles = g.tiles := rfl
@[simp] theorem Group.setS_tcs (g : Group) (n : Nat) (c : RegCell) : (g.setS n c).tcs = g.tcs := rfl
@[simp] theorem Group.updFibre_tcs (g : Group) (l : Fin 32) (f : Fibre → Fibre) : (g.updFibre l f).tcs = g.tcs := rfl
@[simp] theorem Group.updBatch_tcs (g : Group) (ls : List (Fin 32)) (f : Fibre → Fibre) : (g.updBatch ls f).tcs = g.tcs := rfl

end Sys2Proof.Machine
end

