-- ==== Sys2Proof/Laws/PerInstr.lean ====
section
/-! SUPPORT. Per instruction: the word of an instruction fits its length, and bit 0 tells the length (spec/02, R42; spec/03, R50). -/
namespace Sys2Proof.Laws.Encoding

/-- A field list fits the sum of its widths. -/
theorem pack_lt : ∀ fs : List (Nat × Nat), pack fs < 2 ^ (fs.map Prod.snd).sum
  | [] => by simp [pack]
  | (v, n) :: r => by
    have h := pack_lt r
    have hv : v % 2 ^ n < 2 ^ n := Nat.mod_lt _ (Nat.two_pow_pos n)
    simp only [pack, List.map_cons, List.sum_cons, Nat.pow_add]
    calc v % 2 ^ n + 2 ^ n * pack r < 2 ^ n + 2 ^ n * pack r := by omega
      _ = 2 ^ n * (pack r + 1) := by ring
      _ ≤ _ := Nat.mul_le_mul_left _ h

/-- The lowest field of a list is the number's low bits, and the rest stands above it. -/
theorem pack_mod (v n : Nat) (r : List (Nat × Nat)) : pack ((v, n) :: r) % 2 ^ n = v % 2 ^ n := by
  simp [pack, Nat.add_mul_mod_self_left]

theorem pack_div (v n : Nat) (r : List (Nat × Nat)) : pack ((v, n) :: r) / 2 ^ n = pack r := by
  have h : v % 2 ^ n < 2 ^ n := Nat.mod_lt _ (Nat.two_pow_pos n)
  rw [pack, Nat.add_mul_div_left _ _ (Nat.two_pow_pos n), Nat.div_eq_of_lt h, Nat.zero_add]

/-- A field that starts above the lowest one is read from the rest. -/
theorem fld_pack (v n lo w : Nat) (r : List (Nat × Nat)) : fld (pack ((v, n) :: r)) (n + lo) w = fld (pack r) lo w := by
  rw [fld, fld, Nat.pow_add, ← Nat.div_div_eq_div_mul, pack_div]

/-- The lowest field is read back. -/
theorem fld_pack_zero (v n : Nat) (r : List (Nat × Nat)) (h : v < 2 ^ n) : fld (pack ((v, n) :: r)) 0 n = v := by
  rw [fld, Nat.pow_zero, Nat.div_one, pack_mod, Nat.mod_eq_of_lt h]

/-- The word of an instruction, where it has one, has 2 or 4 bytes, fits them, and its bit 0 tells which. -/
def Statement (i : Instr) : Prop :=
  ∀ w n, encodeWord i = some (w, n) → (n = 4 ∧ w < 2 ^ 32 ∧ w % 2 = 1) ∨ (n = 2 ∧ w < 2 ^ 16 ∧ w % 2 = 0)

theorem fits32 {i : Instr} {m : Nat} {fs : List (Nat × Nat)} (h : encodeWord i = some (word32 m fs, 4))
    (hs : (fs.map Prod.snd).sum = 24) : Statement i := by
  intro w n hw
  rw [h] at hw
  cases hw
  have hl := pack_lt ((1, 1) :: (m, 7) :: fs)
  simp only [List.map_cons, List.sum_cons, hs] at hl
  exact .inl ⟨rfl, hl, pack_mod 1 1 _⟩

theorem fits16 {i : Instr} {v n : Nat} {fs : List (Nat × Nat)} (h : encodeWord i = some (pack ((v, n + 1) :: fs), 2))
    (hs : (fs.map Prod.snd).sum + n = 15) (hv : v % 2 = 0) : Statement i := by
  intro w k hw
  rw [h] at hw
  cases hw
  have hl := pack_lt ((v, n + 1) :: fs)
  have e : n + 1 + (fs.map Prod.snd).sum = 16 := by omega
  simp only [List.map_cons, List.sum_cons, e] at hl
  refine .inr ⟨rfl, hl, ?_⟩
  have h1 := pack_mod v (n + 1) fs
  have h2 : 2 ∣ 2 ^ (n + 1) := Dvd.intro_left (2 ^ n) rfl
  rw [← Nat.mod_mod_of_dvd _ h2, h1, Nat.mod_mod_of_dvd _ h2, hv]

theorem event {i : Instr} (h : encodeWord i = none) : Statement i := by
  intro w n hw
  rw [h] at hw
  cases hw

theorem add (o : Rrr) : Statement (.add o) := fits32 rfl rfl
theorem sub (o : Rrr) : Statement (.sub o) := fits32 rfl rfl
theorem mul (o : Rrr) : Statement (.mul o) := fits32 rfl rfl
theorem mulhi (o : Rrr) : Statement (.mulhi o) := fits32 rfl rfl
theorem mad (o : Rrr) : Statement (.mad o) := fits32 rfl rfl
theorem div (o : Rrr) : Statement (.div o) := fits32 rfl rfl
theorem rem (o : Rrr) : Statement (.rem o) := fits32 rfl rfl
theorem min (o : Rrr) : Statement (.min o) := fits32 rfl rfl
theorem max (o : Rrr) : Statement (.max o) := fits32 rfl rfl
theorem and (o : Rrr) : Statement (.and o) := fits32 rfl rfl
theorem or (o : Rrr) : Statement (.or o) := fits32 rfl rfl
theorem xor (o : Rrr) : Statement (.xor o) := fits32 rfl rfl
theorem andn (o : Rrr) : Statement (.andn o) := fits32 rfl rfl
theorem shl (o : Rrr) : Statement (.shl o) := fits32 rfl rfl
theorem shr (o : Rrr) : Statement (.shr o) := fits32 rfl rfl
theorem sar (o : Rrr) : Statement (.sar o) := fits32 rfl rfl
theorem shli (o : ShiftImm) : Statement (.shli o) := fits32 rfl rfl
theorem shri (o : ShiftImm) : Statement (.shri o) := fits32 rfl rfl
theorem sari (o : ShiftImm) : Statement (.sari o) := fits32 rfl rfl
theorem mov (o : Rr) : Statement (.mov o) := fits32 rfl rfl
theorem abs (o : Rr) : Statement (.abs o) := fits32 rfl rfl
theorem clz (o : Rr) : Statement (.clz o) := fits32 rfl rfl
theorem popc (o : Rr) : Statement (.popc o) := fits32 rfl rfl
theorem brev (o : Rr) : Statement (.brev o) := fits32 rfl rfl
theorem bfx (o : Rrr) : Statement (.bfx o) := fits32 rfl rfl
theorem bfi (o : Rrr) : Statement (.bfi o) := fits32 rfl rfl
theorem lea (o : Rrr) : Statement (.lea o) := fits32 rfl rfl
theorem cmp (o : CmpReg) : Statement (.cmp o) := fits32 rfl rfl
theorem cmpi (o : CmpImm) : Statement (.cmpi o) := fits32 rfl rfl
theorem sel (o : Select) : Statement (.sel o) := fits32 rfl rfl
theorem plop (o : PredOp) : Statement (.plop o) := fits32 rfl rfl
theorem movi (i : BitVec 17) (d : Reg) : Statement (.movi i d) := fits32 rfl rfl
theorem movhi (i : BitVec 16) (d : Reg) : Statement (.movhi i d) := fits32 rfl rfl
theorem rdsr (n : Fin 128) (d : Reg) : Statement (.rdsr n d) := fits32 rfl rfl
theorem wrsr (n : Fin 128) (fa : Bool) (a : Reg) : Statement (.wrsr n fa a) := fits32 rfl rfl
theorem modeSet (rat : Bool) (rnd : Rnd) : Statement (.modeSet rat rnd) := fits32 rfl rfl
theorem addi (o : RegImm) : Statement (.addi o) := fits32 rfl rfl
theorem andi (o : RegImm) : Statement (.andi o) := fits32 rfl rfl
theorem ori (o : RegImm) : Statement (.ori o) := fits32 rfl rfl
theorem xori (o : RegImm) : Statement (.xori o) := fits32 rfl rfl
theorem br (o : Jump) : Statement (.br o) := fits32 rfl rfl
theorem call (o : Jump) : Statement (.call o) := fits32 rfl rfl
theorem jr (o : RegImm) : Statement (.jr o) := fits32 rfl rfl
theorem trap (i : BitVec 17) : Statement (.trap i) := fits32 rfl rfl
theorem brk (i : BitVec 17) : Statement (.brk i) := fits32 rfl rfl
theorem guard (neg : Bool) (p : Fin 8) : Statement (.guard neg p) := fits16 rfl rfl rfl
theorem dref (e : Fin 1024) : Statement (.dref e) := fits16 rfl rfl rfl
theorem addS32Compact (o : Compact) : Statement (.addS32Compact o) := fits16 rfl rfl rfl
theorem subS32Compact (o : Compact) : Statement (.subS32Compact o) := fits16 rfl rfl rfl
theorem mulS32Compact (o : Compact) : Statement (.mulS32Compact o) := fits16 rfl rfl rfl
theorem andCompact (o : Compact) : Statement (.andCompact o) := fits16 rfl rfl rfl
theorem orCompact (o : Compact) : Statement (.orCompact o) := fits16 rfl rfl rfl
theorem xorCompact (o : Compact) : Statement (.xorCompact o) := fits16 rfl rfl rfl
theorem shlS32Compact (o : Compact) : Statement (.shlS32Compact o) := fits16 rfl rfl rfl
theorem shrN32Compact (o : Compact) : Statement (.shrN32Compact o) := fits16 rfl rfl rfl
theorem sarS32Compact (o : Compact) : Statement (.sarS32Compact o) := fits16 rfl rfl rfl
theorem minS32Compact (o : Compact) : Statement (.minS32Compact o) := fits16 rfl rfl rfl
theorem maxS32Compact (o : Compact) : Statement (.maxS32Compact o) := fits16 rfl rfl rfl
theorem movCompact (o : Compact) : Statement (.movCompact o) := fits16 rfl rfl rfl
theorem faddF32Compact (o : Compact) : Statement (.faddF32Compact o) := fits16 rfl rfl rfl
theorem fsubF32Compact (o : Compact) : Statement (.fsubF32Compact o) := fits16 rfl rfl rfl
theorem fmulF32Compact (o : Compact) : Statement (.fmulF32Compact o) := fits16 rfl rfl rfl
theorem fmaxF32Compact (o : Compact) : Statement (.fmaxF32Compact o) := fits16 rfl rfl rfl
theorem fadd (o : Rrr) : Statement (.fadd o) := fits32 rfl rfl
theorem fsub (o : Rrr) : Statement (.fsub o) := fits32 rfl rfl
theorem fmul (o : Rrr) : Statement (.fmul o) := fits32 rfl rfl
theorem fma (o : Rrr) : Statement (.fma o) := fits32 rfl rfl
theorem fdiv (o : Rrr) : Statement (.fdiv o) := fits32 rfl rfl
theorem fmin (o : Rrr) : Statement (.fmin o) := fits32 rfl rfl
theorem fmax (o : Rrr) : Statement (.fmax o) := fits32 rfl rfl
theorem fcpys (o : Rrr) : Statement (.fcpys o) := fits32 rfl rfl
theorem fcmp (o : CmpReg) : Statement (.fcmp o) := fits32 rfl rfl
theorem fsqrt (o : FUnary) : Statement (.fsqrt o) := fits32 rfl rfl
theorem fabs (o : FUnary) : Statement (.fabs o) := fits32 rfl rfl
theorem fneg (o : FUnary) : Statement (.fneg o) := fits32 rfl rfl
theorem fclass (o : FUnary) : Statement (.fclass o) := fits32 rfl rfl
theorem frnd (o : FUnary) : Statement (.frnd o) := fits32 rfl rfl
theorem sfuEx2 (o : FUnary) : Statement (.sfuEx2 o) := fits32 rfl rfl
theorem sfuLg2 (o : FUnary) : Statement (.sfuLg2 o) := fits32 rfl rfl
theorem sfuSin (o : FUnary) : Statement (.sfuSin o) := fits32 rfl rfl
theorem sfuCos (o : FUnary) : Statement (.sfuCos o) := fits32 rfl rfl
theorem sfuRcp (o : FUnary) : Statement (.sfuRcp o) := fits32 rfl rfl
theorem sfuRsq (o : FUnary) : Statement (.sfuRsq o) := fits32 rfl rfl
theorem sfuTanh (o : FUnary) : Statement (.sfuTanh o) := fits32 rfl rfl
theorem qnum (o : FUnary) : Statement (.qnum o) := fits32 rfl rfl
theorem qden (o : FUnary) : Statement (.qden o) := fits32 rfl rfl
theorem cvti (o : CvtInt) : Statement (.cvti o) := fits32 rfl rfl
theorem cvtf (o : CvtInt) : Statement (.cvtf o) := fits32 rfl rfl
theorem cvtw (o : CvtWide) : Statement (.cvtw o) := fits32 rfl rfl
theorem cvtn (o : CvtNarrow) : Statement (.cvtn o) := fits32 rfl rfl
theorem cvtx (o : CvtNarrow) : Statement (.cvtx o) := fits32 rfl rfl
theorem pkp (o : Plane) : Statement (.pkp o) := fits32 rfl rfl
theorem upkp (o : Plane) : Statement (.upkp o) := fits32 rfl rfl
theorem qmake (o : Rrr) : Statement (.qmake o) := fits32 rfl rfl
theorem qlim (o : Rrr) : Statement (.qlim o) := fits32 rfl rfl
theorem fadd16 (o : Rrr) : Statement (.fadd16 o) := fits32 rfl rfl
theorem fsub16 (o : Rrr) : Statement (.fsub16 o) := fits32 rfl rfl
theorem fmul16 (o : Rrr) : Statement (.fmul16 o) := fits32 rfl rfl
theorem fma16 (o : Rrr) : Statement (.fma16 o) := fits32 rfl rfl
theorem fmin16 (o : Rrr) : Statement (.fmin16 o) := fits32 rfl rfl
theorem fmax16 (o : Rrr) : Statement (.fmax16 o) := fits32 rfl rfl
theorem fcmp16 (o : CmpReg) : Statement (.fcmp16 o) := fits32 rfl rfl
theorem ld (o : MemImm) : Statement (.ld o) := fits32 rfl rfl
theorem ldS (o : MemImm) : Statement (.ldS o) := fits32 rfl rfl
theorem ldx (o : MemIdx) : Statement (.ldx o) := fits32 rfl rfl
theorem ldxS (o : MemIdx) : Statement (.ldxS o) := fits32 rfl rfl
theorem st (o : MemImm) : Statement (.st o) := fits32 rfl rfl
theorem stx (o : MemIdx) : Statement (.stx o) := fits32 rfl rfl
theorem ldAcq (o : MemImm) : Statement (.ldAcq o) := fits32 rfl rfl
theorem stRel (o : MemImm) : Statement (.stRel o) := fits32 rfl rfl
theorem ldc (o : MemCap) : Statement (.ldc o) := fits32 rfl rfl
theorem stc (o : MemCap) : Statement (.stc o) := fits32 rfl rfl
theorem cder (o : CapQuad) : Statement (.cder o) := fits32 rfl rfl
theorem cperm (o : CapReg) : Statement (.cperm o) := fits32 rfl rfl
theorem cget (f : Fin 7) (fa : Bool) (a : Quad) (d : Reg) : Statement (.cget f fa a d) := fits32 rfl rfl
theorem ctag (fa : Bool) (a : Quad) (d : Reg) : Statement (.ctag fa a d) := fits32 rfl rfl
theorem cseal (fa : Bool) (a : Quad) (d : Quad) : Statement (.cseal fa a d) := fits32 rfl rfl
theorem prefL1 (o : MemLine) : Statement (.prefL1 o) := fits32 rfl rfl
theorem prefL2 (o : MemLine) : Statement (.prefL2 o) := fits32 rfl rfl
theorem l1inv (o : MemLine) : Statement (.l1inv o) := fits32 rfl rfl
theorem shfl (o : Rrr) : Statement (.shfl o) := fits32 rfl rfl
theorem voteBallot (p : Fin 8) (d : Reg) : Statement (.voteBallot p d) := fits32 rfl rfl
theorem voteAny (p : Fin 8) (d : Reg) : Statement (.voteAny p d) := fits32 rfl rfl
theorem voteAll (p : Fin 8) (d : Reg) : Statement (.voteAll p d) := fits32 rfl rfl
theorem matchLanes (o : Rr) : Statement (.matchLanes o) := fits32 rfl rfl
theorem scan (o : Scan) : Statement (.scan o) := fits32 rfl rfl
theorem redg (o : Scan) : Statement (.redg o) := fits32 rfl rfl
theorem spawn (o : Spawn) : Statement (.spawn o) := fits32 rfl rfl
theorem fork (o : Fork) : Statement (.fork o) := fits32 rfl rfl
theorem fence (sc : Scope) : Statement (.fence sc) := fits32 rfl rfl
theorem win (n : Fin 16) : Statement (.win n) := fits32 rfl rfl
theorem bara (ord : Bool) (b : Bar) : Statement (.bara ord b) := by
  cases b <;> exact fits32 rfl rfl
theorem barw (ord : Bool) (b : Bar) : Statement (.barw ord b) := by
  cases b <;> exact fits32 rfl rfl
theorem barm (b : Bar) (fa : Bool) (a : Reg) : Statement (.barm b fa a) := by
  cases b <;> exact fits32 rfl rfl
theorem atomAdd (ord : AtomOrd) (o : Atomic) : Statement (.atomAdd ord o) := fits32 rfl rfl
theorem atomMinS (ord : AtomOrd) (o : Atomic) : Statement (.atomMinS ord o) := fits32 rfl rfl
theorem atomMinN (ord : AtomOrd) (o : Atomic) : Statement (.atomMinN ord o) := fits32 rfl rfl
theorem atomMaxS (ord : AtomOrd) (o : Atomic) : Statement (.atomMaxS ord o) := fits32 rfl rfl
theorem atomMaxN (ord : AtomOrd) (o : Atomic) : Statement (.atomMaxN ord o) := fits32 rfl rfl
theorem atomAnd (ord : AtomOrd) (o : Atomic) : Statement (.atomAnd ord o) := fits32 rfl rfl
theorem atomOr (ord : AtomOrd) (o : Atomic) : Statement (.atomOr ord o) := fits32 rfl rfl
theorem atomXor (ord : AtomOrd) (o : Atomic) : Statement (.atomXor ord o) := fits32 rfl rfl
theorem atomXchg (ord : AtomOrd) (o : Atomic) : Statement (.atomXchg ord o) := fits32 rfl rfl
theorem atomCas (ord : AtomOrd) (o : Atomic) : Statement (.atomCas ord o) := fits32 rfl rfl
theorem redAdd (o : Atomic) : Statement (.redAdd o) := fits32 rfl rfl
theorem redMinS (o : Atomic) : Statement (.redMinS o) := fits32 rfl rfl
theorem redMinN (o : Atomic) : Statement (.redMinN o) := fits32 rfl rfl
theorem redMaxS (o : Atomic) : Statement (.redMaxS o) := fits32 rfl rfl
theorem redMaxN (o : Atomic) : Statement (.redMaxN o) := fits32 rfl rfl
theorem redAnd (o : Atomic) : Statement (.redAnd o) := fits32 rfl rfl
theorem redOr (o : Atomic) : Statement (.redOr o) := fits32 rfl rfl
theorem redXor (o : Atomic) : Statement (.redXor o) := fits32 rfl rfl
theorem tcfg (s : Reg) (t : Fin 16) : Statement (.tcfg s t) := fits32 rfl rfl
theorem tcrd (s : Reg) (t : Fin 16) : Statement (.tcrd s t) := fits32 rfl rfl
theorem tld (s : Fin 7) (t : Fin 16) (sx : Bool) (w : Fin 8) : Statement (.tld s t sx w) := fits32 rfl rfl
theorem tst (s : Fin 7) (t : Fin 16) (w : Fin 8) : Statement (.tst s t w) := fits32 rfl rfl
theorem tzero (t : Fin 16) : Statement (.tzero t) := fits32 rfl rfl
theorem macq (m : Fin 16) : Statement (.macq m) := fits32 rfl rfl
theorem mrel (m : Fin 16) : Statement (.mrel m) := fits32 rfl rfl
theorem macqGrant (core : Nat) : Statement (.macqGrant core) := event rfl
theorem mma (o : MatStep) : Statement (.mma o) := fits32 rfl rfl
theorem mmax (o : MatStep) : Statement (.mmax o) := fits32 rfl rfl
theorem msca (qd : Fin 4) (qs : Fin 4) (ta : Fin 16) (tb : Fin 16) : Statement (.msca qd qs ta tb) := fits32 rfl rfl
theorem mloop (s : Fin 6) (m : Fin 16) (ta : Fin 16) (tb : Fin 16) : Statement (.mloop s m ta tb) := fits32 rfl rfl
theorem mloopStep (group : Nat) : Statement (.mloopStep group) := event rfl
theorem acld (s : Fin 7) (q : Fin 4) : Statement (.acld s q) := fits32 rfl rfl
theorem acst (s : Fin 7) (f : Fin 3) (q : Fin 4) : Statement (.acst s f q) := fits32 rfl rfl
theorem acrd (d : Reg) (row : Fin 128) (cb : Fin 4) : Statement (.acrd d row cb) := fits32 rfl rfl
theorem acz (m : Fin 16) : Statement (.acz m) := fits32 rfl rfl
theorem copy (o : CopyOp) : Statement (.copy o) := fits32 rfl rfl
theorem copyg (o : CopyOp) : Statement (.copyg o) := fits32 rfl rfl
theorem copyComplete (copyId : Nat) : Statement (.copyComplete copyId) := event rfl
theorem cadd (o : CtrPair) : Statement (.cadd o) := fits32 rfl rfl
theorem cwait (o : CtrPair) : Statement (.cwait o) := fits32 rfl rfl
theorem ctest (o : CtrTest) : Statement (.ctest o) := fits32 rfl rfl
theorem cread (fa : Bool) (a : Quad) (d : Reg) : Statement (.cread fa a d) := fits32 rfl rfl
theorem cbind (o : CtrBind) : Statement (.cbind o) := fits32 rfl rfl
theorem qpush (o : QueuePush) : Statement (.qpush o) := fits32 rfl rfl
theorem qres (o : QuadReg) : Statement (.qres o) := fits32 rfl rfl
theorem qdone (fa : Bool) (a : Quad) : Statement (.qdone fa a) := fits32 rfl rfl
theorem mark (i : BitVec 17) : Statement (.mark i) := fits32 rfl rfl
theorem ttbind (fb : Bool) (fa : Bool) (b : Quad) (a : Quad) : Statement (.ttbind fb fa b a) := fits32 rfl rfl
theorem hld (o : HistLoad) : Statement (.hld o) := fits32 rfl rfl
theorem hldF (o : HistLoad) : Statement (.hldF o) := fits32 rfl rfl
theorem hldp (o : HistPos) : Statement (.hldp o) := fits32 rfl rfl
theorem hfold (fb : Bool) (fa : Bool) (b : Quad) (a : Quad) : Statement (.hfold fb fa b a) := fits32 rfl rfl
theorem hfoldComplete (foldId : Nat) : Statement (.hfoldComplete foldId) := event rfl
theorem hseal (fa : Bool) (a : Reg) : Statement (.hseal fa a) := fits32 rfl rfl
theorem hopen (fa : Bool) (a : Reg) : Statement (.hopen fa a) := fits32 rfl rfl
theorem tex (o : Texture) : Statement (.tex o) := fits32 rfl rfl
theorem tri (o : CtrTest) : Statement (.tri o) := fits32 rfl rfl
theorem cutsel (o : ThreeQuads) : Statement (.cutsel o) := fits32 rfl rfl
theorem gleanerRequest (die : Nat) : Statement (.gleanerRequest die) := event rfl
theorem trace (o : TwoQuads) : Statement (.trace o) := fits32 rfl rfl
theorem halo (o : ThreeQuads) : Statement (.halo o) := fits32 rfl rfl
theorem haloStripComplete (copyId : Nat) : Statement (.haloStripComplete copyId) := event rfl
theorem kvhash (o : KvHash) : Statement (.kvhash o) := fits32 rfl rfl
theorem kvlookLook (o : TwoQuads) : Statement (.kvlookLook o) := fits32 rfl rfl
theorem kvlookTake (o : TwoQuads) : Statement (.kvlookTake o) := fits32 rfl rfl
theorem kvlookPub (o : TwoQuads) : Statement (.kvlookPub o) := fits32 rfl rfl
theorem kvapp (o : TwoQuads) : Statement (.kvapp o) := fits32 rfl rfl
theorem kvrelDrop (o : QuadReg) : Statement (.kvrelDrop o) := fits32 rfl rfl
theorem kvrelKill (o : TwoQuads) : Statement (.kvrelKill o) := fits32 rfl rfl
theorem kvrelStep (o : QuadReg) : Statement (.kvrelStep o) := fits32 rfl rfl
theorem kvrelUnpin (o : QuadReg) : Statement (.kvrelUnpin o) := fits32 rfl rfl
theorem kvAgentOperation (reqId : Nat) : Statement (.kvAgentOperation reqId) := event rfl
theorem loft (o : QuadReg) : Statement (.loft o) := fits32 rfl rfl
theorem lmerge (o : ThreeQuads) : Statement (.lmerge o) := fits32 rfl rfl
theorem modeAb (loft : Nat) : Statement (.modeAb loft) := event rfl
theorem modeSb (loft : Nat) : Statement (.modeSb loft) := event rfl
theorem bcast (loft : Nat) : Statement (.bcast loft) := event rfl
theorem act (loft : Nat) : Statement (.act loft) := event rfl
theorem mac (loft : Nat) : Statement (.mac loft) := event rfl
theorem rdacc (loft : Nat) : Statement (.rdacc loft) := event rfl
theorem attn (loft : Nat) : Statement (.attn loft) := event rfl
theorem clr (loft : Nat) : Statement (.clr loft) := event rfl
theorem producerComplete (prodId : Nat) : Statement (.producerComplete prodId) := event rfl
theorem pageWalk (walkId : Nat) : Statement (.pageWalk walkId) := event rfl
theorem replayMapped (replayId : Nat) : Statement (.replayMapped replayId) := event rfl
theorem replayDeclined (replayId : Nat) : Statement (.replayDeclined replayId) := event rfl
theorem outackAcknowledge (group : Nat) : Statement (.outackAcknowledge group) := event rfl
theorem counterAdd (addId : Nat) : Statement (.counterAdd addId) := event rfl
theorem cwaitWake (waitId : Nat) : Statement (.cwaitWake waitId) := event rfl
theorem cwaitResend (waitId : Nat) : Statement (.cwaitResend waitId) := event rfl
theorem coalesceTimerExpiry (ctx : Nat) (queue : Nat) : Statement (.coalesceTimerExpiry ctx queue) := event rfl
theorem queueFire (die : Nat) : Statement (.queueFire die) := event rfl
theorem sheafPlace (die : Nat) : Statement (.sheafPlace die) := event rfl
theorem taskTake (core : Nat) : Statement (.taskTake core) := event rfl
theorem blockEnd (block : Nat) : Statement (.blockEnd block) := event rfl
theorem slotCycle (core : Nat) (slot : Nat) : Statement (.slotCycle core slot) := event rfl
theorem pendingPromotion (core : Nat) (slot : Nat) : Statement (.pendingPromotion core slot) := event rfl
theorem batchFairness (core : Nat) (slot : Nat) : Statement (.batchFairness core slot) := event rfl
theorem granaryEntryStart (grid : Nat) (entry : Nat) : Statement (.granaryEntryStart grid entry) := event rfl
theorem granaryEntryComplete (grid : Nat) (entry : Nat) : Statement (.granaryEntryComplete grid entry) := event rfl
theorem quantumExpiry (cluster : Nat) : Statement (.quantumExpiry cluster) := event rfl
theorem preemptRequest (cluster : Nat) : Statement (.preemptRequest cluster) := event rfl
theorem drainBudgetExpiry (block : Nat) : Statement (.drainBudgetExpiry block) := event rfl
theorem flush (block : Nat) : Statement (.flush block) := event rfl
theorem save (block : Nat) : Statement (.save block) := event rfl
theorem blockResume (block : Nat) : Statement (.blockResume block) := event rfl
theorem contextSwitch (cluster : Nat) : Statement (.contextSwitch cluster) := event rfl
theorem baleWrite (block : Nat) : Statement (.baleWrite block) := event rfl
theorem sampleTick (core : Nat) : Statement (.sampleTick core) := event rfl
theorem storePerformed (storeId : Nat) : Statement (.storePerformed storeId) := event rfl
theorem ret : Statement .ret := fits32 rfl rfl
theorem nop : Statement .nop := fits32 rfl rfl
theorem rtt : Statement .rtt := fits32 rfl rfl
theorem fexit : Statement .fexit := fits32 rfl rfl
theorem reconv : Statement .reconv := fits32 rfl rfl
theorem yield : Statement .yield := fits32 rfl rfl
theorem lser : Statement .lser := fits32 rfl rfl
theorem lsend : Statement .lsend := fits32 rfl rfl
theorem cfence : Statement .cfence := fits32 rfl rfl
theorem ill : Statement .ill := fits32 rfl rfl
theorem claim : Statement .claim := event rfl
theorem electionWindowClose : Statement .electionWindowClose := event rfl
theorem ownershipLapse : Statement .ownershipLapse := event rfl
theorem heartbeat : Statement .heartbeat := event rfl
theorem handover : Statement .handover := event rfl
theorem release : Statement .release := event rfl
theorem launch : Statement .launch := event rfl
theorem ctxset : Statement .ctxset := event rfl
theorem inval : Statement .inval := event rfl
theorem revoke : Statement .revoke := event rfl
theorem preempt : Statement .preempt := event rfl
theorem stop : Statement .stop := event rfl
theorem step : Statement .step := event rfl
theorem resume : Statement .resume := event rfl
theorem dump : Statement .dump := event rfl
theorem read : Statement .read := event rfl
theorem attest : Statement .attest := event rfl
theorem fwload : Statement .fwload := event rfl
theorem moduleReset : Statement .moduleReset := event rfl
theorem hostRead : Statement .hostRead := event rfl
theorem hostWrite : Statement .hostWrite := event rfl
theorem subryInbound : Statement .subryInbound := event rfl
theorem flitReplay : Statement .flitReplay := event rfl
theorem linkDown : Statement .linkDown := event rfl
theorem thermal : Statement .thermal := event rfl
theorem thermalPowerDown : Statement .thermalPowerDown := event rfl
theorem eccError : Statement .eccError := event rfl

end Sys2Proof.Laws.Encoding
end

