-- ==== Sys2Proof/Laws/Traps.lean ====
section
/-! SUPPORT. The issue law for units whose acting lanes all trap, and what taking a trap does to a group. -/
namespace Sys2Proof.Machine

/-- Lanes that trap raise their flags. -/
theorem Group.flags_spec : ∀ (xs : List (Fibre × BitVec 6)) (g : Group), (xs.map (·.1.lane)).Nodup →
    (∀ x ∈ xs, g.fibre? x.1.lane = some x.1) →
    let g' := xs.foldl (fun h x => h.updFibre x.1.lane fun f => { f with flags := f.flags ||| x.2 }) g
    g' = { g with fibres := g'.fibres } ∧
    (∀ x ∈ xs, g'.fibre? x.1.lane = some { x.1 with flags := x.1.flags ||| x.2 }) ∧
    ∀ l, l ∉ xs.map (·.1.lane) → g'.fibre? l = g.fibre? l := by
  intro xs
  induction xs with
  | nil => exact fun g _ _ => ⟨rfl, fun x hx => absurd hx (by simp), fun _ _ => rfl⟩
  | cons a r ih =>
    intro g hn hf
    simp only [List.map_cons, List.nodup_cons] at hn
    have hne : ∀ x ∈ r, x.1.lane ≠ a.1.lane := fun x hx e => hn.1 (List.mem_map.2 ⟨x, hx, e⟩)
    have hl : ∀ f : Fibre, ({ f with flags := f.flags ||| a.2 } : Fibre).lane = f.lane := fun _ => rfl
    obtain ⟨i1, i2, i3⟩ := ih (g.updFibre a.1.lane fun f => { f with flags := f.flags ||| a.2 }) hn.2
      (fun x hx => by rw [Group.fibre?_updFibre_ne _ hl (hne x hx)]; exact hf x (by simp [hx]))
    refine ⟨?_, ?_, ?_⟩
    · rw [List.foldl_cons, i1]; rfl
    · intro x hx
      rw [List.foldl_cons]
      rcases List.mem_cons.1 hx with rfl | hx
      · rw [i3 _ (by intro h; obtain ⟨y, hy, e⟩ := List.mem_map.1 h; exact hne y hy e)]
        exact Group.fibre?_updFibre_self _ hl (hf x (by simp))
      · exact i2 x hx
    · intro l hl'
      simp only [List.map_cons, List.mem_cons, not_or] at hl'
      rw [List.foldl_cons, i3 l hl'.2, Group.fibre?_updFibre_ne _ hl hl'.1]

theorem State.handlerOf_congr {s u : State} {g : Group} (h1 : u.ctxs = s.ctxs) (h2 : u.blocks = s.issuedBlocks g) (k : Group)
    (hk : k.block = g.block) : u.handlerOf k = s.handlerOf g := by
  unfold State.handlerOf State.kernelOf State.kernel? State.ctx? State.block?
  rw [h1, h2, hk]
  unfold State.issuedBlocks
  rw [List.find?_map]
  have : ((fun b : Block => decide (b.id = g.block)) ∘ fun b : Block =>
      if b.id = g.block then { b with issues := min (b.issues + 1) (2 ^ 48 - 1) } else b) = fun b => decide (b.id = g.block) := by
    funext b
    by_cases h : b.id = g.block <;> simp [h]
  rw [this]
  cases s.blocks.find? fun b => decide (b.id = g.block) with
  | none => rfl
  | some b =>
    simp only [Option.map_some, Option.bind_some]
    split <;> rfl

/-- A group of lanes that traps, with a handler and outside it. -/
theorem State.enterTrap_spec {s : State} {k : Group} {gid : Nat} {rest : List (Fin 32)} {unit : Word} {ts : List LaneTrap}
    (hk : s.group? gid = some k) (hn : ts ≠ []) (hh : (s.handlerOf k).getLsbD 0 = true)
    (hi : ∀ f ∈ k.fibres, (ts.map (·.lane)).contains f.lane = true → f.ih = false) :
    s.enterTrap gid rest unit ts =
      State.updGroup { s with nextId := s.nextId + 1 } gid fun h =>
        { h with fibres := h.fibres.map (Fibre.takeTrap ts rest unit (s.handlerOf k) s.nextId) } := by
  unfold State.enterTrap
  rw [hk]
  cases ts with
  | nil => exact absurd rfl hn
  | cons t0 r =>
    dsimp only
    have : (k.fibres.filter fun f => ((t0 :: r).map (·.lane)).contains f.lane && (trapKind f (s.handlerOf k)).isSome) = [] := by
      rw [List.filter_eq_nil_iff]
      intro f hf
      by_cases hc : ((t0 :: r).map (·.lane)).contains f.lane = true
      · simp [trapKind, hi f hf hc, hh]
      · simp only [Bool.not_eq_true] at hc; rw [hc]; simp
    rw [this]

theorem State.updGroup_noteIssue (s : State) (g : Group) (c : Cur) (F : Group → Group) :
    (s.noteIssue g c).updGroup g.id F =
      { s with groups := ((s.noteIssue g c).updGroup g.id F).groups, slots := ((s.noteIssue g c).updGroup g.id F).slots,
               blocks := s.issuedBlocks g } := by cases s; rfl

/-- What `Traps` says of the end of a unit, from the state `v` in which its lanes have taken their traps. -/
def State.TrapEnd (n : Nat) (s v : State) (c : Cur) (g : Group) (fs : List Fibre) (tr : Fibre → Trap) (fl : Fibre → BitVec 6) : Prop :=
    (∃ g', (v.endUnit g n).group? g.id = some g' ∧
      g' = { g with fibres := g'.fibres, lastIssue := s.clk, nextAset := g'.nextAset } ∧
      (∀ f ∈ fs, g'.fibre? f.lane = some (f.trapped c.unit (s.handlerOf g) s.nextId (tr f) (fl f))) ∧
      (∀ f ∈ g.batch c.lanes, f ∉ fs →
        g'.fibre? f.lane = some { f.goesOn c.next with splits := s.nextId :: f.splits }) ∧
      (∀ f ∈ g.fibres, c.lanes.contains f.lane = false →
        (f.atReconv = none → g'.fibre? f.lane = some f) ∧
        ∃ f', g'.fibre? f.lane = some f' ∧ f' = { f with pc := f'.pc, wait := f'.wait, aset := f'.aset })) ∧
    (∀ id, id ≠ g.id → (v.endUnit g n).group? id = s.group? id) ∧
    (∀ core slot, ¬(core = g.core ∧ slot = g.slot) → (v.endUnit g n).slotOf core slot = s.slotOf core slot) ∧
    v.endUnit g n = { s with
      cur := none, nextId := s.nextId + 1, groups := (v.endUnit g n).groups, slots := (v.endUnit g n).slots,
      blocks := s.issuedBlocks g }

/-- What `Traps` says of the end of a unit whose state before it is known. -/
theorem State.trapped_of (n : Nat) {s v : State} {c : Cur} {g N : Group} {fs : List Fibre} {tr : Fibre → Trap} {fl : Fibre → BitVec 6}
    (hv : v = { s with cur := v.cur, nextId := s.nextId + 1, groups := v.groups, slots := v.slots, blocks := s.issuedBlocks g })
    (hN : v.group? g.id = some N) (hr : N = { g with fibres := N.fibres, lastIssue := s.clk })
    (hf : ∀ f ∈ fs, N.fibre? f.lane = some (f.trapped c.unit (s.handlerOf g) s.nextId (tr f) (fl f)))
    (ho : ∀ f ∈ g.batch c.lanes, f ∉ fs →
      N.fibre? f.lane = some { f.goesOn c.next with splits := s.nextId :: f.splits })
    (hx : ∀ f ∈ g.fibres, c.lanes.contains f.lane = false → N.fibre? f.lane = some f)
    (hg : ∀ id, id ≠ g.id → v.group? id = s.group? id)
    (hs : ∀ core slot, ¬(core = g.core ∧ slot = g.slot) → v.slotOf core slot = s.slotOf core slot) :
    State.TrapEnd n s v c g fs tr fl := by
  obtain ⟨r1, r2⟩ := Group.settleReconv_spec N
  refine ⟨⟨N.settleReconv, State.endUnit_group n hN, ?_, ?_, ?_, ?_⟩, ?_, ?_, ?_⟩
  · rw [r1, hr]
  · exact fun f h => (r2 _ _ (hf f h)).1 rfl
  · exact fun f h h' => (r2 _ _ (ho f h h')).1 rfl
  · exact fun f h h' => r2 _ _ (hx f h h')
  · exact fun id h => (State.endUnit_others n h).trans (hg id h)
  · exact fun core slot h => (State.endUnit_slots v g n core slot h).trans (hs core slot h)
  · have key : ∀ G S, ({ v with cur := none, groups := G, slots := S } : State) =
        { s with cur := none, nextId := s.nextId + 1, groups := G, slots := S, blocks := s.issuedBlocks g } := by
      intro G S
      rw [hv]
    exact key _ _

/-- The trap of a lane among those of several fibres. -/
theorem LaneTrap.find_of_mem {fs : List Fibre} (tr : Fibre → Trap) (hn : (fs.map (·.lane)).Nodup) {f : Fibre} (hf : f ∈ fs) :
    (fs.map fun f => (⟨f.lane, tr f, 127⟩ : LaneTrap)).find? (fun t => t.lane = f.lane) = some ⟨f.lane, tr f, 127⟩ := by
  induction fs with
  | nil => simp at hf
  | cons a r ih =>
    rw [List.map_cons, List.nodup_cons] at hn
    rw [List.map_cons, List.find?_cons]
    by_cases e : a.lane = f.lane
    · have : f = a := by
        rcases List.mem_cons.1 hf with h | h
        · exact h
        · exact absurd (List.mem_map.2 ⟨f, h, e.symm⟩) hn.1
      subst this
      simp
    · simp only [e, decide_false]
      exact ih hn.2 ((List.mem_cons.1 hf).resolve_left fun h => e (by rw [h]))

theorem LaneTrap.find_none {fs : List Fibre} {tr : Fibre → Trap} {l : Fin 32} (hl : l ∉ fs.map (·.lane)) :
    (fs.map fun f => (⟨f.lane, tr f, 127⟩ : LaneTrap)).find? (fun t => t.lane = l) = none := by
  rw [List.find?_eq_none]
  intro t ht
  obtain ⟨f, hf, rfl⟩ := List.mem_map.1 ht
  simp only [decide_eq_true_eq]
  exact fun e => hl (List.mem_map.2 ⟨f, hf, e⟩)

/-- A fibre outside its handler takes its trap at the handler. -/
theorem Fibre.takeTrap_trapped {fs : List Fibre} {tr : Fibre → Trap} {fl : Fibre → BitVec 6} {h : Word}
    (hn : (fs.map (·.lane)).Nodup) {f : Fibre} (hf : f ∈ fs) (hih : f.ih = false) (hhd : h.getLsbD 0 = true)
    (rest : List (Fin 32)) (unit : Word) (p : Nat) :
    Fibre.takeTrap (fs.map fun f => (⟨f.lane, tr f, 127⟩ : LaneTrap)) rest unit h p { f with flags := f.flags ||| fl f } =
      f.trapped unit h p (tr f) (fl f) := by
  have hk : trapKind ({ f with flags := f.flags ||| fl f } : Fibre) h = none := by
    have : ({ f with flags := f.flags ||| fl f } : Fibre).ih = false := hih
    simp only [trapKind, this, hhd]
    simp
  have e1 : (tr f).val.truncate 32 = (tr f).val.extractLsb' 0 32 := by
    apply BitVec.eq_of_toNat_eq; simp
  have e2 : ((tr f).val >>> 32).truncate 32 = (tr f).val.extractLsb' 32 32 := by
    apply BitVec.eq_of_toNat_eq; simp
  unfold Fibre.takeTrap
  rw [show (fs.map fun f => (⟨f.lane, tr f, 127⟩ : LaneTrap)).find?
      (fun t => t.lane = ({ f with flags := f.flags ||| fl f } : Fibre).lane) = some ⟨f.lane, tr f, 127⟩ from LaneTrap.find_of_mem tr hn hf]
  dsimp only
  rw [hk]
  simp only [Fibre.trapped, Fibre.saveTrap, Fibre.toHandler]
  rw [e1, e2]
  rfl

/-- The lanes of a unit that trap together, outside their handlers: the end of the unit, from the state `u` and the group `M` before
they take their traps. -/
theorem State.enterTrap_end (n : Nat) {s u : State} {c : Cur} {g M : Group} {fs : List Fibre} {tr : Fibre → Trap}
    {fl : Fibre → BitVec 6} {rest : List (Fin 32)}
    (hnd : (fs.map (·.lane)).Nodup) (hne : fs ≠ []) (hih : ∀ f ∈ fs, f.ih = false) (hhd : (s.handlerOf g).getLsbD 0 = true)
    (hu : u.group? g.id = some M) (hM : M = { g with fibres := M.fibres, lastIssue := s.clk })
    (hur : ∀ C G, ({ u with cur := C, nextId := u.nextId + 1, groups := G } : State) =
      { s with cur := C, nextId := s.nextId + 1, groups := G, slots := u.slots, blocks := s.issuedBlocks g })
    (hh : u.handlerOf M = s.handlerOf g) (hid : u.nextId = s.nextId)
    (hMih : ∀ f ∈ M.fibres, f.lane ∈ fs.map (·.lane) → f.ih = false)
    (hMfs : ∀ f ∈ fs, M.fibre? f.lane = some { f with flags := f.flags ||| fl f })
    (hoff : ∀ f ∈ g.batch c.lanes, f ∉ fs →
      M.fibre? f.lane = some (f.goesOn c.next) ∧ f.lane ∉ fs.map (·.lane) ∧ rest.contains f.lane = true)
    (hx : ∀ f ∈ g.fibres, c.lanes.contains f.lane = false →
      M.fibre? f.lane = some f ∧ f.lane ∉ fs.map (·.lane) ∧ ¬ rest.contains f.lane = true)
    (hg : ∀ id, id ≠ g.id → u.group? id = s.group? id)
    (hs : ∀ core slot, ¬(core = g.core ∧ slot = g.slot) → u.slotOf core slot = s.slotOf core slot) :
    State.TrapEnd n s (u.enterTrap g.id rest c.unit (fs.map fun f => (⟨f.lane, tr f, 127⟩ : LaneTrap))) c g fs tr fl := by
  have hlane : (fs.map fun f => (⟨f.lane, tr f, 127⟩ : LaneTrap)).map (·.lane) = fs.map (·.lane) := by rw [List.map_map]; rfl
  rw [State.enterTrap_spec hu (by simpa using hne) (by rw [hh]; exact hhd)
    (fun f hf hc => hMih f hf (by rw [hlane] at hc; simpa using hc)), hh]
  let sv : Fibre → Fibre := Fibre.takeTrap (fs.map fun f => (⟨f.lane, tr f, 127⟩ : LaneTrap)) rest c.unit (s.handlerOf g) u.nextId
  have hsvl : ∀ f, (sv f).lane = f.lane := by
    intro f
    simp only [sv, Fibre.takeTrap]
    split
    · split <;> rfl
    · split <;> rfl
  let v : State := State.updGroup { u with nextId := u.nextId + 1 } g.id fun h => { h with fibres := h.fibres.map sv }
  let N : Group := { M with fibres := M.fibres.map sv }
  have hv : v.group? g.id = some N := by
    have : ({ u with nextId := u.nextId + 1 } : State).group? g.id = some M := hu
    show (State.updGroup _ g.id _).group? g.id = some N
    rw [State.group?_updGroup _ _ _ (fun h : Group => { h with fibres := h.fibres.map sv }) (fun _ => rfl), this]
    have hMid : M.id = g.id := by rw [hM]
    simp [hMid, N]
  have hN : ∀ l, N.fibre? l = (M.fibre? l).map sv := fun l => Group.fibre?_map l sv hsvl rfl
  refine State.trapped_of n (v := v) (N := N) (hur _ _) hv (by rw [show N = { M with fibres := N.fibres } from rfl, hM]) ?_ ?_ ?_ ?_ ?_
  · intro f hf
    have hx := hN f.lane
    rw [hMfs f hf, Option.map_some,
      show sv { f with flags := f.flags ||| fl f } = _ from Fibre.takeTrap_trapped hnd hf (hih f hf) hhd rest c.unit u.nextId, hid] at hx
    exact hx
  · intro f hf hnf
    obtain ⟨h1, hl, hr⟩ := hoff f hf hnf
    have hx := hN f.lane
    have hsv : sv (f.goesOn c.next) = { f.goesOn c.next with splits := s.nextId :: f.splits } := by
      rw [← hid]
      simp only [sv, Fibre.takeTrap]
      rw [show (f.goesOn c.next).lane = f.lane from rfl, LaneTrap.find_none hl]
      dsimp only
      rw [hr]
      rfl
    rw [h1, Option.map_some, hsv] at hx
    exact hx
  · intro f hf hcl
    obtain ⟨h1, hl, hr⟩ := hx f hf hcl
    have hx := hN f.lane
    have hsv : sv f = f := by
      simp only [sv, Fibre.takeTrap]
      rw [LaneTrap.find_none hl]
      dsimp only
      rw [if_neg hr]
    rw [h1, Option.map_some, hsv] at hx
    exact hx
  · exact fun id h => (State.group?_updGroup_ne (s := { u with nextId := u.nextId + 1 })
      (fun h : Group => { h with fibres := h.fibres.map sv }) (fun _ => rfl) h).trans (hg id h)
  · exact hs

/-- The trap law: every acting lane of the unit traps with its own cause, and the effect `E` of the body changes nothing. -/
theorem State.issue_traps {i : Instr} {s : State} {c : Cur} {g : Group} {fs : List Fibre} {fm : Form}
    {body : State → Group → Cur → List Fibre → Body} {tr : Fibre → Trap} {fl : Fibre → BitVec 6}
    (hi : exec i s = .next (s.issue fm body)) (hb : Batch s c g fs fm) (hs : s.sort g c fm = ⟨[], none, c.off g, fs⟩)
    (ho : (body s g c fs).outs = fs.map fun f => (f, .trap (tr f) (fl f))) (hE : ∀ u, (body s g c fs).effect u = u) :
    Traps i s c g fs tr fl := by
  intro hih hhd
  refine ⟨_, hi, ?_⟩
  obtain ⟨hc, hg, hsh, hfs, hne, -⟩ := hb
  have hgid := State.group?_id hg
  have hg' : s.group? g.id = some g := by rw [hgid]; exact hg
  have hn := hsh.1
  have h1 : (fs.map fun f => (f, LaneOut.trap (tr f) (fl f))).filterMap LaneOut.trap? =
      fs.map fun f => ((⟨f.lane, tr f, 127⟩ : LaneTrap), fl f) := by
    rw [List.filterMap_map]
    rw [show (LaneOut.trap? ∘ fun f => (f, LaneOut.trap (tr f) (fl f))) = fun f => some ((⟨f.lane, tr f, 127⟩ : LaneTrap), fl f) from rfl]
    exact List.filterMap_eq_map' (f := fun f : Fibre => ((⟨f.lane, tr f, 127⟩ : LaneTrap), fl f)) ▸ rfl
  have h2 : (fs.map fun f => (f, LaneOut.trap (tr f) (fl f))).findSome? LaneOut.wait? = none := by
    rw [List.findSome?_eq_none_iff]; intro a ha
    obtain ⟨x, -, rfl⟩ := List.mem_map.1 ha; rfl
  have h3 : (fs.map fun f => (f, LaneOut.trap (tr f) (fl f))).filterMap LaneOut.res? = [] := by
    rw [List.filterMap_eq_nil_iff]; intro a ha
    obtain ⟨x, -, rfl⟩ := List.mem_map.1 ha; rfl
  have hempty : fs.isEmpty = false := by simpa using hne
  have hsub : ∀ f ∈ g.batch c.lanes, f ∈ g.fibres := fun f hf => (List.mem_filter.1 hf).1
  have hfsub : ∀ f ∈ fs, f ∈ g.batch c.lanes := fun f hf => by rw [hfs] at hf; exact (List.mem_filter.1 hf).1
  have nd : ∀ (p : Fibre → Bool), ((((g.batch c.lanes).filter p)).map (·.lane)).Nodup := fun p =>
    List.Nodup.sublist (List.Sublist.map _ ((List.filter_sublist).trans List.filter_sublist)) hn
  let G : Group := { g with lastIssue := s.clk }
  have find : ∀ f ∈ g.fibres, G.fibre? f.lane = some f := fun f hf => Group.fibre?_of_mem (g := G) hn hf
  have lane_inj : ∀ a ∈ g.fibres, ∀ b ∈ g.fibres, a.lane = b.lane → a = b := by
    intro a ha b hb e
    have h1 := find a ha
    have h2 := find b hb
    rw [e, h2] at h1
    exact (Option.some.inj h1).symm
  have hoffsub : ∀ f ∈ c.off g, f ∈ g.batch c.lanes := fun f hf => (List.mem_filter.1 hf).1
  have hdisj : ∀ f ∈ fs, f.lane ∉ (c.off g).map (·.lane) := by
    intro f hf hm
    obtain ⟨x, hx, e⟩ := List.mem_map.1 hm
    have : x = f := lane_inj x (hsub x (hoffsub x hx)) f (hsub f (hfsub f hf)) e
    subst this
    rw [hfs] at hf
    have h1 := (List.mem_filter.1 hf).2
    have h2 := (List.mem_filter.1 hx).2
    rw [h1] at h2
    exact absurd h2 (by simp)
  obtain ⟨k1, k2, k3⟩ := Group.skip_spec c.next (c.off g) G (nd _) (fun x hx => find x (hsub x (hoffsub x hx)))
  let K : Group := (c.off g).foldl (fun h f => h.updFibre f.lane fun f => f.goesOn c.next) G
  have hlf : (fs.map fun f => (f, fl f)).map (·.1.lane) = fs.map (·.lane) := by rw [List.map_map]; rfl
  obtain ⟨m1, m2, m3⟩ := Group.flags_spec (fs.map fun f => (f, fl f)) K (by rw [hlf, hfs]; exact nd _) (by
    intro x hx
    obtain ⟨f, hf, rfl⟩ := List.mem_map.1 hx
    exact (k3 _ (hdisj f hf)).trans (find f (hsub f (hfsub f hf))))
  let M : Group := (fs.map fun f => (f, fl f)).foldl (fun h x => h.updFibre x.1.lane fun f => { f with flags := f.flags ||| x.2 }) K
  have hM : ∀ k : Group, (fs.map fun f => ((⟨f.lane, tr f, 127⟩ : LaneTrap), fl f)).foldl
      (fun g t => g.updFibre t.1.lane fun f => { f with flags := f.flags ||| t.2 }) k =
      (fs.map fun f => (f, fl f)).foldl (fun h x => h.updFibre x.1.lane fun f => { f with flags := f.flags ||| x.2 }) k := by
    intro k; simp only [List.foldl_map]
  -- the state before the trap is taken
  let F : Group → Group := fun h => (fs.map fun f => ((⟨f.lane, tr f, 127⟩ : LaneTrap), fl f)).foldl
    (fun g t => g.updFibre t.1.lane fun f => { f with flags := f.flags ||| t.2 })
    (((c.off g).foldl (fun h f => h.updFibre f.lane fun f => f.goesOn c.next) h).completeAll c fm true [])
  have hFid : ∀ h, (F h).id = h.id := by
    exact fun h => (Group.foldl_updFibre_id (fun t : LaneTrap × BitVec 6 => t.1.lane) (fun t f => { f with flags := f.flags ||| t.2 }) _ _).trans
      (Group.foldl_updFibre_id (fun f : Fibre => f.lane) (fun _ f => f.goesOn c.next) _ _)
  let u : State := (s.noteIssue g c).updGroup g.id F
  have hu : u.group? g.id = some M := by
    show ((s.noteIssue g c).updGroup g.id F).group? g.id = some M
    rw [State.group?_updGroup _ _ _ _ hFid, State.noteIssue_group hg']
    simp only [Option.map_some, if_true]
    exact congrArg some (hM K)
  have hMrest : M = { G with fibres := M.fibres } := by
    have : M = { K with fibres := M.fibres } := m1
    rw [this, show K = { G with fibres := K.fibres } from k1]
  have hMfs : ∀ f ∈ fs, M.fibre? f.lane = some { f with flags := f.flags ||| fl f } := fun f hf => m2 (f, fl f) (List.mem_map.2 ⟨f, hf, rfl⟩)
  have hMo : ∀ l, l ∉ fs.map (·.lane) → M.fibre? l = K.fibre? l := fun l hl => m3 l (by rw [hlf]; exact hl)
  have hue : u = { s with groups := u.groups, slots := u.slots, blocks := s.issuedBlocks g } := State.updGroup_noteIssue s g c F
  have hhu : u.handlerOf M = s.handlerOf g :=
    State.handlerOf_congr (by rw [hue]) (by rw [hue]) M (by rw [hMrest])
  obtain ⟨rest, hrest⟩ : ∃ r, r = (c.lanes.filter fun l => !(List.map (fun x => x.lane) ([] : List LaneTrap)).contains l).filter
      fun l => !((fs.map fun f => ((⟨f.lane, tr f, 127⟩ : LaneTrap), fl f)).map (fun t => t.1.lane)).contains l := ⟨_, rfl⟩
  have hts : (fs.map fun f => ((⟨f.lane, tr f, 127⟩ : LaneTrap), fl f)).map (·.1) = fs.map fun f => (⟨f.lane, tr f, 127⟩ : LaneTrap) := by
    rw [List.map_map]; rfl
  have hlane : (fs.map fun f => (⟨f.lane, tr f, 127⟩ : LaneTrap)).map (·.lane) = fs.map (·.lane) := by rw [List.map_map]; rfl
  have hihM : ∀ f ∈ M.fibres, ((fs.map fun f => (⟨f.lane, tr f, 127⟩ : LaneTrap)).map (·.lane)).contains f.lane = true → f.ih = false := by
    intro f hf hc'
    rw [hlane] at hc'
    have hnM : (M.fibres.map (·.lane)).Nodup := by
      have : M.fibres.map (·.lane) = g.fibres.map (·.lane) :=
        (Group.foldl_updFibre_lanes (fun x : Fibre × BitVec 6 => x.1.lane) (fun x f => { f with flags := f.flags ||| x.2 }) (fun _ _ => rfl) _ K).trans
          (Group.foldl_updFibre_lanes (fun f : Fibre => f.lane) (fun _ f => f.goesOn c.next) (fun _ _ => rfl) _ G)
      rw [this]; exact hn
    have hmem : f.lane ∈ fs.map (·.lane) := by simpa using hc'
    obtain ⟨x, hx, e⟩ := List.mem_map.1 hmem
    have e1 := Group.fibre?_of_mem hnM hf
    have e2 := hMfs x hx
    rw [e, e1] at e2
    rw [Option.some.inj e2]
    exact hih x hx
  have hissue : s.issue fm body = (u.enterTrap g.id rest c.unit (fs.map fun f => (⟨f.lane, tr f, 127⟩ : LaneTrap))).endUnit g
      (if (g.batch c.lanes).any c.holds then 0 else 1) := by
    simp only [State.issue, hc, hg, hs, hempty, ho, h1, h2, h3, List.map_nil, List.nil_append, hE, hts, Bool.false_eq_true, ↓reduceIte]
    rw [hrest]
    rfl
  have hlanes : ∀ f ∈ g.batch c.lanes, f.lane ∈ c.lanes := fun f hf => by simpa using (List.mem_filter.1 hf).2
  have hrestmem : ∀ l, rest.contains l = true ↔ l ∈ c.lanes ∧ l ∉ fs.map (·.lane) := by
    intro l
    rw [hrest]
    simp
  have hoffmem : ∀ f ∈ g.batch c.lanes, f ∉ fs → f ∈ c.off g := by
    intro f hf hnf
    refine List.mem_filter.2 ⟨hf, ?_⟩
    cases hcf : c.holds f with
    | false => rfl
    | true => exact absurd (by rw [hfs]; exact List.mem_filter.2 ⟨hf, hcf⟩) hnf
  have hlnot : ∀ f ∈ g.fibres, f ∉ fs → f.lane ∉ fs.map (·.lane) := by
    intro f hf hnf hm
    obtain ⟨x, hx, e⟩ := List.mem_map.1 hm
    exact hnf (lane_inj x (hsub x (hfsub x hx)) f hf e ▸ hx)
  have hur : ∀ C G, ({ u with cur := C, nextId := u.nextId + 1, groups := G } : State) =
      { s with cur := C, nextId := s.nextId + 1, groups := G, slots := u.slots, blocks := s.issuedBlocks g } := by
    intro C G
    rw [hue]
  have hid : u.nextId = s.nextId := by rw [hue]
  have hgu : ∀ id, id ≠ g.id → u.group? id = s.group? id :=
    fun id hid => (State.group?_updGroup_ne (s := s.noteIssue g c) F hFid hid).trans (State.noteIssue_others hid)
  have hsu : ∀ core slot, ¬(core = g.core ∧ slot = g.slot) → u.slotOf core slot = s.slotOf core slot :=
    fun core slot hcs => State.noteIssue_slots hcs
  have hMg : M = { g with fibres := M.fibres, lastIssue := s.clk } := hMrest
  have hKo : ∀ f ∈ g.batch c.lanes, f ∉ fs → K.fibre? f.lane = some (f.goesOn c.next) := fun f hf hnf => k2 f (hoffmem f hf hnf)
  have hKx : ∀ l, l ∉ (c.off g).map (·.lane) → K.fibre? l = G.fibre? l := k3
  rw [hissue]
  clear_value u M K G
  refine State.enterTrap_end _ (by rw [hfs]; exact nd _) hne hih hhd hu hMg hur hhu hid
    (fun f hf hl => hihM f hf (by rw [hlane]; simpa using hl)) hMfs ?_ ?_ hgu hsu
  · intro f hf hnf
    have hl := hlnot f (hsub f hf) hnf
    exact ⟨(hMo _ hl).trans (hKo f hf hnf), hl, (hrestmem f.lane).2 ⟨hlanes f hf, hl⟩⟩
  · intro f hf hcl
    have hnb : f ∉ g.batch c.lanes := fun h => by
      have := (List.mem_filter.1 h).2
      rw [hcl] at this; exact absurd this (by simp)
    have hl := hlnot f hf (fun h => hnb (hfsub f h))
    have hlo : f.lane ∉ (c.off g).map (·.lane) := by
      intro hm
      obtain ⟨x, hx, e⟩ := List.mem_map.1 hm
      exact hnb (lane_inj x (hsub x (hoffsub x hx)) f hf e ▸ hoffsub x hx)
    refine ⟨((hMo _ hl).trans (hKx _ hlo)).trans (find f hf), hl, fun h => ?_⟩
    have h1 := ((hrestmem f.lane).1 h).1
    rw [← List.contains_iff_mem, hcl] at h1
    exact absurd h1 (by simp)

end Sys2Proof.Machine
end

