-- ==== Sys2Proof/Laws/Results.lean ====
section
/-! SUPPORT. The issue law in the terms of `Gives`, `Changes`, `Computes` and `Owes`. -/
namespace Sys2Proof.Machine

/-- A lane that writes words to its destination. -/
theorem LaneRes.after_words {fm : Form} {o : Operand} (hd : fm.dst = some o) (c : Cur) (f : Fibre) (r : LaneRes) (hm : r.mark = none) (hp : r.pend = false) (ht : r.tag = false) :
   r.after fm c f = r.finish c (f.writeReg o.reg r.words) := by
  unfold LaneRes.after Form.destOf Operand.destOf Fibre.writeReg
  rw [hd]
  cases o with | mk reg n te sr ds =>
  cases reg <;> simp [LaneRes.onFibre, hm, hp, ht]
  split
  · rename_i h; rw [h]; simp [Fibre.writeV]
  · simp [Fibre.deliverV]

theorem Group.scalarOf_words {fm : Form} {o : Operand} (hd : fm.dst = some o) (g : Group) (fs : List Fibre) (r : Fibre → LaneRes)
   (hm : ∀ f, (r f).mark = none) (hp : ∀ f, (r f).pend = false) (ht : ∀ f, (r f).tag = false) :
   g.scalarOf fm fs r = (fs.head?.map fun f => g.writeScalar o.reg (r f).words).getD g := by
  unfold Group.scalarOf
  congr 2; funext f
  unfold LaneRes.scalar Form.destOf Operand.destOf Group.writeScalar
  rw [hd]
  cases o with | mk reg n te sr ds =>
  cases reg <;> simp [LaneRes.onGroup, hm, hp, ht]
  split
  · rename_i h; rw [h]; simp [Group.writeS]
  · simp [Group.deliverS]


theorem Fibre.writeV_flags (ws : List Word) : ∀ (f : Fibre) (p : Nat), (f.writeV p ws).flags = f.flags := by
  induction ws with
  | nil => exact fun _ _ => rfl
  | cons w r ih => exact fun f p => (ih _ _).trans rfl

/-- A body whose lanes are all done, without an effect. -/
theorem State.issue_each {s : State} {c : Cur} {g : Group} {fs : List Fibre} {fm : Form} {body : State → Group → Cur → List Fibre → Body}
  (ha : Acting s c g fs fm) (ho : fm.once = false) (r : Fibre → LaneRes) (post : Fibre → Fibre)
  (hE : (body s g c fs).effect = id)
  (hO : (body s g c fs).outs = fs.map fun f => (f, .done (r f)))
  (hu : ∀ f y, ((r f).upd y).lane = y.lane)
  (hp : ∀ f ∈ fs, (r f).after fm c f = post f ∧ (post f).atReconv = none) :
  Retired s s (s.issue fm body) c g (g.scalarOf fm fs r) fs post :=
  State.issue_plain post r ha.1 (State.sort_acting ha ho) hO hE (fun f _ => hu f) hp

theorem computes_of {i : Instr} {s : State} {c : Cur} {g : Group} {fs : List Fibre} {fm : Form} {o : Operand} {body : State → Group → Cur → List Fibre → Body}
  {ws : Fibre → List Word} {fl : Fibre → BitVec 6}
  (hi : exec i s = .next (s.issue fm body))
  (ha : Acting s c g fs fm) (ho : fm.once = false) (hd : fm.dst = some o)
  (hE : (∀ f ∈ fs, fl f &&& f.enables = 0) → (body s g c fs).effect = id)
  (hO : (∀ f ∈ fs, fl f &&& f.enables = 0) → (body s g c fs).outs = fs.map fun f => (f, .done { words := ws f, flags := fl f }))
  (hT : (∀ f ∈ fs, fl f &&& f.enables ≠ 0) →
    (body s g c fs).effect = id ∧ (body s g c fs).outs = fs.map fun f => (f, .trap ⟨.arith, (fl f).zeroExtend 64⟩ (fl f))) :
  Computes i s c g fs o.reg ws fl := by
  refine ⟨fun he => ?_, fun he => State.issue_traps hi ha.1 (State.sort_acting ha ho) (hT he).2 fun u => by rw [(hT he).1]; rfl⟩
  refine ⟨_, hi, ?_⟩
  have := State.issue_each ha ho (fun f => { words := ws f, flags := fl f }) (fun f => { f.writeReg o.reg (ws f) with flags := f.flags ||| fl f }.goesOn c.next) (hE he) (hO he) (fun _ _ => rfl) (fun f _ => ⟨by
      rw [LaneRes.after_words hd c f _ rfl rfl rfl]
      have hfl : (f.writeReg o.reg (ws f)).flags = f.flags := by
        unfold Fibre.writeReg
        cases o.reg <;> simp [Fibre.writeV_flags]
      simp only [LaneRes.finish, Fibre.goesOn, hfl]; rfl, rfl⟩)
  rw [Group.scalarOf_words hd g fs _ (fun _ => rfl) (fun _ => rfl) (fun _ => rfl)] at this
  exact this

theorem arithOut_done (f : Fibre) (fl : BitVec 6) (r : LaneRes) (h : fl &&& f.enables = 0) : arithOut f fl r = .done {r with flags := fl} := by
  simp [arithOut, arithTrap, h]

theorem arithOut_trap (f : Fibre) (fl : BitVec 6) (r : LaneRes) (h : fl &&& f.enables ≠ 0) :
    arithOut f fl r = .trap ⟨.arith, fl.zeroExtend 64⟩ fl := by
  rw [arithOut, arithTrap, if_neg h]

theorem gives_of {i : Instr} {s : State} {c : Cur} {g : Group} {fs : List Fibre} {fm : Form} {o : Operand} {body : State → Group → Cur → List Fibre → Body}
  {ws : Fibre → List Word} 
  (hi : exec i s = .next (s.issue fm body))
  (ha : Acting s c g fs fm) (ho : fm.once = false) (hd : fm.dst = some o)
  (hE : (body s g c fs).effect = id)
  (hO : (body s g c fs).outs = fs.map fun f => (f, .done { words := ws f })) :
  Gives i s c g fs o.reg ws := by
  refine ⟨_, hi, ?_⟩
  have := State.issue_each ha ho (fun f => { words := ws f }) (fun f => (f.writeReg o.reg (ws f)).goesOn c.next) hE hO (fun _ _ => rfl) (fun f _ => ⟨by
      rw [LaneRes.after_words hd c f _ rfl rfl rfl]
      simp [LaneRes.finish, Fibre.goesOn], rfl⟩)
  rw [Group.scalarOf_words hd g fs _ (fun _ => rfl) (fun _ => rfl) (fun _ => rfl)] at this
  exact this

theorem computes_each {i : Instr} {s : State} {c : Cur} {g : Group} {fs : List Fibre} {fm : Form} {o : Operand} {lane : Group → Cur → Fibre → LaneOut}
  {ws : Fibre → List Word} {fl : Fibre → BitVec 6}
  (hi : exec i s = .next (s.issue fm fun _ g c fs => ⟨fs.map fun f => (f, lane g c f), id, id⟩))
  (ha : Acting s c g fs fm) (ho : fm.once = false) (hd : fm.dst = some o)
  (hO : ∀ f ∈ fs, lane g c f = arithOut f (fl f) { words := ws f }) :
  Computes i s c g fs o.reg ws fl := by
  refine computes_of hi ha ho hd (fun _ => rfl) (fun he => ?_) fun he => ⟨rfl, ?_⟩ <;> refine List.map_congr_left fun f hf => ?_
  · rw [hO f hf, arithOut_done _ _ _ (he f hf)]
  · rw [hO f hf, arithOut_trap _ _ _ (he f hf)]

theorem mixed_fast {fm kind p slow h fast} {s : State} {c : Cur} {g : Group} {fs : List Fibre} (hs : ∀ f ∈ fs, slow f = false) :
   (mixedBody fm kind p slow h fast s g c fs) = { outs := fs.map fun f => (f, fast g c f), effect := id } := by
  have h1 : fs.filter slow = [] := by rw [List.filter_eq_nil_iff]; intro f hf; simp [hs f hf]
  have h2 : fs.any slow = false := by rw [List.any_eq_false]; intro f hf; simp [hs f hf]
  simp only [mixedBody, h1, h2, Bool.and_false, Bool.false_eq_true, ↓reduceIte]
  congr 1
  exact List.map_congr_left fun f hf => by simp [hs f hf]

theorem computes_split {i : Instr} {s : State} {c : Cur} {g : Group} {fs : List Fibre} {fm : Form} {o : Operand} {rat : Group → Fibre → LongRes} {lane : Group → Fibre → LaneOut}
  {ws : Fibre → List Word} {fl : Fibre → BitVec 6}
  (hi : exec i s = .next (s.issue fm (splitRat fm rat lane)))
  (ha : Acting s c g fs fm) (ho : fm.once = false) (hd : fm.dst = some o) (hr : ∀ f ∈ fs, f.rat = false)
  (hO : ∀ f ∈ fs, lane g f = arithOut f (fl f) { words := ws f }) :
  Computes i s c g fs o.reg ws fl := by
  refine computes_of hi ha ho hd (fun _ => ?_) (fun he => ?_) fun he => ?_ <;> unfold splitRat <;> rw [mixed_fast hr]
  · refine List.map_congr_left fun f hf => ?_
    rw [hO f hf, arithOut_done _ _ _ (he f hf)]
  · refine ⟨rfl, List.map_congr_left fun f hf => ?_⟩
    rw [hO f hf, arithOut_trap _ _ _ (he f hf)]

theorem ratTrap_no (c : Cur) (f : Fibre) (x : LaneOut) (h : f.rat = false) : ratTrap c f x = x := by simp [ratTrap, h]

theorem computes_half {i : Instr} {s : State} {c : Cur} {g : Group} {fs : List Fibre} {fm : Form} {o : Operand} {F : Fmt} {lane : Group → Fibre → LaneOut}
  {ws : Fibre → List Word} {fl : Fibre → BitVec 6}
  (hi : exec i s = .next (s.issue fm fun _ g c fs => ⟨fs.map fun f => (f, if Fmt.half F then lane g f else ratTrap c f (lane g f)), id, id⟩))
  (ha : Acting s c g fs fm) (ho : fm.once = false) (hd : fm.dst = some o) (hr : ∀ f ∈ fs, f.rat = false ∨ Fmt.half F = true)
  (hO : ∀ f ∈ fs, lane g f = arithOut f (fl f) { words := ws f }) :
  Computes i s c g fs o.reg ws fl := by
  have hx : ∀ f ∈ fs, (if Fmt.half F then lane g f else ratTrap c f (lane g f)) = arithOut f (fl f) { words := ws f } := fun f hf => by
    rw [← hO f hf]
    rcases hr f hf with h | h
    · simp [ratTrap_no _ _ _ h]
    · simp [h]
  refine computes_of hi ha ho hd (fun _ => rfl) (fun he => ?_) fun he => ⟨rfl, ?_⟩ <;> refine List.map_congr_left fun f hf => ?_
  · rw [hx f hf, arithOut_done _ _ _ (he f hf)]
  · rw [hx f hf, arithOut_trap _ _ _ (he f hf)]

/-- A body that changes its fibres and no register. -/
theorem changes_of {i : Instr} {s : State} {c : Cur} {g : Group} {fs : List Fibre} {fm : Form}
    {body : State → Group → Cur → List Fibre → Body} (r : Fibre → LaneRes) {post : Fibre → Fibre}
    (hi : exec i s = .next (s.issue fm body)) (ha : Acting s c g fs fm) (ho : fm.once = false)
    (hd : ∀ f, (r f).words = [] ∧ (r f).mark = none ∧ (r f).pend = false)
    (hE : (body s g c fs).effect = id) (hO : (body s g c fs).outs = fs.map fun f => (f, .done (r f)))
    (hu : ∀ f y, ((r f).upd y).lane = y.lane)
    (hp : ∀ f ∈ fs, (r f).finish c f = post f ∧ (post f).atReconv = none) : Changes i s c g fs post := by
  refine ⟨_, hi, ?_⟩
  have h1 : ∀ f, (r f).after fm c f = (r f).finish c f := by
    intro f
    unfold LaneRes.after
    cases fm.destOf f <;> simp [LaneRes.onFibre, hd]
  have h2 : g.scalarOf fm fs r = g := by
    unfold Group.scalarOf
    cases fs.head? with
    | none => rfl
    | some a =>
      simp only [Option.map_some, Option.getD_some]
      unfold LaneRes.scalar
      cases fm.destOf a <;> simp [LaneRes.onGroup, hd]
  have := State.issue_each ha ho r post hE hO hu fun f hf => by rw [h1]; exact hp f hf
  rwa [h2] at this

theorem Form.dests_eq {fm : Form} {o : Operand} (hd : fm.dst = some o) (fs : List Fibre) :
    fm.dests ((fs.map (·.lane)).head?) fs = fs.map fun f => (f, f.destFor o.reg o.n fs) := by
  unfold Form.dests
  refine List.map_congr_left fun f _ => ?_
  congr 1
  have hh : (fs.map (·.lane)).head? = fs.head?.map (·.lane) := by cases fs <;> rfl
  rw [hh]
  unfold Form.scalarDst Form.destOf Operand.destOf Fibre.destFor
  rw [hd]
  obtain ⟨reg, n, te, sr, ds, sub⟩ := o
  cases reg with
  | v k => simp [Reg.scalar]
  | zero => simp
  | lane => simp
  | s k =>
    dsimp only [Reg.scalar]
    by_cases h : fs.head?.map (·.lane) = some f.lane <;> simp [h]

theorem State.updGroup_same (s : State) (id : Nat) : s.updGroup id (fun g => g) = s := by
  unfold State.updGroup
  have : (s.groups.map fun g => if g.id = id then g else g) = s.groups := by simp
  rw [this]

theorem longEffect_eq {fm : Form} {o : Operand} (hd : fm.dst = some o) {kind : ProdKind} {h : Group → Fibre → LongRes} {g : Group}
    {fs : List Fibre} (hn : fs ≠ []) (u : State) :
    longEffect fm kind none ((fs.map (·.lane)).head?) h g fs u =
      u.withProducer g fs kind none true
        (.ready (markScalar (Reg.scalar o.reg) (fs.map fun f => (h g f).val (f.destFor o.reg o.n fs) f))) := by
  unfold longEffect
  have : fs.isEmpty = false := by cases fs <;> simp_all
  rw [this, Form.dests_eq hd, show fm.scalarDst = Reg.scalar o.reg by simp [Form.scalarDst, hd]]
  simp only [Bool.false_eq_true, ↓reduceIte, List.map_map]
  unfold State.addProducer State.withProducer
  simp only [List.foldl_nil, State.updGroup_same, List.filter_nil]
  rfl

/-- The others of a group after a unit of it has retired. -/
theorem State.retire_others {s : State} {g : Group} {c : Cur} {fm : Form} {rs : List (Fibre × LaneRes)} {id : Nat} (h : id ≠ g.id) :
    (s.retire g c fm rs).group? id = s.group? id := by
  unfold State.retire
  refine (State.group?_updGroup_ne _ (fun x => ?_) h).trans (State.noteIssue_others h)
  rw [Group.completeAll_id]
  exact Group.foldl_updFibre_id (fun f : Fibre => f.lane) (fun _ f => f.goesOn c.next) _ _

/-- What the retiring of a unit of `g` changes beside groups and slots. -/
theorem State.retire_rest (s : State) (g : Group) (c : Cur) (fm : Form) (rs : List (Fibre × LaneRes)) :
    s.retire g c fm rs =
      { s with groups := (s.retire g c fm rs).groups, slots := (s.retire g c fm rs).slots, blocks := s.issuedBlocks g } := by
  have h := s.noteIssue_rest g c
  unfold State.retire
  generalize s.noteIssue g c = u at h ⊢
  generalize u.groups = gs at h
  generalize u.slots = sl at h
  subst h
  rfl

/-- A producer added after a unit of the group has retired. -/
theorem State.withProducer_retire (s : State) (g : Group) (c : Cur) (fm : Form) (rs : List (Fibre × LaneRes)) (fs : List Fibre)
    (kind : ProdKind) (acq : Option Scope) (flagged : Bool) (w : Work) :
    (s.retire g c fm rs).withProducer g fs kind acq flagged w =
      { s.withProducer g fs kind acq flagged w with
        cur := (s.retire g c fm rs).cur, blocks := (s.withProducer g fs kind acq flagged w).issuedBlocks g,
        groups := (s.retire g c fm rs).groups, slots := (s.retire g c fm rs).slots } := by
  have h := s.retire_rest g c fm rs
  generalize s.retire g c fm rs = u at h ⊢
  generalize u.groups = gs at h ⊢
  generalize u.slots = sl at h ⊢
  subst h
  rfl

/-- A body whose lanes all owe their destination to one producer. -/
theorem owes_of {i : Instr} {s : State} {c : Cur} {g : Group} {fs : List Fibre} {fm : Form} {o : Operand} {kind : ProdKind}
    {body : State → Group → Cur → List Fibre → Body} {h : Group → Fibre → LongRes} (hi : exec i s = .next (s.issue fm body))
    (ha : Acting s c g fs fm) (ho : fm.once = false) (hd : fm.dst = some o)
    (hO : (body s g c fs).outs = fs.map fun f => (f, .done { pend := true }))
    (hE : (body s g c fs).effect = longEffect fm kind none ((fs.map (·.lane)).head?) h g fs) :
    Owes i s c g fs o.reg o.n kind (h g) := by
  refine ⟨_, hi, ?_⟩
  have hsc : g.emptyScalar o.reg o.n = g.scalarOf fm fs fun _ => { pend := true } := by
    have hne := ha.1.2.2.2.2.1
    unfold Group.scalarOf
    cases hf : fs.head? with
    | none => exact absurd (List.head?_eq_none_iff.1 hf) hne
    | some a =>
      simp only [Option.map_some, Option.getD_some]
      unfold LaneRes.scalar Form.destOf Operand.destOf Group.emptyScalar
      rw [hd]
      obtain ⟨reg, n, te, sr, ds, sub⟩ := o
      cases reg <;> rfl
  rw [hsc]
  refine State.issue_retired (h := id) (r := fun _ => { pend := true }) _ ha.1 (State.sort_acting ha ho) hO (fun _ _ _ => rfl) ?_
    (fun _ => rfl) (fun _ _ _ => rfl) ?_
  · intro f _
    refine ⟨?_, rfl⟩
    unfold LaneRes.after LaneRes.finish Fibre.goesOn Fibre.emptyReg Form.destOf Operand.destOf
    rw [hd]
    obtain ⟨reg, n, te, sr, ds, sub⟩ := o
    cases reg <;> simp [LaneRes.onFibre]
  · rw [hE]
    dsimp only
    rw [longEffect_eq hd ha.1.2.2.2.2.1]
    exact ⟨State.withProducer_retire .., ⟨rfl, rfl⟩, by simp [State.group?, State.withProducer], fun id hid => State.retire_others hid⟩

end Sys2Proof.Machine
end

