-- ==== Sys2Proof/Tests/Slice0.lean ====
section
/-! SUPPORT. Decoding of words written out from the spec's encodings, ill-formed terms that the checks refuse, small steps, and for
every statement with premises a state and operands that meet them together. -/
namespace Sys2Proof.Tests
open Sys2Proof.Machine

/-! A small machine: one context, one block, one group of two fibres, a unit at work. -/

/-- Registers of value 0 but for those listed. -/
def regsOf (n : Nat) (ws : List (Nat × Nat)) : List RegCell :=
  ws.foldl (fun l w => l.set w.1 (.of (BitVec.ofNat 32 w.2))) (List.replicate n (.of 0))

/-- The four words of a capability from register `r` upward (spec/07, Table 7.2). -/
def capAt (r base len perm space : Nat) : List (Nat × Nat) :=
  (List.range 4).map fun i => (r + i, (base + len * 2 ^ 56 + perm * 2 ^ 96 + space * 2 ^ 112) / 2 ^ (32 * i) % 2 ^ 32)

def fib (l : Fin 32) (ws : List (Nat × Nat)) : Fibre := { Fibre.start l 0x10 16 0 with vregs := regsOf 16 ws }

def grp (fs : List Fibre) (ws : List (Nat × Nat)) (tags : List Nat) : Group :=
  { fetchGroup 3 2 with
    regsN := 16, fibres := fs, sregs := regsOf 32 ws, stags := (List.range 8).map tags.contains, tilesN := 2
    tcs := [0, 0], tiles := [⟨[], false⟩, ⟨[], false⟩] }

def kern : Kernel := ⟨0, 0, 16, [0], 2, 0x10000, 1, 0, false, 0x41, [0x49, 0x48], [], []⟩

def ctx0 : Ctx := { fetchCtx 0 with kernels := [kern] }

def blk : Block := { fetchBlock 2 0 1 with scratchLen := 0x10000 }

/-- The unit at work: four bytes at 0x10. -/
def cur (ls : List (Fin 32)) : Cur := ⟨3, ls, 0x10, 0x10, 4, 0, none, none, none⟩

/-- The machine with a group and a unit at work; its first 16 GiB of addresses map to device memory (spec/10, Table 10.3). -/
def mach (g : Group) (c : Cur) : State :=
  { (State.reset.setNum 0x100000 8 0x200001).setNum 0x200000 8 0x1F with
    cur := some c, groups := [g], blocks := [blk], sheaves := [⟨1, 7, 0, 0, 1, List.replicate 8 ⟨1, 0, 0, none⟩, []⟩]
    grids := [⟨7, 0, 0, 0, 1, 1, 1, 0, 0, 0, none, none, 0, none⟩], ctxs := [ctx0], nextId := 9 }

def F0 : Fibre := fib 0 [(0, 7), (1, 3), (2, 5), (4, 9), (6, 2), (12, 0x40), (13, 5)]
def F1 : Fibre := fib 1 [(0, 8), (1, 4), (2, 5), (4, 9), (6, 2), (12, 0x40), (13, 5)]
/-- s0 to s3 name the scratchpad, s4 to s7 device memory, s8 to s11 a counter, s12 to s15 a queue, s24 to s27 constants. -/
def SW : List (Nat × Nat) :=
  capAt 0 0 0x1000 0x2FF 1 ++ capAt 4 0x400000 0x1000 0x2FF 0 ++ capAt 8 0x500000 8 0x2FF 3 ++ capAt 12 5 1 0x2FF 6
def G : Group := grp [F0, F1] SW [0, 1, 2, 3]
def C : Cur := cur [0, 1]
def S : State := mach G C

/-- Each word, with its number of bits, decodes to the instruction beside it. -/
def decodes (l : List (Nat × Nat × Instr)) : Bool := l.all fun x => decodeTableWord x.1 x.2.1 == some x.2.2

/-- R, S, W and C formats and the immediates (spec/03, R51, R59). -/
theorem test_decode_integer : decodes
    [(32, 0b1_0_1_0001000_0000110_0000100_00000001, .add { x := true, fb := false, fa := true, b := .v 8, a := .v 6, d := .v 4 }),
     (32, 0b10_1_101000_0_1000010_0000100_00100001, .sari { wide := true, n := 40, fa := false, a := .s 2, d := .v 4 }),
     (32, 0b0_0_1_0000011_0000101_0000011_00100011, .popc { x := false, fa := true, a := .v 5, d := .v 3 }),
     (32, 0b111111111_0_0000101_0010_011_00101101, .cmpi { i := 0x1ff, fa := false, a := .v 5, cond := 2, p := 3 }),
     (32, 0b10000000000000000_0000111_00110011, .movi 0x10000 (.v 7)),
     (32, 0b100000000_0_1100001_0000111_00111101, .ori { i := 0x100, fa := false, a := .lane, d := .v 7 }),
     (32, 0b101_0000001_0000010_0000011_00101111, .sel { p := 5, b := .v 1, a := .v 2, d := .v 3 }),
     (32, 0b1000_000_001_0000_010_0000_011_00110001, .plop { tt := 8, pb := 1, pa := 2, pd := 3 }),
     (32, 0b0_1_0_0001001_1000100_1000110_00101001, .lea { x := false, fb := true, fa := false, b := .v 9, a := .s 4, d := .s 6 })] = true := by decide

/-- Jumps, traps, special registers and the prefixes (spec/02, R43, R45; spec/03, R56, R61). -/
theorem test_decode_control : decodes
    [(32, 0b11111111111111111011_1_010_01000001, .br { off := 0xffffb, neg := true, p := 2 }),
     (32, 0b000000100_0_0000011_1100000_01000111, .jr { i := 0x4, fa := false, a := .v 3, d := .zero }),
     (32, 0b00000000000001001_0000000_01001011, .trap 0x9),
     (32, 0b000000000000000000000000_01001101, .rtt),
     (32, 0b00_0001100_00000000_0000101_00110111, .rdsr 12 (.v 5)),
     (32, 0b01_0000000_1_0000110_0000000_00110111, .wrsr 0 true (.v 6)),
     (32, 0b10000_1_011_000000000000000_00110111, .modeSet true (.rup)),
     (16, 0b0001_1_110_000000_10, .guard true 6),
     (16, 0b0000_1111111111_10, .dref 1023),
     (16, 0b11111_10000_0101_00, .xorCompact { b := 31, d := 16 })] = true := by decide

/-- Floating, rational and conversion words (spec/03, R62, R63). -/
theorem test_decode_floating : decodes
    [(32, 0b1_0_0_0000010_0000100_0000110_01010111, .fma { x := true, fb := false, fa := false, b := .v 2, a := .v 4, d := .v 6 }),
     (32, 0b1_0_0_0000010_0000100_0111_001_01111111, .fcmp16 { x := true, fb := false, fa := false, b := .v 2, a := .v 4, cond := 7, p := 1 }),
     (32, 0b00_0_1011_10_0_0000100_0000110_01100011, .sfuTanh { fmt := .f16, fa := false, a := .v 4, d := .v 6 }),
     (32, 0b00_0_1100_01_0_0000100_0000110_01100011, .qnum { fmt := .f64, fa := false, a := .v 4, d := .v 6 }),
     (32, 0b00_0_01_10_1_00_0000100_0000110_01100101, .cvti { ff := .f64, ii := .s64, t := true, fa := false, a := .v 4, d := .v 6 }),
     (32, 0b1_0_0_00_011_00_0000100_0000110_01101001, .cvtn { sat := true, ff := .f32, nn := .e2m3, fa := false, a := .v 4, d := .v 6 }),
     (32, 0b10_0_110_0000_0000100_0000110_01101101, .upkp { w := 6, fa := false, a := .v 4, d := .v 6 }),
     (32, 0b0_0_0_0000001_0000010_0000011_01110001, .qlim { x := false, fb := false, fa := false, b := .v 1, a := .v 2, d := .v 3 })] = true := by decide

/-- Loads, stores, capabilities and lines (spec/03, R64). -/
theorem test_decode_memory : decodes
    [(32, 0b111111111_0_10010_0_1_0000100_10000011, .ldS { i := 0x1ff, fa := false, a := .s 2, sz := .b2, d := .v 4 }),
     (32, 0b1_0_0_0001001_10001_11_0001000_10001011, .stx { x := true, fb := false, fa := false, b := .v 9, a := .s 1, sz := .b8, d := .v 8 }),
     (32, 0b000000010_0_10100_00_1001000_10010001, .ldc { i := 0x2, fa := false, a := .s 4, d := .s 2 }),
     (32, 0b0_0_0_0000101_10000_01_1000100_10010101, .cperm { fb := false, fa := false, b := .v 5, a := .s 0, d := .s 1 }),
     (32, 0b00_0_0000110_00001_10_0001001_10010101, .cget 6 false (.v 1) (.v 9)),
     (32, 0b000000011_0_10001_100000000_10010111, .l1inv { i := 0x3, fa := false, a := .s 1 }),
     (32, 0b000000011_0_10001_00_0000101_10001111, .stRel { i := 0x3, fa := false, a := .s 1, sz := .b1, d := .v 5 })] = true := by decide

/-- Lane exchange, fibres, barriers and atomics (spec/03, R65, R66). -/
theorem test_decode_lanes : decodes
    [(32, 0b0_0_0_1100001_0000010_0000011_10011001, .shfl { x := false, fb := false, fa := false, b := .lane, a := .v 2, d := .v 3 }),
     (32, 0b0000010_100_0000000_0000011_10011011, .voteAll 4 (.v 3)),
     (32, 0b00_0_0001_000_0000010_0000011_10011101, .scan { op := 1, ty := 0, fa := false, a := .v 2, d := .v 3 }),
     (32, 0b1_0_0_0000100_0000010_1000100_10011111, .fork { fb := false, fa := false, b := .v 1, a := .v 2, d := .s 1 }),
     (32, 0b00101000000000_100_0000000_10100001, .fence (.system)),
     (32, 0b0011000000000_0011_0000000_10100001, .win 3),
     (32, 0b100_0_0_0101_0_0000110_0000000_10100011, .barm (.blk 5) false (.v 6)),
     (32, 0b0_0_0_0000010_10001_10_0000100_10110111, .atomCas (.rel) { x := false, fb := false, fa := false, b := .v 2, a := .s 1, d := .v 4 }),
     (32, 0b1_0_0_0000010_10001_11_0000100_10101101, .redMaxN { x := true, fb := false, fa := false, b := .v 2, a := .s 1, d := .v 4 })] = true := by decide

/-- The matrix engine (spec/03, R67; spec/11, Table 11.3). -/
theorem test_decode_matrix : decodes
    [(32, 0b0_1001000_00000000_0101_1_011_10111011, .tld 2 5 true 3),
     (32, 0b00000000000000000000_1001_11000001, .macq 9),
     (32, 0b0_1001000_00000000_1111_0000_10111001, .tcfg (.s 8) 15)] = true := by decide

/-- Matrix steps and loops (spec/11, R245 to R254). -/
theorem test_decode_steps : decodes
    [(32, 0b00000000_0011_0010_0000_1_0_10_11000101, .mmax { q := 2, ta := 2, tb := 3, z := false, t := true }),
     (32, 0b00000000_0111_0110_0000_01_11_11000111, .msca 3 1 6 7),
     (32, 0b0_1010000_0011_0010_0000_0101_11001001, .mloop 4 5 2 3),
     (32, 0b1_1000000_000000000000_10_01_11001011, .acst 0 2 1),
     (32, 0b0_0000101_0_110_0011_10_000000_11001101, .acrd (.v 5) 99 2)] = true := by decide

/-- Copies, counters, queues and timetables (spec/13). -/
theorem test_decode_copies : decodes
    [(32, 0b1_0_0_1001000_1000000_0000100_11010001, .copyg { fb := false, fa := false, b := .s 2, a := 4, d := .v 1 }),
     (32, 0b1_0_0_0000100_10010_000000000_11010101, .cadd { x := true, fb := false, fa := false, b := .v 4, a := .s 2 }),
     (32, 0b0_0_0_0000100_10010_000000_101_11011001, .ctest { fb := false, fa := false, b := .v 4, a := .s 2, p := 5 }),
     (32, 0b0_0_0_0000110_10010_00_10011_00_11011011, .cbind { fb := false, fa := false, b := .v 6, a := .s 2, d := .s 3 }),
     (32, 0b0_0_0_0010000_10011_000000000_11011101, .qpush { fb := false, fa := false, b := 1, a := .s 3 }),
     (32, 0b11111111111111111_0000000_11100001, .mark 0x1ffff),
     (32, 0b0_0_0_10001_00_10000_000000000_11100011, .ttbind false false (.s 1) (.s 0))] = true := by decide

/-- History and texture words (spec/15). -/
theorem test_decode_history : decodes
    [(32, 0b1_0_0_00001_10_10010_00_0000101_11100101, .hld { p := 6, fb := false, fa := false, c := .v 1, a := .s 2, d := .v 5 }),
     (32, 0b0_0_0_00010_11_0000010_0000110_11100101, .hldp { p := 3, fb := false, c := .v 2, d := .v 6 }),
     (32, 0b0_0_0_10010_00_00011_000000000_11100111, .hfold false false (.s 2) (.v 3)),
     (32, 0b00_0_0000000_1000100_0000000_11101001, .hseal false (.s 4)),
     (32, 0b0_0_0_00010_01_10001_00_00011_00_11101011, .tex { p := 1, fb := false, fa := false, c := .v 2, a := .s 1, d := .v 3 })] = true := by decide

/-- Graphics words (spec/17). -/
theorem test_decode_graphics : decodes
    [(32, 0b0_0_0_10100_00_10011_00_10010_00_11101111, .cutsel { fb := false, fa := false, b := .s 4, a := .s 3, d := .s 2 }),
     (32, 0b0_0_0_10001_00_10000_00_0000100_11110001, .trace { fb := false, fa := false, b := .s 1, a := .s 0, d := .v 4 }),
     (32, 0b0_0_0_00001_00_10101_00_10100_00_11110011, .halo { fb := false, fa := false, b := .v 1, a := .s 5, d := .s 4 })] = true := by decide

/-- Key-value and loft words (spec/19). -/
theorem test_decode_tables : decodes
    [(32, 0b0_0_0_0001000_00010_00_00011_00_11110101, .kvhash { fb := false, fa := false, b := .v 8, a := .v 2, d := .v 3 }),
     (32, 0b0_0_0_00001_00_10000_01_0000110_11110111, .kvlookTake { fb := false, fa := false, b := .v 1, a := .s 0, d := .v 6 }),
     (32, 0b1_0_0_0000101_10000_10_0000110_11111001, .kvrelStep { fb := false, fa := false, b := .v 5, a := .s 0, d := .v 6 }),
     (32, 0b1_0_0_00011_00_00010_00_00001_00_11111011, .lmerge { fb := false, fa := false, b := .v 3, a := .v 2, d := .v 1 })] = true := by decide

/-- What R71 of spec/03 calls ILLEGAL does not decode: major 0x7E, a register code of 98, an operation code that is not assigned, an
unused field that is not 0, FB where B is a function code, an odd pair, a scan code and type that do not go
together, a jump on `!p0`, and a sheaf barrier above 7. -/
theorem test_reserved_words_do_not_decode :
    [(32, 0b000000000000000000000000_11111101), (32, 0b0_0_0_1100010_0000110_0000100_00000001), (32, 0b00111000000000_000_0000000_10100001),
     (32, 0b000000000000000000000001_01001101), (32, 0b0_1_0_0001_100_0000000_0000011_10011011),
     (32, 0b1_0_0_0001000_0000111_0000100_00000001), (32, 0b00_0_0011_100_0000010_0000011_10011101),
     (32, 0b11111111111111111011_1_000_01000001), (32, 0b100_0_1_1000_0_0000110_0000000_10100011)].all
      (fun x => decodeTableWord x.1 x.2 == none) = true := by decide

/-! An ill-formed term for each check of `WellFormed`, which the check refuses. -/

def refuses (l : List Instr) : Bool := l.all fun i => !i.wellFormed

/-- `lane` as a destination, an odd pair in each place of a register form, an odd shift count, and an extract with a wide form's
registers. -/
theorem test_wellFormed_registers :
    refuses [.add ⟨false, false, false, .v 1, .v 2, .lane⟩, .mul ⟨true, false, false, .v 3, .v 2, .v 4⟩, .mad ⟨true, false, false, .v 2, .v 3, .v 4⟩,
      .xor ⟨true, false, false, .v 2, .v 4, .v 5⟩, .shl ⟨true, false, false, .v 1, .v 3, .v 4⟩, .min ⟨true, false, false, .v 1, .v 3, .lane⟩,
      .bfi ⟨true, false, false, .v 1, .s 3, .v 4⟩, .lea ⟨false, false, false, .v 1, .lane, .v 4⟩, .mov ⟨true, false, .lane, .v 4⟩,
      .movi 0 .lane, .movhi 0 .lane, .addi ⟨1, false, .v 1, .lane⟩, .sel ⟨0, .v 1, .v 2, .lane⟩, .jr ⟨0, false, .v 1, .lane⟩,
      .shli ⟨false, 32, false, .v 1, .v 2⟩, .sari ⟨true, 40, false, .v 1, .v 2⟩, .clz ⟨true, false, .v 2, .s 1⟩] = true := by decide

/-- Conditions, `!p0` in a jump, and special registers that nothing assigns or that a program only reads. -/
theorem test_wellFormed_codes :
    refuses [.cmp ⟨false, false, false, .v 1, .v 2, 10, 1⟩, .cmpi ⟨0, false, .v 1, 10, 1⟩, .fcmp ⟨false, false, false, .v 1, .v 2, 8, 1⟩,
      .fcmp16 ⟨false, false, false, .v 1, .v 2, 8, 1⟩, .br ⟨4, true, 0⟩, .call ⟨4, true, 0⟩, .rdsr 0x0F (.v 1), .rdsr 0x23 (.v 1),
      .wrsr 0x03 false (.v 1), .wrsr 0x0C false (.v 1), .wrsr 0x0F false (.v 1)] = true := by decide

/-- Floating formats that an operation does not take, a conversion to its own format, a rounding bit or a saturation bit where there
is none, and pairs of the 64-bit formats. -/
theorem test_wellFormed_floating :
    refuses [.fadd ⟨true, false, false, .v 1, .v 2, .v 4⟩, .fsqrt ⟨.f64, false, .v 2, .v 3⟩, .fclass ⟨.f64, false, .v 3, .v 2⟩,
      .sfuEx2 ⟨.f64, false, .v 2, .v 4⟩, .qnum ⟨.f16, false, .v 2, .v 4⟩, .qden ⟨.f64, false, .v 2, .v 3⟩,
      .cvti ⟨.f64, .s32, false, false, .v 3, .v 4⟩, .cvtf ⟨.f32, .s32, true, false, .v 3, .v 4⟩, .cvtf ⟨.f64, .s32, false, false, .v 2, .v 3⟩,
      .cvtw ⟨.f16, .f16, false, .v 2, .v 4⟩, .cvtw ⟨.f64, .f32, false, .v 1, .v 4⟩, .cvtn ⟨false, .f64, .s8, false, .v 1, .v 4⟩,
      .cvtx ⟨true, .f32, .s8, false, .v 2, .v 4⟩, .cvtx ⟨false, .f64, .s8, false, .v 2, .v 5⟩, .pkp ⟨0, false, .v 1, .lane⟩] = true := by decide

/-- Memory sizes with their pairs, sign extension of a full register, CAS data, and scans. -/
theorem test_wellFormed_memory :
    refuses [.ld ⟨0, false, .s 0, .b8, .v 3⟩, .ld ⟨0, false, .s 0, .b4, .lane⟩, .ldS ⟨0, false, .s 0, .b4, .v 3⟩,
      .ldxS ⟨false, false, false, .v 1, .s 0, .b8, .v 4⟩, .ldx ⟨false, false, false, .v 1, .s 0, .b8, .v 3⟩, .st ⟨0, false, .s 0, .b8, .v 3⟩,
      .stx ⟨false, false, false, .v 1, .s 0, .b8, .lane⟩, .ldAcq ⟨0, false, .s 0, .b8, .v 3⟩, .stRel ⟨0, false, .s 0, .b8, .v 3⟩,
      .cget 0 false (.s 0) .lane, .ctag false (.s 0) .lane, .atomAdd .plain ⟨true, false, false, .v 1, .s 0, .v 3⟩,
      .atomCas .plain ⟨true, false, false, .v 1, .s 0, .v 6⟩, .atomCas .plain ⟨false, false, false, .v 1, .s 0, .v 5⟩,
      .redAdd ⟨true, false, false, .v 1, .s 0, .v 3⟩, .scan ⟨false, 3, 4, .v 1, .v 2⟩, .redg ⟨false, 6, 0, .v 1, .v 2⟩,
      .scan ⟨false, 0, 2, .v 1, .v 2⟩] = true := by decide

/-- Lanes, matrix and engines: a destination that is no register, masks of no quadrant, a tile field that is no scalar register, a
sign extension of bytes that are copied whole, and odd pairs. -/
theorem test_wellFormed_engines :
    refuses [.shfl ⟨true, false, false, .v 1, .v 3, .v 4⟩, .voteAny 1 .lane, .matchLanes ⟨true, false, .v 3, .v 4⟩, .spawn ⟨false, false, .s 0, .v 1, .lane⟩,
      .fork ⟨false, false, .s 0, .v 1, .s 1⟩, .tcfg (.v 1) 0, .tcrd .lane 0, .tld 0 0 true 0, .macq 0, .mrel 0, .acz 0, .mloop 0 0 0 1,
      .acrd .lane 0 0, .cadd ⟨false, false, false, .v 1, .s 2⟩, .cwait ⟨false, false, false, .v 1, .s 2⟩, .ctest ⟨false, false, .v 1, .s 2, 1⟩,
      .cread false (.s 2) (.v 1), .cbind ⟨false, false, .v 1, .s 2, .s 3⟩, .qres ⟨false, false, .v 1, .s 3, .lane⟩,
      .hld ⟨0, false, false, .v 0, .s 2, .lane⟩, .hldp ⟨0, false, .v 0, .v 5⟩, .trace ⟨false, false, .s 0, .s 1, .lane⟩,
      .kvlookLook ⟨false, false, .s 1, .s 0, .v 3⟩, .kvapp ⟨false, false, .s 1, .s 0, .v 3⟩, .kvrelDrop ⟨false, false, .v 1, .s 0, .lane⟩,
      .loft ⟨false, false, .v 1, .s 0, .v 1⟩] = true := by decide

/-- The example words of the spec's tables of forms (spec/04, Table 4.8; spec/06, R128, R129 and Tables 6.6 and 6.7; spec/13, Table 13.4; spec/15,
Table 15.6; spec/17; spec/19). -/
theorem test_decode_examples_of_the_spec : decodes
    [(32, 0x06720133, .movi 3300 (.v 1)), (16, 0x08EC, .movCompact { b := 1, d := 3 }), (32, 0x00013043, .call { off := 19, neg := false, p := 0 }),
     (32, 0x00C0850B, .div { x := false, fb := false, fa := false, b := .v 3, a := .v 1, d := .v 5 }), (16, 0x3A04, .subS32Compact { b := 7, d := 8 }),
     (32, 0x0002012D, .cmpi { i := 0, fa := false, a := .v 4, cond := 0, p := 1 }), (16, 0x1102, .guard false 1), (32, 0x00000045, .ret),
     (32, 0x82030451, .fadd { x := true, fb := false, fa := false, b := .v 8, a := .v 6, d := .v 4 }),
     (32, 0x00C10179, .fma16 { x := false, fb := false, fa := false, b := .v 3, a := .v 2, d := .v 1 }),
     (32, 0x0080836F, .qmake { x := false, fb := false, fa := false, b := .v 2, a := .v 1, d := .v 3 }),
     (32, 0x01018565, .cvti { ff := .f32, ii := .s32, t := true, fa := false, a := .v 3, d := .v 5 }),
     (32, 0x80008269, .cvtn { sat := true, ff := .f32, nn := .e4m3, fa := false, a := .v 1, d := .v 2 }),
     (32, 0x0101036B, .cvtx { sat := false, ff := .f32, nn := .e5m2, fa := false, a := .v 2, d := .v 3 }),
     (32, 0x1000826D, .pkp { w := 4, fa := false, a := .v 1, d := .v 2 }),
     (32, 0x18030763, .qnum { fmt := .f32, fa := false, a := .v 6, d := .v 7 }),
     (32, 0x81A400D5, .cadd { x := true, fb := false, fa := false, b := .v 6, a := .s 2 }),
     (32, 0x01A44CDB, .cbind { fb := false, fa := false, b := .v 6, a := .s 2, d := .s 3 }),
     (32, 0x802406D9, .cread false (.s 2) (.v 6)), (32, 0x01A402D9, .ctest { fb := false, fa := false, b := .v 6, a := .s 2, p := 2 }),
     (32, 0x81A400D7, .cwait { x := true, fb := false, fa := false, b := .v 6, a := .s 2 }), (32, 0x000280E1, .mark 5),
     (32, 0x002600DF, .qdone false (.s 3)), (32, 0x042600DD, .qpush { fb := false, fa := false, b := 1, a := .s 3 }),
     (32, 0x122200E3, .ttbind false false (.s 2) (.s 1)), (32, 0x120600E7, .hfold false false (.s 2) (.v 3)),
     (32, 0x806208E5, .hld { p := 5, fb := false, fa := false, c := .v 0, a := .s 1, d := .v 8 }),
     (32, 0x01410AE5, .hldp { p := 1, fb := false, c := .v 1, d := .v 10 }), (32, 0x800180E9, .hopen false (.v 3)), (32, 0x000180E9, .hseal false (.v 3)),
     (32, 0x01A410EB, .tex { p := 2, fb := false, fa := false, c := .v 1, a := .s 2, d := .v 4 }),
     (32, 0x112048EF, .cutsel { fb := false, fa := false, b := .s 1, a := .s 0, d := .s 2 }),
     (32, 0x02024CF3, .halo { fb := false, fa := false, b := .v 2, a := .v 1, d := .s 3 }),
     (32, 0x112002F1, .trace { fb := false, fa := false, b := .s 1, a := .s 0, d := .v 2 }),
     (32, 0x132402F9, .kvapp { fb := false, fa := false, b := .s 3, a := .s 2, d := .v 2 }),
     (32, 0x004208F5, .kvhash { fb := false, fa := false, b := .v 1, a := .v 1, d := .v 2 }),
     (32, 0x022482F7, .kvlookTake { fb := false, fa := false, b := .v 2, a := .s 2, d := .v 2 }),
     (32, 0x80E406F9, .kvrelDrop { fb := false, fa := false, b := .v 3, a := .s 2, d := .v 6 }),
     (32, 0x82020CFB, .lmerge { fb := false, fa := false, b := .v 2, a := .v 1, d := .v 3 })] = true := by decide

/-! Small steps, with results worked out in the spec or by hand from its rules. -/

/-- One fibre, lane 0, with the registers listed. -/
def one (ws : List (Nat × Nat)) : State := mach (grp [fib 0 ws] [] []) (cur [0])
/-- The value of `v<r>` of the fibre, and its flags. -/
def vOf (o : Host.Outcome State Fault Refusal) (r : Nat) : Option (Word × BitVec 6) :=
  match o with
  | .next t => ((t.group? 3).bind (·.fibre? 0)).map fun f => ((cellAt f.vregs r).val, f.flags)
  | _ => none
def rrr (x : Bool) (d a b : Fin 64) : Rrr := ⟨x, false, false, .v b, .v a, .v d⟩
/-- What a long-latency result writes once it is ready. -/
def late (i : Instr) (s : State) : Host.Outcome State Fault Refusal :=
  match exec i s with | .next t => exec (.producerComplete s.nextId) t | o => o

/-- The first step after a placement runs the word: 0x0672_0133 writes 3300 (spec/04, Table 4.8). -/
theorem test_step_runs_first_word : (match step (State.reset.withFetchWord 32 0x06720133) with
    | .next t => (t.groups.head?.bind (·.fibre? 0)).map fun f => ((cellAt f.vregs 1).val, f.pc) | _ => none) = some (3300, 4) := by decide +kernel
theorem test_movi_least : vOf (exec (.movi 0x10000 (.v 3)) (one [])) 3 = some (0xFFFF0000, 0) := by decide
theorem test_movhi_keeps_low : vOf (exec (.movhi 0xABCD (.v 3)) (one [(3, 0x12345678)])) 3 = some (0xABCD5678, 0) := by decide
theorem test_add_wraps : vOf (exec (.add (rrr false 3 1 2)) (one [(1, 0xFFFFFFFF), (2, 1)])) 3 = some (0, 0) := by decide
/-- The high word of a 64-bit difference that borrows. -/
theorem test_sub_borrows : vOf (exec (.sub (rrr true 4 0 2)) (one [(1, 1), (2, 1)])) 5 = some (0, 0) := by decide
theorem test_mulhi_signed : vOf (exec (.mulhi (rrr true 3 1 2)) (one [(1, 0xFFFFFFFF), (2, 2)])) 3 = some (0xFFFFFFFF, 0) := by decide
/-- 3300 over 132, and a zero divisor (spec/04, R82 and the worked program). -/
theorem test_div : vOf (late (.div (rrr false 5 1 3)) (one [(1, 3300), (3, 132)])) 5 = some (25, 0) := by decide +kernel
theorem test_div_by_zero : vOf (late (.div (rrr true 5 1 3)) (one [(1, 9)])) 5 = some (0xFFFFFFFF, flagDZ) := by decide +kernel
theorem test_rem : vOf (late (.rem (rrr false 5 1 3)) (one [(1, 3300), (3, 1848)])) 5 = some (1452, 0) := by decide +kernel
theorem test_sar_by_width : vOf (exec (.sar (rrr false 3 1 2)) (one [(1, 0x80000000), (2, 32)])) 3 = some (0xFFFFFFFF, 0) := by decide
theorem test_shl_by_width : vOf (exec (.shl (rrr false 3 1 2)) (one [(1, 0xFFFFFFFF), (2, 32)])) 3 = some (0, 0) := by decide
theorem test_clz : vOf (exec (.clz ⟨false, false, .v 6, .v 7⟩) (one [(6, 14)])) 7 = some (28, 0) := by decide
theorem test_clz_zero : vOf (exec (.clz ⟨false, false, .v 6, .v 7⟩) (one [])) 7 = some (32, 0) := by decide
theorem test_lea_signed : vOf (exec (.lea ⟨false, false, false, .v 2, .v 0, .v 4⟩) (one [(0, 8), (2, 0xFFFFFFF0)])) 5 = some (0xFFFFFFFF, 0) := by decide
/-- An unsigned order, and NOT of p0 as a truth table (spec/04, Tables 4.5 and 3.6). -/
theorem test_cmp_unsigned : (match exec (.cmp ⟨false, false, false, .v 2, .v 1, 6, 3⟩) (one [(1, 1), (2, 0xFFFFFFFF)]) with
    | .next t => ((t.group? 3).bind (·.fibre? 0)).map (·.predBit 3) | _ => none) = some true := by decide
theorem test_plop_not : (match exec (.plop ⟨3, 0, 0, 5⟩) (one []) with
    | .next t => ((t.group? 3).bind (·.fibre? 0)).map (·.predBit 5) | _ => none) = some false := by decide
/-- STATUS as spec/02 works it out, but for what MODE does not write: RAT = 1 and RND = RDN are 0x14. -/
theorem test_mode : (match exec (.modeSet true .rdn) (one []) with
    | .next t => ((t.group? 3).bind (·.fibre? 0)).map (·.status) | _ => none) = some 0x14 := by decide
theorem test_trap_saves : (match exec (.trap 5) (one []) with
    | .next t => ((t.group? 3).bind (·.fibre? 0)).map fun f => (f.epc, f.cause, f.trapval, f.pc) | _ => none) = some (0x10, 0x10, 0x80000005, 0x40) := by
  decide

/-- The narrow conversions of spec/05, Table 5.4, with their flags: 0.3 to each format, and 1,000 where it overflows. -/
theorem test_cvtn : (∀ x ∈ [(Narrow.e4m3, 0x2A, flagIX), (.e5m2, 0x35, flagIX), (.e3m2, 0x05, flagIX), (.e2m3, 0x02, flagIX ||| flagUF),
      (.e2m1, 0x1, flagIX ||| flagUF), (.s8, 0x00, flagIX)],
      vOf (exec (.cvtn ⟨false, .f32, x.1, false, .v 1, .v 2⟩) (one [(1, 0x3E99999A)])) 2 = some (BitVec.ofNat 32 x.2.1, x.2.2)) ∧
    ∀ x ∈ [(Narrow.e4m3, false, 0x7F, flagOF ||| flagIX), (.e4m3, true, 0x7E, flagOF ||| flagIX), (.e5m2, false, 0x64, flagIX),
      (.e3m2, true, 0x1F, flagOF ||| flagIX), (.s8, false, 0x7F, flagOF ||| flagIX)],
      vOf (exec (.cvtn ⟨x.2.1, .f32, x.1, false, .v 1, .v 2⟩) (one [(1, 0x447A0000)])) 2 = some (BitVec.ofNat 32 x.2.2.1, x.2.2.2) := by decide +kernel

def rone (st : Nat) (ws : List (Nat × Nat)) : State := mach (grp [{ fib 0 ws with status := BitVec.ofNat 32 st }] [] []) (cur [0])
/-- The rational roundings of spec/05, Table 5.10, under RNE and RUP. -/
theorem test_rational_rounding :
    vOf (late (.fadd (rrr false 3 1 2)) (rone 0x10 [(1, 0x04000005), (2, 0x67000000)])) 3 = some (0x04000005, flagIX) ∧
    vOf (late (.fadd (rrr false 3 1 2)) (rone 0x16 [(1, 0x04000005), (2, 0x67000000)])) 3 = some (0x31FFFFFF, flagIX) ∧
    vOf (late (.fmul (rrr false 3 1 2)) (rone 0x10 [(1, 0x06000003), (2, 0x08000006)])) 3 = some (0x05000001, flagIX) ∧
    vOf (late (.fmul (rrr false 3 1 2)) (rone 0x16 [(1, 0x06000003), (2, 0x08000006)])) 3 = some (0x05000003, flagIX) := by decide +kernel
/-- 1/6 made, 1/3 + 1/6, its numerator and denominator, and 3/5 as binary16 (spec/06, the worked program). -/
theorem test_rational_program :
    vOf (late (.qmake (rrr false 4 1 2)) (rone 0 [(1, 1), (2, 6)])) 4 = some (0x0C00000E, 0) ∧
    vOf (late (.fadd (rrr false 6 3 4)) (rone 0x10 [(3, 0x08000007), (4, 0x0C00000E)])) 6 = some (0x08000006, 0) ∧
    vOf (late (.qnum ⟨.f32, false, .v 6, .v 7⟩) (rone 0x10 [(6, 0x0C00001D)])) 7 = some (3, 0) ∧
    vOf (late (.qden ⟨.f32, false, .v 6, .v 8⟩) (rone 0x10 [(6, 0x0C00001D)])) 8 = some (5, 0) ∧
    vOf (late (.cvtw ⟨.f32, .f16, false, .v 6, .v 9⟩) (rone 0x10 [(6, 0x0C00001D)])) 9 = some (0x000038CD, flagIX) := by decide +kernel
/-- 1.5 + 3, and 3 over 0 (spec/06, R131). -/
theorem test_fadd : vOf (exec (.fadd (rrr false 3 0 1)) (one [(0, 0x3FC00000), (1, 0x40400000)])) 3 = some (0x40900000, 0) := by decide +kernel
theorem test_fdiv_by_zero : vOf (exec (.fdiv (rrr false 3 0 1)) (one [(0, 0x40400000)])) 3 = some (0x7F800000, flagDZ) := by decide +kernel
/-- Code 43 of element 5 in six planes: 0b1010 in word 0 bits 23:20, 0b11 in word 4 bits 11:10 (spec/06, R148). -/
theorem test_planes : packPlanes 6 (fun e => if e = 5 then 43 else 0) = 0xA * 2 ^ 20 + 3 * 2 ^ (32 * 4 + 10) := by decide +kernel


/-! Premises as Booleans, so that the kernel decides them in one evaluation. -/

def acts (s : State) (c : Cur) (g : Group) (fs : List Fibre) (l : List Form) : Bool := l.all fun fm => decide (Acting s c g fs fm)
theorem acting_of {s c g fs l} (h : acts s c g fs l = true) : ∀ fm ∈ l, Acting s c g fs fm :=
  fun fm hm => of_decide_eq_true (List.all_eq_true.1 h fm hm)
def actsOnce (s : State) (c : Cur) (g : Group) (f : Fibre) (fs : List Fibre) (l : List Form) : Bool :=
  l.all fun fm => decide (ActingOnce s c g f fs fm)
theorem actingOnce_of {s c g f fs l} (h : actsOnce s c g f fs l = true) : ∀ fm ∈ l, ActingOnce s c g f fs fm :=
  fun fm hm => of_decide_eq_true (List.all_eq_true.1 h fm hm)
def batches (s : State) (c : Cur) (g : Group) (fs : List Fibre) (fm : Form) : Bool := decide (Batch s c g fs fm)
theorem batch_of {s c g fs fm} (h : batches s c g fs fm = true) : Batch s c g fs fm := of_decide_eq_true h
def reach (s : State) (g : Group) (u : MemUse) (q : Quad) (sub : Nat) (off : Fibre → Int) (defer : Bool) (more : Fibre → Option Trap)
    (who : List Fibre) (adr : Fibre → Nat) (key : Fibre → Option Nat) : Bool :=
  who.all (fun f => s.access g f u q sub (off f) defer (more f) == .ok (adr f) (key f) &&
    (match key f with | some k => !s.boarded k u.size && (!u.store || !g.mloopHolds k u.size) | none => true) &&
    (f.watchOnce || decide (capSpace (g.quad f q) ≠ 0 ∧ capSpace (g.quad f q) ≠ 5) ||
      decide (s.watchHit (s.ctxOf g) (adr f) u.size (watchKind u.store) = none))) &&
    !s.acquiring g && (!u.store || decide (g.outack + (who.filter fun f => ((key f).map isOutside).getD false).length ≤ 65535))
theorem reaches_of {s g u q sub off defer more who adr key} (h : reach s g u q sub off defer more who adr key = true) :
    Reaches s g u q sub off defer more who adr key := by
  simp only [reach, Bool.and_eq_true, List.all_eq_true, Bool.or_eq_true, Bool.not_eq_true', beq_iff_eq, decide_eq_true_eq] at h
  obtain ⟨⟨h1, h2⟩, h3⟩ := h
  refine ⟨fun f hf => (h1 f hf).1.1, h2, fun f hf k hk => ?_, fun hu => ?_, fun f hf => ?_⟩
  · have := (h1 f hf).1.2; rw [hk] at this
    simp only [Bool.and_eq_true, Bool.or_eq_true, Bool.not_eq_true'] at this
    exact ⟨this.1, fun hu => this.2.resolve_left (by simp [hu])⟩
  · exact h3.resolve_left (by simp [hu])
  · rcases (h1 f hf).2 with (h | h) | h
    · exact .inl h
    · exact .inr (.inl h)
    · exact .inr (.inr h)
def okIs {ε α : Type} [DecidableEq α] (x : Except ε α) (v : α) : Bool := match x with | .ok a => decide (a = v) | .error _ => false
def errIs {ε α : Type} [DecidableEq ε] (x : Except ε α) (v : ε) : Bool := match x with | .error a => decide (a = v) | .ok _ => false
/-- A step or an instruction answers a next state with the property. -/
def nextIs (o : Host.Outcome State Fault Refusal) (p : State → Bool) : Bool := match o with | .next t => p t | _ => false

/-- The bytes from `a` upward, in the canonical form of memory. -/
def cells (a : Nat) (bs : List Byte) : List Host.Cell := (bs.zipIdx.filter fun x => x.1 != 0).map fun x => (a + x.2, x.1)

/-! Witnesses: for every statement with premises, states and operands that meet them together, clause by clause. -/

theorem hyp_ReadAfterWrite : Memory.wf S.mem = true ∧ (1 : Nat) ≠ 2 ∧ F0.phys 15 < F0.vregs.length ∧ G.sregs.length = 32 ∧
    leBytes 4 0xFFFFFFFF = [0xFF, 0xFF, 0xFF, 0xFF] ∧ 0xFFFFFFFF < 256 ^ 4 := by decide

theorem hyp_EncodingRoundTrip : (.add ⟨true, false, true, .v 8, .v 6, .v 4⟩ : Instr).wellFormed = true ∧
    encode (.add ⟨true, false, true, .v 8, .v 6, .v 4⟩) = some [0x01, 0x04, 0x03, 0xA2] := by decide

theorem hyp_DecodingRoundTrip : (decode [0x01, 0x04, 0x03, 0xA2] == .ok (.add ⟨true, false, true, .v 8, .v 6, .v 4⟩, 4)) = true := by decide

theorem hyp_StepKeepsMemoryForm : Memory.wf S.mem = true ∧ nextIs (step S) (fun _ => true) = true := by decide

/-- The batch of `S` acts, and a trap there finds a handler. -/
theorem hyp_Traps : (∀ f ∈ [F0, F1], f.ih = false ∧ f.enables = 0) ∧ (S.handlerOf G).getLsbD 0 = true := by decide

def o32 : Rrr := ⟨false, false, false, .v 1, .v 0, .v 3⟩
def o64 : Rrr := ⟨true, false, true, .v 4, .s 2, .v 2⟩
/-- To a register that discards writes. -/
def oz : Rrr := ⟨true, true, true, .v 4, .zero, .zero⟩

theorem hyp_IntegerArithmeticAndLogic : ∀ fm ∈ [formRrr (regs o32.x) o32, formRrr (regs o64.x) o64, formRrr (regs oz.x) oz], Acting S C G [F0, F1] fm :=
  acting_of (by decide)

theorem hyp_IntegerBoundsAndOperationsThatReadD : ∀ fm ∈ [formRrr 1 o32, formRrr 1 oz,
    ⟨[.both o32.d 1, .source o32.a 1 false, .source o32.b 1 false], [], false, .own⟩,
    ⟨[.both o64.d 2, .source o64.a 2 true, .source o64.b 2 false], [], false, .own⟩,
    ⟨[.both o64.d 2, .source o64.a 2 true, .source o64.b 1 false], [], false, .own⟩], Acting S C G [F0, F1] fm := acting_of (by decide)

theorem hyp_Shifts : ∀ fm ∈ [⟨[.dest o64.d 2, .source o64.a 2 true, .source o64.b 1 false], [], false, .own⟩,
    ⟨[.dest (.v 3) 1, .source (.v 0) 1 false], [], false, .own⟩, ⟨[.dest (.v 2) 2, .source (.v 4) 2 true], [], false, .own⟩],
    Acting S C G [F0, F1] fm := acting_of (by decide)

theorem hyp_ImmediateForms : ∀ fm ∈ [⟨[.dest (.v 1) 1, .source (.v 0) 1 false], [], false, .own⟩, ⟨[.dest .zero 1], [], false, .own⟩,
    ⟨[.both (.s 28) 1], [], false, .own⟩], Acting S C G [F0, F1] fm := acting_of (by decide)

theorem hyp_SingleSourceExtractAndAddressSum : ∀ fm ∈ [formRr ⟨false, false, .v 1, .v 0⟩, formRr ⟨true, true, .v 4, .v 8⟩, formRrr 1 o32,
    ⟨[.dest (.v 2) 2, .source (.s 4) 2 false, .source (.v 1) 1 true], [], false, .own⟩], Acting S C G [F0, F1] fm := acting_of (by decide)

theorem hyp_CompareSelectAndPredicateLogic : ∀ fm ∈ [⟨[.source (.v 0) 1 false, .source (.v 1) 1 false], [3], false, .own⟩,
    ⟨[.source (.v 4) 2 false, .source (.v 6) 2 false], [0], false, .own⟩, ⟨[.source (.v 1) 1 false], [3], false, .own⟩,
    ⟨[.dest (.v 3) 1, .source (.v 1) 1 false, .source .lane 1 false], [3], false, .own⟩, ⟨[], [0, 1, 3], false, .own⟩],
    Acting S C G [F0, F1] fm := acting_of (by decide)

/-- The batch with a register of each fibre changed, and its machine. -/
def Gc' (r : Nat) (x : RegCell) : Group := grp [{ F0 with vregs := F0.vregs.set r x }, { F1 with vregs := F1.vregs.set r x }] SW [0, 1, 2, 3]
def Sc' (r : Nat) (x : RegCell) : State := mach (Gc' r x) C
/-- What one clause of `Checks` asks of the operand `o` of every fibre. -/
def checksAt (r : Nat) (x : RegCell) (fm : Form) (p : Group → Fibre → Bool) : Bool :=
  decide (Batch (Sc' r x) C (Gc' r x) (Gc' r x).fibres fm) && (Gc' r x).fibres.all fun f => p (Gc' r x) f && !f.ih

/-- A register beyond the allocation; a marked source; an empty source with its F bit and without; a poisoned source. -/
theorem hyp_Checks :
    (∀ f ∈ G.batch C.lanes, ((formRrr 1 { o32 with d := .v 20 }).ops.find? (fun x => !x.inRange G f)).map (·.field) = some 20) ∧ G.batch C.lanes ≠ [] ∧
    checksAt 0 ⟨0, true, some ⟨.arith, 7⟩, false⟩ (formRrr 1 o32) (fun g f =>
      (Operand.dest (.v 3) 1).cells g f == [.of 0] && ((Operand.source (.v 0) 1 false).cells g f).findSome? (·.mark) == some ⟨.arith, 7⟩) = true ∧
    checksAt 0 ⟨0, false, none, false⟩ (formRrr 1 { o32 with fa := true }) (fun g f =>
      (Operand.source (.v 0) 1 true).trapEmpty && !((Operand.source (.v 0) 1 true).cells g f).all (·.full)) = true ∧
    checksAt 0 ⟨0, false, none, false⟩ (formRrr 1 o32) (fun g f =>
      !(Operand.source (.v 0) 1 false).trapEmpty && !(g.cell f (.v 0)).full && (formRrr 1 o32).ops.all fun o => (o.cells g f).all fun c => c.mark.isNone && !c.poison) = true ∧
    checksAt 0 ⟨0, true, none, true⟩ (formRrr 1 o32) (fun g f => ((Operand.source (.v 0) 1 false).cells g f).any (·.poison)) = true := by decide

/-- Fibres with floating values: a quotient with a remainder, an infinity, signalling and quiet NaNs, codes of .F16 and .BF16. -/
def Ff0 : Fibre := fib 0 [(0, 0x3FC00000), (1, 0x40400000), (2, 0x7FC00000), (3, 0x80000000), (5, 0x3FF80000), (7, 0x40080000),
  (8, 0x7F800000), (9, 0x7F800001), (10, 0x3C003E00)]
def Ff1 : Fibre := fib 1 [(0, 0xBFC00000), (2, 0x7FA00000), (3, 0x00000001), (5, 0x3FF80000), (7, 0x7FF00000), (8, 0x3F800000),
  (9, 0xFF7FFFFF), (10, 0x7E01FC00)]
def Gf : Group := grp [Ff0, Ff1] SW [0, 1, 2, 3]
def Sf : State := mach Gf C
def rat (f : Fibre) : Fibre := { f with status := 0x10 }
/-- The same with RAT = 1. -/
def Gr : Group := grp [rat F0, rat Ff1] SW [0, 1, 2, 3]
def Sr : State := mach Gr C
def f32 : Rrr := ⟨false, false, false, .v 1, .v 0, .v 3⟩
def f64 : Rrr := ⟨true, false, false, .v 6, .v 4, .v 4⟩
def fhf : Rrr := ⟨false, false, false, .v 10, .v 10, .v 10⟩
def fbf : Rrr := ⟨true, false, false, .v 1, .v 0, .s 28⟩
def u32 : FUnary := ⟨.f32, true, .v 8, .v 9⟩
def u64 : FUnary := ⟨.f64, false, .v 4, .v 8⟩
def uhf : FUnary := ⟨.f16, true, .v 10, .v 3⟩

/-- Signalling NaNs of every format, with every trap enabled. -/
def Ft (l : Fin 32) : Fibre :=
  { fib l [(0, 0x7F800001), (1, 0x7F800001), (4, 1), (5, 0x7FF00000), (6, 1), (7, 0x7FF00000), (8, 0x01000001), (10, 0x7C01), (11, 0x7F81)] with status := 0x3F00 }
def Gt : Group := grp [Ft 0, Ft 1] SW [0, 1, 2, 3]
def St : State := mach Gt C
def raises (fl : Fibre → BitVec 6) : Bool := [Ft 0, Ft 1].all fun f => fl f &&& f.enables != 0

/-- The premises of `TrapsArith`: FADD, FSUB, FMUL, FDIV, FMIN, FMAX, FMA, FCPYS, FSQRT, FRND, FABS, FNEG, FCMP and the conversions. -/
theorem hyp_TrapsArith :
    (∀ fm ∈ [formF .f32 false f32, formF .f64 false f64, formF .f16 false fhf, formF .bf16 true { fbf with a := .v 11, b := .v 11, d := .v 11 },
      formF .f32 true f32, formU .f32 { u32 with a := .v 0 }, formU .f64 u64, formU .f16 uhf, formCmp .f32 ⟨false, false, false, .v 1, .v 0, 2, 3⟩,
      ⟨[.dest (.v 3) 1, .source (.v 0) 1 false], [], false, .own⟩], Acting St C Gt [Ft 0, Ft 1] fm) ∧
    (∀ f ∈ [Ft 0, Ft 1], f.ih = false ∧ f.rat = false) ∧ (St.handlerOf Gt).getLsbD 0 = true ∧
    (let a := fun f => Gt.ieee f .f32 (.v 0)
     let r := fun x => raises fun f => (ieeeResult .f32 f.rnd [a f, a f] (x (a f)) 0).2
     (r fun a => a.add? .rne a) = true ∧ (r fun a => a.add? .rne a.negate) = true ∧ (r fun a => a.mul? a) = true ∧ (r fun a => some (a.minOf a)) = true ∧
     (r fun a => some (a.maxOf a)) = true ∧ (r fun a => some (a.withSign false)) = true ∧ (r fun a => some a.negate) = true ∧ (r fun _ => none) = true ∧
     (raises fun f => (ieeeOut .f32 f.rnd [a f] (numSqrt (layOf .f32) f.rnd (a f))).2) = true ∧
     (raises fun f => (ieeeOut .f32 f.rnd [a f] (numRnd (layOf .f32) f.rnd (a f))).2) = true ∧ (raises fun f => snan [a f, a f]) = true ∧
     (raises fun f => (cvtiRes .s32 f.rnd (a f)).2) = true ∧ (raises fun f => (roundNarrow f.rnd .e4m3 false (a f)).2) = true) ∧
    (raises fun f => ((layOf .f32).round f.rnd (.ofInt false (intOf .s32 (Gt.num f false (.v 8))) 1)).2) = true ∧
    (∀ x ∈ [(Fmt.f64, Reg.v 4), (.f16, .v 10), (.bf16, .v 11)],
      (raises fun f => (ieeeResult x.1 f.rnd [Gt.ieee f x.1 x.2] (some (Gt.ieee f x.1 x.2)) 0).2) = true) ∧
    (∀ x ∈ [(Fmt.f32, Reg.v 0), (.f64, .v 4), (.f16, .v 10), (.bf16, .v 11)], ∀ f ∈ [Ft 0, Ft 1], (Gt.ieee f x.1 x.2).isSnan = true) :=
  ⟨acting_of (by decide), by decide, by decide, by decide, by decide, by decide, by decide⟩

/-- Rational codes: 1/2, and a NaN, with TENV and without. -/
def Fq (e : Nat) (l : Fin 32) : Fibre :=
  { fib l [(0, 2), (1, 0x08000006), (2, 0x08000006), (4, 0), (6, 0), (10, 0x3E00)] with status := BitVec.ofNat 32 (0x10 + e) }
def Gq' (e : Nat) : Group := grp [Fq e 0, Fq e 1] SW [0, 1, 2, 3]
def Sq' (e : Nat) : State := mach (Gq' e) C

/-- Rational mode: the instructions that trap there, those that run, and FCMP with TENV (bit 12 of STATUS), with a trap of another flag
enabled, and with none. -/
theorem hyp_RationalMode :
    (∀ e ∈ [0x1000, 0x3F00, 0], ∀ fm ∈ [formF .f32 true f32, formF .f32 false f32, formF .f64 true f64, formF .f64 false f64, formU .f32 u32, formU .f64 u64,
      formCmp .f32 ⟨false, false, false, .v 1, .v 0, 2, 3⟩, formCmp .f64 ⟨true, false, false, .v 6, .v 4, 7, 0⟩,
      ⟨[.dest (.v 3) 1, .source (.v 0) 1 false], [], false, .own⟩, ⟨[.dest (.v 8) 2, .source (.v 4) 2 false], [], false, .own⟩,
      ⟨[.dest (.v 4) 2, .source (.v 10) 1 false], [], false, .own⟩, ⟨[.dest (.v 3) 1, .source (.v 4) 2 false], [], false, .own⟩,
      ⟨[.dest (.v 0) 1, .source (.v 0) 1 false, .source (.v 1) 1 false], [], false, .own⟩],
      Acting (Sq' e) C (Gq' e) [Fq e 0, Fq e 1] fm) ∧
    (∀ e ∈ [0x1000, 0x3F00, 0], (∀ f ∈ [Fq e 0, Fq e 1], f.rat = true ∧ f.ih = false) ∧ ((Sq' e).handlerOf (Gq' e)).getLsbD 0 = true) ∧
    (∀ f ∈ [Fq 0x1000 0, Fq 0x1000 1], f.enables.getLsbD 4 = true) ∧ (∀ f ∈ [Fq 0 0, Fq 0 1], f.enables.getLsbD 4 = false ∧ flagNV &&& f.enables = 0) ∧
    (∀ f ∈ [Fq 0x3F00 0, Fq 0x3F00 1], (ratRead 26 ((Gq' 0x3F00).num f false (.v 0))).1.isNan = true ∧ flagNV &&& f.enables ≠ 0) ∧
    Machine.Fmt.half .f32 = false ∧ Machine.Fmt.half .f64 = false ∧ (Machine.Fmt.half .f16 && Machine.Fmt.half .f32) = false :=
  ⟨fun e he => acting_of (by revert e; decide +kernel), by decide +kernel, by decide, by decide, by decide, rfl, rfl, rfl⟩

/-- IEEE mode, with no trap enabled: the premise of `Computes`. -/
theorem hyp_ieee : ∀ f ∈ [Ff0, Ff1], f.rat = false ∧ f.enables = 0 := by decide

theorem hyp_CompactForms : (∀ fm ∈ [⟨[.dest (.v 0) 1, .source (.v 0) 1 false, .source (.v 1) 1 false], [], false, .own⟩,
    ⟨[.dest (.v 0) 1, .source (.v 1) 1 false], [], false, .own⟩], Acting Sf C Gf [Ff0, Ff1] fm) ∧ ∀ f ∈ [Ff0, Ff1], f.rat = false :=
  ⟨acting_of (by decide), by decide⟩

theorem hyp_DivisionAndRemainder : (∀ fm ∈ [formRrr 1 o32], Acting S C G [F0, F1] fm) ∧ G.word F0 (.v 5) = 0 := ⟨acting_of (by decide), by decide⟩

theorem hyp_FloatingArithmetic : (∀ fm ∈ [formF .f32 false f32, formF .f64 false f64], Acting Sf C Gf [Ff0, Ff1] fm) ∧ ∀ f ∈ [Ff0, Ff1], f.rat = false :=
  ⟨acting_of (by decide), by decide⟩

theorem hyp_HalfPrecisionArithmetic : ∀ fm ∈ [formF .f16 false fhf, formF .bf16 false fbf, formF .f16 true fhf], Acting Sf C Gf [Ff0, Ff1] fm :=
  acting_of (by decide)

theorem hyp_FusedAndUnaryFloating : (∀ fm ∈ [formF .f32 true f32, formF .f64 false f64, formU .f32 u32, formU .f64 u64, formU .f16 uhf,
    ⟨[.dest (.v 3) 1, .source (.v 4) 2 false], [], false, .own⟩], Acting Sf C Gf [Ff0, Ff1] fm) ∧
    (∀ f ∈ [Ff0, Ff1], f.rat = false ∨ Machine.Fmt.half u32.fmt = true) ∧ ∀ f ∈ [rat F0], f.rat = false ∨ Machine.Fmt.half uhf.fmt = true :=
  ⟨acting_of (by decide), by decide, by decide⟩

theorem hyp_FloatingCompares : (∀ fm ∈ [formCmp .f32 ⟨false, false, false, .v 1, .v 0, 2, 3⟩, formCmp .f64 ⟨true, false, false, .v 6, .v 4, 7, 0⟩,
    formCmp .f16 ⟨false, false, false, .v 10, .v 10, 2, 2⟩, formCmp .bf16 ⟨true, false, false, .v 1, .v 0, 5, 2⟩], Acting Sf C Gf [Ff0, Ff1] fm) ∧
    ∀ f ∈ [Ff0, Ff1], f.rat = false ∧ flagNV &&& f.enables = 0 := ⟨acting_of (by decide), by decide⟩

theorem hyp_Conversions : (∀ fm ∈ [⟨[.dest (.v 3) 1, .source (.v 0) 1 false], [], false, .own⟩, ⟨[.dest (.v 8) 2, .source (.v 4) 2 false], [], false, .own⟩,
    ⟨[.dest (.v 4) 2, .source (.v 10) 1 true], [], false, .own⟩, ⟨[.dest (.v 3) 1, .source (.v 4) 2 false], [], false, .own⟩],
    Acting Sf C Gf [Ff0, Ff1] fm) ∧ (∀ f ∈ [Ff0, Ff1], f.rat = false ∨ Machine.Fmt.half .f32 = true) ∧
    Machine.Fmt.half .f16 = true ∧ Machine.Fmt.half .bf16 = true := ⟨acting_of (by decide), by decide, rfl, rfl⟩

theorem hyp_SpecialFunctions : (∀ fm ∈ [formU .f32 u32, formU .f16 uhf], Acting Sf C Gf [Ff0, Ff1] fm) ∧
    (∀ f ∈ [Ff0, Ff1], f.rat = false ∨ Machine.Fmt.half .f32 = true) := ⟨acting_of (by decide), by decide⟩

theorem hyp_RationalOperations : (∀ fm ∈ [formRrr 1 f32, formRrr 2 f64, formU .f32 u32, formU .f64 u64], Acting Sr C Gr [rat F0, rat Ff1] fm) ∧
    ∀ f ∈ [rat F0, rat Ff1], f.rat = true := ⟨acting_of (by decide), by decide⟩

theorem hyp_PlanesAndLaneExchange : (∀ fm ∈ [formPlane ⟨0, false, .v 0, .v 3⟩, formPlane ⟨6, false, .v 4, .s 29⟩,
    ⟨[.dest (.v 3) 1, .source (.v 0) 1 false, .source (.v 1) 1 false], [], false, .named (.v 1)⟩,
    ⟨[.dest (.v 8) 2, .source (.v 4) 2 true, .source .lane 1 false], [], false, .named .lane⟩, ⟨[.dest (.v 3) 1], [3], false, .own⟩,
    ⟨[.dest (.v 3) 1, .source (.v 4) 2 false], [], false, .every⟩], Acting S C G [F0, F1] fm) := acting_of (by decide)

theorem hyp_ControlTransfer : (∀ fm ∈ [⟨[], [3], false, .own⟩, ⟨[], [], false, .own⟩, ⟨[.dest .zero 1, .source (.v 6) 1 false], [], false, .own⟩,
    ⟨[.dest (.v 3) 1, .source (.v 0) 1 false], [], false, .own⟩], Acting S C G [F0, F1] fm) ∧
    (∀ f ∈ [F0, F1], (G.word f (.v 6) + 8).getLsbD 0 = false) ∧ ∀ f ∈ [F0, F1], (G.word f (.v 2) + 8).getLsbD 0 = true :=
  ⟨acting_of (by decide), by decide, by decide⟩

/-- Fibres in their handler, which have saved a state. -/
def ihf (f : Fibre) : Fibre :=
  { f with status := 0x20000001, estatus := 0xE0003F1E, epc := 0x44, cause := 0x11, watchUnit := some 0x44, parked := some 77 }
def Gi : Group := grp [ihf F0, ihf F1] SW [0, 1, 2, 3]
def Si : State := mach Gi C
/-- No handler. -/
def Sn : State := { S with ctxs := [{ ctx0 with kernels := [{ kern with handler := 0 }] }] }
/-- A breakpoint stop is armed. -/
def Sa : State := { S with ctxs := [{ ctx0 with dbg := { ctx0.dbg with arm := 1 } }] }
def plain : Form := ⟨[], [], false, .own⟩
def armedAt (s : State) (g : Group) : Bool := ((s.ctx? (s.ctxOf g)).map fun x => x.dbg.arm % 2 == 1).getD false

theorem hyp_BreakpointsAndGroupFaults :
    (∀ fm ∈ [plain], Acting S C G [F0, F1] fm) ∧ armedAt S G = false ∧ (∀ fm ∈ [plain], Acting Sa C G [F0, F1] fm) ∧ armedAt Sa G = true ∧
    (∀ fm ∈ [plain], Acting Si C Gi [ihf F0, ihf F1] fm) ∧ Si.block? Gi.block = some blk ∧ blk.mode = .running ∧
    (∀ x ∈ [ihf F0, ihf F1], x.ih = true) ∧ (∀ fm ∈ [plain], Acting Sn C G [F0, F1] fm) ∧ Sn.block? G.block = some blk ∧
    (∀ x ∈ [F0, F1], x.ih = F0.ih) ∧ (Sn.handlerOf G).getLsbD 0 = false :=
  ⟨acting_of (by decide), by decide, acting_of (by decide), by decide, acting_of (by decide), by decide, rfl, by decide,
    acting_of (by decide), by decide, by decide, by decide⟩

theorem hyp_ReturnFromTrap : (∀ fm ∈ [plain], Acting Si C Gi [ihf F0, ihf F1] fm) ∧ (∀ f ∈ [ihf F0, ihf F1], f.ih = true) ∧
    (∀ fm ∈ [plain], Acting S C G [F0, F1] fm) ∧ (∀ f ∈ [F0, F1], f.ih = false) :=
  ⟨acting_of (by decide), by decide, acting_of (by decide), by decide⟩

def Cg : Cur := { C with guard := some (true, 3) }
theorem hyp_PrefixAndDictionary : S.cur = some C ∧ S.group? C.group = some G ∧ G.Shaped ∧ G.batch C.lanes ≠ [] ∧ C.guard = none ∧
    (mach G Cg).cur = some Cg ∧ (mach G Cg).group? Cg.group = some G ∧ Cg.guard ≠ none ∧
    ((S.kernelOf G).map fun k => (k.dict.getD 0 0).getLsbD 0) = some true ∧ ((S.kernelOf G).map fun k => (k.dict.getD 1 0).getLsbD 0) = some false :=
  by decide

theorem hyp_ReadSpecialRegister : (∀ fm ∈ [⟨[.dest (.v 1) 1], [], false, .own⟩, ⟨[.dest (.s 29) 1], [], false, .own⟩], Acting S C G [F0, F1] fm) ∧
    (∀ f ∈ [F0, F1], S.flagsBusy G f = false) ∧ ∀ f ∈ [F0, F1], f.predBusy = 0 := ⟨acting_of (by decide), by decide, by decide⟩

/-- The block, sheaf, grid, kernel and context of the group. -/
theorem hyp_ReadSpecialRegister_placed : S.block? G.block = some blk ∧ (S.sheaf? blk.sheaf).map (·.grid) = some 7 ∧ (S.grid? 7).map (·.x) = some 1 ∧
    S.kernelOf G = some kern ∧ S.ctx? (S.ctxOf G) = some ctx0 := by decide

theorem hyp_WriteSpecialRegister : (∀ fm ∈ [⟨[.source (.v 1) 1 false], [], false, .own⟩, ⟨[.source (.v 13) 1 false], [], false, .own⟩],
    Acting S C G [F0, F1] fm) ∧ (∀ f ∈ [F0, F1], S.flagsBusy G f = false ∧ f.predBusy = 0) ∧
    (∀ f ∈ [F0, F1], (G.word f (.v 1)).toNat / 2 % 8 < 5) ∧
    (∀ fm ∈ [⟨[.source (.v 12) 1 false], [], false, .own⟩], Acting (mach (grp [fib 0 [(12, 10)]] [] []) (cur [0])) (cur [0])
      (grp [fib 0 [(12, 10)]] [] []) [fib 0 [(12, 10)]] fm) ∧ 5 ≤ ((grp [fib 0 [(12, 10)]] [] []).word (fib 0 [(12, 10)]) (.v 12)).toNat / 2 % 8 ∧
    (fib 0 [(12, 10)]).ih = false := ⟨acting_of (by decide), by decide, by decide, acting_of (by decide), by decide, rfl⟩

theorem hyp_ModeAndWindow : (∀ fm ∈ [plain], Acting S C G [F0, F1] fm) ∧ (0 : Fin 16).val * 16 < G.regsN ∧ G.regsN ≤ (1 : Fin 16).val * 16 :=
  ⟨acting_of (by decide), by decide, by decide⟩

def sc0 : Scan := ⟨false, 0, 0, .v 1, .v 3⟩
def sc5 : Scan := ⟨false, 7, 5, .v 4, .v 8⟩
def sc6 : Scan := ⟨false, 6, 4, .v 1, .v 3⟩
theorem hyp_ScanAndReduce : (∀ fm ∈ [formScan sc0 .upTo, formScan sc0 .every, formScan sc5 .upTo, formScan sc5 .every], Acting S C G [F0, F1] fm) ∧ F0.enables = 0 ∧
    (scanFloat sc0.ty.val && F0.rat) = false ∧ (scanFloat sc5.ty.val && F0.rat) = false ∧
    (∀ fm ∈ [formScan sc6 .upTo, formScan sc6 .every], Acting Sr C Gr [rat F0, rat Ff1] fm) ∧ (rat F0).enables = 0 ∧ (scanFloat sc6.ty.val && (rat F0).rat) = true :=
  ⟨acting_of (by decide), rfl, rfl, by decide, acting_of (by decide), rfl, by decide⟩

theorem hyp_SpawningAndExit :
    (∀ fm ∈ [⟨[.dest (.v 3) 1, .source (.v 6) 1 false, .quad (.s 0) 0 false], [], false, .own⟩,
      ⟨[.dest (.s 29) 1, .source (.v 2) 1 false, .quad (.s 1) 0 false], [], false, .own⟩, plain], Acting S C G [F0, F1] fm) ∧
    (∀ f ∈ [F0, F1], (G.word f (.v 6)).getLsbD 0 = false) ∧ (∀ f ∈ [F0, F1], (G.word f (.v 2)).getLsbD 0 = true) ∧ G.ovf = none ∧ G.task = none :=
  ⟨acting_of (by decide), by decide, by decide, rfl, rfl⟩

/-- Generation 1 in every space: the capabilities of `S`, of generation 0, are stale. -/
def Sg : State := { S with ctxs := [{ ctx0 with gens := List.replicate 7 1 }] }
def fk : Fork := ⟨false, false, .s 2, .v 12, .s 2⟩
/-- A batch that forks: the pair A holds an entry and a count of lanes, s8 to s11 the counter; its core and its sheaf hold `n` and `m` records. -/
def Gfk (e l : Nat) (cap : List (Nat × Nat)) (tags : List Nat) : Group :=
  grp [fib 0 [(12, e), (13, l)], fib 1 [(12, e), (13, l)]] (capAt 0 0 0x1000 0x2FF 1 ++ cap) tags
def shf (m : Nat) : Sheaf := ⟨1, 7, 0, 0, 1, List.replicate 8 ⟨1, 0, 0, none⟩, List.replicate m ⟨0x40, 5, 0x500000, [1, 2, 3, 4], 2⟩⟩
def Sfk (g : Group) (n m : Nat) : State :=
  { mach g C with cores := [{ Core.fresh 0 with deque := List.replicate n ⟨0x40, 5, 0x500000, [1, 2, 3, 4], 2⟩ }], sheaves := [shf m] }
def ctr8 : List (Nat × Nat) := capAt 8 0x500000 8 0x2FF 3
def forks (o : Fork) (g : Group) (s : State) (p : QWord → Bool → Word → Nat → Bool) : Bool :=
  acts s C g g.fibres [⟨[.quad o.d 0 false, .source o.a 2 o.fa, .quad o.b 0 o.fb], [], false, .own⟩] && decide (s.block? g.block = some blk) &&
  (s.handlerOf g).getLsbD 0 && g.fibres.all fun f => !f.ih && !s.stale (s.ctxOf g) (g.quad f o.d) &&
    p (g.quad f o.d) (g.tagOf f o.d) ((g.dword f o.a).extractLsb' 0 32) ((g.dword f o.a).extractLsb' 32 32).toNat
def holds (q : QWord) : Bool := capSpace q == 3 && !capPerm q 10 && capPerm q 6 && capBase q % 8 == 0 && decide (8 ≤ capLen q)

/-- Records that fit; more than the deque takes; a counter without its tag, stale, of another space, misaligned, too short; an odd entry; no
lane, 33 lanes; no room. -/
theorem hyp_Forking :
    (let g := Gfk 0x40 32 ctr8 [2]
     (∀ n ∈ [62, 64], forks fk g (Sfk g n 0) (fun q t e l => t && holds q && !e.getLsbD 0 && decide (0 < l) && decide (l ≤ 32)) = true ∧
       (Sfk g n 0).sheaf? blk.sheaf = some (shf 0) ∧ (shf 0).overflow.length + (g.fibres.length - (64 - ((Sfk g n 0).core g.core).deque.length)) ≤ 65536 ∧
       (Sfk g n 0).released g .die = true) ∧ g.ovf = none ∧
     forks { fk with d := .s 0 } (Gfk 0x40 1 ctr8 [0, 2]) (Sfk (Gfk 0x40 1 ctr8 [0, 2]) 0 0) (fun q t _ _ => t && capSpace q != 3) = true) ∧
    (let g := Gfk 0x40 1 ctr8 []
     forks fk g (Sfk g 0 0) (fun _ t _ _ => !t) = true) ∧
    (∀ f ∈ G.fibres, G.tagOf f fk.d = true ∧ Sg.stale (Sg.ctxOf G) (G.quad f fk.d) = true) ∧
    (let g := Gfk 0x40 1 (capAt 8 0x500004 8 0x2FF 3) [2]
     forks fk g (Sfk g 0 0) (fun q t _ _ => t && capSpace q == 3 && capBase q % 8 != 0) = true) ∧
    (let g := Gfk 0x40 1 (capAt 8 0x500000 7 0x2FF 3) [2]
     forks fk g (Sfk g 0 0) (fun q t _ _ => t && capSpace q == 3 && capBase q % 8 == 0 && decide (capLen q < 8)) = true) ∧
    (let g := Gfk 0x41 1 ctr8 [2]
     forks fk g (Sfk g 0 0) (fun q t e _ => t && holds q && e.getLsbD 0) = true) ∧
    (∀ l ∈ [0, 33], forks fk (Gfk 0x40 l ctr8 [2]) (Sfk (Gfk 0x40 l ctr8 [2]) 0 0)
      (fun q t e l => t && holds q && !e.getLsbD 0 && (l == 0 || decide (32 < l))) = true) := by decide +kernel
/-- The state with a full overflow queue differs from the first of these in its sheaf alone. -/
theorem hyp_Forking_full : 64 ≤ ((Sfk (Gfk 0x40 32 ctr8 [2]) 64 0).core 0).deque.length ∧ 65536 ≤ (shf 65536).overflow.length :=
  ⟨by decide, (List.length_replicate ..).ge⟩

/-- The same group with one lane at work. -/
def C1 : Cur := cur [0]
def S1 : State := mach G C1
theorem hyp_Reconvergence : (∀ fm ∈ [plain], Acting S1 C1 G [F0] fm) ∧ (∀ f ∈ G.fibres, f.parked = none ∧ f.splits = []) ∧
    (∀ f ∈ [F0], ∃ x ∈ G.fibres, x ∉ [F0] ∧ x.aset = f.aset ∧ (x.atReconv.map (·.1)) ≠ some C1.addr ∧ C1.lanes.contains x.lane = false) ∧
    (∀ fm ∈ [plain], Acting S C G [F0, F1] fm) ∧ G.fibres = [F0, F1] ∧ ∀ f ∈ [F0, F1], ∀ x ∈ [F0, F1], f.aset = x.aset :=
  ⟨acting_of (by decide), by decide, by decide, acting_of (by decide), rfl, by decide⟩

/-- Lane 0 has its turn of a serial section, lane 1 waits for it, or has had its own. -/
def F0t : Fibre := { F0 with turn := true }
def F1w : Fibre := { F1 with wait := some .lser }
def GQ (r d : List (Fin 32)) : Group := { grp [F0t, F1w] SW [0, 1, 2, 3] with lser := some ⟨r, d, 0x24⟩ }
theorem hyp_YieldFenceAndSerialSections : (∀ fm ∈ [plain], Acting S C G [F0, F1] fm) ∧ G.ovf = none ∧ S.released G .system = true ∧
    S.acquiring G = false ∧ C.guard = none ∧ G.lser = none ∧ (∀ x ∈ [F0, F1], x.turn = false) ∧
    (∀ fm ∈ [plain], Acting (mach (GQ [1] []) C1) C1 (GQ [1] []) [F0t] fm) ∧ (∀ fm ∈ [plain], Acting (mach (GQ [] [1]) C1) C1 (GQ [] [1]) [F0t] fm) ∧
    F0t.turn = true ∧ (GQ [1] []).lser = some ⟨1 :: [], [], 0x24⟩ ∧ (GQ [1] []).fibre? 1 = some F1w ∧ C1.lanes.contains 1 = false ∧
    (GQ [] [1]).lser = some ⟨[], [1], 0x24⟩ ∧ F1w ∈ (GQ [] [1]).fibres ∧ F1w.wait = some .lser :=
  ⟨acting_of (by decide), rfl, by decide, by decide, rfl, rfl, by decide, acting_of (by decide), acting_of (by decide), rfl, rfl, by decide,
    by decide, rfl, by decide, rfl⟩

/-- Fibres with a mark of b0 and of sb1, of the generation `n`. -/
def mk (n : Nat) (f : Fibre) : Fibre := { f with marks := [⟨.blk 0, n⟩, ⟨.shf 1, n⟩] }
def GM (n : Nat) : Group := grp [mk n F0, mk n F1] SW [0, 1, 2, 3]
/-- The group is no member of any barrier. -/
def bm (w : Nat) : BarmMark := ⟨false, 2, 0, 0, w, 3, .fresh 1, []⟩
/-- A BARM of this clk by a group of a lower index, or none that meets; a barrier at which a group has arrived. -/
theorem hyp_NamedBarriers_setting :
    (let s : State := { S with barms := [bm 0] }
     ∀ x ∈ s.barms, BarmMark.meets x (s.barmMark G blk (.blk 0) 3) = true ∧ x.who ≤ (s.barmMark G blk (.blk 0) 3).who) ∧
    (∀ x ∈ [bm 5], BarmMark.meets x (S.barmMark G blk (.blk 1) 3) = false) ∧ (Barrier.fresh 1).arrived = 0 ∧ (⟨1, 1, 0, none⟩ : Barrier).arrived ≠ 0 := by decide
def Sb : State := { S with blocks := [{ blk with bars := List.replicate 16 ⟨0, 0, 0, none⟩ }] }
theorem hyp_NamedBarriers :
    (∀ fm ∈ [plain, ⟨[.source (.v 1) 1 false], [], false, .own⟩], Acting S C G [F0, F1] fm) ∧
    S.block? G.block = some blk ∧ S.barms = [] ∧ (∀ f ∈ [F0, F1], f.markOf (.blk 0) = none) ∧ S.isMember G (.blk 0) = true ∧ G.ovf = none ∧ S.released G (barScope (.blk 0)) = true ∧
    (∀ fm ∈ [plain], Acting Sb C G [F0, F1] fm) ∧ Sb.isMember G (.blk 0) = false ∧
    (∀ fm ∈ [plain], Acting (mach (GM 5) C) C (GM 5) [mk 5 F0, mk 5 F1] fm) ∧
    (∀ f ∈ [mk 5 F0, mk 5 F1], f.markOf (.shf 1) = some 5) ∧ (mach (GM 5) C).barGen (GM 5) (.shf 1) = 0 ∧
    (∀ fm ∈ [plain], Acting (mach (GM 0) C) C (GM 0) [mk 0 F0, mk 0 F1] fm) ∧
    (∀ f ∈ [mk 0 F0, mk 0 F1], f.markOf (.blk 0) = some 0) ∧ (mach (GM 0) C).barGen (GM 0) (.blk 0) = 0 :=
  ⟨acting_of (by decide), by decide, rfl, by decide, by decide, rfl, by decide, acting_of (by decide), by decide, acting_of (by decide),
    by decide, by decide, acting_of (by decide), by decide, by decide⟩

/-! Memory. -/

def formLd (d : Reg) (n : Nat) (q : Quad) (sub : Nat) : Form := ⟨[.dest d n, .quad q sub false], [], false, .own⟩
def formSt (d : Reg) (n : Nat) (q : Quad) (sub : Nat) : Form := ⟨[.source d n false, .quad q sub false], [], false, .own⟩
def at' (k : Nat) : Fibre → Nat := fun _ => k
def key' (k : Nat) : Fibre → Option Nat := fun _ => some k

theorem hyp_Loads : (∀ fm ∈ [formLd (.v 3) 1 (.s 0) 2, formLd (.v 2) 4 (.s 0) 0, formLd (.v 8) 2 (.s 1) 3, formLd (.s 28) 1 (.s 1) 2,
      ⟨[.dest (.v 3) 1, .quad (.s 0) 0 false, .source (.v 2) 1 false], [], false, .own⟩], Acting S C G [F0, F1] fm) ∧
    (formLd (.v 3) 1 (.s 0) 2).accessing (fun _ => false) [F0, F1] = [F0, F1] ∧
    (formLd (.s 28) 1 (.s 1) 2).accessing (fun _ => false) [F0, F1] = [F0] ∧
    Reaches S G (.load 4) (.s 0) 2 (fun _ => 12) true (fun _ => none) [F0, F1] (at' 12) (key' (scratchKey 0 12)) ∧
    Reaches S G (.load 8) (.s 1) 3 (fun _ => 24) true (fun _ => none) [F0, F1] (at' 0x400018) (fun _ => none) ∧
    Reaches S G (.load 1) (.s 0) 0 (fun f => ((G.word f (.v 2)).toNat : Int)) true (fun _ => none) [F0, F1] (at' 5) (key' (scratchKey 0 5)) ∧
    Reaches S G (.load 16) (.s 0) 0 (fun _ => 48) true (fun _ => none) [F0, F1] (at' 48) (key' (scratchKey 0 48)) :=
  ⟨acting_of (by decide), rfl, by decide, reaches_of (by decide), reaches_of (by decide), reaches_of (by decide), reaches_of (by decide)⟩

/-- The premises of a load that completes: no translation is among them. -/
theorem hyp_LoadsComplete : S.block? G.block = some blk ∧ S.acquiring G = false ∧ (∀ x ∈ S.copies, x.board = none) ∧
    (∀ x ∈ S.ctxs, ∀ w ∈ x.dbg.watches, w.action = 0) ∧ (∀ fm ∈ [formLoad ⟨3, false, .s 0, .b4, .v 3⟩, formLoad ⟨3, false, .s 1, .b8, .s 28⟩,
      formLoadX ⟨false, false, false, .v 2, .s 0, .b1, .v 3⟩, formLd (.v 2) 4 (.s 0) 0], Acting S C G [F0, F1] fm) ∧
    (∀ f ∈ [F0, F1], S.Loadable G blk f 4 (.s 0) 12 ∧ S.Loadable G blk f 8 (.s 1) 24 ∧
      S.Loadable G blk f 1 (.s 0) ((G.word f (.v 2)).toNat : Int) ∧ S.Loadable G blk f 16 (.s 0) 48) :=
  ⟨by decide, by decide, by decide, by decide, acting_of (by decide), by decide⟩

theorem hyp_Stores : (∀ fm ∈ [formSt (.v 3) 1 (.s 0) 2, formSt (.v 8) 2 (.s 1) 3, ⟨[.quad (.s 1) 0 false, .quad (.s 0) 0 false], [], false, .own⟩,
      ⟨[.source (.v 3) 1 false, .quad (.s 0) 0 false, .source (.v 2) 1 false], [], false, .own⟩], Acting S C G [F0, F1] fm) ∧
    Reaches S G (.st 4) (.s 0) 2 (fun _ => 12) false (fun _ => none) [F0, F1] (at' 12) (key' (scratchKey 0 12)) ∧
    Reaches S G (.st 8) (.s 1) 3 (fun _ => 24) false (fun _ => none) [F0, F1] (at' 0x400018) (key' 0x400018) ∧
    G.ovf = none ∧ S.released G (G.scopeOf (.s 1) [F0, F1] (key' 0x400018)) = true ∧
    Reaches S G (.st 1) (.s 0) 0 (fun f => ((G.word f (.v 2)).toNat : Int)) false (fun _ => none) [F0, F1] (at' 5) (key' (scratchKey 0 5)) ∧
    Reaches S G (.st 16) (.s 0) 0 (fun _ => 48) false
      (fun f => stcCheck (G.quad f (.s 0)) (Quad.field (.s 0) 0) (G.quad f (.s 1)) (G.tagOf f (.s 1)) (Quad.field (.s 1) 0)) [F0, F1]
      (at' 48) (key' (scratchKey 0 48)) :=
  ⟨acting_of (by decide), reaches_of (by decide), reaches_of (by decide), rfl, by decide, reaches_of (by decide), reaches_of (by decide)⟩

def at32 : Atomic := ⟨false, false, false, .v 12, .s 1, .v 2⟩
def at64 : Atomic := ⟨true, false, false, .zero, .s 1, .v 8⟩
theorem hyp_AtomicsAndReductions :
    (∀ fm ∈ [formAtomDst .plain at32 false, formAtomDst .rel at64 false, formAtomDst .acq at32 true, formAtomDst .plain at64 true, formRed at32, formRed at64],
      Acting S C G [F0, F1] fm) ∧
    Reaches S G (.atom 4) (.s 1) 0 (fun f => ((G.word f (.v 12)).toNat : Int)) false (fun _ => none) [F0, F1] (at' 0x400040) (key' 0x400040) ∧
    Reaches S G (.atom 8) (.s 1) 2 (fun f => ((G.word f .zero).toNat : Int)) false (fun _ => none) [F0, F1] (at' 0x400000) (key' 0x400000) ∧
    G.ovf = none ∧ S.released G (G.scopeOf (.s 1) [F0, F1] (key' 0x400000)) = true ∧
    Reaches S G (.atom 4) (.s 1) 3 (fun f => ((G.word f (.v 12)).toNat : Int)) false (fun _ => none) [F0, F1] (at' 0x400040) (key' 0x400040) :=
  ⟨acting_of (by decide), reaches_of (by decide), reaches_of (by decide), rfl, by decide, reaches_of (by decide)⟩

/-- A block whose part of the scratchpad is shorter than the extent of s0, and capabilities on the sheaf: of its own rank, of one that is not
there. -/
def blkS : Block := { blk with scratchLen := 0x800 }
def GS (rank : Nat) : Group := grp [F0, F1] (capAt 0 0 0x1000 0x2FF 1 ++ capAt 4 (rank * 2 ^ 19) 0x1000 0x2FF 2) [0, 1]
def SS (rank : Nat) : State := { mach (GS rank) C with blocks := [blkS] }
def sheafAt (rank off : Nat) : Option Block := (SS rank).blocks.find? fun x => x.sheaf = blkS.sheaf ∧ x.rank = (rank * 2 ^ 19 + off) / 2 ^ 19
theorem hyp_AccessChecks_blocks : (∀ r ∈ [0, 1], (SS r).block? (GS r).block = some blkS ∧ (∀ q ∈ [Quad.s 0, .s 1], (GS r).tagOf F0 q = true ∧
      (SS r).stale ((SS r).ctxOf (GS r)) ((GS r).quad F0 q) = false ∧ capPerm ((GS r).quad F0 q) 10 = false ∧
      capSpace ((GS r).quad F0 q) ∈ (MemUse.load 4).spaces ∧ ∀ i ∈ (MemUse.load 4).perms, capPerm ((GS r).quad F0 q) i = true)) ∧
    capSpace ((GS 0).quad F0 (.s 0)) = 1 ∧ 0x7FC + 4 ≤ blkS.scratchLen ∧ blkS.scratchLen < 0x800 + 4 ∧ 0x800 + 4 ≤ capLen ((GS 0).quad F0 (.s 0)) ∧
    capSpace ((GS 0).quad F0 (.s 1)) = 2 ∧ sheafAt 0 0x7FC = some blkS ∧ sheafAt 0 0x800 = some blkS ∧ sheafAt 1 0 = none ∧
    0x800 + 4 ≤ capLen ((GS 1).quad F0 (.s 1)) := by decide

theorem hyp_AccessChecks : (∀ fm ∈ [formLd (.v 3) 1 (.s 6) 2, formSt (.v 3) 1 (.s 6) 2], Acting S C G [F0, F1] fm) ∧
    (∀ n : Fin 32, Reg.v 3 ≠ .s n) ∧ S.block? G.block = some blk ∧ Sg.block? G.block = some blk ∧ G.tagOf F0 (.s 6) = false ∧ G.tagOf F0 (.s 0) = true ∧
    Sg.stale (Sg.ctxOf G) (G.quad F0 (.s 0)) = true ∧ S.stale (S.ctxOf G) (G.quad F0 (.s 0)) = false ∧ G.tagOf F0 (.s 2) = true ∧
    S.stale (S.ctxOf G) (G.quad F0 (.s 2)) = false ∧ capSpace (G.quad F0 (.s 2)) ∉ (MemUse.load 4).spaces ∧
    capSpace (G.quad F0 (.s 0)) ∈ (MemUse.load 4).spaces ∧ capPerm (G.quad F0 (.s 0)) 10 = false ∧
    (∀ i ∈ (MemUse.load 4).perms, capPerm (G.quad F0 (.s 0)) i = true) ∧ ((capBase (G.quad F0 (.s 0)) : Int) + 3) % ((4 : Nat) : Int) ≠ 0 ∧
    ((capBase (G.quad F0 (.s 0)) : Int) + (-4)) % ((4 : Nat) : Int) = 0 ∧ ((capBase (G.quad F0 (.s 0)) : Int) + 0xFFC) % ((4 : Nat) : Int) = 0 ∧
    (0xFFC : Int) + ((4 : Nat) : Int) ≤ capLen (G.quad F0 (.s 0)) ∧ (capLen (G.quad F0 (.s 0)) : Int) < 0x1000 + ((4 : Nat) : Int) ∧
    capSpace (G.quad F0 (.s 0)) = 1 ∧ (capBase (G.quad F0 (.s 0)) : Int) + 0xFFC + ((4 : Nat) : Int) ≤ blk.scratchLen ∧
    (∀ r ∈ S.replays, r.declined = false) ∧
    (∀ f ∈ [F0, F1], S.access G f (.load 4) (.s 6) 2 12 true none = .trap ⟨.capTag, 90⟩) ∧
    ∀ f ∈ [F0, F1], S.access G f (.st 4) (.s 6) 2 12 false none = .trap ⟨.capTag, 90⟩ :=
  ⟨acting_of (by decide), by simp, by decide⟩

/-- s8 names a sealed capability, s12 one of space 9, s16 the longest exact extent. -/
def GB : Group := grp [F0, F1]
  (capAt 0 0 0x1000 0x2FF 1 ++ capAt 4 0x400000 0x1000 0x2FF 0 ++ capAt 8 0x500000 8 0x6FF 3 ++ capAt 12 5 1 0x2FF 9) [0, 1, 2, 3]
def SB : State := mach GB C
def cd (a b : Quad) (d : Quad) : Form := ⟨[.dest d.base 4, .quad a 0 false, .quad b 0 false], [], false, .own⟩
theorem hyp_Capabilities :
    (∀ fm ∈ [cd (.s 0) (.s 7) (.v 2), cd (.s 1) (.v 3) (.s 5), ⟨[.dest (.v 12) 4, .quad (.s 1) 1 false, .source (.v 2) 1 false], [], false, .own⟩,
      ⟨[.dest (.v 8) 4, .quad (.s 1) 0 false], [], false, .own⟩, ⟨[.dest (.v 3) 1, .quad (.s 1) 2 false], [], false, .own⟩,
      ⟨[.dest (.v 3) 1, .quad (.s 1) 3 false], [], false, .own⟩],
      Acting S C G [F0, F1] fm) ∧
    (∀ f ∈ [F0, F1], G.tagOf f (.s 0) = true ∧ capSpace (G.quad f (.s 0)) < 7 ∧ S.stale (S.ctxOf G) (G.quad f (.s 0)) = false ∧
      (G.quad f (.s 7)).toNat % 2 ^ 64 + (G.quad f (.s 7)).toNat / 2 ^ 64 ≤ capLen (G.quad f (.s 0)) ∧ (G.quad f (.s 7)).toNat / 2 ^ 64 < 2 ^ 39) ∧
    (∀ fm ∈ [cd (.s 1) (.v 3) (.s 5)], Acting Sg C G [F0, F1] fm) ∧
    (∀ f ∈ [F0, F1], Sg.stale (Sg.ctxOf G) (G.quad f (.s 1)) = true ∧ capSpace (G.quad f (.s 1)) < 7 ∧ G.tagOf f (.s 1) = true) ∧
    (∀ fm ∈ [cd (.s 3) (.s 7) (.s 5)], Acting SB C GB [F0, F1] fm) ∧ (∀ f ∈ [F0, F1], GB.tagOf f (.s 3) = true ∧ 7 ≤ capSpace (GB.quad f (.s 3))) ∧
    (∀ f ∈ [F0, F1], G.tagOf f (.s 1) = true ∧ capPerm (G.quad f (.s 1)) 10 = false ∧ capPerm (G.quad f (.s 1)) 9 = true ∧
      S.stale (S.ctxOf G) (G.quad f (.s 1)) = false ∧
      ¬(G.quad f (.v 3)).toNat % 2 ^ 64 + (G.quad f (.v 3)).toNat / 2 ^ 64 ≤ capLen (G.quad f (.s 1))) ∧
    capBase (0 : QWord) + 5 < 2 ^ 56 ∧ (2 ^ 39 ≤ 2 ^ 40 → 2 ^ 40 % 65536 = 0 ∧ 2 ^ 40 / 65536 < 2 ^ 39) :=
  ⟨acting_of (by decide), by decide, acting_of (by decide), by decide, acting_of (by decide), by decide, by decide, by decide, by decide⟩

def line0 : MemLine := ⟨0, false, .s 1⟩
theorem hyp_CacheLines : (∀ fm ∈ [formLine line0 0, formLine line0 1, formLine line0 2], Acting S1 C1 G [F0] fm) ∧
    okIs (S1.lineAt G F0 line0 0) 0x400000 = true ∧ S1.translate (dieOf G.core) (S1.ctxOf G) 0x400000 .rd = .ok 0x400000 ∧ isPeer 0x400000 = false ∧
    S1.heldByLoft 0x400000 = false ∧ okIs (S1.lineAt G F0 line0 2) 0x400000 = true ∧
    S1.lookup (dieOf G.core) (S1.ctxOf G) 0x400000 = .leaf ⟨34, 0x1F⟩ ∧
    errIs (S1.lineAt G F0 ⟨-1, false, .s 1⟩ 2) ⟨.capBounds, 0x3FFF80⟩ = true :=
  ⟨acting_of (by decide), by decide, by decide, by decide, by decide, by decide, by decide, by decide⟩

/-! The matrix engine. -/

/-- A valid tile control word: format, width, rows and columns (spec/11, Table 11.1). -/
def tcw (f cw rows cols : Nat) : Word := BitVec.ofNat 32 (1 + (rows - 1) * 2 ^ 8 + (cols - 1) * 2 ^ 16 + cw * 2 ^ 26 + f * 2 ^ 28)
/-- s0 and s8 name rows with their offset and stride, s16 to s26 the two areas of an MLOOP, s28 and s29 a valid and an invalid word. -/
def SWm : List (Nat × Nat) :=
  capAt 0 0 0x8000 0x2FF 1 ++ [(4, 0x10), (5, 0x100)] ++ capAt 8 0x400000 0x10000 0x2FF 0 ++ [(12, 0x20), (13, 0x200)] ++
  capAt 16 0 0x1000 0x2FF 1 ++ capAt 20 0x1000 0x1000 0x2FF 1 ++ [(24, 0), (25, 0x100), (26, 2), (28, (tcw 2 1 4 32).toNat), (29, 0x0803001F)]
/-- Tiles 0 and 4 of a format of class F, 1 of raw bytes, 2 of class X, 3 not configured. -/
def Gm : Group :=
  { grp [F0, F1] SWm [0, 2, 4, 5] with
    tilesN := 5, tcs := [tcw 2 1 4 32, tcw 15 1 8 32, tcw 8 1 4 32, 0, tcw 2 1 32 4]
    tiles := [⟨[0x38, 0x40, 0xC4], false⟩, ⟨[1, 0, 0, 0x40], false⟩, ⟨[5, 0xFB, 3], false⟩, ⟨[], false⟩, ⟨[0x38, 0x40, 0x44], false⟩] }
/-- The group holds quadrants 0, 2 and 3; or no token is held; or a request stands. -/
def CoreT : Core :=
  { Core.fresh 0 with
    quads := [⟨.fp32, [0x3F800000, 0x40000000], false, some 3⟩, ⟨.zero, [], false, none⟩, ⟨.int 2, [5], false, some 3⟩, ⟨.fp32, [], false, some 3⟩] }
def CoreW : Core := { Core.fresh 0 with macqs := [⟨3, [0], 3, 0, false⟩] }
def Sm (k : Core) (g : Group) : State := { mach g C with cores := [k] }
def once (ops : List Operand) : Form := ⟨ops, [], true, .own⟩
def Gw : Group := { Gm with fibres := [{ F0 with wait := some .token }, F1] }

/-- Quadrants of every mode. -/
theorem hyp_ReadSpecialRegister_quads : ∀ q : Fin 4, ∀ e, (((Sm CoreT Gm).core Gm.core).quad q).mode = .int e → e < 15 := by
  intro q e h
  fin_cases q <;> cases h
  decide

/-- MACQ waits: a quadrant of its mask is another group's, or another group has asked for it; it is granted its tokens at once. -/
def CoreH (h : Option Nat) (l : List Macq) : Core := { Core.fresh 0 with quads := [⟨.zero, [], false, h⟩, ⟨.zero, [], false, none⟩, ⟨.zero, [], false, none⟩, ⟨.zero, [], false, none⟩], macqs := l }
theorem hyp_TilesAndTokens_waits : ∀ k ∈ [CoreH (some 4) [], CoreH none [⟨4, [0], 3, 0, false⟩]],
    actsOnce (Sm k Gm) C Gm F0 [F1] [once []] = true ∧ k.heldMask Gm.id = 0 ∧ (∀ w ∈ k.macqs, w.group ≠ Gm.id) ∧
    ((∃ q ∈ maskQuads 1, (k.quad q).holder ≠ none) ∨ ∃ w ∈ k.macqs, w.granted = false ∧ Nat.land w.mask.val 1 ≠ 0) := by decide

theorem hyp_TilesAndTokens :
    (∀ fm ∈ [once [.source (.s 28) 1 false], once [.source (.s 29) 1 false], once [.dest (.s 30) 1], once []],
      ActingOnce (Sm CoreT Gm) C Gm F0 [F1] fm) ∧
    (0 : Fin 16).val < Gm.tilesN ∧ tcInvalid (Gm.word F0 (.s 28)) = false ∧ Gm.tilesN ≤ (15 : Fin 16).val ∧ tcInvalid (Gm.word F0 (.s 29)) = true ∧
    (∀ r ∈ (Sm CoreT Gm).replays, r.declined = false) ∧ (Gm.tcs.getD 0 0).getLsbD 0 = true ∧ (Gm.tcs.getD 3 0).getLsbD 0 = false ∧
    (let s := Sm (Core.fresh 0) Gm
     (∀ fm ∈ [once []], ActingOnce s C Gm F0 [F1] fm) ∧ (s.core Gm.core).macqs = [] ∧ (s.core Gm.core).heldMask Gm.id = 0 ∧
     (∀ q ∈ maskQuads 15, ((s.core Gm.core).quad q).holder = none) ∧ (s.core Gm.core).lackMask Gm.id 1 ≠ 0) ∧
    (let k := (Sm CoreT Gm).core Gm.core
     k.macqs = [] ∧ k.heldMask Gm.id ≠ 0 ∧ k.lackMask Gm.id 13 = 0 ∧ (Sm CoreT Gm).matrixBusy Gm [] 13 = false ∧ (Sm CoreT Gm).matrixBusy Gm [0, 4] 0 = false) ∧
    (let s := Sm CoreW Gw
     (s.core 0).macqs = [⟨3, [0], 3, 0, false⟩] ∧ (s.core 0).quads.length = 4 ∧ (∀ q ∈ maskQuads 3, ((s.core 0).quad q).holder = none) ∧
     ∃ h ∈ s.groups, h.id = 3 ∧ s.wakes h = true) :=
  ⟨actingOnce_of (by decide), by decide, rfl, by decide, rfl, by decide, rfl, rfl,
    ⟨actingOnce_of (by decide), rfl, by decide, by decide, by decide⟩, by decide, by decide⟩

def extOf (r : Reach) : Extent := match r with | .ok e => e | _ => ⟨0, 0, none, []⟩
/-- A row form is ready: its extent, with no watch and no wait. -/
def rowsReady (s : State) (g : Group) (f : Fibre) (u : MemUse) (sq : Fin 7) (rows bytes : Nat) : Bool :=
  let d := (g.word f (.s (Fin.ofNat 32 (4 * sq.val + 5)))).toNat
  let e := extOf (s.rowExtent g f u sq rows bytes)
  let l := (List.range rows).map fun i => (e.a + i * d, bytes)
  decide (s.rowExtent g f u sq rows bytes = .ok e) && (s.extWatch g f u (capSpace (g.quad f (scalarQuad sq))) e).isNone &&
    (if u.store then s.writeWait g e l else s.extWait g e l).isNone
def rowForm (sq : Fin 7) : Form := once [.source (.s (Fin.ofNat 32 (4 * sq.val))) 6 false]

theorem hyp_MatrixMoves : (∀ fm ∈ [rowForm 0, rowForm 2], ActingOnce (Sm CoreT Gm) C Gm F0 [F1] fm) ∧
    Gm.tileBad 0 ++ moveErr (Gm.tc 0) (planarWidth 0) 0 = [] ∧ tcRows (Gm.tc 0) = 4 ∧ rowBytes (Gm.tc 0) (planarWidth 0) = 32 ∧
    rowsReady (Sm CoreT Gm) Gm F0 (.load 16) 0 4 32 = true ∧ rowsReady (Sm CoreT Gm) Gm F0 (.st 16) 2 4 32 = true ∧ (Gm.tile 0).poison = false ∧
    (CoreT.lackMask Gm.id (2 ^ 0) = 0 ∧ (Sm CoreT Gm).matrixBusy Gm [0] (2 ^ 0) = false) ∧ rowsReady (Sm CoreT Gm) Gm F0 (.load 16) 2 64 256 = true ∧
    rowsReady (Sm CoreT Gm) Gm F0 (.st 16) 2 64 256 = true ∧ rowsReady (Sm CoreT Gm) Gm F0 (.st 16) 0 64 128 = true ∧
    (CoreT.quad 0).mode.isInt = false ∧ (CoreT.quad 0).poison = false ∧
    (∀ fm ∈ [⟨[.dest (.v 3) 1], [], false, .own⟩], Acting (Sm CoreT Gm) C Gm [F0, F1] fm) :=
  ⟨actingOnce_of (by decide), rfl, rfl, rfl, by decide, by decide, rfl, by decide, by decide, by decide, by decide, rfl, rfl, acting_of (by decide)⟩

/-- Loads of a tile of one row of two bytes and of a quadrant, whose bytes are bound. -/
def Pext (d : ExtDest) : Producer :=
  ⟨20, 3, .memory, [], [], none, .ext d [⟨scratchKey 0 0, none, some (0x38, false)⟩, ⟨scratchKey 0 1, none, some (0x40, true)⟩], []⟩
def Sext (d : ExtDest) : State := { Sm CoreT Gm with producers := [Pext d] }
theorem hyp_MatrixMovesBound : ∀ d ∈ [ExtDest.tile 0 (tcw 2 1 1 2) 1 false, .quad 1], let s := Sext d
    s.producers.find? (fun q => q.id = 20) = some (Pext d) ∧ s.group? 3 = some Gm ∧ Gm.ended = false ∧ s.replayed 20 = false ∧
    s.inOrder (Pext d) = true ∧ (s.core Gm.core).quads.length = 4 ∧ (0 : Fin 16).val < Gm.tiles.length := by decide

def loop0 : MLoop := ⟨40, 2, tcw 2 1 4 32, tcw 2 1 32 4, scratchKey 0 0, scratchKey 0 0x1000, 2, 9, 1, 0x10, []⟩
def Gl : Group := { Gm with mloop := some loop0 }
theorem hyp_MatrixSteps :
    (∀ fm ∈ [once [], once [.source (.s 16) 11 false]], ActingOnce (Sm CoreT Gm) C Gm F0 [F1] fm) ∧
    (let o : MatStep := ⟨0, 0, 4, true, false⟩
     Gm.tileBad o.ta.val ++ Gm.tileBad o.tb.val ++ stepErr false 0 4 (Gm.tc 0) (Gm.tc 4) o.t ++ modeErr false o.q .zero (stepF (Gm.tc 0) (Gm.tc 4)) = []) ∧
    (let o : MatStep := ⟨2, 2, 2, false, true⟩
     Gm.tileBad 2 ++ stepErr true 2 2 (Gm.tc 2) (Gm.tc 2) o.t ++ modeErr true o.q (CoreT.quad 2).mode (stepF (Gm.tc 2) (Gm.tc 2)) = []) ∧
    CoreT.lackMask Gm.id 13 = 0 ∧ (∀ ts ∈ [[0, 4], [2], [1]], (Sm CoreT Gm).matrixBusy Gm ts 13 = false) ∧
    (∀ h ∈ (Sm CoreT Gm).readySteps Gm.core, h.id = Gm.id) ∧ (∀ t ∈ Gm.tiles, t.poison = false) ∧ (∀ q ∈ CoreT.quads, q.poison = false) ∧
    (Gm.tileBad 1 = [] ∧ tcFmt (Gm.tc 1) = 15 ∧ tcCw (Gm.tc 1) = 8 ∧ 64 ≤ tcRows (Gm.tc 1) * tcCols (Gm.tc 1)) ∧ (CoreT.quad 3).mode.isInt = false ∧
    Gm.tileBad 0 ++ Gm.tileBad 4 ++ mloopErr 0 4 (Gm.tc 0) (Gm.tc 4) = [] ∧
    (∀ q ∈ maskQuads 9, modeErr false q (CoreT.quad q).mode (stepF (Gm.tc 0) (Gm.tc 4)) = []) ∧ (Gm.word F0 (.s 26)).toNat = 2 ∧
    (∀ q ∈ [Quad.s 4, Quad.s 5], capSpace (Gm.quad F0 q) = 1 ∨ capSpace (Gm.quad F0 q) = 2) ∧
    okIs ((Sm CoreT Gm).mloopExtent Gm F0 (.s 4) 0 (tcSize (Gm.tc 0)) 2) (scratchKey 0 0) = true ∧
    okIs ((Sm CoreT Gm).mloopExtent Gm F0 (.s 5) 0x100 (tcSize (Gm.tc 4)) 2) (scratchKey 0 0x1100) = true ∧ Gm.mloop = none ∧
    (Sm CoreT Gm).acquiring Gm = false ∧ (Sm CoreT Gm).producers = [] ∧
    (Sm CoreT Gl).group? Gl.id = some Gl ∧ ((Sm CoreT Gl).readySteps Gl.core).head? = some Gl ∧ (maskQuads 9)[1]? = some 3 ∧
    loop0.done + 1 < loop0.ksteps * (maskQuads 9).length :=
  ⟨actingOnce_of (by decide), by decide⟩

/-- A step that has read nothing yet may read each of its 16 units of tile A first. -/
theorem hyp_MatrixSteps_early : (Sm CoreT Gl).group? Gl.id = some Gl ∧ Gl.mloop = some loop0 ∧ ((Sm CoreT Gl).readySteps Gl.core).head? = some Gl ∧
    loop0.early = [] ∧ tcSize loop0.tcA = 128 ∧ 15 < tcSize loop0.tcA / 8 := by decide

/-! Copies, counters, queues and timetables. -/

/-- A layout record (spec/13, Table 13.2): rank 2, elements of 4 bytes, 4 by 16. -/
def lrec (wrap halo wn : Nat) : List Byte :=
  ([2, 4, wrap, halo, 0, 0, wn, 0].map (BitVec.ofNat 8)) ++ leBytes 8 4 ++ leBytes 8 16 ++ List.replicate 40 0
/-- A descriptor in s0 to s14, a counter in s16, halo arguments in s20; the destination is of the space `dsp`. -/
def SWc (dsp : Nat) : List (Nat × Nat) :=
  capAt 0 0x400000 0x1000 0x2FF 0 ++ capAt 4 0x40 0x1000 0x2FF dsp ++ [(8, 0x400000), (9, 0x20002), (12, 0x20003)] ++ capAt 16 0x500000 8 0x2FF 3 ++
  [(20, 0x100), (21, 0x20002), (22, 0x10), (23, 0x30101), (24, 1), (25, 0xFFFFFFFF)]
def Fc : Fibre := fib 0 [(2, 1 * 65536), (3, 0x80), (5, 0xFFFFFFFF), (6, 0xFFFFFFFF), (7, 0xFFFFFFFF)]
def Gc (dsp : Nat) : Group := { grp [Fc, F1] (SWc dsp) [0, 1, 4] with stage := 0 }
def Sc (dsp : Nat) : State := { mach (Gc dsp) C with ctxs := [{ ctx0 with kernels := [{ kern with layout := lrec 0 1 0 ++ lrec 2 0 3 }] }] }
def opC : CopyOp := ⟨false, false, .s 4, 4, .v 0⟩

def okOr {ε α : Type} (d : α) (x : Except ε α) : α := match x with | .ok a => a | .error _ => d
/-- Every premise about the bytes of a copy, for the values that the descriptor gives. -/
def copyGoes (s : State) (g : Group) (f : Fibre) (b : Block) (o : CopyOp) (gather : Bool) : Bool :=
  let d := (List.range 15).map fun k => g.word f (descReg o.a k)
  let q := g.words f o.d.base 4
  let sec := ((s.kernelOf g).map (·.layout)).getD []
  let recs := (d.getD 8 0).toNat
  match layoutAt sec (recs % 65536), layoutAt sec (recs / 65536) with
  | some l, some r =>
    let box := (extents ((d.drop 12).take 3)).take l.rank
    let n := box.getD (l.rank - 1) 0
    let off := (q.getD 3 0).toNat
    let x := (CopyArgs.elems ⟨l, r, extents ((d.drop 9).take 3), box, ((halfWords q).take 5).map (signedOf 16), (halfWords q).getD 5 0,
      if gather then some (s.indexList g b n off) else none⟩)
    let es := okOr [] x
    let sx := s.copySide g b copySrc (g.quad f (descQuad o.a 0)) (g.tagOf f (descQuad o.a 0)) ((descQuad o.a 0).field 0) l.esize (es.filterMap (·.1))
    let dx := s.copySide g b copyDst (g.quad f (descQuad o.a 1)) (g.tagOf f (descQuad o.a 1)) ((descQuad o.a 1).field 0) l.esize (es.map (·.2))
    let se := extOf (s.sideReach g f copySrc (okOr none sx))
    let de := extOf (s.sideReach g f copyDst (okOr none dx))
    (copyConfig (some l) (some r) d).isNone && okIs x es && !es.isEmpty && okIs sx (okOr none sx) && okIs dx (okOr none dx) &&
      decide (s.sideReach g f copySrc (okOr none sx) = .ok se) && decide (s.sideReach g f copyDst (okOr none dx) = .ok de) &&
      (s.copyRoom g.core (boardOf de)).isNone &&
      (!gather || (off % 4 == 0 && decide (off + 4 * n ≤ b.scratchLen) &&
        (s.readWait g ⟨off, 4 * n, some (scratchKey b.core (b.scratchBase + off)), []⟩ [(off, 4 * n)]).isNone))
  | _, _ => false

def haloOp : ThreeQuads := ⟨false, false, .v 1, .s 5, .s 4⟩
/-- Bytes that overlap between source and destination, and one that is written as 0. -/
def cp (strip : Bool) : Copy :=
  { id := 3, unit := 3, group := 3, num := 3, block := 2, core := 0, ctx := 0, pc := 0, strip := strip
    srcs := [some 0x400000, some 0x400001, none], dsts := [0x400001, 0x400000, 0x400002], dstVa := [0x400001, 0x400000, 0x400002]
    fence := 0, ctr := 0x500000, ctrVa := 0x500000, amount := 3, board := none, read := [], wrote := [], watched := [], gone := none }
def Scp (strip : Bool) : State := { (Sc 0).setNum 0x400000 4 0x99121234 with copies := [cp strip] }

/-- A copy that has read the first of its bytes before. -/
theorem hyp_CopyIssueAndCompletion_read : ∀ st : Bool, let x : Copy := { cp st with read := [(0, 0x99, false)] }
    let s : State := { Scp st with copies := [x] }
    s.copies.find? (fun y => y.id = x.id ∧ y.strip = x.strip) = some x ∧ s.copyReady x = true ∧ s.copyHits x x.dsts = [] ∧
    (∀ y ∈ x.read, x.srcs.getD y.1 none ≠ none ∧ y.2.2 = false) ∧
    ∀ y ∈ [0x400000, 0x400001], s.seenPoison x.core x.group x.id x.ctx none y = false := by decide

theorem hyp_CopyIssueAndCompletion :
    (Sc 0).block? (Gc 0).block = some blk ∧ (Sc 1).block? (Gc 1).block = some blk ∧ (Gc 0).stage = 0 ∧
    (∀ fm ∈ [formCopy opC, once [], once [.quad (.s 4) 0 false, .quad (.s 5) 0 false, .quad (.v 1) 0 false]],
      ActingOnce (Sc 0) C (Gc 0) Fc [F1] fm) ∧
    (∀ fm ∈ [formCopy opC], ActingOnce (Sc 1) C (Gc 1) Fc [F1] fm) ∧
    (Sc 0).counterAt (Gc 0) Fc opC.b = .ok 0x500000 (some 0x500000) ∧ (Sc 0).acquiring (Gc 0) = false ∧
    copyGoes (Sc 0) (Gc 0) Fc blk opC false = true ∧ copyGoes (Sc 0) (Gc 0) Fc blk opC true = true ∧ copyGoes (Sc 1) (Gc 1) Fc blk opC false = true ∧
    (let ws := (Gc 0).words Fc (.s 20) 4
     let a := haloArgs ws
     a.bad ws = none ∧ a.frame + a.size ≤ (Gc 0).scratchLen blk ∧ (haloDirs a.mask ((Gc 0).words Fc (.v 4) 4)).length = 1 ∧
     (∀ x ∈ haloDirs a.mask ((Gc 0).words Fc (.v 4) 4),
       x.1 = 0 ∧ (Sc 0).haloCounter (Gc 0) Fc blk (.s 4) x.2 = .ok 0x500000 (some 0x500000) ∧ okIs ((Sc 0).haloTarget blk a x.2) blk = true) ∧
     ((Sc 0).boardUnits blk.core).length < 32 ∧ (Sc 0).slotRoom (Gc 0).core = none) ∧
    ∀ st : Bool, (Scp st).copies.find? (fun y => y.id = (cp st).id ∧ y.strip = (cp st).strip) = some (cp st) ∧ (Scp st).copyReady (cp st) = true ∧
      Memory.wf (Scp st).mem = true ∧ (cp st).dsts.Nodup ∧ (cp st).srcs.length = (cp st).dsts.length ∧ (cp st).wrote = [] ∧ (Scp st).copyHits (cp st) (cp st).dsts = [] ∧
      (∀ k ∈ (cp st).dsts, (Scp st).reaches (dieOf (cp st).core) k = true) :=
  ⟨by decide, by decide, rfl, actingOnce_of (by decide), actingOnce_of (by decide), by decide, by decide, by decide +kernel, by decide +kernel, by decide +kernel, by decide,
    by decide⟩

def wt (woken met listed : Bool) : Waiter := ⟨5, 3, [0, 1], 0x500000, 9, listed, met, woken, 0⟩
def ad (n amount : Nat) : Add := ⟨n, 0x500000, 0x500000, 0, amount, some 3, [], none, 0, false, 0⟩
/-- A waiter that has been woken; one to be woken; one that asks again; two adds, the first to the greatest value, the other beyond. -/
def Sw1 : State := { S with waiters := [wt true true true] }
def Sw2 : State := { S with waiters := [wt false true true] }
def Sw3 : State := { S with waiters := [wt false false false], clk := 512 }
def Sad (n : Nat) : State := { S.setNum 0x500000 8 (2 ^ 64 - 2) with adds := [ad 2 n], waiters := [wt false false true] }

/-- A counter in a peer's memory: s8 to s11 name page 2 ^ 18, which maps there (spec/10, Table 10.3). -/
def Gx : Group := grp [F0, F1] (capAt 8 (2 ^ 34) 8 0x2FF 3) [2]
def Sx : State := (mach Gx C).setNum 0x200008 8 (0x1F + 3 * 2 ^ 56)
theorem hyp_CounterInstructionsAndEvents_outside : actsOnce Sx C Gx F0 [F1] [formCtr false (.s 2) false (.v 4)] = true ∧ Gx.ovf = none ∧ Sx.acquiring Gx = false ∧
    (∃ k ∈ [peerKey 0], Sx.counterAt Gx F0 (.s 2) = .ok (2 ^ 34) (some k) ∧ isOutside k = true ∧ Sx.released Gx (addrScope 3 (some k)) = true) ∧
    (Gx.dword F0 (.v 4)).toNat ≠ 0 ∧ Gx.outack < 65535 := by decide +kernel

theorem hyp_CounterInstructionsAndEvents : G.ovf = none ∧ S.acquiring G = false ∧
    (∀ fm ∈ [formCtr false (.s 2) false (.v 4), ⟨[.quad (.s 2) 0 false, .source (.v 4) 2 false], [3], true, .own⟩,
      once [.dest (.v 6) 2, .quad (.s 2) 0 false], once [.dest .zero 2, .quad (.s 2) 0 false]], ActingOnce S C G F0 [F1] fm) ∧
    S.counterAt G F0 (.s 2) = .ok 0x500000 (some 0x500000) ∧ S.released G (addrScope 3 (some 0x500000)) = true ∧ S.waiters = [] ∧
    (∀ fm ∈ [formCtr false (.s 2) false (.v 4)], ActingOnce Sw1 C G F0 [F1] fm) ∧ Sw1.counterAt G F0 (.s 2) = .ok 0x500000 (some 0x500000) ∧
    (G.dword F0 (.v 4)).toNat = 9 ∧ (∃ w ∈ Sw1.waiters, w.woken = true ∧ w.group = G.id ∧ w.ctr = 0x500000 ∧ w.target = 9 ∧ w.lanes.all C.lanes.contains = true) ∧
    (∀ n ∈ [1, 2], (Sad n).adds.find? (fun x => x.id = (ad 2 n).id) = some (ad 2 n) ∧ (Sad n).mayAdd (ad 2 n) = true ∧ Memory.wf (Sad n).mem = true ∧
      (Sad n).reaches (ad 2 n).die (ad 2 n).ctr = true ∧ (ad 2 n).ctr % 8 = 0 ∧ ∀ c ∈ (Sad n).ctxs, c.queues = []) ∧
    (wt false false true).target ≤ 2 ^ 64 - 1 ∧ (∃ g ∈ (Sad 2).groups, (ad 2 2).owner = some g.id ∧ (Sad 2).group? g.id = some g ∧ g.ended = false) ∧
    Sw2.waiters.find? (fun x => x.id = 5 ∧ x.met ∧ x.woken = false) = some (wt false true true) ∧ (wt false false false).since + 512 ≤ Sw3.clk ∧
    S.reaches (dieOf G.core) 0x500000 = true ∧ Sw1.reaches (dieOf G.core) 0x500000 = true :=
  ⟨rfl, by decide, actingOnce_of (by decide), by decide, by decide, rfl, actingOnce_of (by decide), by decide⟩

/-- A queue of 4 records with its descriptor at 0x600000, and a launch that waits in the root queue. -/
def SWq : List (Nat × Nat) := capAt 0 0x400000 0x40 0x2FF 0 ++ capAt 4 0x500000 0x10 0x2FF 3 ++ capAt 8 0x500000 8 0x2FF 3 ++ capAt 12 5 1 0x2FF 6
def Gq : Group := { grp [F0, F1] SWq [0, 1, 2, 3] with stage := 0 }
def qref (p : List Nat) (e : Bool) : QueueRef := ⟨5, 0x600000, p, e, []⟩
def qmem (s : State) (tail fired head : Nat) : State :=
  (((((s.setNum 0x600000 8 0x610000).setNum 0x600008 1 2).setNum 0x600009 1 0x80).setNum 0x60002C 4 tail).setNum 0x600030 4 fired).setNum 0x600034 4 head
def Sq (tail : Nat) (p : List Nat) (e : Bool) : State := qmem { mach Gq C with ctxs := [{ ctx0 with queues := [qref p e] }] } tail 1 0
def tab0 (st : EntryState) (act : Nat) : Timetable :=
  ⟨0, 0x500000, [⟨BitVec.ofNat 128 (0x400000 + 0x20 * 2 ^ 56 + 0x2FF * 2 ^ 96), true, 7, 7, act, true, st, false⟩]⟩
def grT (t : Option Timetable) : Grid := ⟨7, 0, 0, 0, 1, 1, 1, 0, 0, 0, t, none, 0, none⟩
def Sgr (st : EntryState) (act : Nat) : State := { Sq 3 [0, 0] false with grids := [grT (some (tab0 st act))] }
def rr0 : RootRec := ⟨0, 0, 2, 1, 1, 1, 0, 0, false, 0⟩
def Srr : State := { S with ctxs := [{ ctx0 with rootq := [rr0] }] }
def firesQueue (o : Option (Nat × (QueueRef ⊕ RootRec))) (ctx : Nat) (q : QueueRef) : Bool :=
  match o with | some (c, .inl r) => c == ctx && r == q | _ => false
def firesRoot (o : Option (Nat × (QueueRef ⊕ RootRec))) (ctx : Nat) (q : RootRec) : Bool :=
  match o with | some (c, .inr r) => c == ctx && r == q | _ => false
theorem fires_of {o : Option (Nat × (QueueRef ⊕ RootRec))} {ctx : Nat} {q : QueueRef} (h : firesQueue o ctx q = true) : o = some (ctx, .inl q) := by
  rcases o with _ | ⟨c, r | r⟩ <;> simp_all [firesQueue]
theorem firesRoot_of {o : Option (Nat × (QueueRef ⊕ RootRec))} {ctx : Nat} {q : RootRec} (h : firesRoot o ctx q = true) : o = some (ctx, .inr q) := by
  rcases o with _ | ⟨c, r | r⟩ <;> simp_all [firesRoot]

theorem hyp_QueueInstructions : (let s := Sq 3 [0, 0] false
    s.acquiring Gq = false ∧
    (∀ fm ∈ [once [.quad (.s 3) 0 false, .quad (.s 2) 0 false, .source (.v 4) 2 false], once [.dest (.v 6) 1, .quad (.s 3) 0 false, .source (.v 1) 1 false],
      once [.quad (.s 3) 0 false], once [], once [.quad (.s 0) 0 false, .quad (.s 1) 0 false]], ActingOnce s C Gq F0 [F1] fm) ∧
    Gq.ovf = none ∧ okIs (s.queueAt Gq F0 (.s 3) 1) (qref [0, 0] false) = true ∧ okIs (s.queueAt Gq F1 (.s 3) 1) (qref [0, 0] false) = true ∧
    s.counterAt Gq F0 (.s 2) = .ok 0x500000 (some 0x500000) ∧
    (∀ fm ∈ [⟨[.quad (.s 3) 0 false, .source (.v 0) 16 false], [], false, .own⟩], Acting s C Gq [F0, F1] fm) ∧
    s.released Gq (queueScope Gq.core 5) = true ∧ s.qRoom 0 Gq.block (qref [0, 0] false) < [F0, F1].length ∧ 0 < (Gq.word F0 (.v 1)).toNat ∧
    okIs (s.queueAt Gq F0 (.s 3) 0) (qref [0, 0] false) = true ∧ s.block? Gq.block = some blk ∧ (∀ x ∈ Gq.fibres, x.wait ≠ some .queue) ∧ blk.records = none ∧
    s.gridOf Gq = some (grT none)) ∧
    (let s := Sq 2 [0] false
     (∀ fm ∈ [⟨[.quad (.s 3) 0 false, .source (.v 0) 16 false], [], false, .own⟩], Acting s C Gq [F0, F1] fm) ∧
     okIs (s.queueAt Gq F0 (.s 3) 1) (qref [0] false) = true ∧ okIs (s.queueAt Gq F1 (.s 3) 1) (qref [0] false) = true ∧
     s.released Gq (queueScope Gq.core 5) = true ∧ [F0, F1].length ≤ s.qRoom 0 Gq.block (qref [0] false)) ∧
    (let b : Block := { blk with records := some ⟨5, 0, 1⟩ }
     let s : State := { Sq 3 [0, 0] false with blocks := [b] }
     (∀ fm ∈ [once [.quad (.s 3) 0 false]], ActingOnce s C Gq F0 [F1] fm) ∧ s.block? Gq.block = some b ∧ b.records = some ⟨5, 0, 1⟩ ∧
     okIs (s.queueAt Gq F0 (.s 3) 0) (qref [0, 0] false) = true) :=
  ⟨⟨by decide, actingOnce_of (by decide), rfl, by decide, by decide, by decide, acting_of (by decide), by decide⟩, ⟨acting_of (by decide), by decide, by decide, by decide, by decide⟩,
    ⟨actingOnce_of (by decide), by decide, rfl, by decide⟩⟩

theorem hyp_QueueInstructionsAndEvents :
    (∀ fm ∈ [once []], ActingOnce (Sgr .waiting 0) C Gq F0 [F1] fm) ∧ (Sgr .waiting 0).gridOf Gq = some (grT (some (tab0 .waiting 0))) ∧
    (tab0 .waiting 0).missed 6 = none ∧ (tab0 .waiting 0).missed 7 = some (0, 0) ∧ (∀ x ∈ [F0, F1], x.ih = false) ∧
    ((Sgr .waiting 0).handlerOf Gq).getLsbD 0 = true ∧
    (let s := Sq 3 [0, 0] false
     let A := Gq.quad F0 (.s 0)
     let B := Gq.quad F0 (.s 1)
     capLen A % 32 = 0 ∧ capLen A / 32 = 2 ∧ capBase A % 32 = 0 ∧ capBase B % 8 = 0 ∧ (grT none).table = none ∧
     (let e := s.extent Gq F0.lane ⟨[0, 5], [0], .rd, capLen A, false⟩ A (Gq.tagOf F0 (.s 0)) (Quad.field (.s 0) 0) 0 (capLen A) none
      e = .ok (extOf e)) ∧
     (let k := s.extent Gq F0.lane .counter B (Gq.tagOf F0 (.s 1)) (Quad.field (.s 1) 0) 0 (8 * 2) none
      k = .ok (extOf k))) ∧
    (let s : State := { Sq 3 [0, 0] false with clk := 2000 }
     s.queue? 0 5 = some (qref [0, 0] false) ∧ s.timerDue (qref [0, 0] false) = true) ∧
    (let s : State := { Sq 3 [0, 0] true with clk := 2000 }
     s.canFire 0 = some (0, .inl (qref [0, 0] true)) ∧ (qref [0, 0] true).handle ≠ 0 ∧ s.ctx? 0 = some { ctx0 with queues := [qref [0, 0] true] } ∧
     s.kernel? 0 (s.qKernel (qref [0, 0] true)) = some kern ∧ kern.stages.length = 1 ∧ kern.sheaf = 1) ∧
    (Srr.canFire 0 = some (0, .inr rr0) ∧ Srr.ctx? 0 = some { ctx0 with rootq := [rr0] } ∧ Srr.kernel? 0 rr0.kernel = some kern ∧
      launchOk rr0.x rr0.y rr0.z kern = true) ∧
    (Sgr .waiting 0).grid? 7 = some (grT (some (tab0 .waiting 0))) ∧ (Sgr .waiting 0).nextEntry (grT (some (tab0 .waiting 0))) = some 0 ∧
    (let s := Sgr .running 2
     s.fetches = [] ∧ s.grid? 7 = some (grT (some (tab0 .running 2))) ∧ s.gridLive 7 = true ∧
     (tab0 .running 2).entries[0]?.map (fun e => (e.state, e.action)) = some (.running, 2) ∧ s.lookup (dieSite 0) 0 (0x500000 + 8 * 0) = .leaf ⟨34, 0x1F⟩) :=
  ⟨actingOnce_of (by decide), by decide, by decide, by decide, by decide, by decide, by decide, by decide,
    ⟨fires_of (by decide), by decide, by decide, by decide, by decide, by decide⟩, ⟨firesRoot_of (by decide), by decide, by decide, by decide⟩,
    by decide, by decide, by decide⟩

/-! History, texture and graphics. -/

/-- A surface header and a texture header of two levels (spec/15, Table 15.1; spec/15, R326). -/
def surfB : List Byte := [0, 1, 0, 0, 8, 0, 8, 0].map (BitVec.ofNat 8) ++ leBytes 4 16 ++ leBytes 4 4 ++ leBytes 8 128 ++ List.replicate 40 0
def texB : List Byte :=
  [0, 1, 1, 0, 4, 0, 4, 0, 2, 0].map (BitVec.ofNat 8) ++ List.replicate 6 0 ++ leBytes 8 64 ++ List.replicate 40 0 ++ leBytes 8 0x200 ++ leBytes 4 16 ++ leBytes 4 0
/-- A descriptor of a field: entries, frame, extents, depth, parent, seal counter. -/
def descB (q fr w h par ctr : Nat) : List Byte :=
  leBytes 16 q ++ leBytes 4 fr ++ leBytes 2 w ++ leBytes 2 h ++ leBytes 2 0 ++ leBytes 2 par ++ leBytes 4 0 ++ leBytes 8 ctr ++ List.replicate 24 0
def SWh : List (Nat × Nat) :=
  capAt 0 0x400000 0x1000 0x2FF 0 ++ capAt 4 0x400800 0x1000 0x2FF 0 ++ capAt 8 0x500000 8 0x2FF 3 ++ [(12, 2), (13, 1), (14, 0), (15, 0)] ++
  [(20, 1), (21, 0x80000001), (22, 9)]
def Fh (l : Fin 32) : Fibre := fib l [(0, 3), (1, 2), (2, 1), (3, 1), (4, 3), (5, 2), (6, 1), (7, 5), (8, 1), (9, 2), (10, 0), (11, 1)]
def Gh : Group := { grp [Fh 0, Fh 1] SWh [0, 1, 2] with stage := 0 }
def fld (n st : Nat) (par : Option Nat) (ent : Nat) : Field :=
  { num := n, state := st, span := 1, gen := 4, fold := none, fgn := 0, fgo := 0, fgs := 0, frame := 0, width := 2, height := 2, cellk := 0
    parent := par, sealCtr := 0, entries := ent }
def ctxH : Ctx :=
  { ctx0 with
    histDesc := 0x420000, histCount := 4
    fields := [fld 0 2 none 0x430000, fld 1 2 (some 0) 0x430040, fld 2 1 (some 1) 0x430080, fld 3 1 none 0] }
def Sh : State :=
  { mach Gh C with
    ctxs := [ctxH], tags := [0x42008]
    mem := (mach Gh C).mem ++ cells 0x400000 surfB ++ cells 0x400800 texB ++
      cells 0x420080 (descB (0x430080 + 64 * 2 ^ 56 + 0x2FF * 2 ^ 96) 7 2 2 0x8001 0x500000) }
/-- The bytes that the texture's header takes with its levels. -/
def texH : List Byte := texB ++ List.replicate 224 0

theorem hyp_HistoryAndTextureLoads :
    (∀ fm ∈ [formHld 0 ⟨0, false, false, .v 0, .s 0, .v 14⟩, formHld 1 ⟨3, false, false, .v 0, .s 0, .v 14⟩, formHldp ⟨2, false, .v 0, .v 14⟩,
      formHldp ⟨2, false, .v 1, .v 14⟩, ⟨[.dest (.v 12) 4, .quad (.s 1) 0 false, .quad (.v 2) 2 false], [2], false, .own⟩], Acting Sh C Gh [Fh 0, Fh 1] fm) ∧
    Sh.acquiring Gh = false ∧ Sh.fieldCount Gh = 4 ∧
    (∀ f ∈ [Fh 0, Fh 1], Gh.words f (.v 0) 4 = [3, 2, 1, 1] ∧ Sh.header Gh f (.s 0) (Quad.field (.s 0) 0) 64 = .ok (some surfB) ∧
      Sh.header Gh f (.s 0) (Quad.field (.s 0) 1) 64 = .ok (some surfB) ∧
      ((surfOf (Gh.quad f (.s 0)) (Quad.field (.s 0) 0) 0 surfB).map fun u => decide (0 < u.chans)) = some true ∧
      ((surfOf (Gh.quad f (.s 0)) (Quad.field (.s 0) 1) 0 surfB).map fun u => decide (0 < u.chans)) = some true) ∧
    (∀ f ∈ [Fh 0, Fh 1], Gh.words f (.v 4) 4 = [3, 2, 1, 5]) ∧ (∀ r ∈ Sh.replays, r.declined = false) ∧
    (∀ f ∈ [Fh 0, Fh 1], Gh.words f (.v 8) 4 = [1, 2, 0, 1] ∧ Sh.header Gh f (.s 1) (Quad.field (.s 1) 0) 304 = .ok (some texH) ∧
      ((texelOf (Gh.quad f (.s 1)) (Quad.field (.s 1) 0) texH).map fun t => decide (0 < t.1.levels.length ∧ 1 < t.2)) = some true) :=
  ⟨acting_of (by decide), by decide, by decide, by decide +kernel, by decide, by decide, by decide +kernel⟩

def dsc : Descr := ⟨BitVec.ofNat 128 (0x430080 + 64 * 2 ^ 56 + 0x2FF * 2 ^ 96), true, 7, 2, 2, 0, some 1, 0x500000, true⟩
def fo : Fold := ⟨5, 0, 2, 1, 0, 4, 4, 4, dsc.obj, true, 0x500000, 0x500000⟩
def Sfo : State :=
  { Sh with folds := [fo], mem := Sh.mem ++ cells 0x430000 (leBytes 4 0x00050003 ++ leBytes 4 0x80000001 ++ leBytes 4 0 ++ leBytes 4 7) }

theorem hyp_HistoryLoadsAndFields :
    (∀ fm ∈ [once [.source (.s 12) 1 false], once [.source (.s 20) 1 false], once [.source (.s 21) 1 false], once [.source (.s 22) 1 false],
      once [.quad (.s 3) 0 false, .quad (.s 2) 0 false]], ActingOnce Sh C Gh (Fh 0) [Fh 1] fm) ∧
    (Gh.word (Fh 0) (.s 12)).toNat = 2 ∧ Gh.ovf = none ∧ Sh.acquiring Gh = false ∧ Sh.readDescr Gh (Fh 0) 2 = .ok dsc ∧
    Sh.released Gh (Sh.entryScope Gh dsc) = true ∧ (Sh.field 0 2).state = 1 ∧ dsc.ok = true ∧ Sh.stale 0 dsc.obj = false ∧
    Sh.folds = [] ∧ bitAt (Gh.word (Fh 0) (.s 20)).toNat 31 = false ∧ (Sh.field 0 1).state = 2 ∧ bitAt (Gh.word (Fh 0) (.s 21)).toNat 31 = true ∧
    (bitAt (Gh.word (Fh 0) (.s 12)).toNat 31 = false ∧ (Sh.field 0 2).state ≠ 0 ∧ (Sh.field 0 2).state ≠ 2) ∧
    Sh.fieldCount Gh ≤ (Gh.word (Fh 0) (.s 22)).toNat ∧ Gh.words (Fh 0) (.s 12) 3 = [2, 1, 0] ∧ Sh.ctx? 0 = some ctxH ∧
    Sh.counterAt Gh (Fh 0) (.s 2) = .ok 0x500000 (some 0x500000) ∧ (ctxH.field 1).state = 2 ∧ (ctxH.field 0).state = 2 ∧ (ctxH.field 2).state = 1 ∧
    foldBad ctxH 2 1 0 dsc = false ∧ (∀ n < 4, Sh.recordBusy 0 n (Fh 0) = false) ∧ (∀ x ∈ Gh.fibres, x.wait ≠ some (.hopen none)) ∧
    Sh.fieldRead 0 2 = false ∧
    Sfo.folds.find? (fun y => y.id = fo.id) = some fo ∧ (Sfo.ctx? fo.ctx).isSome = true ∧ fo.s ≠ fo.n ∧
    (Sfo.foldWaits fo (Sfo.field 0 1) (Sfo.field 0 0) (cellsOf (Sfo.field 0 1))).isNone = true ∧
    (match (Sfo.foldCells fo (Sfo.field 0 1) (Sfo.field 0 0) (cellsOf (Sfo.field 0 1)) []).2 with | .ok _ => true | _ => false) = true :=
  ⟨actingOnce_of (by decide +kernel), by decide +kernel⟩

/-- The seal counter of field 2, and a descriptor without one. -/
theorem hyp_HistoryLoadsAndFields_seal : dsc.sealCtr ≠ 0 ∧ Sh.sealAt Gh (Fh 0) dsc.sealCtr = .ok (some 0x500000) ∧
    Sh.released Gh (addrScope 3 (some 0x500000)) = true ∧ (isOutside 0x500000 = true → Gh.outack < 65535) ∧
    (let s : State := { Sh with mem := Sh.mem.filter fun c => decide (c.1 < 0x4200A0) || decide (0x4200A8 ≤ c.1) }
     s.readDescr Gh (Fh 0) 2 = .ok { dsc with sealCtr := 0 } ∧ s.recordBusy 0 2 (Fh 0) = false) := by decide +kernel

/-- A walk has read field 2 and waits for a replay: HOPEN waits for it. -/
def Shw : State :=
  { Sh with
    producers := [⟨30, 3, .history, [], [], none, .hist 0 0 0x10 [{ HistLane.start (.none 0) (Fh 0) 0 0 1 2 none false with reading := [2] }], []⟩]
    replays := [⟨31, 0, 0, 67, false, [30], []⟩] }
theorem hyp_HistoryLoadsAndFields_read : (∀ fm ∈ [once [.source (.s 12) 1 false]], ActingOnce Shw C Gh (Fh 0) [Fh 1] fm) ∧
    Shw.fieldRead 0 2 = true := ⟨actingOnce_of (by decide +kernel), by decide +kernel⟩

def fone : Nat := 0x3FF0000000000000
def fmone : Nat := 0xBFF0000000000000
/-- A triangle that covers samples, a ray, a scene, a cluster graph of one cluster and a view (spec/17, Tables 17.1 to 17.6). -/
def triB : List Byte := ([fmone, fmone, 0, fone, fone, fmone, 0, fone, 0, fone, 0, fone].flatMap (leBytes 8)) ++ leBytes 4 77 ++ List.replicate 12 0
def rayB : List Byte := ([0, 0, 0].flatMap (leBytes 8)) ++ ([0, 0, 0x3F800000, 0, 0x42000000].flatMap (leBytes 4)) ++ List.replicate 20 0
def capN (base len perm space : Nat) : Nat := base + len * 2 ^ 56 + perm * 2 ^ 96 + space * 2 ^ 112
def sceneB : List Byte :=
  leBytes 16 (capN 0x400800 0x40 0x3FF 0) ++ leBytes 16 (capN 0x402000 0x1000 0x3FF 0) ++ leBytes 16 (capN 0x400900 0x40 0x3FF 0) ++
  leBytes 4 0 ++ leBytes 4 1 ++ List.replicate 8 0
def graphB : List Byte :=
  leBytes 4 1 ++ leBytes 4 1 ++ leBytes 8 64 ++ leBytes 8 128 ++ List.replicate 40 0 ++ ([fone, 0, 0].flatMap (leBytes 8)) ++
  ([0, 0, 0x7F800000, 0, 0xFFFFFFFF, 1].flatMap (leBytes 4)) ++ List.replicate 16 0 ++ leBytes 4 0 ++ leBytes 4 1
def viewB : List Byte :=
  ([0, 0, 0, fone, fone, fone].flatMap (leBytes 8)) ++ leBytes 4 9 ++ leBytes 4 1 ++ List.replicate 8 0 ++ leBytes 16 (capN 5 1 0x3FF 6) ++ List.replicate 48 0
def SWg : List (Nat × Nat) :=
  capAt 0 0x400000 0x1000 0x2FF 0 ++ capAt 4 0x401000 0x40 0x2FF 0 ++ capAt 8 0x402000 0x1000 0x2FF 0 ++ capAt 12 0x403000 0x80 0x2FF 0 ++
  capAt 16 0x500000 8 0x2FF 3 ++ [(20, 0), (21, 0x100)]
def Fg (l : Fin 32) : Fibre := fib l [(4, 0x100)]
def Gg : Group := { grp [Fg 0, Fg 1] SWg [0, 1, 2, 3, 4] with stage := 0, vpsize := 0x40004, rasthresh := 1 }
def Sg0 : State :=
  { mach Gg C with
    ctxs := [{ ctx0 with queues := [⟨5, 0x600000, [], false, []⟩] }], tags := [0x40100, 0x40101, 0x40102, 0x40304]
    mem := (mach Gg C).mem ++ cells 0x400000 triB ++ cells 0x400100 rayB ++ cells 0x401000 sceneB ++ cells 0x402000 graphB ++
      cells 0x403000 viewB ++ cells 0x600000 (leBytes 8 0x610000) ++ cells 0x600008 [2] }
/-- What the reads of these records give: the bytes, and the tags of their granules. -/
def triR : List Byte × List Bool := (triB, List.replicate 7 false)
def rayR : List Byte × List Bool := (rayB, List.replicate 4 false)
def scR : List Byte × List Bool := (sceneB, [true, true, true, false])
def grR : List Byte × List Bool := (graphB.take 64, List.replicate 4 false)
def vwR : List Byte × List Bool := (viewB, [false, false, false, false, true, false, false, false])
def cut0 : Cut := ⟨5, 0, 0, Gg.quad (Fg 0) (.s 2), grR.1, 0x403000, vwR.1, false, 0x500000, 0x500000, none⟩
def cutOf (p : Option CutPlan) (h : List Byte) : Cut := { cut0 with plan := p, header := h }
def Scut (c : Cut) : State := { Sg0 with cuts := [c] }
/-- One record, of the cluster that is selected. -/
def plan0 : CutPlan × List QWord := (⟨[(5, [leBytes 8 0 ++ leBytes 8 9 ++ leBytes 8 fone ++ List.replicate 40 0])], some (1, 0)⟩, [])

theorem hyp_Graphics :
    (∀ fm ∈ [⟨[.quad (.s 0) 0 false, .source (.s 20) 1 false], [2], false, .own⟩,
      ⟨[.both (.v 4) 1, .quad (.s 0) 0 false, .quad (.s 1) 0 false], [], false, .own⟩], Acting Sg0 C Gg [Fg 0, Fg 1] fm) ∧
    (∀ fm ∈ [once [.quad (.s 4) 0 false, .quad (.s 2) 0 false, .quad (.s 3) 0 false]], ActingOnce Sg0 C Gg (Fg 0) [Fg 1] fm) ∧
    Sg0.block? Gg.block = some blk ∧
    (∀ f ∈ [Fg 0, Fg 1], Sg0.readRecord Gg f (.s 0) [0, 5, 1] [0] (Gg.word f (.s 20)).toNat 112 16 = .ok triR) ∧ triR.1.length = 112 ∧
    Gg.vistile.toNat % 2 ^ 19 + 32768 ≤ Gg.scratchLen blk ∧ Sg0.copies = [] ∧ Gg.mloop = none ∧
    (∀ f ∈ [Fg 0, Fg 1], Sg0.readRecord Gg f (.s 0) [0, 5, 1] [0] (Gg.word f (.v 4)).toNat 64 16 = .ok rayR ∧
      Sg0.readRecord Gg f (.s 1) [0, 5] [0, 2] 0 64 16 = .ok scR) ∧
    (Sg0.goodCap 0 (quadOf scR.1 0) (scR.2.getD 0 false) [0, 5] [0] = true ∧ Sg0.goodCap 0 (quadOf scR.1 16) (scR.2.getD 1 false) [0, 5] [0] = true ∧
      Sg0.goodCap 0 (quadOf scR.1 32) (scR.2.getD 2 false) [0, 1, 2, 5] [0, 2] = true ∧ hdrZero scR.1 60 4 = true ∧ rayOk rayR.1 = true) ∧
    Gg.ovf = none ∧ Sg0.acquiring Gg = false ∧ Sg0.counterAt Gg (Fg 0) (.s 4) = .ok 0x500000 (some 0x500000) ∧
    Sg0.readRecord Gg (Fg 0) (.s 2) [0, 5] [0] 0 64 64 = .ok grR ∧ Sg0.readRecord Gg (Fg 0) (.s 3) [0] [0, 1, 2] 0 128 128 = .ok vwR ∧
    (Sg0.viewWrite Gg 0x403000).isNone = true ∧ graphOk grR.1 = true ∧ Sg0.viewOk 0 vwR.1 vwR.2 = true ∧
    Sg0.released Gg (Sg0.graphScope Gg (capBase (Gg.quad (Fg 0) (.s 2)))) = true :=
  ⟨acting_of (by decide +kernel), actingOnce_of (by decide +kernel), by decide +kernel⟩

/-- A graph whose count of clusters is not its own. -/
def cutBad : Cut := cutOf none (leBytes 4 2 ++ grR.1.drop 4)
def keys4 (a : Nat) : List Nat := (List.range 4).map (a + ·)
def Sdone : State := Scut (cutOf (some ⟨[], some (1, 0)⟩) grR.1)
theorem hyp_GleanerRequest :
    ((Scut cut0).cuts.find? (fun y => y.die = 0) == some cut0) = true ∧ cut0.plan.isNone = true ∧ (Scut cut0).cutPlan cut0 = .ok plan0 ∧
    plan0.1.pages.isEmpty = false ∧ (Scut cutBad).cutPlan cutBad = .fail badGraph ∧
    (((Scut (cutOf (some plan0.1) grR.1)).pageReady 0 [] plan0.1.pages).map (·.1.handle)) = some 5 ∧
    Sdone.keysOf (dieSite 0) 0 0x403070 4 .wr = some (keys4 0x403070) ∧
    (Sdone.sendKeys 0 (keys4 0x403070) (leBytes 4 1)).keysOf (dieSite 0) 0 0x403074 4 .wr = some (keys4 0x403074) ∧
    ((Sdone.sendKeys 0 (keys4 0x403070) (leBytes 4 1)).sendKeys 0 (keys4 0x403074) (leBytes 4 0)).keysOf (dieSite 0) 0 0x403078 4 .wr = some (keys4 0x403078) :=
  by decide +kernel

/-! Key-value tables and lofts. -/

/-- A table of one bucket of eight entries and two blocks of 16 bytes (spec/19, Table 19.1). -/
def kvHead : List Byte :=
  leBytes 4 0 ++ leBytes 4 2 ++ leBytes 4 16 ++ leBytes 4 5 ++ leBytes 4 3 ++ leBytes 4 1 ++ leBytes 8 0x100 ++ leBytes 8 0x300 ++ leBytes 8 0x400 ++
  leBytes 8 0x500 ++ List.replicate 8 0
def kvEnt : List Byte := leBytes 16 0x55 ++ leBytes 4 0 ++ leBytes 4 4 ++ leBytes 4 0xFFFFFFFF ++ List.replicate 4 0
def kvNone : List Byte := leBytes 16 0 ++ leBytes 4 0xFFFFFFFF ++ List.replicate 12 0
def SWk : List (Nat × Nat) := capAt 0 0x400000 0x1000 0x6FF 0 ++ capAt 4 0x401000 0x1000 0x2FF 0 ++ [(8, 0x55)]
def Fk (l : Fin 32) : Fibre := fib l [(0, 0x55), (4, 0), (5, 3), (8, 7 + l.val)]
def Gk : Group := { grp [Fk 0, Fk 1] SWk [0, 1] with stage := 0, kvver := 4 }
def Gk16 : Group := { Gk with fibres := ((List.finRange 32).take 16).map Fk }
def Ck16 : Cur := cur ((List.finRange 32).take 16)
/-- The table with version `cur`. -/
def Sk (cur : Nat) : State :=
  { mach Gk C with
    mem := (mach Gk C).mem ++ cells 0x400000 (kvHead.take 12 ++ leBytes 4 cur ++ kvHead.drop 16) ++
      cells 0x400100 (kvEnt ++ (List.replicate 7 kvNone).flatten) ++
      cells 0x400300 (leBytes 4 0x100001 ++ leBytes 4 9 ++ leBytes 8 0xFFFFFFFF ++ leBytes 4 0x02000000 ++ leBytes 4 0 ++ leBytes 8 0xFFFFFFFF) ++
      cells 0x400500 (leBytes 4 0 ++ leBytes 4 0 ++ leBytes 4 0 ++ leBytes 4 1 ++ leBytes 4 1 ++ leBytes 4 1) }
def Sk16 : State := { Sk 5 with groups := [Gk16], cur := some Ck16 }
def kvForms : List Form :=
  let o : TwoQuads := ⟨false, false, .s 2, .s 0, .v 6⟩
  let r : QuadReg := ⟨false, false, .v 5, .s 0, .v 6⟩
  [formLook 0 o, formLook 1 o, formLookD 2 o, formLookD 0 { o with b := .s 1 }, ⟨[.dest (.v 6) 1, .quad (.s 0) 1 false, .quad (.s 2) 0 false], [], false, .own⟩,
   formRel 0 r, formRel 2 r, formRel 3 r]
def fmHash : Form := ⟨[.dest (.v 12) 4, .quad (.s 2) 0 false, .source (.v 8) 1 false], [], true, .every⟩

theorem hyp_KeyValueInstructions :
    (Batch Sk16 Ck16 Gk16 Gk16.fibres fmHash ∧ fmHash.Readable Gk16 (Fk 0) ∧
     (∀ x ∈ Gk16.fibres, fmHash.written.Readable Gk16 x ∧ (Operand.source (.v 8) 1 false).Readable Gk16 x) ∧
     (∀ i : Fin 32, i.val < 16 → ∃ x ∈ Gk16.fibres, x.lane = i ∧ Gk16.word x (.v 8) = BitVec.ofNat 32 (7 + i.val)) ∧
     Batch (Sk 5) C Gk [Fk 0, Fk 1] fmHash ∧ fmHash.Readable Gk (Fk 0) ∧ (∀ x ∈ [Fk 1], fmHash.written.Readable Gk x) ∧ (∃ i : Fin 32, i.val < 16 ∧ ∀ x ∈ [Fk 0, Fk 1], x.lane ≠ i)) ∧
    (∀ r ∈ (Sk 5).replays, r.declined = false) ∧ (∀ fm ∈ kvForms, Acting (Sk 5) C Gk [Fk 0, Fk 1] fm) ∧ Gk.ovf = none ∧
    (Sk 5).acquiring Gk = false ∧ (Sk 5).released Gk .module = true ∧
    (∀ x ∈ [Fk 0, Fk 1], ∀ u ∈ [(0, 0), (1, 0), (2, 1), (1, 1), (0, 1), (3, 1)], (Sk 5).handleAt Gk x (.s 0) u.1 u.2 = .ok 0x400000) ∧
    (Sk 5).block? Gk.block = some blk ∧
    (∀ x ∈ [Fk 0, Fk 1], (Sk 5).engineNum (dieOf Gk.core) 0 0 (0x400000 + 8) 4 = .ok 16 ∧
      (Sk 5).capCheck 0 (Gk.quad x (.s 1)) (Gk.tagOf x (.s 1)) (Quad.field (.s 1) 0) ⟨[0, 1], [0], .rd, 16 / 16, false⟩ = none ∧
      (Sk 5).place blk (Gk.quad x (.s 1)) 0 (16 / 16) = .ok (0x401000, none)) :=
  ⟨⟨batch_of (by decide +kernel), by decide, by decide, by decide, batch_of (by decide), by decide, by decide, by decide⟩, by decide, acting_of (by decide), rfl,
    by decide +kernel⟩

def rq (op : KvOp) (v : Nat) : KvReq := ⟨5, 0x400000, 0, 3, .vec 0 6 2, v, op, 0, 0, none⟩
def Srq (cur : Nat) (r : KvReq) : State := { Sk cur with kvops := [r], clk := 1 }
def tb0 : Table := ⟨0, 0, 0x400000, 5⟩
def runs (r : KvReq) : Bool := match tb0.run r (Srq 5 r) with | .ok _ => true | _ => false
def fails (r : KvReq) : Bool := match tb0.run r (Srq 5 r) with | .fail _ => true | _ => false
def headIs (cur nblk oldest : Nat) : Bool := match tb0.head (Sk cur) with | .ok h => h.cur == cur && h.nblk == nblk && h.oldest == oldest | _ => false

/-- A request for each operation, with what its checks look at: a hit, a version outside the window, a block that is not there, a
refresh interval out of range, and a step with the window full. -/
theorem hyp_KvAgentOperation : (∀ op ∈ [KvOp.look 0x55 false, .pub 0x77 2, .drop 2, .unpin 2, .step 0, .step 2],
      (Srq 5 (rq op 4)).kvops.find? (fun x => x.id = 5) = some (rq op 4) ∧ (Srq 5 (rq op 4)).kvReady (rq op 4) = true) ∧
    (let q : KvReq := ⟨6, 0x400000, 0, 3, .vec 1 6 2, 4, .drop 2, 0, 1, none⟩
     let s : State := { Sk 5 with kvops := [rq (.drop 2) 4, q], clk := 1 }
     s.kvops.find? (fun x => x.id = 6) = some q ∧ (rq (.drop 2) 4).answer = none ∧ (rq (.drop 2) 4).clk = q.clk ∧ (rq (.drop 2) 4).req < q.req ∧
     s.replays = []) ∧
    runs (rq (.look 0x55 false) 4) = true ∧
    fails (rq (.app 0xFFFFFFFF 0 (some (0x9900000000000, none, 1))) 4) = true ∧
    headIs 5 2 3 = true ∧ (2 < 3 ∨ 5 < 2) ∧ 2 ≤ 2 ∧ (6 < 3 ∨ 5 < 6) ∧ (0 = 0 ∨ 65535 < 0) ∧ 1 ≤ 2 ∧ headIs 66 2 3 = true ∧ 66 + 1 - 3 = 64 ∧
    (match tb0.wr 12 4 6 (Sk 5) with | .ok u => (match tb0.wr (0x500 + 4 * (6 % 64)) 4 2 u with | .ok _ => true | _ => false) | _ => false) = true :=
  by decide +kernel

def SWl : List (Nat × Nat) := capAt 8 0x500000 8 0x2FF 3
/-- v0 a loft of the context, v1 none, v2 another's; v4 and v6 commands, the second of no operation; two triples. -/
def Fl (l : Fin 32) : Fibre :=
  fib l [(0, 4), (1, 4000), (2, 7), (6, 1), (7, 0xF0000000), (8, 0x3F800000), (10, 0x3F800000), (12, 0xBF800000), (13, 0x40000000), (14, 0x40000000)]
def Gl' : Group := { grp [Fl 0, Fl 1] SWl [2] with stage := 0 }
def Sl : State := { mach Gl' C with ctxs := [{ ctx0 with lofts := [4] }] }
def cmds : List Nat :=
  [0, 1 * 2 ^ 60, 2 * 2 ^ 60 + 3 * 2 ^ 46 + 5 * 2 ^ 56, 3 * 2 ^ 60 + 9 * 2 ^ 44, 4 * 2 ^ 60 + 3 * 2 ^ 55, 5 * 2 ^ 60 + 3 * 2 ^ 55,
   6 * 2 ^ 60 + 9 * 2 ^ 44 + 10 * 2 ^ 28 + 11 * 2 ^ 12 + 2 ^ 9 + 1, 7 * 2 ^ 60]
def lc (c : Nat) : LoftCmd := ⟨4, 0, BitVec.ofNat 64 c, 0x500000, 0x500000⟩
def Slc (ab : Bool) (row : Option Nat) (c : Nat) : State := { Sl with lofts := [{ Loft.fresh 4 with allBank := ab, row := row }], loftq := [lc c] }

theorem hyp_LoftInstructionsAndCommands :
    (∀ d ∈ [Reg.v 0, .v 1, .v 2], ∀ b ∈ [Reg.v 4, .v 6],
      ∀ fm ∈ [⟨[.source d 1 false, .quad (.s 2) 0 false, .source b 2 false], [], false, .own⟩], Acting Sl C Gl' [Fl 0, Fl 1] fm) ∧
    Gl'.ovf = none ∧ Sl.acquiring Gl' = false ∧ Sl.released Gl' .module = true ∧ (∀ r ∈ Sl.replays, r.declined = false) ∧
    (∀ f ∈ [Fl 0, Fl 1], (Gl'.word f (.v 0)).toNat < 2048 ∧ Sl.holdsLoft 0 (Gl'.word f (.v 0)).toNat = true ∧
      Sl.counterAt Gl' f (.s 2) = .ok 0x500000 (some 0x500000) ∧ cmdOk (Gl'.dword f (.v 4)) = true ∧ 2048 ≤ (Gl'.word f (.v 1)).toNat ∧
      (Gl'.word f (.v 2)).toNat < 2048 ∧ Sl.holdsLoft 0 (Gl'.word f (.v 2)).toNat = false ∧ cmdOk (Gl'.dword f (.v 6)) = false) ∧
    (∀ fm ∈ [⟨[.dest (.v 4) 4, .quad (.v 2) 0 false, .quad (.v 3) 0 false], [], false, .own⟩], Acting Sl C Gl' [Fl 0, Fl 1] fm) ∧
    (∀ x ∈ cmds.zipIdx, ∀ r ∈ [none, some 9], (Slc true r x.1).loftq.find? (fun y => y.loft = 4) = some (lc x.1) ∧
      (lc x.1).cmd.toNat / 2 ^ 60 = x.2 ∧ ((Slc true r x.1).loft 4).allBank = true ∧ ((Slc true r x.1).loft 4).row = r ∧
      ((Slc false r x.1).loft 4).allBank = false) :=
  ⟨fun d hd b hb => acting_of (by revert d b; decide), rfl, by decide, by decide, by decide, by decide, acting_of (by decide), by decide +kernel⟩

/-! Accesses under way. -/

def P0 (w : Work) : Producer := ⟨5, 3, .memory, [(0, 3), (1, 3)], [0, 1], none, w, []⟩
def vs0 : List LaneVal := [⟨.vec 0 6 2, [7, 8], false, false, none, 2, some (3, true)⟩, ⟨.vec 1 6 2, [7, 8], false, false, some ⟨.poison, 9⟩, 4, none⟩]
def vsS : List LaneVal := [⟨.sca 0 30 1, [7], false, false, none, 0, none⟩]
def ldl : LoadLane := ⟨.vec 0 6 1, 0x400000, none, false, false⟩
/-- Device memory that no page maps, and a byte of the scratchpad whose granule is poisoned. -/
def ldp : LoadLane := ⟨.vec 0 6 1, 0x9900000000000, none, false, false⟩
def ldq : LoadLane := ⟨.vec 1 6 1, scratchKey 0 5, some (scratchKey 0 5), false, false⟩
def atm : Work := .atomic .add 4 [(.vec 0 6 1, ⟨0, 0x400000, 0x400000, 5, 0⟩)]
def Gp : Group := { G with fibres := [{ F0.emptyReg (.v 6) 2 with wait := some (.register [(0, .v 6)] [(0, 3)]), predBusy := 8 }, F1] }
def Spr (w : Work) : State := { S with producers := [P0 w], groups := [Gp], cur := none, poison := [scratchKey 0 5 / 16] }
def produces (w : Work) (vs : List LaneVal) : Bool :=
  match (Spr w).produce Gp (P0 w) with
  | .ok (x, eff) => x == vs && (match (eff (Spr w)).group? 3 with | some h => !h.ended | none => false) | _ => false

theorem hyp_ProducersComplete :
    (∀ w ∈ [Work.ready vs0, .ready vsS, .load 4 false false [ldl], .load 1 false false [ldq], .load 4 false false [ldp], atm],
      (Spr w).producers.find? (fun q => q.id = (P0 w).id) = some (P0 w) ∧ (Spr w).group? (P0 w).group = some Gp ∧ (Spr w).replayed 5 = false ∧
      (Spr w).inOrder (P0 w) = true) ∧
    produces (.ready vs0) vs0 = true ∧ (vs0.map (·.dest.lane)).Nodup ∧ produces (.ready vsS) vsS = true ∧
    (let s := Spr (.load 4 false false [ldl])
     s.mayRead Gp 5 0x400000 4 = true ∧ s.walking 0 0 [ldl] = false ∧ s.loadVal Gp (P0 (.load 4 false false [ldl])) 4 false false ldl = .ok ⟨ldl.dest, [0], false, false, none, 0, none⟩ ∧
     s.translate 0 0 ldl.va .rd = .ok 0x400000 ∧ s.afterAdds Gp 5 0x400000 4 = true ∧ s.heldByLoft 0x400000 = false ∧
     s.seenPoison 0 3 5 0 (some 0x400000) 0x400000 = false ∧ s.translate 0 0 ldp.va .rd = .pageFault ∧
     s.seenPoison 0 3 5 0 none (scratchKey 0 5) = true) ∧
    (let s := Spr atm
     s.mayAct Gp 5 4 [0x400000] = true ∧ s.poisonAt 0x400000 = false ∧ s.reaches (dieOf Gp.core) 0x400000 = true ∧ Memory.wf s.mem = true ∧ 5 < 2 ^ (8 * 4) ∧ 0x400000 % 4 = 0) :=
  by decide

/-- Walks of no lane; a group that may wake; a byte that no store and no line covers, one in a line, one in the group's last store. -/
def lineOf (k : Nat) : L1Line := ⟨0, 0, k, k, false, List.replicate 128 7, List.replicate 8 false, List.replicate 8 false⟩
def pst (id : Nat) (v : Byte) : PStore := ⟨id, id, 3, 0, 0, false, false, .bytes [⟨0x400005, 0x400005, v⟩] [] []⟩
theorem hyp_ProducersComplete_sees :
    (let s := Spr (.ready vs0)
     (s.walkLanes Gp (P0 (.ready vs0)) none).inOrder (P0 (.ready vs0)) = true ∧ s.wakes Gp = true ∧ s.passed = [] ∧ s.stores = [] ∧ s.l1 = []) ∧
    (let s : State := { S with l1 := [lineOf 0x400000] }
     s.l1At 0 0 0x400005 0x400005 = some (lineOf 0x400000) ∧ s.l1At 0 0 0x400080 0x400080 = none) ∧
    (let s : State := { S with stores := [pst 4 1, pst 5 2] }
     s.stores = [pst 4 1] ++ [pst 5 2] ++ [] ∧ (pst 5 2).left = false ∧ (pst 5 2).group = 3 ∧ (pst 5 2).id < 9) := by decide

def st0 (w : StoreWork) (left : Bool) : PStore := ⟨5, 4, 3, 0, 0, left, false, w⟩
def sw1 : StoreWork := .bytes [⟨0x400005, 0x400005, 7⟩, ⟨0x400006, 0x400006, 8⟩, ⟨0x400020, 0x400020, 3⟩] [0x40002] [0x40000]
def sw2 : StoreWork := .bytes [⟨scratchKey 0 5, 5, 7⟩] [] []
def sw3 : StoreWork := .red .add 4 [⟨0, 0x400000, 0x400000, 5, 0⟩]
def Gst : Group := { G with outack := 2, fibres := [{ F0 with wait := some .release }, { F1 with wait := some .replay }] }
def Sst (l : List PStore) : State := { S with groups := [Gst], stores := l }
def wk (page : Nat) : Walk := ⟨5, 0, 0, 0, page⟩
/-- A table entry that is replayable, and a malformed one (spec/10, Table 10.3). -/
def Swk (page : Nat) : State := { ((Sst []).setNum 0x200008 8 0x40).setNum 0x200010 8 0x8000000000000003 with walks := [wk page] }
def rp (page : Nat) : Replay := ⟨5, 0, 0, page, false, [9], [(3, 1)]⟩

theorem hyp_MemoryEvents :
    (∀ w ∈ [sw1, sw2, sw3], ∀ l : Bool, (Sst [st0 w l]).stores.find? (fun x => x.id = 5) = some (st0 w l)) ∧ Memory.wf (Sst []).mem = true ∧
    (Sst [st0 sw1 false]).mayLeave (st0 sw1 false) = true ∧ (st0 sw1 false).ownBanks = false ∧
    (Sst [st0 sw2 false]).mayLeave (st0 sw2 false) = true ∧ (st0 sw2 false).ownBanks = true ∧ (Sst [st0 sw2 false]).boardClear (st0 sw2 false) = true ∧
    (Sst [st0 sw1 true]).mayPerform (st0 sw1 true) = true ∧ (Sst [st0 sw3 true]).mayPerform (st0 sw3 true) = true ∧
    (∀ w ∈ [sw1, sw2, sw3], ∀ k ∈ w.keys, (Sst [st0 w true]).reaches (dieOf (st0 w true).core) k = true) ∧
    ([0x400005, 0x400006, 0x400020] : List Nat).Nodup ∧ (5 : Nat) < 2 ^ (8 * 4) ∧
    (Sst []).group? Gst.id = some Gst ∧ (Sst []).outbound Gst.id < Gst.outack ∧
    (∀ p ∈ [64, 2 ^ 18, 2 ^ 19, 2 ^ 31], (Swk p).walks.find? (fun x => x.id = 5) = some (wk p) ∧ (Swk p).walkStarted (wk p) = true) ∧
    (Swk 64).walk 0 (64 * 65536) = .leaf ⟨34, 0x1F⟩ ∧ (Swk (2 ^ 18)).walk 0 (2 ^ 18 * 65536) = .replayable ∧
    (Swk (2 ^ 19)).walk 0 (2 ^ 19 * 65536) = .malformed 0x200010 ∧ (Swk (2 ^ 31)).walk 0 (2 ^ 31 * 65536) = .fault ∧ (Swk 64).replays = [] ∧
    ((Sst []).wakes Gst = true ∧ (∀ p ∈ [64, 2 ^ 18, 2 ^ 19, 2 ^ 31], (Swk p).xlatsOf (wk p).site 0 (p * 65536) = [] ∧ (wk p).site < 4096)) ∧
    (let s : State := { Sst [] with replays := [rp 64] }
     s.replays.find? (fun x => x.id = 5) = some (rp 64) ∧ (rp 64).declined = false ∧ s.walk 0 (64 * 65536) ≠ .replayable) :=
  by decide +kernel

/-! Placement, slots, pre-emption. -/

def kern2 : Kernel := ⟨0, 0x40, 16, [0, 1], 2, 0x1000, 2, 0, false, 0x41, [0x49, 0x48], [], []⟩
def gr2 : Grid := ⟨7, 0, 0, 0, 3, 2, 1, 0, 0, 0, none, none, 0, none⟩
def pe2 : Pending := ⟨7, 1, 2, some 0, 3, false, 0, [], false, 0⟩
def Spl : State :=
  { mach G C with
    groups := [], blocks := [], sheaves := [], cur := none, grids := [gr2], pending := [pe2], held := [⟨0, 0, 0, false, false⟩]
    ctxs := [{ ctx0 with kernels := [kern2] }] }
def tr0 : TaskRec := ⟨0x40, 5, 0x500000, [1, 2, 3, 4], 2⟩
def Stk : State := { S with held := [⟨0, 0, 0, false, false⟩], cores := [{ Core.fresh 0 with deque := [tr0] }] }
def fi0 : FaultInfo := ⟨1, some .illegal, 3, 1, 0x10, 0, 9, 5, 0⟩
def bFault : Block := { blk with mode := .faulting fi0 }
def Sfa : State := { S with blocks := [bFault], owner := some 1, ctxs := [{ ctx0 with control := { ctx0.control with flog := 0x700000, flogn := 4 } }] }

/-- The one entry that waits finds a place for its two blocks, wherever the free choice puts them. -/
theorem hyp_SheafPlace : ∃ places, Spl.nextSheaf 0 = some (pe2, places) ∧ places.length = 2 ∧ pe2.saved = false ∧ Spl.grid? pe2.grid = some gr2 ∧
    Spl.kernel? gr2.ctx gr2.kernel = some kern2 ∧ gr2.queue = none ∧ kern2.stages[1]? = some 1 := by
  obtain ⟨l, hl, hn⟩ : ∃ l, Spl.findPlace 0 0 [kern2.room, kern2.room] = some l ∧ l.length = 2 := findPlace_isSome (by decide)
  have hh : Spl.heads 0 = [pe2] := by decide
  have he : Spl.entryPlace 0 pe2 = Spl.findPlace 0 0 [kern2.room, kern2.room] := rfl
  exact ⟨l, by simp [State.nextSheaf, hh, he, hl], hn, rfl, by decide, by decide, rfl, rfl⟩

theorem hyp_PlacementAndEnd :
    ((Stk.taskReady 0).map fun x => (x.2.1, x.2.2.1, x.2.2.2)) = some (tr0, blk, kern) ∧ ((Stk.taskReady 0).map fun x => decide (x.1 = .own)) = some true ∧
    (let s : State := { S with groups := [] }
     s.block? blk.id = some blk ∧ blk.isFaulting = false ∧ blk.ended = false ∧ s.groups = [] ∧ s.hasTasks blk.id = false ∧ blk.dumps = false ∧
     (∃ sh ∈ s.sheaves, s.sheaf? blk.sheaf = some sh ∧ ∃ gr ∈ s.grids, s.grid? sh.grid = some gr ∧ gr.ctx = blk.ctx) ∧ s.savedOf blk.ctx blk.sheaf = []) ∧
    Sfa.block? bFault.id = some bFault ∧ Sfa.faultSettled bFault = true ∧ (Sfa.ctx? bFault.ctx).isSome = true ∧ Sfa.owner.isSome = true := by
  decide

def grA (n : Nat) (act : Bool) : Group := { G with id := n, active := act, since := 0 }
def Ssl (l : List Group) : State := { S with cur := none, rr := [(0, 0), (0, 1)], clk := 9000, groups := l }
/-- A batch that has waited behind the issues of another one (spec/08, R188). -/
def gUnfair : Group :=
  { grA 3 true with fibres := [{ F0 with readySince := some 0 }, { F1 with pc := 0x18, readySince := some 3 }], lastRun := 5000, lastLanes := [0] }
/-- Eight active groups and one that has been pending since clk 0. -/
def nine : List Group := (List.range 9).map fun i => grA (3 + i) (i < 8)

/-- Two ready groups: the slot stays with the one it issued last, and leaves it where it has yielded. -/
def Stwo (y : Bool) : State := { Ssl [grA 3 true, { grA 4 true with since := 5 }] with slots := [⟨0, 0, List.replicate 16 0, some 4, y, none, [], []⟩] }
theorem hyp_IssueSlots_two : ((Stwo false).pickGroup 0 0).map (·.id) = some 4 ∧ ((Stwo true).pickGroup 0 0).map (·.id) = some 3 ∧
    (∀ y : Bool, ((Stwo y).activeSet 0 0).map (·.id) = [3, 4] ∧ ∀ h ∈ (Stwo y).activeSet 0 0, (Stwo y).hasReady h = true) := by decide

theorem hyp_IssueSlots : (Ssl [grA 3 true]).cur = none ∧ (0, 0) ∈ (Ssl [grA 3 true]).rr ∧
    (let u := ((Ssl [grA 3 true]).endTurn 0 0).slotSets 0 0
     ((u.pickGroup 0 0).map (·.id)) = some 3 ∧ ((u.pickGroup 0 0).bind u.pickKey).isSome = true ∧
     ((u.pickGroup 0 0).map (·.yielded)) = some []) ∧
    (((Ssl [grA 3 true]).endTurn 0 1).slotSets 0 1).pickGroup 0 1 = none ∧ ((Ssl [gUnfair]).unfair 0 0).isSome = true ∧
    (Ssl nine).overdue 0 0 = some (grA 11 false) ∧ (Ssl nine).group? 11 = some (grA 11 false) ∧
    (Ssl [grA 3 false]).overdue 0 0 = some (grA 3 false) ∧ ((Ssl [grA 3 false]).activeSet 0 0).length < 8 :=
  by decide

def ctx1 : Ctx := { ctx0 with num := 1 }
def grX (n c : Nat) : Grid := ⟨n, c, 0, 0, 1, 1, 1, 0, 0, 0, none, none, 0, none⟩
def peY : Pending := ⟨8, 0, 1, some 0, 3, false, 0, [], false, 0⟩
def ctxS (len : Nat) (k : Kernel) : Ctx := { ctx0 with kernels := [k], control := { ctx0.control with savearea := 0x700000, savelen := len } }
/-- A context that holds a cluster, pre-empted (`p`) and with its methods chosen (`a`), while another one has work. -/
def Sho (p a : Bool) (b : Block) (k : Kernel) (len : Nat) : State :=
  { S with held := [⟨0, 0, 0, p, a⟩], clk := 3000000, ctxs := [ctxS len k, ctx1], grids := [grX 7 0, grX 8 1], pending := [peY], blocks := [b] }
def bl (l : Leave) (m : Mode) (n : Nat) : Block := { blk with leave := l, mode := m, issues := n }
def peR : Pending := ⟨7, 0, 1, none, 1, true, 0, [], true, 1⟩
/-- What SAVE leaves, with a hold again and its sheaf to be resumed. -/
def Sres : State :=
  { S with
    ctxs := [{ ctx0 with saved := [⟨bl .saves .running 0, [G], [], [], [], [], 0, 100⟩] }]
    held := [⟨0, 0, 0, false, false⟩], pending := [peR], grids := [grX 7 0], blocks := [], groups := [], cur := none }
def Ssw (l : List Pending) : State :=
  { S with
    blocks := [], groups := [], cur := none, held := [⟨0, 0, 0, true, true⟩], ctxs := [ctx0, ctx1], grids := [grX 7 0, grX 8 1], pending := l }
def bWanted (m : Mode) : Block := { blk with baleWanted := true, mode := m }
def dbg0 : DebugRec := { ctx0.dbg with samplebase := 10, jitter := 3 }

/-- SAVEAREA has room for the image, whatever its size, or it has none. -/
def sizeOf' (s : State) : Nat :=
  let b := bl .saves .running 0
  imageSize ((s.dropGrants b).imageRows ((s.dropGrants b).imageOf b 0 0))
theorem le_imageSize (rows : List (Nat × Nat × Nat)) : 64 ≤ imageSize rows := by
  suffices h : ∀ m : Nat, m ≤ rows.foldl (fun m r => max m (r.2.1 + (r.2.2 + 63) / 64 * 64)) m from h 64
  induction rows with
  | nil => simp
  | cons r rs ih => exact fun m => (Nat.le_max_left _ _).trans (ih _)
theorem hyp_ImageSize : (let s := Sho true true (bl .saves .running 0) kern (sizeOf' (Sho true true (bl .saves .running 0) kern 0))
    0 + sizeOf' s ≤ (s.controlOf 0).savelen) ∧
    (let s := Sho true true (bl .saves .running 0) kern 63
     (s.controlOf 0).savelen < 0 + sizeOf' s) :=
  ⟨(Nat.zero_add _).le.trans (le_of_eq rfl), Nat.lt_of_lt_of_le (show 63 < 64 by decide) ((le_imageSize _).trans (Nat.zero_add _).ge)⟩

theorem hyp_PreemptionAndDebugEvents :
    (let s := Sho false false (bl .stays .running 0) kern 0x10000
     s.hold? 0 = some ⟨0, 0, 0, false, false⟩ ∧ 0 + 2800000 ≤ s.clk ∧ (s.controlOf 0).quantum = 0 ∧ ∃ x ∈ s.ctxs, x.num ≠ 0 ∧ s.couldTake 0 x.num = true) ∧
    (let s := Sho true false (bl .stays .running 3) { kern with expect := 4 } 0x10000
     s.hold? 0 = some ⟨0, 0, 0, true, false⟩ ∧ (s.controlOf 0).predrain = 0 ∧ 4 ≠ 0 ∧ 96 * 4 ≤ 3 * 128 ∧ clusterOf blk.core = 0 ∧ ¬96 * 4 ≤ 2 * 128) ∧
    (let s := Sho true false (bl .stays .running 2) { kern with idempotent := true } 0x10000
     s.kernel? 0 0 = some { kern with idempotent := true } ∧ (bl .stays .running 2).sidefx = false ∧ ((s.sheaf? blk.sheaf).map (·.count)).getD 1 = 1) ∧
    (let b := bl (.drains 0) .running 3
     (Sho true true b kern 0x10000).block? b.id = some b ∧ ((Sho true true b kern 0x10000).controlOf 0).drainbudget = 0 ∧ 0 + 100000 ≤ 3000000) ∧
    (let b := bl .flushes .running 0
     let s := Sho true true b kern 0x10000
     s.block? b.id = some b ∧ b.isFaulting = false ∧ s.hasCopies b.id = false ∧ (s.sheaf? b.sheaf).isSome = true ∧ s.kernel? b.ctx b.kernel = some kern) ∧
    (let b := bl .saves .running 0
     (Sho true true b kern 0x10000).mayBeSaved b = true ∧ (Sho true true b kern 0x10000).ctx? 0 = some (ctxS 0x10000 kern) ∧ (ctxS 0x10000 kern).saved = [] ∧
     (∃ sh ∈ S.sheaves, (Sho true true b kern 0x10000).sheaf? b.sheaf = some sh ∧ (Sho true true b kern 0x10000).grid? sh.grid = some (grX 7 0)) ∧
     b.ended = false ∧ (grX 7 0).ctx = b.ctx ∧ (Sho true true b kern 0x10000).producers = [] ∧
     (Sho true true b kern 63).mayBeSaved b = true ∧ (ctxS 63 kern).control.savelen = 63) ∧
    ((Ssw [peY]).switchable 0 = true ∧ (Ssw [peY]).incoming 0 ≠ [] ∧ (Ssw []).switchable 0 = true ∧ (Ssw []).incoming 0 = []) ∧
    (∀ m ∈ [Mode.running, .stopped, .stepping 0 1, .faulting fi0],
     let b := bWanted m
     let s : State := { Sho false false b kern 0x10000 with ctxs := [{ ctx0 with dbg := dbg0, kernels := [kern] }] }
     s.block? b.id = some b ∧ (s.ctx? 0).isSome = true ∧ b.baleWanted = true ∧ b.baleDone = false ∧
     s.baleSettled b = true ∧ s.baleTurn b = true ∧ s.sampleDue 0 = true ∧ s.debugOf 0 = some (0, dbg0)) := by
  refine ⟨?_, ?_, ?_, ?_, ?_, ?_, ?_, ?_⟩ <;> decide +kernel

/-- A stopped block that was to be flushed; a drain that has run out; an ended block whose image has no room; no slot of bales is held. -/
theorem hyp_PreemptionAndDebugEvents_more :
    (let b := bl .flushes .stopped 0
     (Sho true true b kern 0x10000).block? b.id = some b ∧ b.leave = .flushes ∧ b.mode = .stopped) ∧
    (bl (.drains 0) .running 3).isFaulting = false ∧ (bl .flushes .running 0).mode ≠ .stopped ∧
    (let b : Block := { bl .saves .running 0 with ended := true }
     (Sho true true b kern 63).mayBeSaved b = true ∧ (Sho true true b kern 63).block? b.id = some b ∧ (ctxS 63 kern).control.savelen = 63) ∧
    (let s : State := { Sho false false (bWanted .stopped) kern 0x10000 with ctxs := [{ ctx0 with dbg := dbg0, kernels := [kern] }] }
     s.slotHeld 0 = false) := by decide +kernel

/-- The saved block is placed again. -/
theorem hyp_BlockResume : ∃ places, Sres.resumeDie 2 = some (0, peR, places) ∧ places.length = 1 ∧ Sres.grid? peR.grid = some (grX 7 0) ∧
    (Sres.savedOf 0 peR.sheaf).length = 1 := by
  obtain ⟨l, hl, hn⟩ : ∃ l, Sres.findPlace 0 0 [kern.room] = some l ∧ l.length = 1 := findPlace_isSome (by decide)
  have hh : Sres.heads 0 = [peR] := by decide
  have he : Sres.entryPlace 0 peR = Sres.findPlace 0 0 [kern.room] := rfl
  have hs : Sres.nextSheaf 0 = some (peR, l) := by simp [State.nextSheaf, hh, he, hl]
  have h16 : List.range 16 = 0 :: (List.range 15).map (· + 1) := by decide
  obtain ⟨x, rfl⟩ := List.length_eq_one_iff.1 hn
  refine ⟨[x], ?_, rfl, by decide, by decide⟩
  rw [State.resumeDie, h16]
  simp only [List.findSome?_cons, hs, Option.bind_some]
  rfl

/-! The host. -/

def rec' (op ctx : Nat) (l : List (Nat × Nat)) : CmdRecord :=
  BitVec.ofNat 512 (l.foldl (fun a x => a + x.2 * 2 ^ (8 * x.1)) (op + ctx * 2 ^ 32 + 77 * 2 ^ 64))
def Sho' (m : Mode) (r : CmdRecord) : State :=
  { S with
    blocks := [{ blk with mode := m, bars := List.replicate 16 (.fresh 1) }], cur := none, owner := some 1, clk := 50
    ctxs := [{ ctx0 with memory := [(0x400000, 0x10000)] }], tags := [0x40000], inbox := [.command 1 r] }
def named' : List Nat := [0x10, 0x11, 0x12, 0x13, 0x14, 0x20, 0x21, 0x22, 0x23]

theorem hyp_HostCommands :
    (∀ op ∈ [0x01, 0x02, 0x03, 0x04, 0x30, 0x31, 0x40] ++ named', ∀ c ∈ [0, 9, 70000],
      let r := rec' op c [(2, 3)]
      let s := Sho' .running r
      s.inbox = .command 1 r :: [] ∧ (r.extractLsb' 0 8).toNat = op ∧ recCtx r = c ∧ recField r 2 1 = (3 : Fin 4).val ∧ s.owner = some 1 ∧ s.fwOk = true) ∧
    (Sho' .running 0).ctx? 9 = none ∧ 65535 < 70000 ∧ (Sho' .running 0).ctx? 0 = some { ctx0 with memory := [(0x400000, 0x10000)] } ∧
    recField (rec' 0x10 0 [(40, 3)]) 40 1 ≤ 3 ∧ recField (rec' 0x03 0 [(2, 4)]) 2 1 = 4 ∧ (Sho' .running 0).holdsCluster 0 = false ∧
    ({ Sho' .running 0 with held := [⟨0, 0, 0, false, false⟩] } : State).holdsCluster 0 = true ∧
    (∀ n ∈ [0, 1, 2, 3, 4, 6], recField (rec' 0x11 0 [(2, n)]) 2 1 = n) ∧ Memory.wf (Sho' .running 0).mem = true ∧
    ((Sho' .running 0).namedBlock (rec' 0x20 0 [(16, 7)])).isNone = true ∧
    (∀ m ∈ [Mode.running, .stopped], ((Sho' m 0).namedBlock (rec' 0x20 0 [])).map (·.mode) = some m ∧ ((Sho' m 0).block? 2).map (·.mode) = some m) ∧
    recField (rec' 0x21 0 [(24, 5)]) 24 1 = (5 : Fin 16).val ∧ (barAt (List.replicate 16 (Barrier.fresh 1)) 5).member ≠ 0 ∧
    (let r := rec' 0x30 0 [(2, 0)]
     (((Sho' .running r).popInput.accept 1 r).readOut r).isSome = true) ∧ (Sho' .running 0).keysUsed < 2 ^ 20 := by
  decide +kernel

/-- The premise on a firmware image is met by every image or by none: verification is the opaque `Config.firmwareOk`. -/
theorem hyp_Firmware (w : Nat) : Config.firmwareOk w = true ∨ Config.firmwareOk w = false := by cases Config.firmwareOk w <;> simp

def cl3 : List Claim := [⟨2, 9, 9, 3⟩, ⟨3, 4, 1, 5⟩, ⟨1, 4, 2, 7⟩]
theorem hyp_OwnershipAndReset :
    (let s : State := { S with window := some (3, cl3), clk := 14000003 }
     s.window = some (3, cl3) ∧ 3 + 14000000 ≤ s.clk ∧ ⟨1, 4, 2, 7⟩ ∈ cl3 ∧
     ∀ c ∈ cl3, (4 : Nat) < c.priority ∨ (4 = c.priority ∧ (1 : Fin 4) ≤ c.master)) ∧
    (let s : State := { S with owner := some 1, lastCmd := 5, clk := 140000005 }
     s.owner.isSome = true ∧ s.lastCmd + 140000000 ≤ s.clk) ∧
    ({ S with staged := some 9, inbox := [.reset, .thermal ⟨5, []⟩] } : State).inbox = .reset :: [.thermal ⟨5, []⟩] := by decide

def win0 : Window := ⟨1, 0, 0x400000, 0x1000, 0, true, true, true, true⟩
def Sio : State :=
  { S with owner := some 1, windows := [win0], poison := [0x40002], held := [⟨0, 0, 0, false, false⟩], down := [4], cores := [Core.fresh 0] }
def ha (a : HostAddr) (n : Nat) : HostAccess := ⟨false, a, n, (List.range n).map (BitVec.ofNat 8)⟩
def keysN (a n : Nat) : List Nat := (List.range n).map (a + ·)

theorem hyp_HostAccessesAndErrors :
    (∀ x ∈ [Input.hostRead (ha (.virt 0 0x400000) 8), .hostWrite (ha (.phys 1 0x400010) 4), .peer ⟨1, 0x400000, .read 4⟩, .flitReplay 3, .linkDown 3,
      .thermal ⟨46, [3]⟩, .storage (.memory 0x400003)], ({ Sio with inbox := [x] } : State).inbox = x :: []) ∧
    Sio.hostKeys (ha (.virt 0 0x400000) 8) 8 .rd = some (keysN 0x400000 8) ∧ (∀ k ∈ keysN 0x400000 8, Sio.heldByLoft k = false ∧ Sio.poisonAt k = false) ∧
    Sio.hostKeys (ha (.virt 0 0x9900000000000) 8) 8 .rd = none ∧ Sio.hostKeys (ha (.virt 0 0x400020) 4) 4 .rd = some (keysN 0x400020 4) ∧
    (∃ k ∈ keysN 0x400020 4, Sio.poisonAt k = true) ∧ Sio.hostKeys (ha (.virt 5 0) 4) 4 .wr = none ∧
    Sio.hostKeys (ha (.phys 1 0x400010) 4) 4 .wr = some (keysN 0x400010 4) ∧ Memory.wf Sio.mem = true ∧ (keysN 0x400010 4).Nodup ∧
    Sio.windowFor ⟨2, 0x400000, .read 4⟩ = none ∧
    (∀ a ∈ [PeerAccess.mk 1 0x400000 (.read 4), ⟨1, 0x400002, .write [1, 2, 3]⟩, ⟨1, 0x400000, .atom .cas 4 0 9⟩, ⟨1, 0x400008, .counterAdd 5⟩],
      Sio.windowFor a = some win0 ∧ Sio.keysOf 0 win0.ctx a.addr a.op.size a.op.need = some (keysN a.addr a.op.size)) ∧
    Sio.hostHeld (ha (.virt 0 0x9900000000000) 8) 8 .rd = false ∧ Sio.virtHeld 4096 0 0x400000 4 .rd = false ∧
    (45 < (46 : Int) ∧ (∃ d ∈ [(111 : Int)], 110 < d) ∧ (∀ d ∈ [(110 : Int)], d ≤ 110) ∧ ∃ d ∈ [(120 : Int)], 120 ≤ d) ∧
    (∀ e ∈ [StorageError.corrected 3], e = .corrected 3) ∧
    (∀ e ∈ [StorageError.memory 0x400003, .scratch 0 5, .register 3 0 4, .scalar 3 5, .tile 3 1, .quadrant 0 2], e ≠ .corrected 3) ∧
    Sio.group? 3 = some G ∧ G.fibre? 0 = some F0 ∧ 4 < F0.vregs.length ∧ G.tiles[1]? = some ⟨[], false⟩ ∧ (Sio.core 0).quads.length = 4 :=
  by decide

/-- A context that is not resident; a peer's memory of another die while every bridge is down, wherever its port stands; a counter. -/
def keyOf (p : Fin 16) : Nat := if p.val = 0 then 2 ^ 48 else 0x400000
def Sbr : State := { (Sio.setNum 0x200008 8 (0x1F + 2 ^ 48)) with down := (List.range 40).map (10 + ·) }
theorem hyp_HostAccessesAndErrors_links :
    (let s : State := { Sio with ctxs := [{ ctx0 with resident := false }] }
     ((s.ctx? 0).map (·.resident)) = some false ∧ ((Sio.ctx? 0).map (·.resident)) = some true ∧ s.hostKeys (ha (.virt 0 0x400000) 8) 8 .rd = none) ∧
    (∀ p : Fin 16, Sbr.reaches p.val (keyOf p) = false ∧ Sbr.keysOf (dieSite p.val) 0 (if p.val = 0 then 2 ^ 34 else 0x400000) 1 .wr = some [keyOf p] ∧
      Sbr.keysOf (dieSite p.val) 0 (if p.val = 0 then 2 ^ 34 else 0x400000) 1 .rd = none) ∧
    (∀ p : Fin 16, ∀ k ∈ keysN 0x400000 4, Sio.reaches p.val k = true) ∧
    (∀ p : Fin 16, Sio.keysOf (dieSite p.val) 0 0x400008 8 .add = some ((List.range 8).map (0x400008 + ·))) ∧ 0x400008 % 8 = 0 ∧
    (∀ k ∈ keysN 0x400000 8, ∀ j ∈ keysN 0x400000 8, Sio.inAllBank j = true → j / 128 = k / 128) := by decide +kernel

/-! The step. -/

def curAt (e : Option Nat) (a : Nat) : Cur := ⟨3, [0, 1], 0x10, BitVec.ofNat 32 a, 4, 0, none, e, none⟩
def Sfe (e : Option Nat) (a : Nat) : State :=
  { ((S.setNum 0x10 4 0x41C28301).setNum 0x20 2 0x38C0).setNum 0xFFFE 2 1 with cur := some (curAt e a), ctxs := [{ ctx0 with codeBase := 0 }] }
/-- The code lies where no page is mapped, or where the page may not be run. -/
def Sno : State := { S with ctxs := [{ ctx0 with codeBase := 2 ^ 47 }] }
def Snx : State := { S.setNum 0x200000 8 3 with ctxs := [{ ctx0 with codeBase := 0 }] }
/-- The second half-word of a word lies in the next page of 16 GiB. -/
def edge (entry : Nat) : State :=
  { (S.setNum 0x200008 8 entry).setNum (2 ^ 34 - 2) 2 1 with cur := some (curAt none 0xFFFFFFFE), ctxs := [{ ctx0 with codeBase := 2 ^ 34 - 2 ^ 32 }] }

/-- A slot has its cycle to come. -/
def Srr' : State := { S with cur := none, rr := [(0, 0)] }

/-- A declined replay is to be told to lane 0, of the first half-word or of the second one. -/
def rpd (page : Nat) : Replay := ⟨5, 0, 0, page, true, [], [(3, 0)]⟩
def Gfw : Group := grp [{ F0 with wait := some (.fetch true) }, F1] SW [0, 1, 2, 3]
def toldOf (s : State) (va : Nat) : Bool :=
  (Gfw.batch C.lanes).any fun f => f.wait == some (.fetch true) && s.replays.any fun r => r.declined && r.ctx == 0 && r.page == va / 65536 && r.fibres.contains (3, f.lane)
/-- An all-bank loft holds the line of the code, or the line of its table. -/
def Sab (dropped loft : Nat) : State := { Sfe none 0x110 with lofts := [{ Loft.fresh loft with allBank := true }], dropped := [dropped] }

theorem hyp_StepFetches :
    (let s : State := { Sfe none 0x10 with groups := [Gfw], replays := [rpd 0] }
     s.cur = some (curAt none 0x10) ∧ s.group? 3 = some Gfw ∧ toldOf s 0x10 = true) ∧
    (let s : State := { edge 0 with groups := [Gfw], replays := [rpd 262144] }
     toldOf s (2 ^ 34 - 2) = false ∧ toldOf s (2 ^ 34) = true) ∧
    ((Sab 2 1).tickOn.translate 0 0 0x110 .ex = .ok 0x110 ∧ (Sab 2 1).heldByLoft 0x110 = true) ∧
    (Sab 0x2000 0).tickOn.translate 0 0 0x110 .ex = .hold ∧
    (edge 0x40).tickOn.translate 0 0 (2 ^ 34 - 2) .ex = .ok (2 ^ 34 - 2) ∧ (edge 0x40).tickOn.translate 0 0 (2 ^ 34) .ex = .replay := by
  decide +kernel

theorem hyp_StepRunsTheDecodedInstruction :
    (({ S with powered := false } : State).powered = false ∧ S.powered = true ∧ S.cur = some C ∧ S.group? C.group = some G ∧
    (Sfe (some 0x41C28301) 0x10).cur = some (curAt (some 0x41C28301) 0x10) ∧
    (Sfe none 0x10).tickOn.translate 0 0 0x10 .ex = .ok 0x10 ∧ (Sfe none 0x10).numAt 0x10 2 % 2 = 1 ∧
    (Sfe none 0x10).tickOn.translate 0 0 0x12 .ex = .ok 0x12 ∧ (Sfe none 0x20).numAt 0x20 2 % 2 = 0 ∧
    Sno.tickOn.translate 0 0 (2 ^ 47 + 0x10) .ex = .pageFault ∧ Snx.tickOn.translate 0 0 0x10 .ex = .xlatePerm ∧
    (edge 0).tickOn.translate 0 0 (2 ^ 34 - 2) .ex = .ok (2 ^ 34 - 2) ∧ (edge 0).numAt (2 ^ 34 - 2) 2 % 2 = 1 ∧
    (edge 0).tickOn.translate 0 0 (2 ^ 34) .ex = .pageFault ∧ (edge 3).tickOn.translate 0 0 (2 ^ 34) .ex = .xlatePerm ∧
    (let s : State := { S with cur := none, inbox := [.flitReplay 3] }
     s.tickOn.nextInput = some (some .flitReplay)) ∧
    (let s : State := { S with cur := none, inbox := [.command 1 0] }
     s.tickOn.nextInput = some none)) ∧
    (Srr'.tickOn.nextInput = none ∧ ∃ i, Srr'.tickOn.nextEvent = some i) ∧
    State.reset.tickOn.nextInput = none ∧ State.reset.tickOn.nextEvent = none :=
  ⟨by decide +kernel, ⟨by decide, Option.isSome_iff_exists.1 (nextEvent_isSome (by decide) (by decide))⟩, by decide,
    nextEvent_none (by decide +kernel)⟩

end Sys2Proof.Tests
end

section
/-! PROOFS. Integer immediates, single-source forms, bit fields, LEA and control transfer (spec/04, R83, R85, R86, R88, R92, R93,
R98 to R103). -/
namespace Sys2Proof.Machine

/-! Results as words. -/

@[simp] theorem outWords_false_toNat (v : Word) : outWords false v.toNat = [v] := by
  simp [outWords, w32]

@[simp] theorem outWords_true_toNat (v : DWord) : outWords true v.toNat = pairWords v := by
  have hlo : w32 v.toNat = v.extractLsb' 0 32 := by
    apply BitVec.eq_of_toNat_eq
    simp [w32]
  have hhi : w32 (v.toNat / 2 ^ 32) = v.extractLsb' 32 32 := by
    apply BitVec.eq_of_toNat_eq
    simp [w32, Nat.shiftRight_eq_div_pow]
  simp only [outWords, pairWords, if_true, hlo, hhi]

theorem Group.num_true (g : Group) (f : Fibre) (r : Reg) : g.num f true r = (g.dword f r).toNat := rfl

/-- A number that is the value of `r32` at 32 bits and of `r64` at 64 bits is written as that result. -/
theorem outWords_eq_atWidth {x : Bool} {n : Nat} {r32 : Word} {r64 : DWord} (h32 : x = false → n = r32.toNat)
    (h64 : x = true → n = r64.toNat) : outWords x n = atWidth x r32 r64 := by
  cases x with
  | false => rw [h32 rfl, outWords_false_toNat]; rfl
  | true => rw [h64 rfl, outWords_true_toNat]; rfl

/-! Operations on numbers as operations on bit vectors, at every width. -/

theorem signed_toNat {w : Nat} (a : BitVec w) : signed w a.toNat = a.toInt := by
  unfold signed
  rw [Nat.mod_eq_of_lt a.isLt, BitVec.toInt_eq_toNat_cond]
  cases w with
  | zero => simp [BitVec.of_length_zero]
  | succ n =>
    have h : 2 * a.toNat < 2 ^ (n + 1) ↔ a.toNat < 2 ^ (n + 1 - 1) := by
      rw [Nat.pow_succ, Nat.add_sub_cancel]; omega
    simp only [h]

theorem opAdd_toNat {w : Nat} (a b : BitVec w) : opAdd w a.toNat b.toNat = (a + b).toNat := (BitVec.toNat_add a b).symm
theorem opAnd_toNat {w : Nat} (a b : BitVec w) : opAnd w a.toNat b.toNat = (a &&& b).toNat := (BitVec.toNat_and a b).symm
theorem opOr_toNat {w : Nat} (a b : BitVec w) : opOr w a.toNat b.toNat = (a ||| b).toNat := (BitVec.toNat_or a b).symm
theorem opXor_toNat {w : Nat} (a b : BitVec w) : opXor w a.toNat b.toNat = (a ^^^ b).toNat := (BitVec.toNat_xor a b).symm

/-- The magnitude is taken modulo 2^w, so that of the least number is itself (spec/04, R85). -/
theorem opAbs_toNat {w : Nat} (a : BitVec w) : opAbs w a.toNat = (if a.msb then -a else a).toNat := by
  have hlt := a.isLt
  have hwrap : opAbs w a.toNat = a.toInt.natAbs % 2 ^ w := by
    rw [opAbs, signed_toNat, wrap, ← Int.natCast_mod, Int.toNat_natCast]
  rw [hwrap, BitVec.toInt_eq_msb_cond]
  cases a.msb with
  | true =>
    have hneg : ((a.toNat : Int) - ((2 ^ w : Nat) : Int)).natAbs = 2 ^ w - a.toNat := by omega
    simp only [if_true, BitVec.toNat_neg, hneg]
  | false => simp [Nat.mod_eq_of_lt hlt]

theorem opClz_toNat {w : Nat} (a : BitVec w) :
    opClz w a.toNat = (BitVec.ofNat w (if a = 0 then w else w - 1 - Nat.log2 a.toNat)).toNat := by
  have hz : a.toNat = 0 ↔ a = 0 := by rw [← BitVec.toNat_inj]; simp
  have hle : opClz w a.toNat ≤ w := by unfold opClz; split <;> omega
  rw [BitVec.toNat_ofNat]
  simp only [← hz]
  exact (Nat.mod_eq_of_lt (hle.trans_lt Nat.lt_two_pow_self)).symm

theorem popcount_eq_countP : ∀ w n : Nat, popcount w n = (List.range w).countP n.testBit := by
  intro w
  induction w with
  | zero => exact fun _ => rfl
  | succ w ih =>
    intro n
    have hshift : n.testBit ∘ Nat.succ = (n / 2).testBit := funext (Nat.testBit_succ n)
    rw [popcount, ih, List.range_succ_eq_map, List.countP_cons, List.countP_map, hshift, Nat.testBit_zero]
    rcases Nat.mod_two_eq_zero_or_one n with h | h <;> simp [h, Nat.add_comm]

theorem popcount_toNat {w : Nat} (a : BitVec w) :
    popcount w a.toNat = (BitVec.ofNat w ((List.range w).countP fun i => a.getLsbD i)).toNat := by
  have hle : (List.range w).countP (fun i => a.getLsbD i) ≤ w := List.countP_le_length.trans (by simp)
  rw [BitVec.toNat_ofNat, Nat.mod_eq_of_lt (hle.trans_lt Nat.lt_two_pow_self)]
  exact popcount_eq_countP w a.toNat

theorem bitrev_lt : ∀ w n : Nat, bitrev w n < 2 ^ w := by
  intro w
  induction w with
  | zero => exact fun _ => Nat.one_pos
  | succ w ih =>
    intro n
    have hbit : n % 2 * 2 ^ w ≤ 1 * 2 ^ w := Nat.mul_le_mul_right _ (by omega)
    have hrest := ih (n / 2)
    rw [bitrev, Nat.pow_succ]
    omega

theorem testBit_bitrev : ∀ w n i : Nat, (bitrev w n).testBit i = (decide (i < w) && n.testBit (w - 1 - i)) := by
  intro w
  induction w with
  | zero => intro n i; simp [bitrev]
  | succ w ih =>
    intro n i
    rw [bitrev, Nat.mul_comm, Nat.testBit_two_pow_mul_add _ (bitrev_lt w _), ih]
    rcases Nat.lt_trichotomy i w with h | rfl | h
    · have hs : w - i = (w - 1 - i).succ := by omega
      simp [h, hs, Nat.lt_succ_of_lt h, Nat.testBit_succ]
    · simp [Nat.testBit_zero]
    · have hbit : (n % 2).testBit (i - w) = false :=
        Nat.testBit_lt_two_pow ((Nat.mod_lt n Nat.two_pos).trans_le (Nat.pow_le_pow_right (n := 2) (i := 1) Nat.two_pos (by omega)))
      simp [Nat.not_lt.2 h.le, hbit, show ¬ i < w + 1 by omega]

theorem bitrev_toNat {w : Nat} (a : BitVec w) : bitrev w a.toNat = a.reverse.toNat := by
  apply Nat.eq_of_testBit_eq
  intro i
  rw [testBit_bitrev, ← BitVec.getLsbD, ← BitVec.getLsbD, BitVec.getLsbD_reverse, BitVec.getMsbD]

/-! Bit fields (spec/04, R86). -/

theorem fieldOf_snd_le (w b : Nat) : (fieldOf w b).2 ≤ w := by
  simp only [fieldOf]
  split <;> omega

/-- The `len` bits of `a` from `pos`. -/
theorem extract_toNat {w : Nat} (a : BitVec w) (pos : Nat) {len : Nat} (hl : len ≤ w) :
    ((a >>> pos) &&& BitVec.ofNat w (2 ^ len - 1)).toNat = a.toNat / 2 ^ pos % 2 ^ len := by
  have hmask : 2 ^ len - 1 < 2 ^ w := by
    have := Nat.pow_le_pow_right Nat.two_pos hl
    have := Nat.two_pow_pos len
    omega
  rw [BitVec.toNat_and, BitVec.toNat_ofNat, Nat.mod_eq_of_lt hmask, Nat.and_two_pow_sub_one_eq_mod, BitVec.toNat_ushiftRight,
    Nat.shiftRight_eq_div_pow]

/-- The sign of a field of `len` bits is its highest bit. -/
theorem signed_field {len n : Nat} (hp : 0 < len) (hn : n < 2 ^ len) :
    signed len n = if n.testBit (len - 1) then (n : Int) - (2 ^ len : Nat) else n := by
  obtain ⟨k, rfl⟩ : ∃ k, len = k + 1 := ⟨len - 1, by omega⟩
  have hbit : n.testBit k = !decide (n < 2 ^ k) := by
    by_cases h : n < 2 ^ k
    · simp [Nat.testBit_lt_two_pow h, h]
    · simp [Nat.testBit_of_two_pow_le_and_two_pow_add_one_gt (Nat.not_lt.1 h) hn, h]
  rw [signed, Nat.mod_eq_of_lt hn, Nat.add_sub_cancel, hbit]
  by_cases h : n < 2 ^ k <;> simp [h]

theorem wrap_sub_toNat {w : Nat} (x : BitVec w) (n : Nat) : wrap w ((x.toNat : Int) - (n : Int)) = (x - BitVec.ofNat w n).toNat := by
  have h : BitVec.ofInt w ((x.toNat : Int) - n) = x - BitVec.ofNat w n := by
    rw [Int.sub_eq_add_neg, BitVec.ofInt_add, BitVec.ofInt_neg, BitVec.ofInt_natCast, BitVec.ofInt_natCast, BitVec.ofNat_toNat,
      BitVec.setWidth_eq, ← BitVec.sub_eq_add_neg]
  rw [← h, BitVec.toNat_ofInt, wrap]

theorem wrap_toNat {w : Nat} (x : BitVec w) : wrap w (x.toNat : Int) = x.toNat := by
  rw [wrap, ← Int.natCast_mod, Int.toNat_natCast, Nat.mod_eq_of_lt x.isLt]

/-- A field with its sign extended, or with zeros above it. -/
theorem opBfx_toNat (sg : Bool) (a b : Word) :
    let pos := b.toNat % 64
    let len := if 32 ≤ pos then 0 else min (b.toNat / 256 % 128) (32 - pos)
    let x := (a >>> pos) &&& BitVec.ofNat 32 (2 ^ len - 1)
    opBfx sg a.toNat b.toNat = (if sg ∧ 0 < len ∧ x.getLsbD (len - 1) = true then x - BitVec.ofNat 32 (2 ^ len) else x).toNat := by
  intro pos len x
  have hlen : len ≤ 32 := fieldOf_snd_le 32 b.toNat
  have hx : x.toNat = a.toNat / 2 ^ pos % 2 ^ len := extract_toNat a pos hlen
  have hop : opBfx sg a.toNat b.toNat = if len = 0 then 0 else if sg then wrap 32 (signed len x.toNat) else x.toNat := by
    rw [hx]; rfl
  rw [hop]
  rcases Nat.eq_zero_or_pos len with h0 | hp
  · simp [h0, hx, Nat.mod_one]
  · have hlt : x.toNat < 2 ^ len := by rw [hx]; exact Nat.mod_lt _ (Nat.two_pow_pos len)
    rw [if_neg hp.ne', signed_field hp hlt, ← BitVec.getLsbD]
    cases sg with
    | false => simp
    | true =>
      cases x.getLsbD (len - 1) with
      | false => simp [wrap_toNat]
      | true => simpa only [hp, if_true, and_self] using wrap_sub_toNat x (2 ^ len)

/-- LEA's second operand at 64 bits (spec/04, R88). -/
theorem zeroExtend_or_signExtend_toNat (x : Bool) (b : Word) :
    (if x then b.toNat else (b.signExtend 64).toNat) = (if x then b.zeroExtend 64 else b.signExtend 64).toNat := by
  cases x with
  | false => rfl
  | true =>
    have hb : b.toNat < 2 ^ 64 := b.isLt.trans_le (Nat.pow_le_pow_right Nat.two_pos (by decide))
    simp only [if_true]
    rw [BitVec.toNat_setWidth, Nat.mod_eq_of_lt hb]

/-- MOVHI sets the high half and keeps the low one (spec/04, R93). -/
theorem append_low_half (i : BitVec 16) (d : Word) :
    i ++ d.truncate 16 = (i.zeroExtend 32 <<< 16) ||| (d &&& 0xFFFF) := by
  apply BitVec.eq_of_toNat_eq
  have hd : d.toNat &&& 65535 = d.toNat % 65536 := Nat.and_two_pow_sub_one_eq_mod d.toNat 16
  have hi : i.toNat < 2 ^ 32 := i.isLt.trans (by decide)
  have hshift : i.toNat <<< 16 < 2 ^ 32 := by
    have := i.isLt
    rw [Nat.shiftLeft_eq]; omega
  calc (i ++ d.truncate 16).toNat
      = i.toNat <<< 16 ||| d.toNat % 65536 := by rw [BitVec.toNat_append, BitVec.toNat_setWidth]
    _ = ((i.zeroExtend 32 <<< 16) ||| (d &&& 0xFFFF)).toNat := by
      rw [BitVec.toNat_or, BitVec.toNat_shiftLeft, BitVec.toNat_setWidth, Nat.mod_eq_of_lt hi, Nat.mod_eq_of_lt hshift,
        BitVec.toNat_and, ← hd]
      rfl

/-- The range of MOVI (spec/04, R92). -/
theorem signExtend_imm17_range (i : BitVec 17) : -65536 ≤ (i.signExtend 32).toInt ∧ (i.signExtend 32).toInt ≤ 65535 := by
  have hlo := i.le_toInt
  have hhi := i.toInt_lt
  rw [BitVec.toInt_signExtend_of_le (by decide)]
  omega

/-! The results of the shapes of integer instructions. -/

section
variable {i : Instr} {s : State} {c : Cur} {g : Group} {fs : List Fibre}

/-- An instruction that works word by word gives what it computes in the unit's group. -/
theorem gives_of_lanes {fm : Form} {d : Reg} {ws : Group → Fibre → List Word} {r : Fibre → List Word} (ha : Acting s c g fs fm)
    (hi : exec i s = s.lanes fm ws) (hd : fm.dst.map (·.reg) = some d) (ho : fm.once = false) (hw : ∀ f, ws g f = r f) :
    Gives i s c g fs d r := by
  obtain rfl : ws g = r := funext hw
  obtain ⟨t, ht, hret⟩ := State.lanes_gives (ws := ws) ha hd ho
  exact ⟨t, hi.trans ht, hret⟩

theorem gives_regImm {o : RegImm} {op : Nat → Nat → Nat → Nat} (R : Word → Word → Word) (hi : exec i s = regImm o op s)
    (hop : ∀ a b : Word, op 32 a.toNat b.toNat = (R a b).toNat)
    (ha : Acting s c g fs ⟨[.dest o.d 1, .source o.a 1 o.fa], [], false, .own⟩) :
    Gives i s c g fs o.d fun f => [R (g.word f o.a) (o.i.signExtend 32)] :=
  gives_of_lanes ha hi rfl rfl fun f =>
    (congrArg (outWords false) (hop (g.word f o.a) (o.i.signExtend 32))).trans (outWords_false_toNat _)

theorem gives_unary {o : Rr} {op : Nat → Nat → Nat} (R : ∀ w : Nat, BitVec w → BitVec w) (hi : exec i s = unary o op s)
    (hop : ∀ (w : Nat) (a : BitVec w), op w a.toNat = (R w a).toNat) (ha : Acting s c g fs (formRr o)) :
    Gives i s c g fs o.d fun f => atWidth o.x (R 32 (g.word f o.a)) (R 64 (g.dword f o.a)) :=
  gives_of_lanes ha hi rfl rfl fun f => outWords_eq_atWidth
    (fun hx => by rw [hx]; exact hop 32 (g.word f o.a)) (fun hx => by rw [hx]; exact hop 64 (g.dword f o.a))

theorem gives_rrr32 {o : Rrr} {op : Bool → Nat → Nat → Nat} (R : Bool → Word → Word → Word) (hi : exec i s = rrr32 o op s)
    (hop : ∀ (x : Bool) (a b : Word), op x a.toNat b.toNat = (R x a b).toNat) (ha : Acting s c g fs (formRrr 1 o)) :
    Gives i s c g fs o.d fun f => [R o.x (g.word f o.a) (g.word f o.b)] :=
  gives_of_lanes ha hi rfl rfl fun f =>
    (congrArg (outWords false) (hop o.x (g.word f o.a) (g.word f o.b))).trans (outWords_false_toNat _)

end

/-- Settles O11: each immediate form is one operation on words, and MOVHI joins two halves. -/
theorem immediateForms : Obligations.ImmediateForms := by
  intro s c g fs
  refine ⟨fun o ha => ?_, fun i d ha => ?_, fun i d ha => ?_⟩
  · exact ⟨gives_regImm (· + ·) rfl opAdd_toNat ha, gives_regImm (· &&& ·) rfl opAnd_toNat ha,
      gives_regImm (· ||| ·) rfl opOr_toNat ha, gives_regImm (· ^^^ ·) rfl opXor_toNat ha⟩
  · exact ⟨gives_of_lanes ha rfl rfl rfl fun _ => rfl, signExtend_imm17_range i⟩
  · exact gives_of_lanes ha rfl rfl rfl fun f => congrArg (fun w : Word => [w]) (append_low_half i (g.word f d))

/-- Settles O12: the single-source functions hold at every width; BFX is a shift and a mask with the field's sign; LEA is a sum at
64 bits. -/
theorem singleSourceExtractAndAddressSum : Obligations.SingleSourceExtractAndAddressSum := by
  refine ⟨fun o s c g fs ha => ⟨?mov, ?abs, ?clz, ?popc, ?brev⟩, fun o s c g fs => ⟨fun ha => ?bfx, fun ha => ?lea⟩⟩
  case mov => exact gives_unary (op := fun _ a => a) (fun _ a => a) rfl (fun _ _ => rfl) ha
  case abs => exact gives_unary (fun _ a => if a.msb then -a else a) rfl (fun _ => opAbs_toNat) ha
  case clz =>
    exact gives_unary (fun w a => BitVec.ofNat w (if a = 0 then w else w - 1 - Nat.log2 a.toNat)) rfl (fun _ => opClz_toNat) ha
  case popc =>
    exact gives_unary (fun w a => BitVec.ofNat w ((List.range w).countP fun i => a.getLsbD i)) rfl (fun _ => popcount_toNat) ha
  case brev => exact gives_unary (fun _ a => a.reverse) rfl (fun _ => bitrev_toNat) ha
  case bfx => exact gives_rrr32 _ rfl opBfx_toNat ha
  case lea =>
    refine gives_of_lanes ha rfl rfl rfl fun f => ?_
    dsimp only
    rw [Group.num_true, zeroExtend_or_signExtend_toNat, opAdd_toNat, outWords_true_toNat]

/-! Control transfer (spec/04, R98 to R103). -/

/-- A lane that only transfers control goes on at its target, or at the next unit. -/
theorem LaneRes.finish_target (t : Option Word) (c : Cur) (f : Fibre) :
    ({ target := t } : LaneRes).finish c f = f.goesOn (t.getD c.next) := by
  simp [LaneRes.finish, Fibre.goesOn]

/-- What CALL does in one lane: where it is taken, LINK is the next unit (spec/04, R100). -/
def Jump.callRes (o : Jump) (c : Cur) (f : Fibre) : LaneRes :=
  if Jump.taken o f then { target := some (c.jump o.off), upd := fun f => { f with link := c.next } } else {}

theorem Jump.callRes_finish (o : Jump) (c : Cur) (f : Fibre) :
    (Jump.callRes o c f).finish c f = if Jump.taken o f then { f with link := c.next }.goesOn (c.jump o.off) else f.goesOn c.next := by
  unfold Jump.callRes
  split
  · simp [LaneRes.finish, Fibre.goesOn]
  · exact LaneRes.finish_target none c f

section
variable {s : State} {c : Cur} {g : Group} {fs : List Fibre}

theorem br_changes {o : Jump} (ha : Acting s c g fs ⟨[], [o.p], false, .own⟩) :
    Changes (.br o) s c g fs fun f => f.goesOn (if Jump.taken o f then c.jump o.off else c.next) := by
  refine changes_of (fun f => { target := if Jump.taken o f then some (c.jump o.off) else none }) rfl ha rfl (fun _ => ⟨rfl, rfl, rfl⟩)
    rfl rfl (fun _ _ => rfl) fun f _ => ⟨?_, rfl⟩
  rw [LaneRes.finish_target]
  cases Jump.taken o f <;> rfl

theorem call_changes {o : Jump} (ha : Acting s c g fs ⟨[], [o.p], false, .own⟩) :
    Changes (.call o) s c g fs fun f =>
      if Jump.taken o f then { f with link := c.next }.goesOn (c.jump o.off) else f.goesOn c.next := by
  refine changes_of (Jump.callRes o c) rfl ha rfl (fun f => ?_) rfl ?_ (fun f y => ?_) fun f _ => ⟨Jump.callRes_finish o c f, ?_⟩
  · unfold Jump.callRes
    split <;> exact ⟨rfl, rfl, rfl⟩
  · refine List.map_congr_left fun f _ => ?_
    unfold Jump.callRes
    split <;> rfl
  · unfold Jump.callRes
    split <;> rfl
  · split <;> rfl

theorem ret_changes (ha : Acting s c g fs ⟨[], [], false, .own⟩) : Changes .ret s c g fs fun f => f.goesOn f.link :=
  changes_of (fun f => { target := some f.link }) rfl ha rfl (fun _ => ⟨rfl, rfl, rfl⟩) rfl rfl (fun _ _ => rfl)
    fun f _ => ⟨LaneRes.finish_target _ c f, rfl⟩

theorem nop_changes (ha : Acting s c g fs ⟨[], [], false, .own⟩) : Changes .nop s c g fs fun f => f.goesOn c.next :=
  changes_of (fun _ => {}) rfl ha rfl (fun _ => ⟨rfl, rfl, rfl⟩) rfl rfl (fun _ _ => rfl)
    fun f _ => ⟨LaneRes.finish_target none c f, rfl⟩

/-- A scalar destination to which every lane writes the same words. -/
theorem Group.scalarOf_const {fm : Form} {o : Operand} (hd : fm.dst = some o) (hne : fs ≠ []) (ws : List Word) (t : Fibre → Word) :
    g.scalarOf fm fs (fun f => { words := ws, target := some (t f) }) = g.writeScalar o.reg ws := by
  rw [Group.scalarOf_words hd g fs _ (fun _ => rfl) (fun _ => rfl) fun _ => rfl]
  obtain ⟨f, l, rfl⟩ := List.exists_cons_of_ne_nil hne
  rfl

/-- The form of JR, and its target in one lane (spec/04, R102). -/
abbrev formJr (o : RegImm) : Form := ⟨[.dest o.d 1, .source o.a 1 o.fa], [], false, .own⟩
abbrev jrTarget (o : RegImm) (g : Group) (f : Fibre) : Word := g.word f o.a + (o.i.signExtend 32 <<< 1)

theorem jr_does {o : RegImm} (ha : Acting s c g fs (formJr o)) (heven : ∀ f ∈ fs, (jrTarget o g f).getLsbD 0 = false) :
    Does (.jr o) s s c g (g.writeScalar o.d [c.next]) fs fun f => (f.writeReg o.d [c.next]).goesOn (jrTarget o g f) := by
  obtain ⟨-, -, -, -, hne, -⟩ := ha.1
  have hscalar : g.scalarOf (formJr o) fs (fun f => { words := [c.next], target := some (jrTarget o g f) }) =
      g.writeScalar o.d [c.next] := Group.scalarOf_const (o := .dest o.d 1) rfl hne _ _
  refine ⟨_, rfl, hscalar ▸ State.issue_each ha rfl _ _ rfl (List.map_congr_left fun f hf => ?_) (fun _ _ => rfl)
    fun f _ => ⟨?_, rfl⟩⟩
  · simp only [heven f hf, Bool.false_eq_true, if_false]
  · rw [LaneRes.after_words (o := .dest o.d 1) rfl c f _ rfl rfl rfl]
    exact LaneRes.finish_target _ c _

theorem jr_traps {o : RegImm} (ha : Acting s c g fs (formJr o)) (hodd : ∀ f ∈ fs, (jrTarget o g f).getLsbD 0 = true) :
    Traps (.jr o) s c g fs (fun f => ⟨.misaligned, (jrTarget o g f).zeroExtend 64⟩) fun _ => 0 := by
  refine State.issue_traps rfl ha.1 (State.sort_acting ha rfl) (List.map_congr_left fun f hf => ?_) fun _ => rfl
  simp only [hodd f hf, if_true, LaneOut.fail]

end

/-- Settles O24: each instruction says of every lane where it goes on; JR traps where the target is odd. -/
theorem controlTransfer : Obligations.ControlTransfer := fun _ _ _ _ =>
  ⟨fun _ ha => ⟨br_changes ha, call_changes ha⟩, fun ha => ⟨ret_changes ha, nop_changes ha⟩,
    fun _ ha => ⟨jr_does ha, jr_traps ha⟩⟩

end Sys2Proof.Machine
end
